-- ==== Sys2Proof/Word.lean ====
section
/-! DEFINITION. The word and byte types of the part and their plainest arithmetic (00_scope.md 4.3). -/

namespace Sys2Proof

/-- A byte of a trunk slot, a tag, a generation, a fill byte. -/
abbrev Byte := BitVec 8

/-- A 16-bit word, sent most significant bit first on every serial line (00_scope.md 4.3). -/
abbrev Word := BitVec 16

/-- Bits 15 to 8 of a word. -/
def Word.hi (w : Word) : Byte := BitVec.ofNat 8 (w.toNat / 256)

/-- Bits 7 to 0 of a word. -/
def Word.lo (w : Word) : Byte := BitVec.ofNat 8 w.toNat

/-- The word with the byte h in bits 15 to 8 and the byte l in bits 7 to 0. -/
def Word.ofBytes (h l : Byte) : Word := BitVec.ofNat 16 (h.toNat * 256 + l.toNat)

/-- A field of a word: its value moved up by its lowest bit's number. -/
def Word.field (value lowest : Nat) : Word := BitVec.ofNat 16 (value * 2 ^ lowest)

/-- A one-bit field as a number. -/
def bitNat (b : Bool) : Nat := if b then 1 else 0

end Sys2Proof
end

