-- ==== Sys2Proof/Syntax.lean ====
section
/-! DEFINITION. The commands of the part: one constructor for each row of spec/opcode_table.json, with the row's
operands. -/

namespace Sys2Proof

/-- A request link, L0 to L3 (00_scope.md 4.2). -/
inductive Link where
  | l0 | l1 | l2 | l3
deriving DecidableEq, Repr

/-- A frame reference, REFA or REFB (R169). -/
inductive Ref where
  | a | b
deriving DecidableEq, Repr

/-- A message as a Link Controller samples it while delimit is asserted (R121): its complete words, the bits of a
partial word after them, and whether its delimit was already asserted at the link's latest clock loss, change of
the enable bit or reset (log 13). -/
structure RxMessage where
  words       : List Word
  partialBits : List Bool
  spansDiscard : Bool
deriving DecidableEq, Repr

/-- The bytes received on the trunks during the frame that a frame start ends (R164): (64 t + s, byte) for T(t)
input slot s; a position not listed received FFH (log 8). -/
abbrev TrunkBytes := List Host.Cell

/-- The order in which the Link Controllers take a boundary, before or after the Cutover Controller, which R130
leaves open (log 10). -/
structure BoundaryOrder where
  before : List Link
  after  : List Link
deriving DecidableEq, Repr

/-- What comes with a frame start that may be a boundary. -/
structure FrameInput where
  received : TrunkBytes
  order    : BoundaryOrder
deriving DecidableEq, Repr

/-- The commands. Each constructor is the row of spec/opcode_table.json named beside it. -/
inductive Instr where
  /-- POWER_ON_RESET (R24): RESETn is asserted. -/
  | powerOnReset
  /-- SOFT_RESET (R163): a write of the word, with its soft reset field 1, to CONTROL. -/
  | softReset (w : Word)
  /-- CUTOVER_MODE (R45): a write of the word to CONTROL. -/
  | cutoverMode (w : Word)
  /-- SUPERVISOR_REPORTS_ENABLE (R162): a write of the word to CONTROL. -/
  | supervisorReportsEnable (w : Word)
  /-- PRIMARY_REFERENCE (R174): a write of the word to CONTROL. -/
  | primaryReference (w : Word)
  /-- REVERTIVE (R174): a write of the word to CONTROL. -/
  | revertive (w : Word)
  /-- LINK_ENABLE (R144): a write of the word to the first word of LINKCFGn. -/
  | linkEnable (n : Link) (w : Word)
  /-- LINK_RESET (R144): a write of the word, with its reset field 1, to the first word of LINKCFGn. -/
  | linkReset (n : Link) (w : Word)
  /-- REGISTER_WRITE (R189): a write of the word to a word address of the register window. -/
  | registerWrite (address : BitVec 7) (w : Word)
  /-- EVENTS_CLEAR (R179): a write of the word to EVENTS. -/
  | eventsClear (w : Word)
  /-- ENABLES_WRITE (R181): a write of the word to ENABLES. -/
  | enablesWrite (w : Word)
  /-- MAILBOX_HEADER_WRITE (R150): a write of the word to position 0 of the command window. -/
  | mailboxHeaderWrite (w : Word)
  /-- MAILBOX_BODY_WRITE (R151): a write of the word to a body position of the command window. -/
  | mailboxBodyWrite (position : Nat) (w : Word)
  /-- ACK (R154): a write to MBOXCTL with ACK 1 and ABORT 0. -/
  | ack
  /-- ABORT (R154): a write to MBOXCTL with ABORT 1 and ACK as given. -/
  | abort (withAck : Bool)
  /-- HELLO (R128): a message received on a link. -/
  | hello (n : Link) (m : RxMessage)
  /-- REQUEST_RECEIVED (R134): a message received on a link. -/
  | requestReceived (n : Link) (m : RxMessage)
  /-- DAMAGED_MESSAGE (R124): a message received on a link. -/
  | damagedMessage (n : Link) (m : RxMessage)
  /-- DAMAGE_LIMIT (R124): a message received on a link. -/
  | damageLimit (n : Link) (m : RxMessage)
  /-- SILENCE_LIMIT (R130): the boundary at which the silence count of the link reaches its limit. -/
  | silenceLimit (n : Link) (f : FrameInput)
  /-- CLOCK_LOSS (R131): no rising edge on LnICK for one frame period. -/
  | clockLoss (n : Link)
  /-- TRANSMITTER_TAKE (R140): the transmitter of the link takes its next message. -/
  | transmitterTake (n : Link)
  /-- TRANSMISSION_COMPLETE (R141): the message on the link's line has been sent. -/
  | transmissionComplete (n : Link)
  /-- CLAIM (R89): the engine takes a CLAIM. -/
  | claim
  /-- BRANCH (R92): the engine takes a BRANCH. -/
  | branch
  /-- RELEASE (R96): the engine takes a RELEASE. -/
  | release
  /-- RESHAPE (R100): the engine takes a RESHAPE. -/
  | reshape
  /-- SUSPEND (R105): the engine takes a SUSPEND. -/
  | suspend
  /-- RESUME (R106): the engine takes a RESUME. -/
  | resume
  /-- RENEW (R108): the engine takes a RENEW. -/
  | renew
  /-- ASK (R110): the engine takes an ASK. -/
  | ask
  /-- READ_CIRCUIT (R156): the engine takes a READ_CIRCUIT. -/
  | readCircuit
  /-- READ_SLOT (R157): the engine takes a READ_SLOT. -/
  | readSlot
  /-- READ_FREE (R158): the engine takes a READ_FREE. -/
  | readFree
  /-- TAKE_REPORT (R159): the engine takes a TAKE_REPORT. -/
  | takeReport
  /-- COMMIT (R160): the engine takes a COMMIT. -/
  | commit
  /-- RESET_LINK (R160): the engine takes a RESET_LINK. -/
  | resetLink
  /-- DROP (R77): the engine takes a DROP item. -/
  | drop
  /-- EXPIRE (R117): the engine takes an EXPIRE item. -/
  | expire
  /-- ORPHAN (R78): the engine takes an ORPHAN item. -/
  | orphan
  /-- FRAME_START (R175): a frame start that is neither a boundary nor a lease tick. -/
  | frameStart (received : TrunkBytes)
  /-- BOUNDARY (R36): the regular start of frame 0 of a cycle. -/
  | boundary (f : FrameInput)
  /-- LEASE_TICK (R113): the start of frame 8 of a cycle. -/
  | leaseTick (received : TrunkBytes)
  /-- LEASE_RUN_OUT (R114): the lease tick at which the lease of the record runs out. -/
  | leaseRunOut (id : Nat) (received : TrunkBytes)
  /-- COPY_COMPLETION (R31): the copy of the Map Store ends. -/
  | copyCompletion
  /-- REFERENCE_PULSE (R169): a pulse of the reference, so much time after the last timing event. -/
  | referencePulse (r : Ref) (elapsed : Nat) (f : FrameInput)
  /-- WINDOW_CLOSE (R172): the window of the reference closes with no pulse. -/
  | windowClose (r : Ref) (f : FrameInput)
  /-- REFERENCE_GOOD (R171): a pulse of the reference, so much time after the last timing event. -/
  | referenceGood (r : Ref) (elapsed : Nat) (f : FrameInput)
  /-- UNKNOWN_KIND (R80): the engine takes a command whose kind its source does not accept. -/
  | unknownKind
  /-- RESETN_RELEASE (R177): RESETn is released. -/
  | resetnRelease
  /-- CLOCK_RETURN (R131): the first rising edge on LnICK after a clock loss. -/
  | clockReturn (n : Link)
deriving DecidableEq, Repr

end Sys2Proof
end

