-- ==== Sys2Proof/Config.lean ====
section
/-! DEFINITION. What an implementation of the part fixes: the sizes the spec gives and the frame period. -/

namespace Sys2Proof.Config

/-- The frame period in the model's unit of time, one nanosecond of the internal oscillator: nominally 125 µs
(R169). DESIGN CHOICE, log 6. -/
def framePeriod : Nat := 125000

/-- One eighth of a frame period, the reach of a reference window on either side of the expected time (R169). -/
def windowReach : Nat := 15625

/-- The slots of one trunk side (00_scope.md 4.2). -/
def slots : Nat := 64

/-- The records of the Circuit Table (chapter 1). -/
def records : Nat := 256

/-- The entries of a bank and the positions of a half of the frame store: 8 trunks of 64 slots (R25, R164). -/
def positions : Nat := 512

/-- The most requests one link may have outstanding (R133). -/
def windowSize : Nat := 8

/-- The unreserved entries of an answer queue (R136). -/
def unreservedAnswers : Nat := 8

/-- The damage count that takes a link DOWN (R124). -/
def damageLimit : Nat := 8

/-- The most ids a branch list holds (R11). -/
def branchLimit : Nat := 3

/-- The largest body length of a message and of a command (R122, R150). -/
def maxBody : Nat := 20

/-- The pulses inside the window, counted from the one that starts a qualification, at which the count is full:
the next one makes the reference GOOD (R169). -/
def fullCount : Nat := 15

end Sys2Proof.Config
end

