-- ==== Sys2Proof/Machine/State.lean ====
section
/-! DEFINITION. The state of the part, block by block as 00_scope.md 2.2 lists them, and its value after reset. -/

namespace Sys2Proof.Machine

/-- Values by key, in one canonical form: keys strictly rising, no entry equal to the value that an unlisted key
reads as. -/
abbrev Sparse (α : Type) := List (Nat × α)

/-- An addressed buffer of bytes whose reset contents are FFH (R164). -/
abbrev Memory := List Host.Cell

/-! ### Circuit Table (chapter 1) -/

/-- PASS or FILL (R5). -/
inductive Treatment where
  | pass | fill
deriving DecidableEq, Repr

/-- A pair of a staged or live list with its retiring mark (R4). -/
structure Pair where
  src      : Nat
  dst      : Nat
  retiring : Bool
deriving DecidableEq, Repr

/-- The owner of a record (R13), and the requester of a request (R87). -/
inductive Owner where
  | link (n : Link)
  | supervisor
deriving DecidableEq, Repr

/-- The kind of a record, with the fields only that kind holds (R3): a TRUNK its branch list and open flag, a BRANCH
its parent. -/
inductive CircuitKind where
  | trunk (branches : List Nat) (isOpen : Bool)
  | branch (parent : Nat)
deriving DecidableEq, Repr

/-- The states of a record that is not FREE (R6). -/
inductive CircuitState where
  | pending | active | suspended | releasing | closed
deriving DecidableEq, Repr

/-- The pending change of a live record (R7). -/
inductive PendingChange where
  | suspend | resume | reshapeAdd | reshapeDrop
deriving DecidableEq, Repr

/-- Why a record was released (R8). -/
inductive CloseReason where
  | released | forced | expired | orphaned | parentGone
deriving DecidableEq, Repr

/-- The fields of a record that is not FREE (R3). -/
structure Circuit where
  state           : CircuitState
  owner           : Owner
  kind            : CircuitKind
  srcTrunk        : Nat
  dstTrunk        : Nat
  width           : Nat
  staged          : List Pair
  live            : List Pair
  stagedTreatment : Treatment
  liveTreatment   : Treatment
  fill            : Byte
  leaseLength     : Word
  leaseLeft       : Word
  pendingChange   : Option PendingChange
  closeReason     : Option CloseReason
  cutoverCycle    : Option Word
deriving DecidableEq, Repr

/-- A record: its generation, and its circuit unless it is FREE (R3). -/
structure Record where
  generation : Byte
  circuit    : Option Circuit
deriving DecidableEq, Repr

/-- The record as power-on reset leaves it: FREE with generation 0 (R24). -/
def Record.initial : Record := { generation := 0, circuit := none }

/-- The 256 records by id; an unlisted id is FREE with generation 0. -/
abbrev Table := Sparse Record

/-! ### Map Store (chapter 2) -/

/-- One entry of a bank (R25). -/
inductive Entry where
  | idle
  | pass (id srcTrunk srcSlot : Nat)
  | fill (id : Nat) (byte : Byte)
deriving DecidableEq, Repr

/-- The entries of a bank by 64 t + d; an unlisted entry is IDLE. -/
abbrev Bank := Sparse Entry

/-- Bank A or bank B (R27). -/
inductive BankName where
  | a | b
deriving DecidableEq, Repr

/-- SYNCED or COPYING (R30). -/
inductive BankState where
  | synced | copying
deriving DecidableEq, Repr

/-- The Map Store. -/
structure MapStore where
  bankA : Bank
  bankB : Bank
  live  : BankName
  state : BankState
deriving DecidableEq, Repr

/-! ### Cutover Controller (chapter 2) and Admission Engine (chapter 4) -/

/-- The Cutover Controller: the change list (R33), the COMMIT armed flag (R46) and the settle count (R38). -/
structure CutoverController where
  changeList : List Nat
  armed      : Bool
  settle     : Nat
deriving DecidableEq, Repr

/-- The kinds of follow-up item (R73). -/
inductive FollowKind where
  | drop | expire | orphan
deriving DecidableEq, Repr

/-- An item of the follow-up queue (R73). -/
structure FollowUp where
  kind : FollowKind
  id   : Nat
deriving DecidableEq, Repr

/-- The Admission Engine: the follow-up queue (R73) and the round-robin pointer (R70). -/
structure AdmissionEngine where
  followUps : List FollowUp
  pointer   : Link
deriving DecidableEq, Repr

/-! ### Link Controllers (chapter 7) -/

/-- The link states (R125). -/
inductive LinkState where
  | disabled | down | up
deriving DecidableEq, Repr

/-- The down reasons (R126). -/
inductive DownReason where
  | none | damage | silent | noClock | reset | disabled
deriving DecidableEq, Repr

/-- The last fault reasons (R126). -/
inductive FaultReason where
  | none | runt | long | check | notUp | flood
deriving DecidableEq, Repr

/-- KEEP or RELEASE (R143). -/
inductive Policy where
  | keep | release
deriving DecidableEq, Repr

/-- The result codes (R84). -/
inductive ResultCode where
  | ok | badKind | badArgument | unknownCircuit | notOwner | going | wrongState | changePending | hasBranches
  | branchLimit | linkDown | quota | noRecord | noRoom | noFit | slotTaken | busy | dupTag
deriving DecidableEq, Repr

/-- A request message in a request queue (R135). -/
structure Request where
  kind : Byte
  tag  : Byte
  body : List Word
deriving DecidableEq, Repr

/-- An answer in an answer queue, in a reserved or an unreserved entry (R136); `kind` is the request's kind. -/
structure Answer where
  kind     : Byte
  tag      : Byte
  code     : ResultCode
  body     : List Word
  reserved : Bool
deriving DecidableEq, Repr

/-- The message on a transmit line: its words, and the tag that its completion takes out of the window (R141). -/
structure Sending where
  words    : List Word
  frees    : Option Byte
deriving DecidableEq, Repr

/-- A Link Controller with its configuration word. -/
structure LinkController where
  state        : LinkState
  downReason   : DownReason
  lastFault    : FaultReason
  damage       : Nat
  silence      : Nat
  tags         : List Byte
  requests     : List Request
  answers      : List Answer
  reports      : List Nat
  helloOwed    : Bool
  line         : Option Sending
  clockArmed   : Bool
  rxVoid       : Bool
  enable       : Bool
  policy       : Policy
  quota        : Nat
  silenceLimit : Nat
deriving DecidableEq, Repr

/-- The four Link Controllers. -/
structure Links where
  l0 : LinkController
  l1 : LinkController
  l2 : LinkController
  l3 : LinkController
deriving DecidableEq, Repr

/-! ### Supervisor Port (chapter 8) -/

/-- The cutover mode (R45). -/
inductive CutoverMode where
  | auto | held
deriving DecidableEq, Repr

/-- The fields that CONTROL holds (R148). -/
structure Control where
  mode      : CutoverMode
  reports   : Bool
  primary   : Ref
  revertive : Bool
deriving DecidableEq, Repr

/-- The idle byte words, two trunks to a word (R166). -/
structure IdleWords where
  idle01 : Word
  idle23 : Word
  idle45 : Word
  idle67 : Word
deriving DecidableEq, Repr

/-- The mailbox states (R149). -/
inductive MailboxState where
  | idle | filling | queued | done
deriving DecidableEq, Repr

/-- The mailbox (R149): bit p of the written-mask marks body position p + 1; an unlisted window position holds
0000H. -/
structure Mailbox where
  state    : MailboxState
  declared : Nat
  mask     : BitVec 20
  command  : Sparse Word
  result   : Sparse Word
deriving DecidableEq, Repr

/-! ### Switch Core and Timing Unit (chapter 9), Event Unit (chapter 10) -/

/-- Half 0 or half 1 of the frame store (R164). -/
inductive Half where
  | half0 | half1
deriving DecidableEq, Repr

/-- What a frame start fixes for the output slots of its frame: the live entries and the idle bytes (R165). -/
structure Selection where
  entries : Bank
  idle    : IdleWords
deriving DecidableEq, Repr

/-- The Switch Core: positions by 64 t + s, an unlisted position holds FFH. -/
structure SwitchCore where
  half0     : Memory
  half1     : Memory
  writeHalf : Half
  selection : Selection
deriving DecidableEq, Repr

/-- A reference state, with the qualification count and the expected time where it holds them (R169). -/
inductive RefState where
  | absent
  | qualifying (count : Nat) (expected : Nat)
  | good (expected : Nat)
deriving DecidableEq, Repr

/-- The timing states (R170). -/
inductive TimingState where
  | freeRun | lockedA | lockedB | holdover
deriving DecidableEq, Repr

/-- The Timing Unit. `time` is the time of the last timing event, `frameStart` that of the last frame start and
`ownStart` that of the last one made at the Timing Unit's own timing, in nanoseconds of the internal oscillator since
the release of RESETn (log 6). -/
structure TimingUnit where
  state        : TimingState
  alignPending : Bool
  refA         : RefState
  refB         : RefState
  frame        : Nat
  cycle        : Word
  time         : Nat
  frameStart   : Nat
  ownStart     : Nat
deriving DecidableEq, Repr

/-- The Event Unit: 16 latches and 16 enables, in the layout of EVENTS (R178, R181). -/
structure EventUnit where
  latches : BitVec 16
  enables : BitVec 16
deriving DecidableEq, Repr

/-- The state of the part, with the queue of the commands that wait. -/
structure State where
  pending       : List Instr
  resetAsserted : Bool
  table         : Table
  maps          : MapStore
  cutover       : CutoverController
  engine        : AdmissionEngine
  links         : Links
  control       : Control
  idle          : IdleWords
  mailbox       : Mailbox
  supQueue      : List Nat
  switch        : SwitchCore
  timing        : TimingUnit
  events        : EventUnit
deriving DecidableEq, Repr

/-- The part has no fault: no command ends in one. -/
inductive Fault where
deriving DecidableEq, Repr

/-- The reasons to refuse a command. -/
inductive Refusal where
  /-- Raised by `exec` for a row that has no meaning yet; safe, and raised by no row. -/
  | notModelled (mnemonic : String)
deriving DecidableEq, Repr

/-- A Link Controller after power-on reset (R146); `clockArmed` by log 12, `rxVoid` by log 13. -/
def LinkController.initial : LinkController :=
  { state := .down, downReason := .none, lastFault := .none, damage := 0, silence := 0, tags := [], requests := [],
    answers := [], reports := [], helloOwed := false, line := none, clockArmed := true, rxVoid := true,
    enable := true, policy := .keep, quota := 64, silenceLimit := 32 }

/-- The idle byte words after power-on reset: FFH for every trunk (R166). -/
def IdleWords.initial : IdleWords := { idle01 := 0xFFFF, idle23 := 0xFFFF, idle45 := 0xFFFF, idle67 := 0xFFFF }

/-- The mailbox after either reset (R149). -/
def Mailbox.initial : Mailbox := { state := .idle, declared := 0, mask := 0, command := [], result := [] }

/-- The Map Store after either reset (R47). -/
def MapStore.initial : MapStore := { bankA := [], bankB := [], live := .a, state := .synced }

/-- The Cutover Controller after either reset (R47). -/
def CutoverController.initial : CutoverController := { changeList := [], armed := false, settle := 0 }

/-- The Admission Engine after either reset (R72). -/
def AdmissionEngine.initial : AdmissionEngine := { followUps := [], pointer := .l0 }

/-- The Switch Core after power-on reset, in its first frame (R164, R167, R177). -/
def SwitchCore.initial : SwitchCore :=
  { half0 := [], half1 := [], writeHalf := .half0, selection := { entries := [], idle := IdleWords.initial } }

/-- The Timing Unit after power-on reset (R177). -/
def TimingUnit.initial : TimingUnit :=
  { state := .freeRun, alignPending := false, refA := .absent, refB := .absent, frame := 0, cycle := 0, time := 0,
    frameStart := 0, ownStart := 0 }

/-- The part right after reset, RESETn released and in frame 0 of cycle 0000H (R24, R47, R72, R146, R148, R149, R177,
R183; log 5). -/
def State.reset : State :=
  { pending := [], resetAsserted := false, table := [], maps := MapStore.initial,
    cutover := CutoverController.initial, engine := AdmissionEngine.initial,
    links := { l0 := LinkController.initial, l1 := LinkController.initial, l2 := LinkController.initial,
               l3 := LinkController.initial },
    control := { mode := .auto, reports := false, primary := .a, revertive := false },
    idle := IdleWords.initial, mailbox := Mailbox.initial, supQueue := [], switch := SwitchCore.initial,
    timing := TimingUnit.initial, events := { latches := 0, enables := 0 } }

/-! ### Updates of one field -/

/-- The state with `pending` replaced. -/
def State.withPending (s : State) (x : List Instr) : State := { s with pending := x }

/-- The state with `resetAsserted` replaced. -/
def State.withResetAsserted (s : State) (x : Bool) : State := { s with resetAsserted := x }

/-- The state with `table` replaced. -/
def State.withTable (s : State) (x : Table) : State := { s with table := x }

/-- The state with `maps` replaced. -/
def State.withMaps (s : State) (x : MapStore) : State := { s with maps := x }

/-- The state with `cutover` replaced. -/
def State.withCutover (s : State) (x : CutoverController) : State := { s with cutover := x }

/-- The state with `engine` replaced. -/
def State.withEngine (s : State) (x : AdmissionEngine) : State := { s with engine := x }

/-- The state with `links` replaced. -/
def State.withLinks (s : State) (x : Links) : State := { s with links := x }

/-- The state with `control` replaced. -/
def State.withControl (s : State) (x : Control) : State := { s with control := x }

/-- The state with `idle` replaced. -/
def State.withIdle (s : State) (x : IdleWords) : State := { s with idle := x }

/-- The state with `mailbox` replaced. -/
def State.withMailbox (s : State) (x : Mailbox) : State := { s with mailbox := x }

/-- The state with `supQueue` replaced. -/
def State.withSupQueue (s : State) (x : List Nat) : State := { s with supQueue := x }

/-- The state with `switch` replaced. -/
def State.withSwitch (s : State) (x : SwitchCore) : State := { s with switch := x }

/-- The state with `timing` replaced. -/
def State.withTiming (s : State) (x : TimingUnit) : State := { s with timing := x }

/-- The state with `events` replaced. -/
def State.withEvents (s : State) (x : EventUnit) : State := { s with events := x }

/-- The Link Controller of a link. -/
def Links.get (ls : Links) : Link → LinkController
  | .l0 => ls.l0
  | .l1 => ls.l1
  | .l2 => ls.l2
  | .l3 => ls.l3

/-- The Link Controllers with that of one link replaced. -/
def Links.set (ls : Links) (n : Link) (c : LinkController) : Links :=
  match n with
  | .l0 => { ls with l0 := c }
  | .l1 => { ls with l1 := c }
  | .l2 => { ls with l2 := c }
  | .l3 => { ls with l3 := c }

/-- The Link Controller of link n. -/
def State.link (s : State) (n : Link) : LinkController := s.links.get n

/-- The state with the Link Controller of link n replaced. -/
def State.withLink (s : State) (n : Link) (c : LinkController) : State := s.withLinks (s.links.set n c)

end Sys2Proof.Machine
end

