-- ==== Sys2Proof/Machine/Flags.lean ====
section
/-! DEFINITION. The event latches, their enables and IRQ (chapter 10). -/

namespace Sys2Proof.Machine

/-- The event latches (R178). -/
inductive Event where
  | cutover | deferred | timing
  | linkState (n : Link)
  | linkFault (n : Link)
  | mboxDone | mboxRefused | expiry | noRecord | supReport
deriving DecidableEq, Repr

/-- The number of a link, 0 to 3 (00_scope.md 4.2). -/
def linkNumber : Link → Nat
  | .l0 => 0
  | .l1 => 1
  | .l2 => 2
  | .l3 => 3

/-- The bit of a latch in EVENTS and of its enable in ENABLES (12_formats_and_register_window.md 12.7). -/
def eventBit : Event → Nat
  | .cutover => 0
  | .deferred => 1
  | .timing => 2
  | .linkState n => 3 + linkNumber n
  | .linkFault n => 7 + linkNumber n
  | .mboxDone => 11
  | .mboxRefused => 12
  | .expiry => 13
  | .noRecord => 14
  | .supReport => 15

/-- The EVENTS word in which one latch alone is SET. -/
def eventMask (e : Event) : BitVec 16 := BitVec.ofNat 16 (2 ^ eventBit e)

/-- The latch is SET (R178). -/
def EventUnit.isSet (u : EventUnit) (e : Event) : Bool := u.latches.getLsbD (eventBit e)

/-- A latch becomes SET in the event of its cause, whatever its enable holds (R178). -/
def State.raise (e : Event) (s : State) : State :=
  s.withEvents { s.events with latches := s.events.latches ||| eventMask e }

/-- A write to EVENTS clears each latch whose bit is written 1 and sets none (R179). -/
def State.clearEvents (w : Word) (s : State) : State :=
  s.withEvents { s.events with latches := s.events.latches &&& ~~~w }

/-- A write to ENABLES stores the 16 enables (R181). -/
def State.storeEnables (w : Word) (s : State) : State := s.withEvents { s.events with enables := w }

/-- IRQ is asserted while a latch is SET with its enable 1, and not while RESETn is asserted (R182). -/
def State.irq (s : State) : Bool := !s.resetAsserted && (s.events.latches &&& s.events.enables) != 0

end Sys2Proof.Machine
end

