-- ==== Sys2Proof/Machine/Ops.lean ====
section
/-! DEFINITION. The named operations over the sparse buffers, the records, the banks, the report queues, the
follow-up queue and the link states that the commands share. -/

namespace Sys2Proof.Machine

/-! ### Sparse buffers -/

/-- The value at a key; an unlisted key reads as the default. -/
def Sparse.read {α : Type} (dflt : α) : Sparse α → Nat → α
  | [], _ => dflt
  | (k', v) :: rest, k => if k = k' then v else Sparse.read dflt rest k

/-- The buffer with the value at one key replaced, in canonical form again. -/
def Sparse.write {α : Type} [DecidableEq α] (dflt : α) : Sparse α → Nat → α → Sparse α
  | [], k, v => if v = dflt then [] else [(k, v)]
  | (k', v') :: rest, k, v =>
    if k < k' then (if v = dflt then (k', v') :: rest else (k, v) :: (k', v') :: rest)
    else if k = k' then (if v = dflt then rest else (k, v) :: rest)
    else (k', v') :: Sparse.write dflt rest k v

/-- The canonical form: keys strictly rising, and no entry holds the default. -/
def Sparse.wf {α : Type} [DecidableEq α] (dflt : α) : Sparse α → Bool
  | [] => true
  | (k, v) :: rest => v ≠ dflt && rest.all (fun e => k < e.1) && Sparse.wf dflt rest

/-- A byte of a half of the frame store (R164). -/
def Memory.read (m : Memory) (k : Nat) : Byte := Sparse.read 0xFF m k

/-- A half of the frame store with one byte replaced. -/
def Memory.write (m : Memory) (k : Nat) (v : Byte) : Memory := Sparse.write 0xFF m k v

/-- The canonical form of a half of the frame store. -/
def Memory.wf (m : Memory) : Bool := Sparse.wf (0xFF : Byte) m

/-- The key of slot s of trunk t in a bank or a half: 64 t + s. -/
def slotKey (trunk slot : Nat) : Nat := trunk * Config.slots + slot

/-! ### Circuit Table -/

/-- The record of an id (R3). -/
def State.record (s : State) (id : Nat) : Record := Sparse.read Record.initial s.table id

/-- The circuit of an id, none when its record is FREE. -/
def State.circuit (s : State) (id : Nat) : Option Circuit := (s.record id).circuit

/-- The state with the record of an id replaced. -/
def State.setRecord (id : Nat) (r : Record) (s : State) : State :=
  s.withTable (Sparse.write Record.initial s.table id r)

/-- The state with the circuit of an id replaced, its generation held (R2). -/
def State.setCircuit (id : Nat) (c : Circuit) (s : State) : State :=
  s.setRecord id { generation := (s.record id).generation, circuit := some c }

/-- The ids, in ascending order, of the records that are not FREE and meet a test. -/
def State.idsWhere (test : Circuit → Bool) (s : State) : List Nat :=
  s.table.filterMap fun e =>
    match e.2.circuit with
    | some c => if test c then some e.1 else none
    | none => none

/-- The number of records that are not FREE (R23). -/
def State.inUse (s : State) : Nat := (s.idsWhere fun _ => true).length

/-- The owned count of a link (R23). -/
def State.ownedCount (s : State) (n : Link) : Nat := (s.idsWhere fun c => c.owner == .link n).length

/-- The lowest-numbered FREE record (R15). -/
def State.lowestFree (s : State) : Option Nat :=
  (List.range Config.records).find? fun id => (s.circuit id).isNone

/-- The branch list of a circuit, empty for a BRANCH (R3). -/
def Circuit.branches (c : Circuit) : List Nat :=
  match c.kind with
  | .trunk branches _ => branches
  | .branch _ => []

/-- The circuit is of kind TRUNK. -/
def Circuit.isTrunk (c : Circuit) : Bool :=
  match c.kind with
  | .trunk _ _ => true
  | .branch _ => false

/-- The circuit is in PENDING, ACTIVE or SUSPENDED: a release has something to release. -/
def Circuit.isReleasable (c : Circuit) : Bool :=
  match c.state with
  | .pending => true
  | .active => true
  | .suspended => true
  | .releasing => false
  | .closed => false

/-- The state with the branch list of a TRUNK record changed; any other record is left as it stands. -/
def State.updateBranches (parent : Nat) (f : List Nat → List Nat) (s : State) : State :=
  match s.circuit parent with
  | some c =>
    match c.kind with
    | .trunk branches isOpen => s.setCircuit parent { c with kind := .trunk (f branches) isOpen }
    | .branch _ => s
  | none => s

/-- A branch's id leaves its parent's branch list, if it still stands there (R11). -/
def State.leaveParent (id : Nat) (c : Circuit) (s : State) : State :=
  match c.kind with
  | .branch parent => s.updateBranches parent (fun branches => branches.filter (· ≠ id))
  | .trunk _ _ => s

/-! ### Free sets (R49) -/

/-- Output slot d of trunk t is the destination of a staged pair. -/
def State.outputUsed (s : State) (t d : Nat) : Bool :=
  s.table.any fun e =>
    match e.2.circuit with
    | some c => c.dstTrunk == t && c.staged.any (fun p => p.dst == d)
    | none => false

/-- Input slot i of trunk t is the source of a staged pair of a TRUNK circuit. -/
def State.inputUsed (s : State) (t i : Nat) : Bool :=
  s.table.any fun e =>
    match e.2.circuit with
    | some c => c.isTrunk && c.srcTrunk == t && c.staged.any (fun p => p.src == i)
    | none => false

/-- The output free set of a trunk, ascending. -/
def State.freeOutputs (s : State) (t : Nat) : List Nat :=
  (List.range Config.slots).filter fun d => !s.outputUsed t d

/-- The input free set of a trunk, ascending. -/
def State.freeInputs (s : State) (t : Nat) : List Nat :=
  (List.range Config.slots).filter fun i => !s.inputUsed t i

/-! ### Map Store -/

/-- The bank that a name names. -/
def MapStore.bank (m : MapStore) : BankName → Bank
  | .a => m.bankA
  | .b => m.bankB

/-- The other bank's name. -/
def otherBank : BankName → BankName
  | .a => .b
  | .b => .a

/-- The live bank (R27). -/
def MapStore.liveBank (m : MapStore) : Bank := m.bank m.live

/-- The staged bank (R27). -/
def MapStore.stagedBank (m : MapStore) : Bank := m.bank (otherBank m.live)

/-- The Map Store with its staged bank replaced. -/
def MapStore.setStaged (m : MapStore) (b : Bank) : MapStore :=
  match m.live with
  | .a => { m with bankB := b }
  | .b => { m with bankA := b }

/-- An edit batch: the staged entries an admission changes (R28). -/
abbrev EditBatch := List (Nat × Entry)

/-- A bank with an edit batch taken. -/
def Bank.edit (b : Bank) (batch : EditBatch) : Bank :=
  batch.foldl (fun b e => Sparse.write Entry.idle b e.1 e.2) b

/-- The Map Store takes an edit batch into the staged bank (R28, R29). -/
def State.editStaged (batch : EditBatch) (s : State) : State :=
  s.withMaps (s.maps.setStaged (Bank.edit s.maps.stagedBank batch))

/-- The entry that describes a pair of a circuit under a treatment (R26). -/
def Circuit.entry (id : Nat) (c : Circuit) (t : Treatment) (p : Pair) : Entry :=
  match t with
  | .pass => .pass id c.srcTrunk p.src
  | .fill => .fill id c.fill

/-- The batch that makes the entries of some pairs of a circuit IDLE. -/
def Circuit.clearBatch (c : Circuit) (pairs : List Pair) : EditBatch :=
  pairs.map fun p => (slotKey c.dstTrunk p.dst, Entry.idle)

/-- The batch that makes entries describe some pairs of a circuit under its staged treatment. -/
def Circuit.describeBatch (id : Nat) (c : Circuit) (pairs : List Pair) : EditBatch :=
  pairs.map fun p => (slotKey c.dstTrunk p.dst, c.entry id c.stagedTreatment p)

/-! ### Change list and follow-up queue -/

/-- A list with an id at its end, unless it already stands there. -/
def appendOnce (ids : List Nat) (id : Nat) : List Nat := if id ∈ ids then ids else ids ++ [id]

/-- The id is placed on the change list, or keeps its place (R34). -/
def State.enlist (id : Nat) (s : State) : State :=
  s.withCutover { s.cutover with changeList := appendOnce s.cutover.changeList id }

/-- The id is taken off the change list; the ids behind it keep their order (R35). -/
def State.unlist (id : Nat) (s : State) : State :=
  s.withCutover { s.cutover with changeList := s.cutover.changeList.filter (· ≠ id) }

/-- The merge rule of the follow-up queue (R74). -/
def offerTo (queue : List FollowUp) (item : FollowUp) : List FollowUp :=
  match queue.find? (fun f => f.id == item.id) with
  | none => queue ++ [item]
  | some standing =>
    if standing.kind = .drop ∧ item.kind ≠ .drop then queue.map (fun f => if f.id = item.id then item else f)
    else queue

/-- An item is offered to the follow-up queue (R74). -/
def State.offer (kind : FollowKind) (id : Nat) (s : State) : State :=
  s.withEngine { s.engine with followUps := offerTo s.engine.followUps { kind := kind, id := id } }

/-- The item of a circuit is removed from the follow-up queue, wherever it stands (R75). -/
def State.removeFollowUp (id : Nat) (s : State) : State :=
  s.withEngine { s.engine with followUps := s.engine.followUps.filter (fun f => f.id ≠ id) }

/-! ### Report queues and the owner test -/

/-- The state with the Link Controller of a link changed. -/
def State.modifyLink (n : Link) (f : LinkController → LinkController) (s : State) : State :=
  s.withLink n (f (s.link n))

/-- The owner receives reports (R17). -/
def State.receives (s : State) (o : Owner) : Bool :=
  match o with
  | .link n => (s.link n).state == .up
  | .supervisor => s.control.reports

/-- An id is queued on its owner's report queue, if the owner receives reports and it does not already stand there
(R42, R86, R138, R161). The first id on an empty supervisor report queue raises SUP_REPORT (R161). -/
def State.queueReport (o : Owner) (id : Nat) (s : State) : State :=
  if s.receives o then
    match o with
    | .link n => s.modifyLink n fun c => { c with reports := appendOnce c.reports id }
    | .supervisor =>
      if s.supQueue = [] then (s.withSupQueue [id]).raise .supReport
      else s.withSupQueue (appendOnce s.supQueue id)
  else s

/-- An id is taken off every report queue (R21). -/
def State.dropReports (id : Nat) (s : State) : State :=
  let keep := fun ids : List Nat => ids.filter (· ≠ id)
  let strip := fun c : LinkController => { c with reports := keep c.reports }
  (s.withLinks { l0 := strip s.links.l0, l1 := strip s.links.l1, l2 := strip s.links.l2, l3 := strip s.links.l3 }
    ).withSupQueue (keep s.supQueue)

/-- A record becomes FREE: every field but the generation is removed, and its id stands on no queue and no list
(R21). -/
def State.freeRecord (id : Nat) (s : State) : State :=
  (((s.setRecord id { generation := (s.record id).generation, circuit := none }).dropReports id).removeFollowUp
    id).unlist id

/-- The owner test, made for a circuit left with neither staged nor live pairs (R17): CLOSED and reported, or FREE. -/
def State.ownerTest (id : Nat) (c : Circuit) (s : State) : State :=
  if s.receives c.owner then (s.setCircuit id { c with state := .closed }).queueReport c.owner id
  else s.freeRecord id

/-! ### Releases -/

/-- A release of a PENDING record (R95). -/
def State.releasePending (reason : CloseReason) (id : Nat) (c : Circuit) (s : State) : State :=
  ((((s.editStaged (c.clearBatch c.staged)).unlist id).removeFollowUp id).leaveParent id c).ownerTest id
    { c with staged := [], pendingChange := none, closeReason := some reason }

/-- A release of an ACTIVE or SUSPENDED record (R96). -/
def State.releaseLive (reason : CloseReason) (id : Nat) (c : Circuit) (s : State) : State :=
  ((((s.editStaged (c.clearBatch c.staged)).removeFollowUp id).setCircuit id
    { c with staged := [], pendingChange := none, closeReason := some reason, state := .releasing }).enlist
      id).queueReport c.owner id

/-- The release of one record for its own state; a record already RELEASING, CLOSED or FREE is left as it stands. -/
def State.releaseRecord (reason : CloseReason) (id : Nat) (s : State) : State :=
  match s.circuit id with
  | none => s
  | some c =>
    match c.state with
    | .pending => s.releasePending reason id c
    | .active => s.releaseLive reason id c
    | .suspended => s.releaseLive reason id c
    | .releasing => s
    | .closed => s

/-- The branches that a release of the record releases with it, in the order of its branch list (R97). -/
def State.cascadeOf (s : State) (id : Nat) : List Nat :=
  match s.circuit id with
  | none => []
  | some c => c.branches.filter fun b => (s.circuit b).any Circuit.isReleasable

/-- A release with its cascade: the record first, then its branches with reason PARENT_GONE (R95 to R97). -/
def State.releaseAll (reason : CloseReason) (id : Nat) (s : State) : State :=
  (s.cascadeOf id).foldl (fun s b => s.releaseRecord .parentGone b) (s.releaseRecord reason id)

/-! ### Link states -/

/-- Every record in a list becomes FREE, in the order of the list. -/
def State.freeAll (ids : List Nat) (s : State) : State := ids.foldl (fun s id => s.freeRecord id) s

/-- The ids of the CLOSED records of an owner. -/
def State.closedOf (s : State) (o : Owner) : List Nat :=
  s.idsWhere fun c => c.owner == o && c.state == .closed

/-- Under policy RELEASE an ORPHAN item is offered for each PENDING, ACTIVE or SUSPENDED record of the link, in
ascending order of id (R143). -/
def State.offerOrphans (n : Link) (s : State) : State :=
  match (s.link n).policy with
  | .keep => s
  | .release =>
    (s.idsWhere fun c => c.owner == .link n && c.isReleasable).foldl (fun s id => s.offer .orphan id) s

/-- What a departure from UP leaves in the Link Controller (R142): queues, window and counts empty, and the message
on the line sent to its end without touching the window (R141). -/
def LinkController.leave (c : LinkController) (target : LinkState) (reason : DownReason) : LinkController :=
  { c with
    state := target, downReason := reason, damage := 0, silence := 0, tags := [], requests := [], answers := [],
    reports := [], helloOwed := false, line := c.line.map fun m => { m with frees := none } }

/-- A link leaves UP (R142, R19, R143). -/
def State.leaveUp (n : Link) (target : LinkState) (reason : DownReason) (s : State) : State :=
  (((s.modifyLink n fun c => c.leave target reason).freeAll (s.closedOf (.link n))).offerOrphans n).raise (.linkState n)

/-- A link reset (R144). -/
def State.resetLink (n : Link) (s : State) : State :=
  match (s.link n).state with
  | .up => s.leaveUp n .down .reset
  | .down => ((s.modifyLink n fun c => { c with downReason := .reset }).offerOrphans n).raise (.linkState n)
  | .disabled => s

/-- While RESETn is asserted the part is held in reset: a command leaves the state as it is (log 5). -/
def State.whileRunning (s : State) (f : State → State) : State := if s.resetAsserted then s else f s

end Sys2Proof.Machine
end

