-- ==== Sys2Proof/Machine/Cutover.lean ====
section
/-! DEFINITION. The decision at a boundary, the cutover, the copy (chapter 2), the count of silence (R130) and the
lease tick (chapter 6). -/

namespace Sys2Proof.Machine

/-! ### The cutover -/

/-- The state and the pending change that a cutover gives a record (R41), with its live form and its cutover cycle
(R40). A RELEASING record is given its state by the owner test. -/
def Circuit.cutOver (cycle : Word) (c : Circuit) : Circuit :=
  let c : Circuit :=
    { c with live := c.staged, liveTreatment := c.stagedTreatment, cutoverCycle := some cycle }
  match c.state, c.pendingChange with
  | .pending, _ => { c with state := .active, pendingChange := none, leaseLeft := c.leaseLength }
  | .active, some .suspend => { c with state := .suspended, pendingChange := none }
  | .suspended, some .resume => { c with state := .active, pendingChange := none }
  | .active, some .reshapeAdd => { c with pendingChange := some .reshapeDrop }
  | .active, some .reshapeDrop => { c with pendingChange := none }
  | _, _ => c

/-- The branch-list effects of a RELEASING record at its cutover (R11, R41). -/
def Circuit.leaveTree (c : Circuit) : Circuit :=
  match c.kind with
  | .trunk _ isOpen => { c with kind := .trunk [] isOpen }
  | .branch _ => c

/-- The cutover applies one record of the change list (R40 to R43). -/
def State.applyRecord (id : Nat) (s : State) : State :=
  match s.circuit id with
  | none => s
  | some c =>
    let c' := c.cutOver s.timing.cycle
    if c.state = .releasing then (s.leaveParent id c).ownerTest id c'.leaveTree
    else
      let t := (s.setCircuit id c').queueReport c.owner id
      if c.state = .active ∧ c.pendingChange = some .reshapeAdd then t.offer .drop id else t

/-- A cutover: every listed record in list order, then the exchange of the banks (R39, R44). -/
def State.cutOver (s : State) : State :=
  let t := s.cutover.changeList.foldl (fun s id => s.applyRecord id) s
  ((t.withCutover { t.cutover with changeList := [], armed := false }).withMaps
    { t.maps with live := otherBank t.maps.live, state := .copying }).raise .cutover

/-- The conditions of a cutover at a boundary that is not stepped, with the settle count 0 (R36). -/
def State.mayCutOver (s : State) : Bool :=
  (s.control.mode == .auto || s.cutover.armed) && s.maps.state == .synced && !s.cutover.changeList.isEmpty

/-- A boundary without a cutover is DEFERRED when changes wait and plain otherwise (R37). -/
def State.defer (s : State) : State := if s.cutover.changeList = [] then s else s.raise .deferred

/-- The decision of the Cutover Controller at a boundary (R36 to R38). -/
def State.decideBoundary (stepped : Bool) (s : State) : State :=
  if stepped then (s.withCutover { s.cutover with settle := 2 }).defer
  else if 0 < s.cutover.settle then (s.withCutover { s.cutover with settle := s.cutover.settle - 1 }).defer
  else if s.mayCutOver then s.cutOver
  else s.defer

/-! ### The copy -/

/-- The copy completes: the staged bank holds what the live bank holds, and the bank is SYNCED (R31). In SYNCED no
copy is in progress and nothing happens (R30, log 3). -/
def State.completeCopy (s : State) : State :=
  match s.maps.state with
  | .synced => s
  | .copying => s.withMaps { s.maps.setStaged s.maps.liveBank with state := .synced }

/-- COPY_COMPLETION (R31). -/
def execCopyCompletion (s : State) : Host.Outcome State Fault Refusal := .next (s.whileRunning State.completeCopy)

/-! ### Silence -/

/-- The silence count would reach the limit at a boundary taken now (R130). -/
def State.silenceDue (s : State) (n : Link) : Bool :=
  (s.link n).state == .up && (s.link n).silenceLimit ≤ (s.link n).silence + 1

/-- A Link Controller takes a boundary (R130). -/
def State.countSilence (n : Link) (s : State) : State :=
  if s.silenceDue n then s.leaveUp n .down .silent
  else if (s.link n).state = .up then s.modifyLink n fun c => { c with silence := c.silence + 1 }
  else s

/-- The links in an order without repeats. -/
def dedupLinks : List Link → List Link
  | [] => []
  | n :: rest => n :: (dedupLinks rest).filter (· ≠ n)

/-- The Link Controllers that take a boundary before the Cutover Controller, each once (log 10). -/
def linksBefore (o : BoundaryOrder) : List Link := dedupLinks o.before

/-- The Link Controllers that take a boundary after the Cutover Controller: every other one, each once (log 10). -/
def linksAfter (o : BoundaryOrder) : List Link :=
  (dedupLinks (o.after ++ [.l0, .l1, .l2, .l3])).filter fun n => !(linksBefore o).contains n

/-- The Cutover Controller and the four Link Controllers take a boundary (R175, R130). -/
def State.takeBoundary (stepped : Bool) (o : BoundaryOrder) (s : State) : State :=
  let before := (linksBefore o).foldl (fun s n => s.countSilence n) s
  (linksAfter o).foldl (fun s n => s.countSilence n) (before.decideBoundary stepped)

/-! ### The lease tick -/

/-- The lease runs (R112). -/
def Circuit.leaseRuns (c : Circuit) : Bool :=
  (c.state == .active || c.state == .suspended) && c.leaseLength != 0

/-- The lease counted down at a tick (R113). -/
def Circuit.countLease (c : Circuit) : Circuit :=
  if c.leaseRuns ∧ c.leaseLeft ≠ 0 then { c with leaseLeft := c.leaseLeft - 1 } else c

/-- The lease runs out at a tick taken now (R113). -/
def Circuit.runsOut (c : Circuit) : Bool := c.leaseRuns && c.leaseLeft == 1

/-- The Circuit Table with every running lease counted down. -/
def countLeases (t : Table) : Table := t.map fun e => (e.1, { e.2 with circuit := e.2.circuit.map Circuit.countLease })

/-- The lease tick: every running lease is counted down, an EXPIRE item is offered for each that runs out, in
ascending order of id, and EXPIRY is raised once (R113, R114). -/
def State.takeLeaseTick (s : State) : State :=
  match s.idsWhere Circuit.runsOut with
  | [] => s.withTable (countLeases s.table)
  | out => (out.foldl (fun s id => s.offer .expire id) (s.withTable (countLeases s.table))).raise .expiry

end Sys2Proof.Machine
end

