-- ==== Sys2Proof/Machine/Operands.lean ====
section
/-! DEFINITION. The layouts of chapter 12: kinds, codes, request bodies, answer, report and HELLO bodies, the check
word, and the classes of received messages. -/

namespace Sys2Proof.Machine

/-! ### Kinds (12.1) -/

/-- The kinds that a request or command may have: the eight requests and the six supervisor-only commands. -/
inductive RequestKind where
  | claim | branch | release | reshape | suspend | resume | renew | ask
  | readCircuit | readSlot | readFree | takeReport | commit | resetLink
deriving DecidableEq, Repr

/-- The kinds a link accepts as requests (R132). -/
def linkKind (k : Byte) : Option RequestKind :=
  if k = 0x10 then some .claim
  else if k = 0x11 then some .branch
  else if k = 0x12 then some .release
  else if k = 0x13 then some .reshape
  else if k = 0x14 then some .suspend
  else if k = 0x15 then some .resume
  else if k = 0x16 then some .renew
  else if k = 0x17 then some .ask
  else none

/-- The kinds the mailbox accepts: those of a link and the supervisor-only commands (R80, R155). -/
def mailboxKind (k : Byte) : Option RequestKind :=
  if k = 0x20 then some .readCircuit
  else if k = 0x21 then some .readSlot
  else if k = 0x22 then some .readFree
  else if k = 0x23 then some .takeReport
  else if k = 0x24 then some .commit
  else if k = 0x25 then some .resetLink
  else linkKind k

/-- The kind as its source accepts it (R80). -/
def kindFrom (who : Owner) (k : Byte) : Option RequestKind :=
  match who with
  | .link _ => linkKind k
  | .supervisor => mailboxKind k

/-- The kind value of HELLO and of the HELLO reply. -/
def helloKind : Byte := 0x01

/-- The kind value of a report. -/
def reportKind : Byte := 0x40

/-- The kind of the answer to a request: the request's kind with bit 7 set (R186). -/
def answerKind (k : Byte) : Byte := k ||| 0x80

/-! ### Codes (12.2, 12.5) -/

/-- Result code values (12.5). -/
def ResultCode.value : ResultCode → Byte
  | .ok => 0x00
  | .badKind => 0x01
  | .badArgument => 0x02
  | .unknownCircuit => 0x03
  | .notOwner => 0x04
  | .going => 0x05
  | .wrongState => 0x06
  | .changePending => 0x07
  | .hasBranches => 0x08
  | .branchLimit => 0x09
  | .linkDown => 0x0A
  | .quota => 0x0B
  | .noRecord => 0x0C
  | .noRoom => 0x0D
  | .noFit => 0x0E
  | .slotTaken => 0x0F
  | .busy => 0x10
  | .dupTag => 0x11

/-- The placements (R54). -/
inductive Placement where
  | fixed | contiguous | spread | any
deriving DecidableEq, Repr

/-- Placement codes. -/
def placementOf (code : Nat) : Option Placement :=
  match code with
  | 0 => some .fixed
  | 1 => some .contiguous
  | 2 => some .spread
  | 3 => some .any
  | _ => none

/-- Open flag codes. -/
def openFlagOf (code : Nat) : Option Bool :=
  match code with
  | 0 => some false
  | 1 => some true
  | _ => none

/-- Link numbers. -/
def linkOf (code : Nat) : Option Link :=
  match code with
  | 0 => some .l0
  | 1 => some .l1
  | 2 => some .l2
  | 3 => some .l3
  | _ => none

/-- Owner codes. -/
def ownerOf (code : Nat) : Option Owner :=
  match code with
  | 4 => some .supervisor
  | n => (linkOf n).map Owner.link

/-- The code of an owner. -/
def Owner.code : Owner → Nat
  | .link n => linkNumber n
  | .supervisor => 4

/-- The code of a record state that is not FREE. -/
def CircuitState.code : CircuitState → Nat
  | .pending => 1
  | .active => 2
  | .suspended => 3
  | .releasing => 4
  | .closed => 5

/-- The code of a record's state, FREE included. -/
def stateCode (c : Option Circuit) : Nat :=
  match c with
  | none => 0
  | some c => c.state.code

/-- Pending change codes, none included. -/
def pendingCode : Option PendingChange → Nat
  | none => 0
  | some .suspend => 1
  | some .resume => 2
  | some .reshapeAdd => 3
  | some .reshapeDrop => 4

/-- Close reason codes, none included. -/
def reasonCode : Option CloseReason → Nat
  | none => 0
  | some .released => 1
  | some .forced => 2
  | some .expired => 3
  | some .orphaned => 4
  | some .parentGone => 5

/-- Treatment codes. -/
def Treatment.code : Treatment → Nat
  | .pass => 0
  | .fill => 1

/-- Bank codes. -/
def BankName.code : BankName → Nat
  | .a => 0
  | .b => 1

/-- Link state codes. -/
def LinkState.code : LinkState → Nat
  | .disabled => 0
  | .down => 1
  | .up => 2

/-- Down reason codes. -/
def DownReason.code : DownReason → Nat
  | .none => 0
  | .damage => 1
  | .silent => 2
  | .noClock => 3
  | .reset => 4
  | .disabled => 5

/-- Last fault reason codes. -/
def FaultReason.code : FaultReason → Nat
  | .none => 0
  | .runt => 1
  | .long => 2
  | .check => 3
  | .notUp => 4
  | .flood => 5

/-- Timing state codes. -/
def TimingState.code : TimingState → Nat
  | .freeRun => 0
  | .lockedA => 1
  | .lockedB => 2
  | .holdover => 3

/-- Mailbox state codes. -/
def MailboxState.code : MailboxState → Nat
  | .idle => 0
  | .filling => 1
  | .queued => 2
  | .done => 3

/-! ### Words of bodies -/

/-- Word i of a body, counted from 1 as chapter 12 counts them. -/
def bodyWord (body : List Word) (i : Nat) : Word := body.getD (i - 1) 0

/-- The upper byte of a body word as a number. -/
def bodyHi (body : List Word) (i : Nat) : Nat := (bodyWord body i).hi.toNat

/-- The lower byte of a body word as a number. -/
def bodyLo (body : List Word) (i : Nat) : Nat := (bodyWord body i).lo.toNat

/-- A circuit reference word: id in bits 15 to 8, generation in bits 7 to 0 (12.2). -/
def refWord (id : Nat) (generation : Byte) : Word := Word.ofBytes (BitVec.ofNat 8 id) generation

/-- A pair word: retiring mark in bit 15, source slot in bits 13 to 8, destination slot in bits 5 to 0 (12.2). -/
def pairWord (p : Pair) : Word :=
  Word.field (bitNat p.retiring) 15 + Word.field p.src 8 + Word.field p.dst 0

/-! ### Request bodies (12.3) and their checks at steps 1 and 2 (R80, R187, R54) -/

/-- The fields of a CLAIM; `owner` is none when the body has no owner word. -/
structure ClaimFields where
  srcTrunk     : Nat
  dstTrunk     : Nat
  width        : Nat
  srcPlacement : Placement
  dstPlacement : Placement
  isOpen       : Bool
  fill         : Byte
  lease        : Word
  fixed        : List Nat
  owner        : Option Owner
deriving DecidableEq, Repr

/-- The fields of a BRANCH; `owner` is none when the body has no owner word. -/
structure BranchFields where
  parent       : Nat
  generation   : Byte
  dstTrunk     : Nat
  dstPlacement : Placement
  fill         : Byte
  lease        : Word
  owner        : Option Owner
deriving DecidableEq, Repr

/-- A list is strictly ascending. -/
def strictlyAscending : List Nat → Bool
  | [] => true
  | a :: rest => rest.all (fun b => a < b) && strictlyAscending rest

/-- The slots of a FIXED list: two to a word from body word 5, the lower-listed one in bits 15 to 8. -/
def fixedSlots (body : List Word) (width : Nat) : List Nat :=
  ((body.drop 4).flatMap fun w => [w.hi.toNat, w.lo.toNat]).take width

/-- The owner word that a mailbox body may end with: absent, a defined owner, or an undefined code. -/
def ownerWord (who : Owner) (body : List Word) (plain : Nat) : Option (Option Owner) :=
  if body.length = plain then some none
  else if who = .supervisor ∧ body.length = plain + 1 then (ownerOf (bodyLo body (plain + 1))).map some
  else none

/-- The number of FIXED list words of a CLAIM (R187). -/
def fixedWords (width placementCode : Nat) : Nat := if placementCode = 0 then (width + 1) / 2 else 0

/-- A CLAIM body that passes steps 1 and 2, or none for BAD_ARGUMENT. -/
def parseClaim (who : Owner) (body : List Word) : Option ClaimFields :=
  let width := bodyHi body 2
  let srcCode := bodyLo body 2 / 16
  let plain := 4 + fixedWords width srcCode
  if body.length < 2 ∨ width = 0 ∨ 16 < width then none
  else
    match ownerWord who body plain, placementOf srcCode, placementOf (bodyLo body 2 % 16),
        openFlagOf (bodyHi body 3) with
    | some owner, some srcPlacement, some dstPlacement, some isOpen =>
      let fixed := if srcPlacement = .fixed then fixedSlots body width else []
      if 7 < bodyHi body 1 ∨ 7 < bodyLo body 1 ∨ dstPlacement = .fixed then none
      else if fixed.any (fun slot => 63 < slot) ∨ strictlyAscending fixed = false then none
      else
        some { srcTrunk := bodyHi body 1, dstTrunk := bodyLo body 1, width := width, srcPlacement := srcPlacement,
               dstPlacement := dstPlacement, isOpen := isOpen, fill := (bodyWord body 3).lo,
               lease := bodyWord body 4, fixed := fixed, owner := owner }
    | _, _, _, _ => none

/-- A destination placement: CONTIGUOUS, SPREAD or ANY (R54). -/
def destinationPlacement (code : Nat) : Option Placement :=
  match placementOf code with
  | some .fixed => none
  | p => p

/-- A BRANCH body that passes steps 1 and 2, or none for BAD_ARGUMENT. -/
def parseBranch (who : Owner) (body : List Word) : Option BranchFields :=
  match ownerWord who body 4, destinationPlacement (bodyLo body 2) with
  | some owner, some dstPlacement =>
    if 7 < bodyHi body 2 then none
    else
      some { parent := bodyHi body 1, generation := (bodyWord body 1).lo, dstTrunk := bodyHi body 2,
             dstPlacement := dstPlacement, fill := (bodyWord body 3).lo, lease := bodyWord body 4, owner := owner }
  | _, _ => none

/-- The new width and destination placement of a RESHAPE body that passes steps 1 and 2. -/
def parseReshape (body : List Word) : Option (Nat × Placement) :=
  if body.length ≠ 2 ∨ bodyHi body 2 = 0 ∨ 16 < bodyHi body 2 then none
  else (destinationPlacement (bodyLo body 2)).map fun p => (bodyHi body 2, p)

/-! ### The check word (R122) and the classes of received messages (R123) -/

/-- The bits of a word, most significant first. -/
def wordBits (w : Word) : List Bool := (List.range 16).map fun i => w.getMsbD i

/-- One bit of the check word's computation: the register is shifted toward its most significant end, and combined
with 1021H if the bit shifted out differs from the message bit. -/
def crcBit (r : Word) (bit : Bool) : Word :=
  if r.getMsbD 0 = bit then r <<< 1 else (r <<< 1) ^^^ 0x1021

/-- The check word of a header and body. -/
def crc16 (words : List Word) : Word := words.foldl (fun r w => (wordBits w).foldl crcBit r) 0xFFFF

/-- The classes of a message received while the link is not DISABLED (R123). -/
inductive MessageClass where
  | damaged (reason : FaultReason)
  | good
deriving DecidableEq, Repr

/-- The word made of sixteen bits, most significant first. -/
def bitsWord (bits : List Bool) : Word := bits.foldl (fun w b => w <<< 1 ||| BitVec.ofNat 16 (bitNat b)) 0

/-- The words and the partial word of the bits sampled while delimit is asserted (R121), with the bits of the word
in progress. -/
def splitBits : List Bool → List Bool → List Word × List Bool
  | [], partialBits => ([], partialBits)
  | b :: rest, partialBits =>
    let bits := partialBits ++ [b]
    if bits.length = 16 then
      let r := splitBits rest []
      (bitsWord bits :: r.1, r.2)
    else splitBits rest bits

/-- The message that a run of bits is (R121). -/
def messageOfBits (bits : List Bool) : RxMessage :=
  let r := splitBits bits []
  { words := r.1, partialBits := r.2, spansDiscard := false }

/-- The count of words, a partial word counted as a word (R123). -/
def messageCount (m : RxMessage) : Nat := m.words.length + bitNat (!m.partialBits.isEmpty)

/-- The declared body length, from word 0 (R122). -/
def declaredLength (m : RxMessage) : Nat := (m.words.getD 0 0).lo.toNat

/-- The class of a message, by the first row of R123's table that applies. -/
def classify (m : RxMessage) : MessageClass :=
  if messageCount m < 2 then .damaged .runt
  else if Config.maxBody < declaredLength m then .damaged .long
  else if messageCount m < declaredLength m + 3 then .damaged .runt
  else if declaredLength m + 3 < messageCount m then .damaged .long
  else if m.partialBits ≠ [] then .damaged .runt
  else if m.words.getLast? ≠ some (crc16 m.words.dropLast) then .damaged .check
  else .good

/-- The kind of a received message. -/
def messageKind (m : RxMessage) : Byte := (m.words.getD 0 0).hi

/-- The tag of a received message. -/
def messageTag (m : RxMessage) : Byte := (m.words.getD 1 0).hi

/-- The body of a good message: the words between word 1 and the check word. -/
def messageBody (m : RxMessage) : List Word := (m.words.drop 2).dropLast

/-! ### Messages the part builds (R186, 12.4) -/

/-- A message: header, tag and result, body, check word. -/
def buildMessage (kind tag result : Byte) (body : List Word) : List Word :=
  let front := Word.ofBytes kind (BitVec.ofNat 8 body.length) :: Word.ofBytes tag result :: body
  front ++ [crc16 front]

/-- The message of an answer (R122). -/
def Answer.message (a : Answer) : List Word := buildMessage (answerKind a.kind) a.tag a.code.value a.body

/-- The id stands on its owner's report queue: report owed (chapter 1, 1.8). -/
def State.reportOwed (s : State) (o : Owner) (id : Nat) : Bool :=
  match o with
  | .link n => (s.link n).reports.contains id
  | .supervisor => s.supQueue.contains id

/-- The summary of a record (R110, R156, 12.4). -/
def State.summary (s : State) (id : Nat) : List Word :=
  match s.circuit id with
  | none => [refWord id (s.record id).generation, 0, 0, 0]
  | some c =>
    [ refWord id (s.record id).generation,
      Word.field c.state.code 13 + Word.field (pendingCode c.pendingChange) 10 + Word.field (bitNat !c.isTrunk) 9 +
        Word.field c.owner.code 6 + Word.field (reasonCode c.closeReason) 3 +
        Word.field (bitNat (s.cutover.changeList.contains id)) 2 +
        Word.field (bitNat (s.engine.followUps.any fun f => f.id == id)) 1 +
        Word.field (bitNat (s.reportOwed c.owner id)) 0,
      Word.field c.width 11 + Word.field c.live.length 5 + Word.field c.liveTreatment.code 4 +
        Word.field c.stagedTreatment.code 3,
      c.leaseLeft ]

/-- The report body of a record, built from the record as it stands (R22, 12.4). -/
def State.reportBody (s : State) (id : Nat) : List Word :=
  match s.circuit id with
  | none => [refWord id (s.record id).generation, 0, 0, 0]
  | some c =>
    [ refWord id (s.record id).generation,
      Word.field c.state.code 13 + Word.field (pendingCode c.pendingChange) 10 +
        Word.field (reasonCode c.closeReason) 7 + Word.field (bitNat c.cutoverCycle.isSome) 6,
      Word.field c.width 11 + Word.field c.live.length 5,
      c.cutoverCycle.getD 0 ]

/-- The HELLO reply body of a link (R129, 12.4). -/
def State.helloBody (s : State) (n : Link) : List Word :=
  [ Word.field (linkNumber n) 0, s.timing.cycle,
    Word.field (s.link n).quota 8 + Word.field (s.ownedCount n) 0 ]

/-- The two words of a bank entry in a READ_SLOT result (12.4). -/
def Entry.words : Entry → List Word
  | .idle => [0, 0]
  | .pass id srcTrunk srcSlot => [Word.field 1 14 + Word.field id 0, Word.field srcTrunk 8 + Word.field srcSlot 0]
  | .fill id byte => [Word.field 2 14 + Word.field id 0, Word.field byte.toNat 0]

/-- The free map of a free set: 64 marks, slot 0 in bit 15 of word 1 and slot 63 in bit 0 of word 4 (R158). -/
def freeMap (free : List Nat) : List Word :=
  (List.range 4).map fun i => bitsWord ((List.range 16).map fun j => free.contains (16 * i + j))

end Sys2Proof.Machine
end

