-- ==== Sys2Proof/Machine/Engine.lean ====
section
/-! DEFINITION. The Admission Engine: the arbiter, the answer of an admission, and the checks that several requests
share (chapter 4). -/

namespace Sys2Proof.Machine

/-- The decision on one request: its result code, the body of its answer, and the state with its effects. -/
structure Decision where
  code  : ResultCode
  body  : List Word
  state : State

/-- A refusal: its one effect is its answer (R79). -/
def refuse (code : ResultCode) (s : State) : Decision := { code := code, body := [], state := s }

/-- The item that the engine takes next. -/
inductive Item where
  | followUp (f : FollowUp)
  | mailbox
  | link (n : Link)
deriving DecidableEq, Repr

/-- The link after a link (R70). -/
def nextLink : Link → Link
  | .l0 => .l1
  | .l1 => .l2
  | .l2 => .l3
  | .l3 => .l0

/-- The links in round-robin order, from the one named by the pointer (R69). -/
def linksFrom (n : Link) : List Link :=
  [n, nextLink n, nextLink (nextLink n), nextLink (nextLink (nextLink n))]

/-- The arbiter's choice: none while the bank is COPYING or every source is empty; else the head of the follow-up
queue, the mailbox command, or the head of the first non-empty link request queue (R68, R69). -/
def State.nextItem (s : State) : Option Item :=
  match s.maps.state with
  | .copying => none
  | .synced =>
    match s.engine.followUps with
    | f :: _ => some (.followUp f)
    | [] =>
      if s.mailbox.state = .queued then some .mailbox
      else ((linksFrom s.engine.pointer).find? fun n => !(s.link n).requests.isEmpty).map Item.link

/-- The command in the mailbox: its kind and its body words 1 to L (R151, R188). -/
def State.mailboxKindByte (s : State) : Byte := (Sparse.read 0 s.mailbox.command 0).hi

/-- The body words of the command in the mailbox. -/
def State.mailboxBody (s : State) : List Word :=
  (List.range s.mailbox.declared).map fun i => Sparse.read 0 s.mailbox.command (i + 1)

/-- The result window holding a header and a body, and 0000H in every position after them (R153, R188). -/
def resultWindow (kind : Byte) (code : ResultCode) (body : List Word) : Sparse Word :=
  let words := Word.ofBytes kind code.value :: body
  ((List.range words.length).zip words).foldl (fun window e => Sparse.write 0 window e.1 e.2) []

/-- The admission of the mailbox command writes the result window, makes the mailbox DONE and raises MBOX_DONE
(R153). -/
def State.answerMailbox (kind : Byte) (d : Decision) : State :=
  (d.state.withMailbox
    { d.state.mailbox with state := .done, result := resultWindow kind d.code d.body }).raise .mboxDone

/-- The answer to an admitted link request is placed at the tail of the link's answer queue, in a reserved entry
(R85, R136). -/
def State.answerLink (n : Link) (r : Request) (d : Decision) : State :=
  d.state.modifyLink n fun c =>
    { c with answers :=
        c.answers ++ [{ kind := r.kind, tag := r.tag, code := d.code, body := d.body, reserved := true }] }

/-- A request leaves the head of its link's queue, and the pointer moves to the link after it (R69, R70). -/
def State.takeRequest (n : Link) (s : State) : State :=
  (s.modifyLink n fun c => { c with requests := c.requests.tail }).withEngine
    { s.engine with pointer := nextLink n }

/-- The admission of a request of one kind: it happens when the engine's next item is a request whose kind, as its
source accepts it, is that kind (log 3); otherwise nothing happens. -/
def State.admission (kind : Option RequestKind) (decide : Owner → List Word → State → Decision) (s : State) : State :=
  match s.nextItem with
  | some .mailbox =>
    if kindFrom .supervisor s.mailboxKindByte = kind then
      State.answerMailbox s.mailboxKindByte (decide .supervisor s.mailboxBody s)
    else s
  | some (.link n) =>
    match (s.link n).requests with
    | r :: _ =>
      if kindFrom (.link n) r.kind = kind then State.answerLink n r (decide (.link n) r.body (s.takeRequest n))
      else s
    | [] => s
  | some (.followUp _) => s
  | none => s

/-- The admission of a follow-up item of one kind: the head leaves the queue and, when it still applies, acts (R75,
R76); nothing happens when the engine's next item is another one (log 3). -/
def State.followUpAdmission (kind : FollowKind) (act : Nat → State → State) (s : State) : State :=
  match s.nextItem with
  | some (.followUp f) =>
    if f.kind = kind then act f.id (s.withEngine { s.engine with followUps := s.engine.followUps.tail }) else s
  | some .mailbox => s
  | some (.link _) => s
  | none => s

/-- Step 3: the circuit that a circuit reference names (R1, R81). -/
def State.named (s : State) (id : Nat) (generation : Byte) : Option Circuit :=
  if (s.record id).generation = generation then s.circuit id else none

/-- The requester has authority over a record: the supervisor over every one, a link over its own (R81). -/
def authority (who : Owner) (c : Circuit) : Bool := who == .supervisor || who == c.owner

/-- The record is RELEASING or CLOSED (R82). -/
def Circuit.isGoing (c : Circuit) : Bool := !c.isReleasable

/-- Steps 3 and 4 of a request on a named record, whose reference is body word 1. -/
def onCircuit (who : Owner) (body : List Word) (s : State) (go : Nat → Circuit → Decision) : Decision :=
  match s.named (bodyHi body 1) (bodyWord body 1).lo with
  | none => refuse .unknownCircuit s
  | some c => if authority who c then go (bodyHi body 1) c else refuse .notOwner s

/-- The reference word of a record as it stands. -/
def State.refWordOf (s : State) (id : Nat) : Word := refWord id (s.record id).generation

/-- The owner of a record that a CLAIM or BRANCH creates (R13, R88). -/
def newOwner (who : Owner) (named : Option Owner) : Owner :=
  match who with
  | .link n => .link n
  | .supervisor => named.getD .supervisor

/-- Checks 1 and 2 of step 6, for the owner of the new record: LINK_DOWN and QUOTA (R83). -/
def State.ownerCheck (s : State) (who owner : Owner) : Option ResultCode :=
  match owner with
  | .supervisor => none
  | .link n =>
    if who = .supervisor ∧ (s.link n).state ≠ .up then some .linkDown
    else if (s.link n).quota ≤ s.ownedCount n then some .quota
    else none

/-- A refusal with NO_RECORD raises the NO_RECORD event (R15). -/
def refuseNoRecord (s : State) : Decision := refuse .noRecord (s.raise .noRecord)

/-- The OK body of CLAIM, BRANCH and RESHAPE (12.4). -/
def pairsBody (reference : Word) (width : Nat) (pairs : List Pair) : List Word :=
  reference :: (Word.field width 8 + Word.field pairs.length 0) :: pairs.map pairWord

/-- The admission takes a FREE record for a new circuit, writes its pairs into the staged bank and places it on the
change list (R16, R28). -/
def State.takeRecord (id : Nat) (c : Circuit) (s : State) : State :=
  ((s.setRecord id { generation := (s.record id).generation + 1, circuit := some c }).editStaged
    (c.describeBatch id c.staged)).enlist id

end Sys2Proof.Machine
end

