-- ==== Sys2Proof/Machine/Supervisor.lean ====
section
/-! DEFINITION. The six supervisor-only commands (chapter 8, section 8.4). -/

namespace Sys2Proof.Machine

/-- An answer OK that leaves the state as it is. -/
def answer (body : List Word) (s : State) : Decision := { code := .ok, body := body, state := s }

/-- The list that a READ_CIRCUIT names: 0 LIVE, 1 STAGED (12.2). -/
def Circuit.listOf (c : Circuit) (code : Nat) : List Pair := if code = 0 then c.live else c.staged

/-- The decision on a READ_CIRCUIT (R156). -/
def decideReadCircuit (_who : Owner) (body : List Word) (s : State) : Decision :=
  if body.length ≠ 1 ∨ 1 < bodyLo body 1 then refuse .badArgument s
  else
    let pairs := match s.circuit (bodyHi body 1) with
      | none => []
      | some c => c.listOf (bodyLo body 1)
    answer (s.summary (bodyHi body 1) ++ Word.field pairs.length 0 :: pairs.map pairWord) s

/-- READ_CIRCUIT (R156). -/
def execReadCircuit (s : State) : Host.Outcome State Fault Refusal :=
  .next (s.whileRunning (State.admission (some .readCircuit) decideReadCircuit))

/-- The decision on a READ_SLOT (R157). -/
def decideReadSlot (_who : Owner) (body : List Word) (s : State) : Decision :=
  if body.length ≠ 1 ∨ 7 < bodyHi body 1 ∨ 63 < bodyLo body 1 then refuse .badArgument s
  else
    let key := slotKey (bodyHi body 1) (bodyLo body 1)
    answer (Word.field s.maps.live.code 0 ::
      (Entry.words (Sparse.read .idle s.maps.bankA key) ++ Entry.words (Sparse.read .idle s.maps.bankB key))) s

/-- READ_SLOT (R157). -/
def execReadSlot (s : State) : Host.Outcome State Fault Refusal :=
  .next (s.whileRunning (State.admission (some .readSlot) decideReadSlot))

/-- The decision on a READ_FREE (R158). -/
def decideReadFree (_who : Owner) (body : List Word) (s : State) : Decision :=
  if body.length ≠ 1 ∨ 7 < bodyHi body 1 ∨ 1 < bodyLo body 1 then refuse .badArgument s
  else
    answer (freeMap (if bodyLo body 1 = 0 then s.freeInputs (bodyHi body 1) else s.freeOutputs (bodyHi body 1))) s

/-- READ_FREE (R158). -/
def execReadFree (s : State) : Host.Outcome State Fault Refusal :=
  .next (s.whileRunning (State.admission (some .readFree) decideReadFree))

/-- A report is delivered: a CLOSED record becomes FREE (R18). -/
def State.deliver (id : Nat) (s : State) : State :=
  if (s.circuit id).any fun c => c.state == .closed then s.freeRecord id else s

/-- The decision on a TAKE_REPORT (R159). -/
def decideTakeReport (_who : Owner) (body : List Word) (s : State) : Decision :=
  if body ≠ [] then refuse .badArgument s
  else
    match s.supQueue with
    | [] => answer [Word.field 1 15] s
    | id :: rest =>
      { code := .ok, body := Word.field rest.length 0 :: s.reportBody id,
        state := (s.withSupQueue rest).deliver id }

/-- TAKE_REPORT (R159). -/
def execTakeReport (s : State) : Host.Outcome State Fault Refusal :=
  .next (s.whileRunning (State.admission (some .takeReport) decideTakeReport))

/-- The decision on a COMMIT (R160, R46). -/
def decideCommit (_who : Owner) (body : List Word) (s : State) : Decision :=
  if body ≠ [] then refuse .badArgument s
  else { code := .ok, body := [], state := s.withCutover { s.cutover with armed := true } }

/-- COMMIT (R160). -/
def execCommit (s : State) : Host.Outcome State Fault Refusal :=
  .next (s.whileRunning (State.admission (some .commit) decideCommit))

/-- The decision on a RESET_LINK (R160, R144). -/
def decideResetLink (_who : Owner) (body : List Word) (s : State) : Decision :=
  if body.length ≠ 1 then refuse .badArgument s
  else
    match linkOf (bodyLo body 1) with
    | none => refuse .badArgument s
    | some n =>
      let t := s.resetLink n
      { code := .ok,
        body := [Word.field (t.link n).state.code 8 + Word.field (t.link n).downReason.code 0],
        state := t }

/-- RESET_LINK (R160). -/
def execResetLink (s : State) : Host.Outcome State Fault Refusal :=
  .next (s.whileRunning (State.admission (some .resetLink) decideResetLink))

end Sys2Proof.Machine
end

