-- ==== Sys2Proof/Machine/LinkPort.lean ====
section
/-! DEFINITION. The Link Controllers: reception, clock loss, and the transmitter (chapter 7). -/

namespace Sys2Proof.Machine

/-! ### Reception -/

/-- A fault of a link: the last fault reason is set and LINK_FAULT raised (R124, R127, R137). -/
def State.linkFault (n : Link) (reason : FaultReason) (s : State) : State :=
  (s.modifyLink n fun c => { c with lastFault := reason }).raise (.linkFault n)

/-- A damaged message (R124). -/
def State.receiveDamaged (n : Link) (reason : FaultReason) (s : State) : State :=
  let t := s.linkFault n reason
  if (s.link n).state = .up then
    if Config.damageLimit ≤ (s.link n).damage + 1 then t.leaveUp n .down .damage
    else t.modifyLink n fun c => { c with damage := c.damage + 1 }
  else t

/-- A good HELLO in DOWN: the link comes UP with its inventory (R128, R139). -/
def State.comeUp (n : Link) (s : State) : State :=
  (s.modifyLink n fun c =>
    { c with state := .up, helloOwed := true, silence := 0, damage := 0,
             reports := s.idsWhere fun k => k.owner == .link n }).raise (.linkState n)

/-- The unreserved entries of an answer queue that are taken (R136). -/
def LinkController.unreservedTaken (c : LinkController) : Nat := (c.answers.filter fun a => !a.reserved).length

/-- A refusal by the Link Controller, in an unreserved entry, or FLOOD when none is free (R134, R137). -/
def State.refuseAtLink (n : Link) (kind tag : Byte) (code : ResultCode) (s : State) : State :=
  if (s.link n).unreservedTaken < Config.unreservedAnswers then
    s.modifyLink n fun c =>
      { c with answers := c.answers ++ [{ kind := kind, tag := tag, code := code, body := [], reserved := false }] }
  else s.linkFault n .flood

/-- A request joins the window and the request queue (R135). -/
def State.acceptRequest (n : Link) (r : Request) (s : State) : State :=
  s.modifyLink n fun c => { c with tags := c.tags ++ [r.tag], requests := c.requests ++ [r] }

/-- A request received in UP: the tests of R134. -/
def State.receiveRequest (n : Link) (r : Request) (s : State) : State :=
  if linkKind r.kind = none then s.refuseAtLink n r.kind r.tag .badKind
  else if Config.windowSize ≤ (s.link n).tags.length then s.refuseAtLink n r.kind r.tag .busy
  else if r.tag ∈ (s.link n).tags then s.refuseAtLink n r.kind r.tag .dupTag
  else s.acceptRequest n r

/-- A good message (R127, R132): in UP it sets the damage count and the silence count to 0 (R124, R130). -/
def State.receiveGood (n : Link) (m : RxMessage) (s : State) : State :=
  match (s.link n).state with
  | .disabled => s
  | .down =>
    let t := s.modifyLink n fun c => { c with damage := 0 }
    if messageKind m = helloKind then t.comeUp n else t.linkFault n .notUp
  | .up =>
    let t := s.modifyLink n fun c => { c with damage := 0, silence := 0 }
    if messageKind m = helloKind then t.modifyLink n fun c => { c with helloOwed := true }
    else t.receiveRequest n { kind := messageKind m, tag := messageTag m, body := messageBody m }

/-- A message arrives on a link (R123). In DISABLED it is ignored. A message that was in reception at the latest
clock loss, change of the enable bit or reset is discarded unchecked (R121, R144, R146; log 13). Its bits came with
rising edges of LnICK, which arm the clock-loss detector (R121). -/
def State.receive (n : Link) (m : RxMessage) (s : State) : State :=
  if (s.link n).state = .disabled then s
  else
    let t := s.modifyLink n fun c => { c with clockArmed := true, rxVoid := false }
    if (s.link n).rxVoid ∧ m.spansDiscard then t
    else
      match classify m with
      | .damaged reason => t.receiveDamaged n reason
      | .good => t.receiveGood n m

/-- HELLO (R128, R129): a message arrives, and the part takes it by its class and kind (log 4). -/
def execHello (n : Link) (m : RxMessage) (s : State) : Host.Outcome State Fault Refusal :=
  .next (s.whileRunning (State.receive n m))

/-- REQUEST_RECEIVED (R127, R134): a message arrives, and the part takes it by its class and kind (log 4). -/
def execRequestReceived (n : Link) (m : RxMessage) (s : State) : Host.Outcome State Fault Refusal :=
  .next (s.whileRunning (State.receive n m))

/-- DAMAGED_MESSAGE (R124): a message arrives, and the part takes it by its class and kind (log 4). -/
def execDamagedMessage (n : Link) (m : RxMessage) (s : State) : Host.Outcome State Fault Refusal :=
  .next (s.whileRunning (State.receive n m))

/-- DAMAGE_LIMIT (R124): the damaged message that brings the count to 8 arrives, and the part takes it by its class
and kind (log 4). -/
def execDamageLimit (n : Link) (m : RxMessage) (s : State) : Host.Outcome State Fault Refusal :=
  .next (s.whileRunning (State.receive n m))

/-! ### Clock loss -/

/-- The clock-loss detector signals once per loss; in UP the link goes DOWN (R121, R131). -/
def State.loseClock (n : Link) (s : State) : State :=
  if (s.link n).clockArmed then
    let t := s.modifyLink n fun c => { c with clockArmed := false, rxVoid := true }
    if (s.link n).state = .up then t.leaveUp n .down .noClock else t
  else s

/-- CLOCK_LOSS (R131). -/
def execClockLoss (n : Link) (s : State) : Host.Outcome State Fault Refusal :=
  .next (s.whileRunning (State.loseClock n))

/-- CLOCK_RETURN (R131): the detector is armed again, and the link stays as it is (R121). -/
def execClockReturn (n : Link) (s : State) : Host.Outcome State Fault Refusal :=
  .next (s.whileRunning (State.modifyLink n fun c => { c with clockArmed := true }))

/-! ### The transmitter -/

/-- The transmitter takes its next message: the head answer, the HELLO reply, or the head report (R140, R141). -/
def State.transmitterTake (n : Link) (s : State) : State :=
  let c := s.link n
  if c.state = .up ∧ c.line = none then
    match c.answers with
    | a :: rest =>
      s.withLink n
        { c with answers := rest, line := some { words := a.message, frees := if a.reserved then some a.tag else none } }
    | [] =>
      if c.helloOwed then
        s.withLink n
          { c with helloOwed := false,
                   line := some { words := buildMessage helloKind 0 0 (s.helloBody n), frees := none } }
      else
        match c.reports with
        | id :: rest =>
          (s.withLink n
            { c with reports := rest,
                     line := some { words := buildMessage reportKind 0 0 (s.reportBody id), frees := none } }
            ).deliver id
        | [] => s
  else s

/-- TRANSMITTER_TAKE (R140): nothing happens in DOWN or DISABLED, while the line is busy, and when there is nothing
to send (log 3). -/
def execTransmitterTake (n : Link) (s : State) : Host.Outcome State Fault Refusal :=
  .next (s.whileRunning (State.transmitterTake n))

/-- The message on the line has been sent: the line is free, and the tag of an answered request leaves the window
(R141). -/
def State.transmissionComplete (n : Link) (s : State) : State :=
  match (s.link n).line with
  | none => s
  | some m =>
    s.modifyLink n fun c =>
      { c with line := none,
               tags := match m.frees with
                 | some tag => c.tags.filter (· ≠ tag)
                 | none => c.tags }

/-- TRANSMISSION_COMPLETE (R141): nothing happens when no message is on the line (log 3). -/
def execTransmissionComplete (n : Link) (s : State) : Host.Outcome State Fault Refusal :=
  .next (s.whileRunning (State.transmissionComplete n))

end Sys2Proof.Machine
end

