-- ==== Sys2Proof/Machine/Timing.lean ====
section
/-! DEFINITION. The Switch Core and the Timing Unit: frame starts, references, timing states (chapter 9). -/

namespace Sys2Proof.Machine

/-! ### The Switch Core -/

/-- The other half of the frame store. -/
def otherHalf : Half → Half
  | .half0 => .half1
  | .half1 => .half0

/-- A half of the frame store. -/
def SwitchCore.half (c : SwitchCore) : Half → Memory
  | .half0 => c.half0
  | .half1 => c.half1

/-- The read half of the frame in progress (R164). -/
def SwitchCore.readHalf (c : SwitchCore) : Memory := c.half (otherHalf c.writeHalf)

/-- The Switch Core with a half replaced. -/
def SwitchCore.setHalf (c : SwitchCore) (h : Half) (m : Memory) : SwitchCore :=
  match h with
  | .half0 => { c with half0 := m }
  | .half1 => { c with half1 := m }

/-- A position whose slot was reached in a frame of which so many slots were received (R168). -/
def slotReached (reached key : Nat) : Bool := key < Config.positions && key % Config.slots < reached

/-- A half after a frame: the positions of the slots reached hold the bytes received, the others keep the bytes they
held (R164, R168). -/
def receiveFrame (old : Memory) (received : TrunkBytes) (reached : Nat) : Memory :=
  received.foldr (fun e m => if slotReached reached e.1 then Memory.write m e.1 e.2 else m)
    (old.filter fun e => !slotReached reached e.1)

/-- The Switch Core at a frame start: the frame that ends is received, and the halves change (R164). -/
def SwitchCore.endFrame (c : SwitchCore) (received : TrunkBytes) (reached : Nat) : SwitchCore :=
  { c.setHalf c.writeHalf (receiveFrame (c.half c.writeHalf) received reached) with
    writeHalf := otherHalf c.writeHalf }

/-- The selection of the frame that begins is fixed from the live bank and the idle bytes as they stand (R165,
R166). -/
def State.fixSelection (s : State) : State :=
  s.withSwitch { s.switch with selection := { entries := s.maps.liveBank, idle := s.idle } }

/-- The idle byte of a trunk (R166). -/
def IdleWords.byte (w : IdleWords) (trunk : Nat) : Byte :=
  match trunk with
  | 0 => w.idle01.hi
  | 1 => w.idle01.lo
  | 2 => w.idle23.hi
  | 3 => w.idle23.lo
  | 4 => w.idle45.hi
  | 5 => w.idle45.lo
  | 6 => w.idle67.hi
  | _ => w.idle67.lo

/-- The byte that an entry drives on an output slot of a trunk (R165). -/
def SwitchCore.drives (c : SwitchCore) (trunk slot : Nat) : Byte :=
  match Sparse.read Entry.idle c.selection.entries (slotKey trunk slot) with
  | .idle => c.selection.idle.byte trunk
  | .fill _ byte => byte
  | .pass _ srcTrunk srcSlot => Memory.read c.readHalf (slotKey srcTrunk srcSlot)

/-! ### Frame starts -/

/-- The kinds of frame start (R175). -/
inductive FrameKind where
  | ordinary
  | leaseTick
  | boundary (stepped : Bool)
deriving DecidableEq, Repr

/-- The kind of the next frame start that is not stepped (R175). -/
def TimingUnit.dueKind (u : TimingUnit) : FrameKind :=
  if 15 ≤ u.frame then .boundary false else if u.frame = 7 then .leaseTick else .ordinary

/-- The Timing Unit's counts after a frame start at a time (R175). -/
def TimingUnit.startFrame (u : TimingUnit) (kind : FrameKind) (now : Nat) : TimingUnit :=
  match kind with
  | .ordinary => { u with frame := u.frame + 1, time := now, frameStart := now }
  | .leaseTick => { u with frame := 8, time := now, frameStart := now }
  | .boundary _ => { u with frame := 0, cycle := u.cycle + 1, time := now, frameStart := now }

/-- The slot of the frame in progress at a time (log 6). -/
def TimingUnit.slotAt (u : TimingUnit) (now : Nat) : Nat :=
  (now - u.frameStart) * Config.slots / Config.framePeriod

/-- The slots of the frame in progress that a frame start at a time finds reached: all of them, but in a short frame,
which a stepped boundary ends before its slot 63, those before the slot in progress (R168, log 9). -/
def TimingUnit.slotsReached (u : TimingUnit) (kind : FrameKind) (now : Nat) : Nat :=
  match kind with
  | .boundary true => if u.slotAt now < Config.slots - 1 then u.slotAt now else Config.slots
  | .boundary false => Config.slots
  | .leaseTick => Config.slots
  | .ordinary => Config.slots

/-- What a frame start delivers (R175). -/
def State.deliverFrame (kind : FrameKind) (o : BoundaryOrder) (s : State) : State :=
  match kind with
  | .ordinary => s
  | .leaseTick => s.takeLeaseTick
  | .boundary stepped => s.takeBoundary stepped o

/-- A frame start: one event of the Timing Unit, delivered to the blocks (R175). -/
def State.startFrame (kind : FrameKind) (now : Nat) (received : TrunkBytes) (o : BoundaryOrder) (s : State) : State :=
  (((s.withSwitch (s.switch.endFrame received (s.timing.slotsReached kind now))).withTiming
    (s.timing.startFrame kind now)).deliverFrame kind o).fixSelection

/-! ### References and timing states -/

/-- The locked reference (R170). -/
def TimingState.locked : TimingState → Option Ref
  | .freeRun => none
  | .lockedA => some .a
  | .lockedB => some .b
  | .holdover => none

/-- The timing state locked to a reference. -/
def lockedTo : Ref → TimingState
  | .a => .lockedA
  | .b => .lockedB

/-- The other reference. -/
def otherRef : Ref → Ref
  | .a => .b
  | .b => .a

/-- The state of a reference. -/
def TimingUnit.ref (u : TimingUnit) : Ref → RefState
  | .a => u.refA
  | .b => u.refB

/-- The Timing Unit with the state of a reference replaced. -/
def TimingUnit.setRef (u : TimingUnit) (r : Ref) (x : RefState) : TimingUnit :=
  match r with
  | .a => { u with refA := x }
  | .b => { u with refB := x }

/-- The reference is GOOD (R169). -/
def RefState.isGood : RefState → Bool
  | .good _ => true
  | .qualifying _ _ => false
  | .absent => false

/-- The expected time that a reference holds (R169). -/
def RefState.expected? : RefState → Option Nat
  | .absent => none
  | .qualifying _ expected => some expected
  | .good expected => some expected

/-- A time is not after the close of the reference's window: a window that closes first is taken first (log 6). -/
def RefState.notClosedBefore (x : RefState) (now : Nat) : Bool :=
  match x.expected? with
  | none => true
  | some expected => now ≤ expected + Config.windowReach

/-- The reference whose pulses make the frame starts: LOCKED with the align-pending flag clear (R173). -/
def TimingUnit.aligned (u : TimingUnit) : Option Ref := if u.alignPending then none else u.state.locked

/-- The time of the next frame start at the Timing Unit's own timing (R170; log 7). -/
def TimingUnit.ownFrameTime (u : TimingUnit) : Nat := max u.time (u.frameStart + Config.framePeriod)

/-- An event of the reference inputs may fall at a time: no window closes before it, and no frame start of the
Timing Unit's own timing is due before it (log 6). -/
def TimingUnit.mayFall (u : TimingUnit) (now : Nat) : Bool :=
  u.refA.notClosedBefore now && u.refB.notClosedBefore now &&
    (u.aligned.isSome || now ≤ u.ownFrameTime)

/-- The timing state becomes LOCKED to a reference with the align-pending flag set; TIMING is raised (R170, R171,
R172, R174). -/
def State.lockTo (r : Ref) (s : State) : State :=
  (s.withTiming { s.timing with state := lockedTo r, alignPending := true }).raise .timing

/-- The loss of the locked reference (R172). -/
def State.loseLock (r : Ref) (s : State) : State :=
  if (s.timing.ref (otherRef r)).isGood then s.lockTo (otherRef r)
  else (s.withTiming { s.timing with state := .holdover, alignPending := false }).raise .timing

/-- The event in which a reference becomes GOOD, at the Timing Unit (R171, R174). -/
def State.becomeGood (r : Ref) (s : State) : State :=
  match s.timing.state.locked with
  | none => s.lockTo r
  | some q =>
    if q ≠ r ∧ s.control.primary = r ∧ (s.timing.alignPending ∨ s.control.revertive) then s.lockTo r else s

/-- The reference state becomes ABSENT; when it is the locked reference, it is lost (R169, R172). -/
def State.refAbsent (r : Ref) (s : State) : State :=
  let t := s.withTiming (s.timing.setRef r .absent)
  if s.timing.state.locked = some r then t.loseLock r else t

/-- A pulse of the locked reference inside its window: the aligning pulse makes a stepped boundary (R171), any other
makes the frame start that is due (R173). -/
def State.lockedPulse (now : Nat) (f : FrameInput) (s : State) : State :=
  if s.timing.alignPending then
    (s.withTiming { s.timing with alignPending := false }).startFrame (.boundary true) now f.received f.order
  else s.startFrame s.timing.dueKind now f.received f.order

/-- A pulse of a reference at a time (R169). -/
def State.pulse (r : Ref) (now : Nat) (f : FrameInput) (s : State) : State :=
  let next := now + Config.framePeriod
  let s := s.withTiming { s.timing with time := now }
  match s.timing.ref r with
  | .absent => s.withTiming (s.timing.setRef r (.qualifying 0 next))
  | .qualifying count expected =>
    if now + Config.windowReach < expected then s.refAbsent r
    else if count < Config.fullCount then s.withTiming (s.timing.setRef r (.qualifying (count + 1) next))
    else (s.withTiming (s.timing.setRef r (.good next))).becomeGood r
  | .good expected =>
    if now + Config.windowReach < expected then s.refAbsent r
    else
      let t := s.withTiming (s.timing.setRef r (.good next))
      if s.timing.state.locked = some r then t.lockedPulse now f else t

/-- An aligning pulse at the moment of a frame start of the Timing Unit's own timing makes its stepped boundary in place
of that frame start (R168, R175), and so, as a command, before it: with that frame start made already, no aligning pulse
falls at its moment. A frame start that a pulse or the close of a window made is none that a pulse could replace, and an
aligning pulse at its moment comes after it (log 6). -/
def TimingUnit.replacesFrameStart (u : TimingUnit) (r : Ref) (now : Nat) : Bool :=
  u.alignPending && u.state.locked == some r && now == u.ownStart &&
    match u.ref r with
    | .good expected => expected ≤ now + Config.windowReach
    | .qualifying _ _ => false
    | .absent => false

/-- A pulse of a reference so much time after the last timing event; no pulse falls there when another timing event
comes first (log 6). -/
def State.pulseAfter (r : Ref) (elapsed : Nat) (f : FrameInput) (s : State) : State :=
  let now := s.timing.time + elapsed
  if s.timing.mayFall now && !s.timing.replacesFrameStart r now then s.pulse r now f else s

/-- REFERENCE_PULSE (R169). -/
def execReferencePulse (r : Ref) (elapsed : Nat) (f : FrameInput) (s : State) : Host.Outcome State Fault Refusal :=
  .next (s.whileRunning (State.pulseAfter r elapsed f))

/-- REFERENCE_GOOD (R171): the pulse that completes the qualification count; the part takes whatever pulse arrives by
R169 (log 4). -/
def execReferenceGood (r : Ref) (elapsed : Nat) (f : FrameInput) (s : State) : Host.Outcome State Fault Refusal :=
  .next (s.whileRunning (State.pulseAfter r elapsed f))

/-- The window of a reference closes with no pulse (R169, R172): the reference becomes ABSENT; when the Timing Unit
was aligned to it, the frame start that was due at its pulse is made in the same event. -/
def State.closeWindow (r : Ref) (now : Nat) (f : FrameInput) (s : State) : State :=
  let wasAligned := s.timing.aligned = some r
  let t := (s.withTiming { s.timing with time := now }).refAbsent r
  if wasAligned then t.startFrame s.timing.dueKind now f.received f.order else t

/-- The close of the window of a reference, when it has a window and no other timing event comes first (log 6). -/
def State.windowCloses (r : Ref) (f : FrameInput) (s : State) : State :=
  match (s.timing.ref r).expected? with
  | none => s
  | some expected =>
    let now := max s.timing.time (expected + Config.windowReach)
    if (s.timing.ref (otherRef r)).notClosedBefore now ∧ (s.timing.aligned.isSome ∨ now ≤ s.timing.ownFrameTime) then
      s.closeWindow r now f
    else s

/-- WINDOW_CLOSE (R172). -/
def execWindowClose (r : Ref) (f : FrameInput) (s : State) : Host.Outcome State Fault Refusal :=
  .next (s.whileRunning (State.windowCloses r f))

/-! ### The frame starts as commands -/

/-- A frame start of the Timing Unit's own timing (R170, R175; log 6, log 7). -/
def State.ownFrame (kind : FrameKind) (f : FrameInput) (s : State) : State :=
  (s.withTiming { s.timing with ownStart := s.timing.ownFrameTime }).startFrame kind s.timing.ownFrameTime f.received
    f.order

/-- A frame start of a kind, when that kind is due: at the Timing Unit's own timing, or, while LOCKED and aligned, at
the pulse of the locked reference at its expected time (R173, log 11); nothing happens when another kind is due or
another timing event comes first (log 3, log 6). -/
def State.frameDue (kind : FrameKind) (f : FrameInput) (s : State) : State :=
  if s.timing.dueKind ≠ kind then s
  else
    match s.timing.aligned with
    | none =>
      if s.timing.mayFall s.timing.ownFrameTime then s.ownFrame kind f else s
    | some r =>
      match (s.timing.ref r).expected? with
      | none => s
      | some expected =>
        let now := max s.timing.time expected
        if s.timing.mayFall now then s.pulse r now f else s

/-- The order that a frame start which is no boundary does not read. -/
def unusedOrder : BoundaryOrder := { before := [], after := [] }

/-- FRAME_START (R175). -/
def execFrameStart (received : TrunkBytes) (s : State) : Host.Outcome State Fault Refusal :=
  .next (s.whileRunning (State.frameDue .ordinary { received := received, order := unusedOrder }))

/-- BOUNDARY (R36, R175). -/
def execBoundary (f : FrameInput) (s : State) : Host.Outcome State Fault Refusal :=
  .next (s.whileRunning (State.frameDue (.boundary false) f))

/-- LEASE_TICK (R113, R175). -/
def execLeaseTick (received : TrunkBytes) (s : State) : Host.Outcome State Fault Refusal :=
  .next (s.whileRunning (State.frameDue .leaseTick { received := received, order := unusedOrder }))

/-- LEASE_RUN_OUT (R114): the lease tick at which the lease of the record runs out; nothing happens at a tick at
which it does not (log 3). -/
def execLeaseRunOut (id : Nat) (received : TrunkBytes) (s : State) : Host.Outcome State Fault Refusal :=
  .next (s.whileRunning fun s =>
    if (s.circuit id).any Circuit.runsOut then
      s.frameDue .leaseTick { received := received, order := unusedOrder }
    else s)

/-- SILENCE_LIMIT (R130): the boundary at which the silence count of the link reaches the limit; nothing happens at a
boundary at which it does not (log 3). -/
def execSilenceLimit (n : Link) (f : FrameInput) (s : State) : Host.Outcome State Fault Refusal :=
  .next (s.whileRunning fun s => if s.silenceDue n then s.frameDue (.boundary false) f else s)

end Sys2Proof.Machine
end

