-- ==== Sys2Proof/Machine/Registers.lean ====
section
/-! DEFINITION. The register window: CONTROL, LINKCFGn, the idle bytes, EVENTS, ENABLES and the mailbox (chapters 8
and 12), and the resets. -/

namespace Sys2Proof.Machine

/-- One bit of a written word. -/
def bitOf (w : Word) (i : Nat) : Bool := w.getLsbD i

/-! ### Resets -/

/-- The effect of soft reset on a Link Controller (R146): configuration kept, a message on the line sent to its end,
a message in reception discarded. -/
def LinkController.softReset (c : LinkController) : LinkController :=
  { LinkController.initial with
    state := if c.enable then .down else .disabled
    line := c.line.map fun m => { m with frees := none }
    clockArmed := c.clockArmed
    rxVoid := true
    enable := c.enable
    policy := c.policy
    quota := c.quota
    silenceLimit := c.silenceLimit }

/-- The soft reset (R163): the table, the banks, the engine, the links, the mailbox, the supervisor report queue and
the latches; CONTROL, the configuration words, the Timing Unit and the Switch Core are kept. -/
def State.softReset (s : State) : State :=
  { s with
    table := [], maps := MapStore.initial, cutover := CutoverController.initial, engine := AdmissionEngine.initial
    links := { l0 := s.links.l0.softReset, l1 := s.links.l1.softReset, l2 := s.links.l2.softReset,
               l3 := s.links.l3.softReset }
    mailbox := Mailbox.initial, supQueue := [], events := { s.events with latches := 0 } }

/-- POWER_ON_RESET (R24, R47, R146, R177, R183): RESETn is asserted, and every block takes its value of power-on
reset. The commands that wait are outside the part. -/
def execPowerOnReset (s : State) : Host.Outcome State Fault Refusal :=
  .next { State.reset with pending := s.pending, resetAsserted := true }

/-- RESETN_RELEASE (R177): the first frame start begins frame 0 of cycle 0000H; it is no boundary, and it leaves the
write-half indicator on half 0 (R164, log 18). With RESETn released already nothing happens (log 3). -/
def execResetnRelease (s : State) : Host.Outcome State Fault Refusal :=
  .next (if s.resetAsserted then (s.withResetAsserted false).fixSelection else s)

/-! ### CONTROL -/

/-- The fields that a write to CONTROL stores (R148, 12.7). -/
def controlOf (w : Word) : Control :=
  { mode := if bitOf w 0 then .held else .auto, reports := bitOf w 1, primary := if bitOf w 2 then .b else .a,
    revertive := bitOf w 3 }

/-- The clearing of the supervisor-reports enable (R20). -/
def State.clearReports (s : State) : State := (s.withSupQueue []).freeAll (s.closedOf .supervisor)

/-- A CONTROL write at the Timing Unit, with the fields stored and those before the write: the lock moves to a GOOD
primary that is not the locked reference, when the write changed the primary field with the align-pending flag set,
or changed the primary or revertive field with the flag clear and leaves revertive 1 (R174, log 21). -/
def State.actOnSelection (old : Control) (s : State) : State :=
  match s.timing.state.locked with
  | none => s
  | some q =>
    let primaryChanged := old.primary ≠ s.control.primary
    let revertiveChanged := old.revertive ≠ s.control.revertive
    let moves :=
      if s.timing.alignPending then primaryChanged
      else s.control.revertive ∧ (primaryChanged ∨ revertiveChanged)
    if q ≠ s.control.primary ∧ (s.timing.ref s.control.primary).isGood ∧ moves then s.lockTo s.control.primary else s

/-- A write to CONTROL (R148): the fields are stored, each changed field acts, and then the soft reset field. -/
def State.writeControl (w : Word) (s : State) : State :=
  let stored := s.withControl (controlOf w)
  let cleared := if s.control.reports ∧ stored.control.reports = false then stored.clearReports else stored
  let moved := cleared.actOnSelection s.control
  if bitOf w 15 then moved.softReset else moved

/-- SOFT_RESET (R163): a write to CONTROL with the soft reset field 1 (log 19). -/
def execSoftReset (w : Word) (s : State) : Host.Outcome State Fault Refusal :=
  .next (s.whileRunning (State.writeControl (w ||| 0x8000)))

/-- CUTOVER_MODE (R45): a write to CONTROL (log 19). -/
def execCutoverMode (w : Word) (s : State) : Host.Outcome State Fault Refusal :=
  .next (s.whileRunning (State.writeControl w))

/-- SUPERVISOR_REPORTS_ENABLE (R162, R20): a write to CONTROL (log 19). -/
def execSupervisorReportsEnable (w : Word) (s : State) : Host.Outcome State Fault Refusal :=
  .next (s.whileRunning (State.writeControl w))

/-- PRIMARY_REFERENCE (R174): a write to CONTROL (log 19). -/
def execPrimaryReference (w : Word) (s : State) : Host.Outcome State Fault Refusal :=
  .next (s.whileRunning (State.writeControl w))

/-- REVERTIVE (R174): a write to CONTROL (log 19). -/
def execRevertive (w : Word) (s : State) : Host.Outcome State Fault Refusal :=
  .next (s.whileRunning (State.writeControl w))

/-! ### LINKCFGn -/

/-- The quota held for a written value (R126). -/
def heldQuota (value : Nat) : Nat := if value = 0 then 1 else min value 64

/-- The silence limit held for a written value (R126). -/
def heldSilenceLimit (value : Nat) : Nat := max value 4

/-- The enable field of a LINKCFGn write acts (R144); a write of the value held has no effect. A change of the bit
discards the message in reception. -/
def State.writeEnable (n : Link) (enable : Bool) (s : State) : State :=
  if (s.link n).enable = enable then s
  else
    let t := s.modifyLink n fun c => { c with enable := enable, rxVoid := true }
    if enable then (t.modifyLink n fun c => { c with state := .down }).raise (.linkState n)
    else if (s.link n).state = .up then t.leaveUp n .disabled .disabled
    else (t.modifyLink n fun c => { c with state := .disabled, downReason := .disabled }).raise (.linkState n)

/-- A write to the first word of LINKCFGn: the quota and the policy are stored first, then the enable acts, and then
the reset acts on the link state that the enable has left (R189). -/
def State.writeLinkConfig (n : Link) (w : Word) (s : State) : State :=
  let stored := s.modifyLink n fun c =>
    { c with quota := heldQuota (w.hi.toNat % 128), policy := if bitOf w 2 then .release else .keep }
  let enabled := stored.writeEnable n (bitOf w 0)
  if bitOf w 1 then enabled.resetLink n else enabled

/-- A write to the second word of LINKCFGn (R126, R189). -/
def State.writeSilenceLimit (n : Link) (w : Word) (s : State) : State :=
  s.modifyLink n fun c => { c with silenceLimit := heldSilenceLimit w.lo.toNat }

/-- LINK_ENABLE (R144): a write to the first word of LINKCFGn (log 19). -/
def execLinkEnable (n : Link) (w : Word) (s : State) : Host.Outcome State Fault Refusal :=
  .next (s.whileRunning (State.writeLinkConfig n w))

/-- LINK_RESET (R144): a write to the first word of LINKCFGn with the reset field 1 (log 19). -/
def execLinkReset (n : Link) (w : Word) (s : State) : Host.Outcome State Fault Refusal :=
  .next (s.whileRunning (State.writeLinkConfig n (w ||| 2)))

/-! ### EVENTS and ENABLES -/

/-- EVENTS_CLEAR (R179). -/
def execEventsClear (w : Word) (s : State) : Host.Outcome State Fault Refusal :=
  .next (s.whileRunning (State.clearEvents w))

/-- ENABLES_WRITE (R181). -/
def execEnablesWrite (w : Word) (s : State) : Host.Outcome State Fault Refusal :=
  .next (s.whileRunning (State.storeEnables w))

/-! ### The mailbox -/

/-- A write to the command window that the mailbox cannot take (R152). -/
def State.refuseWindowWrite (s : State) : State := s.raise .mboxRefused

/-- The word stored at a position of the command window. -/
def Mailbox.store (m : Mailbox) (position : Nat) (w : Word) : Mailbox :=
  { m with command := Sparse.write 0 m.command position w }

/-- A write to position 0 of the command window (R150). -/
def State.writeHeader (w : Word) (s : State) : State :=
  match s.mailbox.state with
  | .queued => s.refuseWindowWrite
  | .done => s.refuseWindowWrite
  | .idle | .filling =>
    let length := w.lo.toNat
    let m := { s.mailbox.store 0 w with declared := length, mask := 0 }
    if length = 0 then s.withMailbox { m with state := .queued }
    else if length ≤ Config.maxBody then s.withMailbox { m with state := .filling }
    else
      (s.withMailbox { m with state := .done, result := resultWindow w.hi .badArgument [] }).raise .mboxDone

/-- The written-mask holds a mark for every position from 1 to L (R151). -/
def allMarked (mask : BitVec 20) (length : Nat) : Bool := (List.range length).all fun i => mask.getLsbD i

/-- A write to a body position of the command window (R151, R152). -/
def State.writeBody (position : Nat) (w : Word) (s : State) : State :=
  match s.mailbox.state with
  | .filling =>
    if position ≤ s.mailbox.declared then
      let mask := s.mailbox.mask ||| BitVec.ofNat 20 (2 ^ (position - 1))
      s.withMailbox
        { s.mailbox.store position w with
          mask := mask, state := if allMarked mask s.mailbox.declared then .queued else .filling }
    else s.refuseWindowWrite
  | .idle => s.refuseWindowWrite
  | .queued => s.refuseWindowWrite
  | .done => s.refuseWindowWrite

/-- A write to a position of the command window; there are 21 positions (R149). -/
def State.writeWindow (position : Nat) (w : Word) (s : State) : State :=
  if position = 0 then s.writeHeader w
  else if position ≤ Config.maxBody then s.writeBody position w
  else s

/-- A write to MBOXCTL (R154): ABORT makes the mailbox IDLE, and so does ACK in DONE. -/
def State.writeMailboxControl (isAck isAbort : Bool) (s : State) : State :=
  if isAbort ∨ (isAck ∧ s.mailbox.state = .done) then s.withMailbox { s.mailbox with state := .idle } else s

/-- MAILBOX_HEADER_WRITE (R150). -/
def execMailboxHeaderWrite (w : Word) (s : State) : Host.Outcome State Fault Refusal :=
  .next (s.whileRunning (State.writeHeader w))

/-- MAILBOX_BODY_WRITE (R151). -/
def execMailboxBodyWrite (position : Nat) (w : Word) (s : State) : Host.Outcome State Fault Refusal :=
  .next (s.whileRunning (State.writeWindow position w))

/-- ACK (R154). -/
def execAck (s : State) : Host.Outcome State Fault Refusal :=
  .next (s.whileRunning (State.writeMailboxControl true false))

/-- ABORT (R154). -/
def execAbort (withAck : Bool) (s : State) : Host.Outcome State Fault Refusal :=
  .next (s.whileRunning (State.writeMailboxControl withAck true))

/-! ### The register map (12.7) -/

/-- The words of the register window that a write may take, and the ones that only a read shows. -/
inductive Register where
  | control | status | cycle | inUse | events | enables | mboxCtl
  | linkConfig (n : Link) | linkLimit (n : Link)
  | linkStatus (n : Link) | linkOwned (n : Link)
  | idle01 | idle23 | idle45 | idle67
  | command (position : Nat)
  | result (position : Nat)
deriving DecidableEq, Repr

/-- The link of a link's pair of words, by the pair's number. -/
def linkAt (k : Nat) : Link :=
  match k with
  | 0 => .l0
  | 1 => .l1
  | 2 => .l2
  | _ => .l3

/-- The word of the register window at an address, none where there is no word (12.7). -/
def registerAt (address : BitVec 7) : Option Register :=
  let a := address.toNat
  if a = 0x00 then some .control
  else if a = 0x01 then some .status
  else if a = 0x02 then some .cycle
  else if a = 0x03 then some .inUse
  else if a = 0x04 then some .events
  else if a = 0x05 then some .enables
  else if a = 0x06 then some .mboxCtl
  else if a = 0x07 then none
  else if a < 0x10 then
    some (if a % 2 = 0 then .linkConfig (linkAt ((a - 0x08) / 2)) else .linkLimit (linkAt ((a - 0x08) / 2)))
  else if a < 0x18 then
    some (if a % 2 = 0 then .linkStatus (linkAt ((a - 0x10) / 2)) else .linkOwned (linkAt ((a - 0x10) / 2)))
  else if a = 0x18 then some .idle01
  else if a = 0x19 then some .idle23
  else if a = 0x1A then some .idle45
  else if a = 0x1B then some .idle67
  else if a < 0x20 then none
  else if a ≤ 0x34 then some (.command (a - 0x20))
  else if a < 0x40 then none
  else if a ≤ 0x67 then some (.result (a - 0x40))
  else none

/-- A word written at an address acts on the word it names; a read-only word and an address without a word take
nothing (R147, R189). -/
def State.writeWord (address : BitVec 7) (w : Word) (s : State) : State :=
  match registerAt address with
  | none => s
  | some .control => s.writeControl w
  | some .events => s.clearEvents w
  | some .enables => s.storeEnables w
  | some .mboxCtl => s.writeMailboxControl (bitOf w 0) (bitOf w 1)
  | some (.linkConfig n) => s.writeLinkConfig n w
  | some (.linkLimit n) => s.writeSilenceLimit n w
  | some .idle01 => s.withIdle { s.idle with idle01 := w }
  | some .idle23 => s.withIdle { s.idle with idle23 := w }
  | some .idle45 => s.withIdle { s.idle with idle45 := w }
  | some .idle67 => s.withIdle { s.idle with idle67 := w }
  | some (.command position) => s.writeWindow position w
  | some .status => s
  | some .cycle => s
  | some .inUse => s
  | some (.linkStatus _) => s
  | some (.linkOwned _) => s
  | some (.result _) => s

/-- REGISTER_WRITE (R189, R147). -/
def execRegisterWrite (address : BitVec 7) (w : Word) (s : State) : Host.Outcome State Fault Refusal :=
  .next (s.whileRunning (State.writeWord address w))

/-- The CONTROL word as it reads: the soft reset field reads 0 (R148, 12.7). -/
def Control.word (c : Control) : Word :=
  Word.field (bitNat c.revertive) 3 + Word.field (bitNat (c.primary == .b)) 2 + Word.field (bitNat c.reports) 1 +
    Word.field (bitNat (c.mode == .held)) 0

/-- The STATUS word (R148, 12.7). -/
def State.statusWord (s : State) : Word :=
  Word.field s.mailbox.state.code 6 + Word.field (bitNat s.cutover.armed) 5 + Word.field s.cutover.settle 3 +
    Word.field s.timing.state.code 1 + Word.field (bitNat (s.maps.state == .copying)) 0

/-- The first word of LINKCFGn: the reset field reads 0 (R126, 12.7). -/
def LinkController.configWord (c : LinkController) : Word :=
  Word.field c.quota 8 + Word.field (bitNat (c.policy == .release)) 2 + Word.field (bitNat c.enable) 0

/-- The first word of LINKSTATn (12.7). -/
def LinkController.statusWord (c : LinkController) : Word :=
  Word.field c.tags.length 12 + Word.field c.lastFault.code 8 + Word.field c.downReason.code 4 +
    Word.field c.state.code 0

/-- The value of a word of the register window as it stands at a read, which has no side effect (R147, 12.7). -/
def State.readRegister (s : State) : Register → Word
  | .control => s.control.word
  | .status => s.statusWord
  | .cycle => s.timing.cycle
  | .inUse => Word.field s.inUse 0
  | .events => s.events.latches
  | .enables => s.events.enables
  | .mboxCtl => 0
  | .linkConfig n => (s.link n).configWord
  | .linkLimit n => Word.field (s.link n).silenceLimit 0
  | .linkStatus n => (s.link n).statusWord
  | .linkOwned n => Word.field (s.ownedCount n) 0
  | .idle01 => s.idle.idle01
  | .idle23 => s.idle.idle23
  | .idle45 => s.idle.idle45
  | .idle67 => s.idle.idle67
  | .command position => Sparse.read 0 s.mailbox.command position
  | .result position => Sparse.read 0 s.mailbox.result position

/-- The word that a read of an address returns; an address that names no word reads 0000H (R147). -/
def State.readWord (s : State) (address : BitVec 7) : Word :=
  match registerAt address with
  | none => 0
  | some r => s.readRegister r

end Sys2Proof.Machine
end

