-- ==== Sys2Proof/Machine/Allocator.lean ====
section
/-! DEFINITION. The Allocator: the placement procedures, pairing, and the slots of a CLAIM, a BRANCH and a RESHAPE
(chapter 3). -/

namespace Sys2Proof.Machine

/-- CONTIGUOUS: the first run of n consecutive free slots (R57). -/
def chooseContiguous (free : List Nat) (n : Nat) : Option (List Nat) :=
  ((List.range (Config.slots - n + 1)).map fun s => (List.range n).map fun k => s + k).find? fun run =>
    run.all fun slot => free.contains slot

/-- SPREAD: the first start whose n positions, one stride apart, are all free (R58). -/
def chooseSpread (free : List Nat) (n : Nat) : Option (List Nat) :=
  ((List.range (Config.slots / n)).map fun s =>
    (List.range n).map fun k => s + k * (Config.slots / n)).find? fun positions =>
      positions.all fun slot => free.contains slot

/-- ANY: the n lowest-numbered free slots (R59). -/
def chooseAny (free : List Nat) (n : Nat) : List Nat := free.take n

/-- FIXED: the listed slots, if every one is free (R56). -/
def chooseFixed (free listed : List Nat) : Option (List Nat) :=
  if listed.all fun slot => free.contains slot then some listed else none

/-- The choice of slots on one trunk side: the count test, then the placement (R55). -/
def chooseSlots (free : List Nat) (n : Nat) (placement : Placement) (listed : List Nat) :
    Except ResultCode (List Nat) :=
  if free.length < n then .error .noRoom
  else
    match placement with
    | .fixed =>
      match chooseFixed free listed with
      | some slots => .ok slots
      | none => .error .slotTaken
    | .contiguous =>
      match chooseContiguous free n with
      | some slots => .ok slots
      | none => .error .noFit
    | .spread =>
      match chooseSpread free n with
      | some slots => .ok slots
      | none => .error .noFit
    | .any => .ok (chooseAny free n)

/-- A slot inserted in ascending order. -/
def insertSlot (x : Nat) : List Nat → List Nat
  | [] => [x]
  | y :: rest => if x ≤ y then x :: y :: rest else y :: insertSlot x rest

/-- Slots in ascending order. -/
def sortSlots (slots : List Nat) : List Nat := slots.foldr insertSlot []

/-- Sorted pairing: the i-th lowest source slot with the i-th lowest destination slot, unmarked (R60). -/
def pairSlots (sources destinations : List Nat) : List Pair :=
  (sortSlots sources).zipWith (fun s d => { src := s, dst := d, retiring := false }) (sortSlots destinations)

/-- A pair inserted in ascending order of destination slot. -/
def insertPair (p : Pair) : List Pair → List Pair
  | [] => [p]
  | q :: rest => if p.dst ≤ q.dst then p :: q :: rest else q :: insertPair p rest

/-- Two pair lists merged into one in ascending order of destination slot (R65). -/
def mergePairs (a b : List Pair) : List Pair := a.foldr insertPair b

/-- The staged source slots of a circuit's unmarked pairs, ascending. -/
def Circuit.sources (c : Circuit) : List Nat :=
  sortSlots ((c.staged.filter fun p => !p.retiring).map fun p => p.src)

/-- The source slots of a RESHAPE to a new width: kept, or kept and added by ANY from the input free set (R63). -/
def State.reshapeSources (s : State) (c : Circuit) (width : Nat) : Except ResultCode (List Nat) :=
  if width ≤ c.width then .ok (c.sources.take width)
  else
    match chooseSlots (s.freeInputs c.srcTrunk) (width - c.width) .any [] with
    | .ok added => .ok (c.sources ++ added)
    | .error code => .error code

/-- The old pairs of a RESHAPE, with the retiring mark (R65). -/
def Circuit.retired (c : Circuit) : List Pair := c.staged.map fun p => { p with retiring := true }

end Sys2Proof.Machine
end

