-- ==== Sys2Proof/Machine/Requests.lean ====
section
/-! DEFINITION. The eight request kinds, the unknown kind and the follow-up items (chapters 4, 5 and 6). -/

namespace Sys2Proof.Machine

/-! ### CLAIM and BRANCH -/

/-- The circuit of a new record (R16). -/
def newCircuit (owner : Owner) (kind : CircuitKind) (srcTrunk dstTrunk width : Nat) (pairs : List Pair)
    (fill : Byte) (lease : Word) : Circuit :=
  { state := .pending, owner := owner, kind := kind, srcTrunk := srcTrunk, dstTrunk := dstTrunk,
    width := width, staged := pairs, live := [], stagedTreatment := .pass, liveTreatment := .pass,
    fill := fill, leaseLength := lease, leaseLeft := lease, pendingChange := none, closeReason := none,
    cutoverCycle := none }

/-- The slots of a CLAIM: the source side first, then the destination side (R55, R61). -/
def State.claimPairs (s : State) (f : ClaimFields) : Except ResultCode (List Pair) :=
  match chooseSlots (s.freeInputs f.srcTrunk) f.width f.srcPlacement f.fixed with
  | .error code => .error code
  | .ok sources =>
    match chooseSlots (s.freeOutputs f.dstTrunk) f.width f.dstPlacement [] with
    | .error code => .error code
    | .ok destinations => .ok (pairSlots sources destinations)

/-- The decision on a CLAIM (R89). -/
def decideClaim (who : Owner) (body : List Word) (s : State) : Decision :=
  match parseClaim who body with
  | none => refuse .badArgument s
  | some f =>
    match s.ownerCheck who (newOwner who f.owner) with
    | some code => refuse code s
    | none =>
      match s.lowestFree with
      | none => refuseNoRecord s
      | some id =>
        match s.claimPairs f with
        | .error code => refuse code s
        | .ok pairs =>
          let t := s.takeRecord id
            (newCircuit (newOwner who f.owner) (.trunk [] f.isOpen) f.srcTrunk f.dstTrunk f.width pairs f.fill
              f.lease)
          { code := .ok, body := pairsBody (t.refWordOf id) f.width pairs, state := t }

/-- CLAIM (R89). -/
def execClaim (s : State) : Host.Outcome State Fault Refusal :=
  .next (s.whileRunning (State.admission (some .claim) decideClaim))

/-- Authority to branch a parent: the supervisor, the parent's owner, or anyone when its open flag is SET (R12,
R81). -/
def mayBranch (who : Owner) (c : Circuit) : Bool :=
  authority who c ||
    match c.kind with
    | .trunk _ isOpen => isOpen
    | .branch _ => false

/-- Step 5 for the parent of a BRANCH (R82, R94). -/
def branchState (c : Circuit) : Option ResultCode :=
  if c.isGoing then some .going
  else if c.state = .pending ∨ c.isTrunk = false then some .wrongState
  else if c.pendingChange = some .reshapeAdd ∨ c.pendingChange = some .reshapeDrop then some .changePending
  else if Config.branchLimit ≤ c.branches.length then some .branchLimit
  else none

/-- The decision on a BRANCH (R92). -/
def decideBranch (who : Owner) (body : List Word) (s : State) : Decision :=
  match parseBranch who body with
  | none => refuse .badArgument s
  | some f =>
    match s.named f.parent f.generation with
    | none => refuse .unknownCircuit s
    | some parent =>
      if mayBranch who parent = false then refuse .notOwner s
      else
        match branchState parent with
        | some code => refuse code s
        | none =>
          match s.ownerCheck who (newOwner who f.owner) with
          | some code => refuse code s
          | none =>
            match s.lowestFree with
            | none => refuseNoRecord s
            | some id =>
              match chooseSlots (s.freeOutputs f.dstTrunk) parent.width f.dstPlacement [] with
              | .error code => refuse code s
              | .ok destinations =>
                let pairs := pairSlots parent.sources destinations
                let t := (s.takeRecord id
                  (newCircuit (newOwner who f.owner) (.branch f.parent) parent.srcTrunk f.dstTrunk parent.width pairs
                    f.fill f.lease)).updateBranches f.parent (fun branches => branches ++ [id])
                { code := .ok, body := pairsBody (t.refWordOf id) parent.width pairs, state := t }

/-- BRANCH (R92). -/
def execBranch (s : State) : Host.Outcome State Fault Refusal :=
  .next (s.whileRunning (State.admission (some .branch) decideBranch))

/-! ### RELEASE -/

/-- The close reason of a RELEASE request (R87). -/
def releaseReason (who : Owner) (c : Circuit) : CloseReason :=
  if who = .supervisor ∧ c.owner ≠ .supervisor then .forced else .released

/-- The decision on a RELEASE (R95 to R98). -/
def decideRelease (who : Owner) (body : List Word) (s : State) : Decision :=
  if body.length ≠ 1 then refuse .badArgument s
  else
    onCircuit who body s fun id c =>
      if c.isGoing then refuse .going s
      else
        let t := s.releaseAll (releaseReason who c) id
        { code := .ok,
          body := [bodyWord body 1,
            Word.field (stateCode (t.circuit id)) 8 + Word.field (s.cascadeOf id).length 0],
          state := t }

/-- RELEASE (R96). -/
def execRelease (s : State) : Host.Outcome State Fault Refusal :=
  .next (s.whileRunning (State.admission (some .release) decideRelease))

/-! ### RESHAPE -/

/-- Step 5 for a RESHAPE (R82). -/
def reshapeState (c : Circuit) : Option ResultCode :=
  if c.isGoing then some .going
  else if c.state ≠ .active ∨ c.isTrunk = false then some .wrongState
  else if c.pendingChange.isSome then some .changePending
  else if c.branches ≠ [] then some .hasBranches
  else none

/-- The new pairs of a RESHAPE: the source side first, then the destination side (R55, R63 to R65). -/
def State.reshapePairs (s : State) (c : Circuit) (width : Nat) (placement : Placement) :
    Except ResultCode (List Pair) :=
  match s.reshapeSources c width with
  | .error code => .error code
  | .ok sources =>
    match chooseSlots (s.freeOutputs c.dstTrunk) width placement [] with
    | .error code => .error code
    | .ok destinations => .ok (pairSlots sources destinations)

/-- Phase 1 of an admitted RESHAPE (R100). -/
def State.reshapeTo (id : Nat) (c : Circuit) (width : Nat) (pairs : List Pair) (s : State) : State :=
  ((s.setCircuit id
    { c with staged := mergePairs c.retired pairs, width := width, pendingChange := some .reshapeAdd }
      ).editStaged (c.describeBatch id pairs)).enlist id

/-- The decision on a RESHAPE (R100). -/
def decideReshape (who : Owner) (body : List Word) (s : State) : Decision :=
  match parseReshape body with
  | none => refuse .badArgument s
  | some (width, placement) =>
    onCircuit who body s fun id c =>
      match reshapeState c with
      | some code => refuse code s
      | none =>
        match s.reshapePairs c width placement with
        | .error code => refuse code s
        | .ok pairs =>
          { code := .ok, body := pairsBody (s.refWordOf id) width pairs, state := s.reshapeTo id c width pairs }

/-- RESHAPE (R100). -/
def execReshape (s : State) : Host.Outcome State Fault Refusal :=
  .next (s.whileRunning (State.admission (some .reshape) decideReshape))

/-! ### SUSPEND and RESUME -/

/-- Step 5 for a SUSPEND (R82). -/
def suspendState (c : Circuit) : Option ResultCode :=
  if c.isGoing then some .going
  else if c.state ≠ .active then some .wrongState
  else if c.pendingChange.isSome then some .changePending
  else none

/-- Step 5 for a RESUME (R82). -/
def resumeState (c : Circuit) : Option ResultCode :=
  if c.isGoing then some .going
  else if c.state ≠ .suspended then some .wrongState
  else if c.pendingChange.isSome then some .changePending
  else none

/-- The staged treatment of a record changes, with its staged entries, and the record is listed (R105, R106). -/
def State.treat (id : Nat) (c : Circuit) (t : Treatment) (change : PendingChange) (s : State) : State :=
  let c' : Circuit := { c with stagedTreatment := t, pendingChange := some change }
  ((s.setCircuit id c').editStaged (c'.describeBatch id c.staged)).enlist id

/-- The decision on a SUSPEND (R105). -/
def decideSuspend (who : Owner) (body : List Word) (s : State) : Decision :=
  if body.length ≠ 1 then refuse .badArgument s
  else
    onCircuit who body s fun id c =>
      match suspendState c with
      | some code => refuse code s
      | none => { code := .ok, body := [s.refWordOf id], state := s.treat id c .fill .suspend }

/-- SUSPEND (R105). -/
def execSuspend (s : State) : Host.Outcome State Fault Refusal :=
  .next (s.whileRunning (State.admission (some .suspend) decideSuspend))

/-- The decision on a RESUME (R106). -/
def decideResume (who : Owner) (body : List Word) (s : State) : Decision :=
  if body.length ≠ 1 then refuse .badArgument s
  else
    onCircuit who body s fun id c =>
      match resumeState c with
      | some code => refuse code s
      | none => { code := .ok, body := [s.refWordOf id], state := s.treat id c .pass .resume }

/-- RESUME (R106). -/
def execResume (s : State) : Host.Outcome State Fault Refusal :=
  .next (s.whileRunning (State.admission (some .resume) decideResume))

/-! ### RENEW and ASK -/

/-- The lease length that a RENEW leaves: the new one, when the body gives one (R108). -/
def renewedLength (body : List Word) (c : Circuit) : Word := if body.length = 2 then bodyWord body 2 else c.leaseLength

/-- The decision on a RENEW (R108). -/
def decideRenew (who : Owner) (body : List Word) (s : State) : Decision :=
  if body.length ≠ 1 ∧ body.length ≠ 2 then refuse .badArgument s
  else
    onCircuit who body s fun id c =>
      if c.isGoing then refuse .going s
      else
        let length := renewedLength body c
        { code := .ok, body := [s.refWordOf id, length, length],
          state := s.setCircuit id { c with leaseLength := length, leaseLeft := length } }

/-- RENEW (R108). -/
def execRenew (s : State) : Host.Outcome State Fault Refusal :=
  .next (s.whileRunning (State.admission (some .renew) decideRenew))

/-- The decision on an ASK (R110). -/
def decideAsk (who : Owner) (body : List Word) (s : State) : Decision :=
  if body.length ≠ 1 then refuse .badArgument s
  else onCircuit who body s fun id _ => { code := .ok, body := s.summary id, state := s }

/-- ASK (R110). -/
def execAsk (s : State) : Host.Outcome State Fault Refusal :=
  .next (s.whileRunning (State.admission (some .ask) decideAsk))

/-! ### Unknown kinds -/

/-- The decision on a command whose kind its source does not accept (R80). -/
def decideUnknownKind (_who : Owner) (_body : List Word) (s : State) : Decision := refuse .badKind s

/-- UNKNOWN_KIND (R80). -/
def execUnknownKind (s : State) : Host.Outcome State Fault Refusal :=
  .next (s.whileRunning (State.admission none decideUnknownKind))

/-! ### Follow-up items -/

/-- The admission of a DROP item: the marked pairs leave the staged list (R66, R77); discarded when it no longer
applies (R76). -/
def State.dropMarked (id : Nat) (s : State) : State :=
  match s.circuit id with
  | none => s
  | some c =>
    if c.isReleasable ∧ c.pendingChange = some .reshapeDrop then
      ((s.setCircuit id { c with staged := c.staged.filter fun p => !p.retiring }).editStaged
        (c.clearBatch (c.staged.filter fun p => p.retiring))).enlist id
    else s

/-- DROP (R77). -/
def execDrop (s : State) : Host.Outcome State Fault Refusal :=
  .next (s.whileRunning (State.followUpAdmission .drop State.dropMarked))

/-- The admission of an EXPIRE or ORPHAN item releases its record; discarded when it no longer applies (R76, R78). -/
def State.releaseItem (reason : CloseReason) (id : Nat) (s : State) : State :=
  if (s.circuit id).any Circuit.isReleasable then s.releaseAll reason id else s

/-- EXPIRE (R117). -/
def execExpire (s : State) : Host.Outcome State Fault Refusal :=
  .next (s.whileRunning (State.followUpAdmission .expire (State.releaseItem .expired)))

/-- ORPHAN (R78). -/
def execOrphan (s : State) : Host.Outcome State Fault Refusal :=
  .next (s.whileRunning (State.followUpAdmission .orphan (State.releaseItem .orphaned)))

end Sys2Proof.Machine
end

