-- ==== Sys2Proof/Machine/Dispatch.lean ====
section
/-! DEFINITION. The one dispatch of the commands to their meanings. -/

namespace Sys2Proof.Machine

def exec (i : Instr) (s : State) : Host.Outcome State Fault Refusal :=
  match i with
  | .powerOnReset => Sys2Proof.Machine.execPowerOnReset s
  | .softReset w => Sys2Proof.Machine.execSoftReset w s
  | .cutoverMode w => Sys2Proof.Machine.execCutoverMode w s
  | .supervisorReportsEnable w => Sys2Proof.Machine.execSupervisorReportsEnable w s
  | .primaryReference w => Sys2Proof.Machine.execPrimaryReference w s
  | .revertive w => Sys2Proof.Machine.execRevertive w s
  | .linkEnable n w => Sys2Proof.Machine.execLinkEnable n w s
  | .linkReset n w => Sys2Proof.Machine.execLinkReset n w s
  | .registerWrite address w => Sys2Proof.Machine.execRegisterWrite address w s
  | .eventsClear w => Sys2Proof.Machine.execEventsClear w s
  | .enablesWrite w => Sys2Proof.Machine.execEnablesWrite w s
  | .mailboxHeaderWrite w => Sys2Proof.Machine.execMailboxHeaderWrite w s
  | .mailboxBodyWrite position w => Sys2Proof.Machine.execMailboxBodyWrite position w s
  | .ack => Sys2Proof.Machine.execAck s
  | .abort withAck => Sys2Proof.Machine.execAbort withAck s
  | .hello n m => Sys2Proof.Machine.execHello n m s
  | .requestReceived n m => Sys2Proof.Machine.execRequestReceived n m s
  | .damagedMessage n m => Sys2Proof.Machine.execDamagedMessage n m s
  | .damageLimit n m => Sys2Proof.Machine.execDamageLimit n m s
  | .silenceLimit n f => Sys2Proof.Machine.execSilenceLimit n f s
  | .clockLoss n => Sys2Proof.Machine.execClockLoss n s
  | .transmitterTake n => Sys2Proof.Machine.execTransmitterTake n s
  | .transmissionComplete n => Sys2Proof.Machine.execTransmissionComplete n s
  | .claim => Sys2Proof.Machine.execClaim s
  | .branch => Sys2Proof.Machine.execBranch s
  | .release => Sys2Proof.Machine.execRelease s
  | .reshape => Sys2Proof.Machine.execReshape s
  | .suspend => Sys2Proof.Machine.execSuspend s
  | .resume => Sys2Proof.Machine.execResume s
  | .renew => Sys2Proof.Machine.execRenew s
  | .ask => Sys2Proof.Machine.execAsk s
  | .readCircuit => Sys2Proof.Machine.execReadCircuit s
  | .readSlot => Sys2Proof.Machine.execReadSlot s
  | .readFree => Sys2Proof.Machine.execReadFree s
  | .takeReport => Sys2Proof.Machine.execTakeReport s
  | .commit => Sys2Proof.Machine.execCommit s
  | .resetLink => Sys2Proof.Machine.execResetLink s
  | .drop => Sys2Proof.Machine.execDrop s
  | .expire => Sys2Proof.Machine.execExpire s
  | .orphan => Sys2Proof.Machine.execOrphan s
  | .frameStart received => Sys2Proof.Machine.execFrameStart received s
  | .boundary f => Sys2Proof.Machine.execBoundary f s
  | .leaseTick received => Sys2Proof.Machine.execLeaseTick received s
  | .leaseRunOut id received => Sys2Proof.Machine.execLeaseRunOut id received s
  | .copyCompletion => Sys2Proof.Machine.execCopyCompletion s
  | .referencePulse r elapsed f => Sys2Proof.Machine.execReferencePulse r elapsed f s
  | .windowClose r f => Sys2Proof.Machine.execWindowClose r f s
  | .referenceGood r elapsed f => Sys2Proof.Machine.execReferenceGood r elapsed f s
  | .unknownKind => Sys2Proof.Machine.execUnknownKind s
  | .resetnRelease => Sys2Proof.Machine.execResetnRelease s
  | .clockReturn n => Sys2Proof.Machine.execClockReturn n s

end Sys2Proof.Machine
end

