-- ==== Sys2Proof/Machine/Pins.lean ====
section
/-! DEFINITION. The output pins, as functions of the state; IRQ is in Flags.lean. -/

namespace Sys2Proof.Machine

/-- The byte that T(t) output slot d carries when the frame in progress reaches it, none while RESETn is asserted
(R165, R167). -/
def State.trunkOutput (s : State) (trunk slot : Nat) : Option Byte :=
  if s.resetAsserted then none else some (s.switch.drives trunk slot)

/-- The byte that T(t) output slot d has carried in the frame in progress, when a frame start of a kind ends that frame
at a time: none for a slot of a short frame that was not reached, which is skipped (R168). -/
def State.frameOutput (kind : FrameKind) (now : Nat) (s : State) (trunk slot : Nat) : Option Byte :=
  if slot < s.timing.slotsReached kind now then s.trunkOutput trunk slot else none

/-- FSO is asserted for the first bit period of slot 0 of every frame, of 512 bit periods, and not while RESETn is
asserted (R176). -/
def State.fso (s : State) : Bool :=
  !s.resetAsserted && (s.timing.time - s.timing.frameStart) * Config.positions < Config.framePeriod

/-- TCK runs in every timing state, and is held low while RESETn is asserted (R176). -/
def State.tckRuns (s : State) : Bool := !s.resetAsserted

/-- LnOCK is driven in DOWN and UP, and in DISABLED until the message on the line has been sent (R121). -/
def State.lnockRuns (s : State) (n : Link) : Bool :=
  !s.resetAsserted && ((s.link n).state != .disabled || (s.link n).line.isSome)

/-- LnODL is asserted while a message is being sent (R121). -/
def State.lnodl (s : State) (n : Link) : Bool := (s.link n).line.isSome

/-- The bits of a message on a transmit line: those of its words, most significant first (R121). -/
def Sending.bits (m : Sending) : List Bool := m.words.flatMap wordBits

/-- The bit that LnODT carries when so many bits of the message being sent have gone before it; none when no message is
being sent or all of its bits have been sent, where R121 states no value (log 24). -/
def State.lnodt (s : State) (n : Link) (sent : Nat) : Option Bool := (s.link n).line.bind fun m => m.bits[sent]?

end Sys2Proof.Machine
end

