-- ==== Sys2Proof/Machine/Spi.lean ====
section
/-! DEFINITION. The SPI target of the supervisor port (R147, 12.7): the command byte, the word writes and the words read
of a transaction, and the SDO pin. A transaction is given by the bits sampled on SDI since SCS_N fell. -/

namespace Sys2Proof.Machine

/-- What a command byte holds: the direction in bit 7 (1 read, 0 write) and the word address in bits 6 to 0 (12.7). -/
structure SpiCommand where
  isRead  : Bool
  address : BitVec 7
deriving DecidableEq, Repr

/-- The number that bits spell, most significant first. -/
def bitsNat (bits : List Bool) : Nat := bits.foldl (fun n b => 2 * n + bitNat b) 0

/-- The command byte of a transaction: its first 8 bits; none before they are sampled (R147). That they come most
significant first, bit 7 before bits 6 to 0, is the model's choice: R147 and 12.7 give an order of bits only for the
16-bit words (log 23). -/
def spiCommand (bits : List Bool) : Option SpiCommand :=
  if bits.length < 8 then none
  else some { isRead := bits.headD false, address := BitVec.ofNat 7 (bitsNat ((bits.take 8).drop 1)) }

/-- The address of a word of a transaction: it rises by 1 after each word and wraps from 7FH to 00H (R147). -/
def SpiCommand.wordAddress (c : SpiCommand) (word : Nat) : BitVec 7 := c.address + BitVec.ofNat 7 word

/-- Word writes at rising addresses (R147). -/
def spiBurst (address : BitVec 7) : List Word → List Instr
  | [] => []
  | w :: rest => .registerWrite address w :: spiBurst (address + 1) rest

/-- The word writes of a transaction, each at the event of its word's 16th bit: none in a read, and none for a partial
word, which is discarded (R147). -/
def spiWrites (bits : List Bool) : List Instr :=
  match spiCommand bits with
  | none => []
  | some c => if c.isRead then [] else spiBurst c.address (splitBits (bits.drop 8) []).1

/-- A word of a read, from the state at the event in which its first bit is driven (R147). -/
def State.spiWord (s : State) (c : SpiCommand) (word : Nat) : Word := s.readWord (c.wordAddress word)

/-- The words of a read burst, from the states at the events in which their first bits are driven; other events may
fall between them (R147). -/
def spiReadBurst (c : SpiCommand) (states : List State) : List Word :=
  (List.range states.length).zipWith (fun word s => s.spiWord c word) states

/-- The SDO pin. -/
inductive Sdo where
  /-- High impedance, while SCS_N is high (R147). -/
  | highImpedance
  /-- A bit of a word read. -/
  | driven (bit : Bool)
  /-- SCS_N is low and no word is being read: R147 states no value (log 22). -/
  | unstated
deriving DecidableEq, Repr

/-- SDO after the falling edge of SCLK that follows the bits sampled since SCS_N fell: in a read, the bits after the
command byte are those of its words, most significant first; the state is that at the event in which the first bit of
the word in progress was driven (R147). -/
def State.sdo (s : State) (selected : Bool) (bits : List Bool) : Sdo :=
  if selected = false then .highImpedance
  else
    match spiCommand bits with
    | none => .unstated
    | some c =>
      if c.isRead then .driven ((s.spiWord c ((bits.length - 8) / 16)).getMsbD ((bits.length - 8) % 16)) else .unstated

end Sys2Proof.Machine
end

