-- ==== Sys2Proof/Safety.lean ====
section
/-! DEFINITION. The terms the statements use: sound states, and the relations between the state before and the state
after the parts of an event. -/

namespace Sys2Proof.Machine

/-! ### Sound states -/

/-- Every addressed buffer and the Circuit Table are in canonical form. -/
def State.Canonical (s : State) : Prop :=
  Sparse.wf Record.initial s.table = true ∧ Sparse.wf Entry.idle s.maps.bankA = true ∧
    Sparse.wf Entry.idle s.maps.bankB = true ∧ Memory.wf s.switch.half0 = true ∧
    Memory.wf s.switch.half1 = true ∧ Sparse.wf Entry.idle s.switch.selection.entries = true ∧
    Sparse.wf (0 : Word) s.mailbox.command = true ∧ Sparse.wf (0 : Word) s.mailbox.result = true

/-- No list holds an id twice (R33, R73, R138, R161), and each window holds at most 8 tags, all distinct (R133). -/
def State.ListsDistinct (s : State) : Prop :=
  s.cutover.changeList.Nodup ∧ (s.engine.followUps.map FollowUp.id).Nodup ∧ s.supQueue.Nodup ∧
    ∀ n, (s.link n).reports.Nodup ∧ (s.link n).tags.Nodup ∧ (s.link n).tags.length ≤ 8

/-- An owner that does not receive reports has no CLOSED record and an empty report queue (R19, R20). -/
def State.ClosedAreHeard (s : State) : Prop :=
  (∀ n, (s.link n).state ≠ .up →
    (s.link n).reports = [] ∧ ∀ id c, s.circuit id = some c → c.owner = .link n → c.state ≠ .closed) ∧
  (s.control.reports = false →
    s.supQueue = [] ∧ ∀ id c, s.circuit id = some c → c.owner = .supervisor → c.state ≠ .closed)

/-- A link that is not UP holds nothing of a conversation (R127, R142), and a link is DISABLED exactly when its enable
bit is 0 (R125, R146). -/
def State.DownLinksEmpty (s : State) : Prop :=
  ∀ n, ((s.link n).state ≠ .up →
      (s.link n).tags = [] ∧ (s.link n).requests = [] ∧ (s.link n).answers = [] ∧ (s.link n).reports = [] ∧
        (s.link n).helloOwed = false ∧ (s.link n).damage = 0 ∧ (s.link n).silence = 0) ∧
    ((s.link n).state = .disabled ↔ (s.link n).enable = false)

/-- Lease left never exceeds lease length (R111). -/
def State.LeasesBounded (s : State) : Prop :=
  ∀ id c, s.circuit id = some c → c.leaseLeft.toNat ≤ c.leaseLength.toNat

/-- No output slot is a destination in the staged pairs of two circuits, and no input slot is a source in the staged
pairs of two TRUNK circuits (R26, R49, R50). -/
def State.StagedSlotsApart (s : State) : Prop :=
  ∀ i j ci cj, i ≠ j → s.circuit i = some ci → s.circuit j = some cj →
    (ci.dstTrunk = cj.dstTrunk → ∀ p ∈ ci.staged, ∀ q ∈ cj.staged, p.dst ≠ q.dst) ∧
    (ci.isTrunk = true → cj.isTrunk = true → ci.srcTrunk = cj.srcTrunk →
      ∀ p ∈ ci.staged, ∀ q ∈ cj.staged, p.src ≠ q.src)

/-- The locked reference is GOOD, the align-pending flag is set in LOCKED only (R170, R172), the frame in cycle is 0 to
15 (R175), and the settle count is 0 to 2 (R38). -/
def State.TimingSound (s : State) : Prop :=
  (∀ r, s.timing.state.locked = some r → (s.timing.ref r).isGood = true) ∧
    (s.timing.state.locked = none → s.timing.alignPending = false) ∧ s.timing.frame ≤ 15 ∧ s.cutover.settle ≤ 2

/-- Each report queue holds only records whose owner is that queue's owner (R138, R161). -/
def State.QueuesOwned (s : State) : Prop :=
  (∀ n, ∀ id ∈ (s.link n).reports, ∃ c, s.circuit id = some c ∧ c.owner = .link n) ∧
    ∀ id ∈ s.supQueue, ∃ c, s.circuit id = some c ∧ c.owner = .supervisor

/-- The pairs of a list that carry the retiring mark, or those that do not. -/
def marked (retiring : Bool) (pairs : List Pair) : List Pair := pairs.filter fun p => p.retiring == retiring

/-- A pair list as R4 keeps it: slots 0 to 63, destination slots strictly ascending, and the pairing law among the
unmarked and among the marked pairs. -/
def ListFormed (pairs : List Pair) : Prop :=
  (∀ p ∈ pairs, p.src < 64 ∧ p.dst < 64) ∧ (pairs.map Pair.dst).Pairwise (· < ·) ∧
    ((marked false pairs).map Pair.src).Pairwise (· < ·) ∧ ((marked true pairs).map Pair.src).Pairwise (· < ·)

/-- A staged list outside a reshape: as many unmarked pairs as the width, and no other (R4). -/
def Whole (c : Circuit) : Prop := (marked false c.staged).length = c.width ∧ marked true c.staged = []

/-- A staged list inside a reshape: as many unmarked pairs as the width beside the old pairs, 1 to 16, marked (R4). -/
def Doubled (c : Circuit) : Prop :=
  (marked false c.staged).length = c.width ∧ 1 ≤ (marked true c.staged).length ∧ (marked true c.staged).length ≤ 16

/-- A pair with the retiring mark taken off. -/
def unmark (p : Pair) : Pair := { p with retiring := false }

/-- The condition of a circuit by its state and pending change (R4, R6, R7): the sizes and contents of its lists, its
treatments, its close reason, and whether its id is on the change list. -/
def Circuit.Formed (listed : Prop) (c : Circuit) : Prop :=
  1 ≤ c.width ∧ c.width ≤ 16 ∧ c.srcTrunk ≤ 7 ∧ c.dstTrunk ≤ 7 ∧ ListFormed c.staged ∧ ListFormed c.live ∧
    (c.closeReason = none ↔ c.state = .pending ∨ c.state = .active ∨ c.state = .suspended) ∧
    match c.state, c.pendingChange with
    | .pending, none =>
      Whole c ∧ c.live = [] ∧ c.stagedTreatment = .pass ∧ c.liveTreatment = .pass ∧ c.cutoverCycle = none ∧ listed
    | .active, none =>
      Whole c ∧ c.live = c.staged ∧ c.stagedTreatment = .pass ∧ c.liveTreatment = .pass ∧ ¬listed
    | .active, some .suspend =>
      Whole c ∧ c.live = c.staged ∧ c.stagedTreatment = .fill ∧ c.liveTreatment = .pass ∧ listed
    | .active, some .reshapeAdd =>
      Doubled c ∧ c.live = (marked true c.staged).map unmark ∧ c.stagedTreatment = .pass ∧
        c.liveTreatment = .pass ∧ listed
    | .active, some .reshapeDrop =>
      c.stagedTreatment = .pass ∧ c.liveTreatment = .pass ∧
        ((Doubled c ∧ c.live = c.staged ∧ ¬listed) ∨
          (Whole c ∧ marked false c.live = c.staged ∧ 1 ≤ (marked true c.live).length ∧
            (marked true c.live).length ≤ 16 ∧ listed))
    | .suspended, none =>
      Whole c ∧ c.live = c.staged ∧ c.stagedTreatment = .fill ∧ c.liveTreatment = .fill ∧ ¬listed
    | .suspended, some .resume =>
      Whole c ∧ c.live = c.staged ∧ c.stagedTreatment = .pass ∧ c.liveTreatment = .fill ∧ listed
    | .releasing, none => c.staged = [] ∧ c.live ≠ [] ∧ listed
    | .closed, none => c.staged = [] ∧ c.live = [] ∧ c.stagedTreatment = c.liveTreatment ∧ ¬listed
    | _, _ => False

/-- Every record that is not FREE is in one of the conditions of R4 and R6, and no FREE record is on the change list
(R21, R33). -/
def State.RecordsFormed (s : State) : Prop :=
  (∀ id c, s.circuit id = some c → c.Formed (id ∈ s.cutover.changeList)) ∧
    ∀ id, s.circuit id = none → id ∉ s.cutover.changeList

/-- What the entry of a pair's destination slot holds when it describes the pair under a treatment (R26). -/
def describes (id : Nat) (c : Circuit) (t : Treatment) (p : Pair) : Entry :=
  match t with
  | .pass => .pass id c.srcTrunk p.src
  | .fill => .fill id c.fill

/-- Every entry of a bank describes the one pair, in the circuits' lists of a kind, that uses its output slot, and is
IDLE where none does (R26). -/
def BankDescribes (s : State) (bank : Bank) (pairs : Circuit → List Pair) (treatment : Circuit → Treatment) : Prop :=
  (∀ id c, s.circuit id = some c → ∀ p ∈ pairs c,
    Sparse.read Entry.idle bank (slotKey c.dstTrunk p.dst) = describes id c (treatment c) p) ∧
  ∀ k, Sparse.read Entry.idle bank k ≠ .idle →
    ∃ id c p, s.circuit id = some c ∧ p ∈ pairs c ∧ slotKey c.dstTrunk p.dst = k

/-- The laws of R26: the live bank describes the live pairs, no output slot is live for two circuits, and in SYNCED the
staged bank describes the staged pairs; in COPYING the change list is empty (R32). -/
def State.BanksDescribe (s : State) : Prop :=
  BankDescribes s s.maps.liveBank Circuit.live Circuit.liveTreatment ∧
    (∀ i j ci cj, i ≠ j → s.circuit i = some ci → s.circuit j = some cj → ci.dstTrunk = cj.dstTrunk →
      ∀ p ∈ ci.live, ∀ q ∈ cj.live, p.dst ≠ q.dst) ∧
    (s.maps.state = .synced → BankDescribes s s.maps.stagedBank Circuit.staged Circuit.stagedTreatment) ∧
    (s.maps.state = .copying → s.cutover.changeList = [])

/-! ### Frames -/

/-- Everything but the records, the banks, the lists, the links and the latches is as it was. -/
def SameOutsideRecords (s t : State) : Prop :=
  t.pending = s.pending ∧ t.resetAsserted = s.resetAsserted ∧ t.control = s.control ∧ t.idle = s.idle ∧
    t.mailbox = s.mailbox ∧ t.switch = s.switch ∧ t.timing = s.timing

/-- The live bank, the live-bank pointer and the bank state are as they were: an edit batch was taken at most (R28,
R29). -/
def StagedBankOnly (s t : State) : Prop :=
  t.maps.live = s.maps.live ∧ t.maps.state = s.maps.state ∧ t.maps.liveBank = s.maps.liveBank

/-- The staged entry of an output slot, by the key of the slot. -/
def State.stagedEntry (s : State) (k : Nat) : Entry := Sparse.read Entry.idle s.maps.stagedBank k

/-- The staged entries of some pairs of a circuit hold what a function gives each pair, and every other staged entry is
as it was (R26, R28). -/
def StagedEntries (c : Circuit) (pairs : List Pair) (entry : Pair → Entry) (s t : State) : Prop :=
  StagedBankOnly s t ∧
    (∀ p ∈ pairs, t.stagedEntry (slotKey c.dstTrunk p.dst) = entry p) ∧
    ∀ k, (∀ p ∈ pairs, slotKey c.dstTrunk p.dst ≠ k) → t.stagedEntry k = s.stagedEntry k

/-! ### The parts of events -/

/-- A record becomes FREE, its generation held; its id leaves every report queue, the follow-up queue and the change
list (R21). This holds for every id of a set at once, and nothing else changes. -/
def Frees (freed : Nat → Bool) (s t : State) : Prop :=
  (∀ id, t.record id =
      if freed id then { generation := (s.record id).generation, circuit := none } else s.record id) ∧
    (∀ n, t.link n = { s.link n with reports := (s.link n).reports.filter fun id => !freed id }) ∧
    t.supQueue = s.supQueue.filter (fun id => !freed id) ∧
    t.engine = { s.engine with followUps := s.engine.followUps.filter fun f => !freed f.id } ∧
    t.cutover = { s.cutover with changeList := s.cutover.changeList.filter fun id => !freed id } ∧
    t.maps = s.maps ∧ t.events = s.events ∧ SameOutsideRecords s t

/-- The owner receives reports (R17): a link in state UP, or the supervisor with reports enabled. -/
def OwnerListens (s : State) (o : Owner) : Prop :=
  match o with
  | .link n => (s.link n).state = .up
  | .supervisor => s.control.reports = true

/-- What queuing an id for its owner does to the links (R138). -/
def reportedLinks (s : State) (o : Owner) (id : Nat) : Links :=
  match o with
  | .link n =>
    if (s.link n).state = .up then
      s.links.set n { s.link n with reports := appendOnce (s.link n).reports id }
    else s.links
  | .supervisor => s.links

/-- What queuing an id for its owner does to the supervisor report queue (R161). -/
def reportedSupQueue (s : State) (o : Owner) (id : Nat) : List Nat :=
  match o with
  | .link _ => s.supQueue
  | .supervisor => if s.control.reports then appendOnce s.supQueue id else s.supQueue

/-- What queuing an id for its owner does to the latches: the first id on an empty supervisor report queue raises
SUP_REPORT (R161). -/
def reportedEvents (s : State) (o : Owner) : EventUnit :=
  match o with
  | .link _ => s.events
  | .supervisor =>
    if s.control.reports = true ∧ s.supQueue = [] then
      { s.events with latches := s.events.latches ||| eventMask .supReport }
    else s.events

/-- The id is queued for its owner when the owner listens, once, with SUP_REPORT for the first of an empty supervisor
report queue (R17, R42, R86, R138, R161). -/
def Reported (o : Owner) (id : Nat) (s t : State) : Prop :=
  t.links = reportedLinks s o id ∧ t.supQueue = reportedSupQueue s o id ∧ t.events = reportedEvents s o

/-- A release of an ACTIVE or SUSPENDED record, from its circuit c (R96, R86). -/
def ReleasedLive (reason : CloseReason) (id : Nat) (c : Circuit) (s t : State) : Prop :=
  t.record id = { generation := (s.record id).generation,
                  circuit := some { c with staged := [], pendingChange := none, closeReason := some reason,
                                           state := .releasing } } ∧
    (∀ j, j ≠ id → t.record j = s.record j) ∧
    StagedEntries c c.staged (fun _ => .idle) s t ∧
    t.cutover = { s.cutover with changeList := appendOnce s.cutover.changeList id } ∧
    t.engine = { s.engine with followUps := s.engine.followUps.filter fun f => f.id ≠ id } ∧
    Reported c.owner id s t ∧ SameOutsideRecords s t

/-- The record of another id after a PENDING circuit c has been released: its parent's branch list loses the id
(R11). -/
def withoutBranch (id : Nat) (c : Circuit) (s : State) (j : Nat) : Record :=
  match c.kind, (s.record j).circuit with
  | .branch parent, some p =>
    match p.kind with
    | .trunk branches isOpen =>
      if parent = j then
        { s.record j with circuit := some { p with kind := .trunk (branches.filter (· ≠ id)) isOpen } }
      else s.record j
    | .branch _ => s.record j
  | _, _ => s.record j

/-- A release of a PENDING record, from its circuit c (R95, R17): CLOSED and reported when its owner listens, else FREE
at once. -/
def ReleasedPending (reason : CloseReason) (id : Nat) (c : Circuit) (s t : State) : Prop :=
  StagedEntries c c.staged (fun _ => .idle) s t ∧
    (∀ j, j ≠ id → t.record j = withoutBranch id c s j) ∧
    t.cutover = { s.cutover with changeList := s.cutover.changeList.filter (· ≠ id) } ∧
    t.engine = { s.engine with followUps := s.engine.followUps.filter fun f => f.id ≠ id } ∧
    SameOutsideRecords s t ∧
    (OwnerListens s c.owner →
      t.record id = { generation := (s.record id).generation,
                      circuit := some { c with staged := [], pendingChange := none, closeReason := some reason,
                                               state := .closed } } ∧ Reported c.owner id s t) ∧
    (¬OwnerListens s c.owner →
      t.record id = { generation := (s.record id).generation, circuit := none } ∧
        (∀ n, t.link n = { s.link n with reports := (s.link n).reports.filter (· ≠ id) }) ∧
        t.supQueue = s.supQueue.filter (· ≠ id) ∧ t.events = s.events)

/-- The release of one record for its own state; a record that is RELEASING, CLOSED or FREE is left as it stands
(R95 to R97). -/
def ReleasedOne (reason : CloseReason) (id : Nat) (s t : State) : Prop :=
  match s.circuit id with
  | none => t = s
  | some c =>
    match c.state with
    | .pending => ReleasedPending reason id c s t
    | .active => ReleasedLive reason id c s t
    | .suspended => ReleasedLive reason id c s t
    | .releasing => t = s
    | .closed => t = s

/-- A list of records is released with reason PARENT_GONE, one after another in the order of the list (R97). -/
def Cascade : List Nat → State → State → Prop
  | [], s, t => t = s
  | b :: rest, s, t => ∃ u, ReleasedOne .parentGone b s u ∧ Cascade rest u t

/-- The branches in PENDING, ACTIVE or SUSPENDED that the branch list of a circuit names (R97). -/
def releasableBranches (s : State) (c : Circuit) : List Nat :=
  c.branches.filter fun b => (s.circuit b).any Circuit.isReleasable

/-- A release with its cascade: the record of the circuit c first, then its branches in the order of its branch list
(R86, R97). -/
def Released (reason : CloseReason) (id : Nat) (c : Circuit) (s t : State) : Prop :=
  ∃ u, ReleasedOne reason id s u ∧ Cascade (releasableBranches s c) u t

/-- The CLOSED records of a link (R19). -/
def isClosedOf (s : State) (o : Owner) (id : Nat) : Bool :=
  (s.circuit id).any fun c => c.owner == o && c.state == .closed

/-- The ids for which a link under policy RELEASE offers ORPHAN items: its records in PENDING, ACTIVE or SUSPENDED, in
ascending order (R74, R143). -/
def orphansOf (s : State) (n : Link) : List Nat := s.idsWhere fun c => c.owner == .link n && c.isReleasable

/-- The follow-up queue after the policy of a link has acted (R143). -/
def afterPolicy (s : State) (n : Link) (queue : List FollowUp) : List FollowUp :=
  match (s.link n).policy with
  | .keep => queue
  | .release => (orphansOf s n).foldl (fun q id => offerTo q { kind := .orphan, id := id }) queue

/-- A link leaves UP (R142): its CLOSED records become FREE (R19), its queues, window and counts are emptied, its
policy acts (R143), LINK_STATE is raised, and a message on the line goes on to its end (R141). -/
def LeavesUp (n : Link) (target : LinkState) (reason : DownReason) (s t : State) : Prop :=
  ∃ u, Frees (isClosedOf s (.link n)) s u ∧
    t = ((u.withLink n
      { s.link n with
        state := target, downReason := reason, damage := 0, silence := 0, tags := [], requests := [], answers := [],
        reports := [], helloOwed := false, line := (s.link n).line.map fun m => { m with frees := none } }).withEngine
      { u.engine with followUps := afterPolicy s n u.engine.followUps }).raise (.linkState n)

/-- The staged form of one record changes, with its staged entries, and its id is listed (R28, R34); nothing else
changes. -/
def Restaged (id : Nat) (c c' : Circuit) (pairs : List Pair) (entry : Pair → Entry) (s t : State) : Prop :=
  t.record id = { generation := (s.record id).generation, circuit := some c' } ∧
    (∀ j, j ≠ id → t.record j = s.record j) ∧ StagedEntries c pairs entry s t ∧
    t.cutover = { s.cutover with changeList := appendOnce s.cutover.changeList id } ∧
    t.engine = s.engine ∧ t.links = s.links ∧ t.supQueue = s.supQueue ∧ t.events = s.events ∧ SameOutsideRecords s t

/-- A FREE record is taken for a new circuit (R2, R16, R28, R34): its generation is incremented, its pairs are
described in the staged bank as PASS, its id is listed, and the other records are as a function gives them. -/
def RecordTaken (id : Nat) (c : Circuit) (others : Nat → Record) (s t : State) : Prop :=
  t.record id = { generation := (s.record id).generation + 1, circuit := some c } ∧
    (∀ j, j ≠ id → t.record j = others j) ∧
    StagedEntries c c.staged (fun p => .pass id c.srcTrunk p.src) s t ∧
    t.cutover = { s.cutover with changeList := appendOnce s.cutover.changeList id } ∧
    t.engine = s.engine ∧ t.links = s.links ∧ t.supQueue = s.supQueue ∧ t.events = s.events ∧ SameOutsideRecords s t

/-! ### Admissions -/

/-- The part is running, the engine takes a request of a kind from a requester next, and this is its body (R68,
R69). -/
def Takes (s : State) (who : Owner) (kind : Option RequestKind) (body : List Word) : Prop :=
  s.resetAsserted = false ∧
    match who with
    | .supervisor => s.nextItem = some .mailbox ∧ mailboxKind s.mailboxKindByte = kind ∧ s.mailboxBody = body
    | .link n =>
      s.nextItem = some (.link n) ∧
        ∃ r rest, (s.link n).requests = r :: rest ∧ linkKind r.kind = kind ∧ r.body = body

/-- The state t is u, the state as the effects of the request that stands in s leave it, with the request taken and its
answer placed: in the result window, with the mailbox DONE and MBOX_DONE raised (R153); or at the tail of the link's
answer queue, with the request gone from the head of its queue and the round-robin pointer moved (R69, R70, R85). -/
def Answered (who : Owner) (code : ResultCode) (body : List Word) (s u t : State) : Prop :=
  match who with
  | .supervisor =>
    ∃ result : Sparse Word,
      (∀ p, Sparse.read 0 result p =
        if p = 0 then Word.ofBytes s.mailboxKindByte code.value
        else if p ≤ body.length then bodyWord body p else 0) ∧
      t = (u.withMailbox { s.mailbox with state := .done, result := result }).raise .mboxDone
  | .link n =>
    ∃ r rest, (s.link n).requests = r :: rest ∧
      t = (u.withLink n
        { u.link n with
          requests := rest
          answers := (u.link n).answers ++
            [{ kind := r.kind, tag := r.tag, code := code, body := body, reserved := true }] }).withEngine
        { u.engine with pointer := nextLink n }

/-- The engine takes a follow-up item next (R69). -/
def TakesFollowUp (s : State) (kind : FollowKind) (id : Nat) : Prop :=
  s.resetAsserted = false ∧ s.nextItem = some (.followUp { kind := kind, id := id })

/-- The state with the head of the follow-up queue gone (R75). -/
def withoutHead (s : State) : State := s.withEngine { s.engine with followUps := s.engine.followUps.tail }

/-- The command that admits a request of a kind. -/
def commandOf : RequestKind → Instr
  | .claim => .claim
  | .branch => .branch
  | .release => .release
  | .reshape => .reshape
  | .suspend => .suspend
  | .resume => .resume
  | .renew => .renew
  | .ask => .ask
  | .readCircuit => .readCircuit
  | .readSlot => .readSlot
  | .readFree => .readFree
  | .takeReport => .takeReport
  | .commit => .commit
  | .resetLink => .resetLink

/-- The code of a placement (12.2). -/
def placementCode : Placement → Nat
  | .fixed => 0
  | .contiguous => 1
  | .spread => 2
  | .any => 3

/-- A number in a word's place of a body, the first word after word 1 of the header being word 1 (12.3). -/
def wordNat (body : List Word) (i : Nat) : Nat := (body.getD (i - 1) 0).toNat

/-- The owner word that may end a body (12.3, R187): from the mailbox only, with the owner's code in bits 7 to 0. -/
def OwnerWord (who : Owner) (owner : Option Owner) (body : List Word) (plain : Nat) : Prop :=
  match owner with
  | none => body.length = plain
  | some o => who = .supervisor ∧ body.length = plain + 1 ∧ wordNat body (plain + 1) % 256 = o.code

/-- A slot of the FIXED list, two to a word from word 5 (12.3). -/
def listedSlot (body : List Word) (i : Nat) : Nat :=
  if i % 2 = 0 then wordNat body (5 + i / 2) / 256 else wordNat body (5 + i / 2) % 256

/-- A CLAIM body within the layout and the ranges of R54, R80, R187 and 12.3, with the fields it holds. -/
def ClaimBody (who : Owner) (body : List Word) (f : ClaimFields) : Prop :=
  f.srcTrunk ≤ 7 ∧ f.dstTrunk ≤ 7 ∧ 1 ≤ f.width ∧ f.width ≤ 16 ∧ f.dstPlacement ≠ .fixed ∧
    OwnerWord who f.owner body (if f.srcPlacement = .fixed then 4 + (f.width + 1) / 2 else 4) ∧
    wordNat body 1 = f.srcTrunk * 256 + f.dstTrunk ∧
    wordNat body 2 = f.width * 256 + placementCode f.srcPlacement * 16 + placementCode f.dstPlacement ∧
    wordNat body 3 = (if f.isOpen then 256 else 0) + f.fill.toNat ∧ wordNat body 4 = f.lease.toNat ∧
    (f.srcPlacement ≠ .fixed → f.fixed = []) ∧
    (f.srcPlacement = .fixed → f.fixed = (List.range f.width).map (listedSlot body) ∧
      f.fixed.Pairwise (· < ·) ∧ ∀ slot ∈ f.fixed, slot ≤ 63)

/-- A BRANCH body within the layout and the ranges of R54, R80, R187 and 12.3, with the fields it holds. -/
def BranchBody (who : Owner) (body : List Word) (f : BranchFields) : Prop :=
  f.parent < 256 ∧ f.dstTrunk ≤ 7 ∧ f.dstPlacement ≠ .fixed ∧ OwnerWord who f.owner body 4 ∧
    wordNat body 1 = f.parent * 256 + f.generation.toNat ∧
    wordNat body 2 = f.dstTrunk * 256 + placementCode f.dstPlacement ∧ wordNat body 3 % 256 = f.fill.toNat ∧
    wordNat body 4 = f.lease.toNat

/-- A RESHAPE body within the layout and the ranges of R54, R80, R187 and 12.3, with its width and placement. -/
def ReshapeBody (body : List Word) (width : Nat) (placement : Placement) : Prop :=
  body.length = 2 ∧ 1 ≤ width ∧ width ≤ 16 ∧ placement ≠ .fixed ∧
    wordNat body 2 = width * 256 + placementCode placement

/-- A body that passes steps 1 and 2 of the check order for its kind and its source (R80, R155, R187). -/
def BodyPermitted (who : Owner) (kind : RequestKind) (body : List Word) : Prop :=
  match kind with
  | .claim => ∃ f, ClaimBody who body f
  | .branch => ∃ f, BranchBody who body f
  | .reshape => ∃ width placement, ReshapeBody body width placement
  | .release => body.length = 1
  | .suspend => body.length = 1
  | .resume => body.length = 1
  | .renew => body.length = 1 ∨ body.length = 2
  | .ask => body.length = 1
  | .readCircuit => body.length = 1 ∧ wordNat body 1 % 256 ≤ 1
  | .readSlot => body.length = 1 ∧ wordNat body 1 / 256 ≤ 7 ∧ wordNat body 1 % 256 ≤ 63
  | .readFree => body.length = 1 ∧ wordNat body 1 / 256 ≤ 7 ∧ wordNat body 1 % 256 ≤ 1
  | .takeReport => body = []
  | .commit => body = []
  | .resetLink => body.length = 1 ∧ wordNat body 1 % 256 ≤ 3

/-- The body of a CLAIM (12.3), written from its fields: the words before the owner word. -/
def claimWords (f : ClaimFields) (srcCode dstCode : Nat) (list : List Word) : List Word :=
  [ BitVec.ofNat 16 (f.srcTrunk * 256 + f.dstTrunk), BitVec.ofNat 16 (f.width * 256 + srcCode * 16 + dstCode),
    Word.ofBytes (BitVec.ofNat 8 (bitNat f.isOpen)) f.fill, f.lease ] ++ list

/-- Slots written two to a word, the lower-listed one in bits 15 to 8, the last lower byte 0 for an odd count
(12.3). -/
def slotWords : List Nat → List Word
  | [] => []
  | [a] => [BitVec.ofNat 16 (a * 256)]
  | a :: b :: rest => BitVec.ofNat 16 (a * 256 + b) :: slotWords rest

/-- The owner word of a mailbox body (12.3). -/
def ownerWords : Option Owner → List Word
  | none => []
  | some o => [BitVec.ofNat 16 o.code]

/-! ### Link reception -/

/-- The part is running and the link takes a received message as a good one (R123). -/
def TakesGood (s : State) (n : Link) (m : RxMessage) : Prop :=
  s.resetAsserted = false ∧ (s.link n).state ≠ .disabled ∧ ((s.link n).rxVoid = true → m.spansDiscard = false) ∧
    classify m = .good

/-- The part is running and the link takes a received message as a damaged one (R123). -/
def TakesDamaged (s : State) (n : Link) (m : RxMessage) (reason : FaultReason) : Prop :=
  s.resetAsserted = false ∧ (s.link n).state ≠ .disabled ∧ ((s.link n).rxVoid = true → m.spansDiscard = false) ∧
    classify m = .damaged reason

/-- What the reception of a message does to its link besides the message's own effect: its bits came with clock edges
(R121, log 12), and no earlier discard stands (log 13). -/
def heard (c : LinkController) : LinkController := { c with clockArmed := true, rxVoid := false }

/-! ### Frame starts -/

/-- A frame start of the Timing Unit's own timing is due and no window closes before it (R170, log 6). -/
def OwnFrameDue (s : State) : Prop :=
  s.resetAsserted = false ∧ s.timing.aligned = none ∧ s.timing.mayFall s.timing.ownFrameTime = true

/-- What a frame start does to the Switch Core (R164, R165): the half that was written has received its frame, the
other half is as it was, the halves change, and the selection is fixed from a live bank and the idle bytes. -/
def FrameSwitched (received : TrunkBytes) (reached : Nat) (live : Bank) (s t : State) : Prop :=
  t.switch.writeHalf = otherHalf s.switch.writeHalf ∧
    t.switch.half (otherHalf s.switch.writeHalf) = s.switch.half (otherHalf s.switch.writeHalf) ∧
    (∀ k, Memory.read t.switch.readHalf k =
      if slotReached reached k then Sparse.read 0xFF received k
      else Memory.read (s.switch.half s.switch.writeHalf) k) ∧
    t.switch.selection = { entries := live, idle := s.idle }

/-- The silence count of the link reaches its limit at a boundary taken now (R130). -/
def LimitReached (s : State) (n : Link) : Prop :=
  (s.link n).state = .up ∧ (s.link n).silenceLimit ≤ (s.link n).silence + 1

/-- A Link Controller after a boundary at which its silence limit is not reached (R130). -/
def silenceCounted (c : LinkController) : LinkController :=
  if c.state = .up then { c with silence := c.silence + 1 } else c

/-- A Link Controller takes a boundary (R130, R142). -/
def CountsSilence (n : Link) (s t : State) : Prop :=
  (LimitReached s n → LeavesUp n .down .silent s t) ∧
    (¬LimitReached s n → t = s.withLink n (silenceCounted (s.link n)))

/-- Link Controllers take a boundary, one after another (R130). -/
def LinksCount : List Link → State → State → Prop
  | [], s, t => t = s
  | n :: rest, s, t => ∃ u, CountsSilence n s u ∧ LinksCount rest u t

/-- A cutover is made at a boundary that is not stepped (R36). -/
def CutsOver (s : State) : Prop :=
  s.cutover.settle = 0 ∧ (s.control.mode = .auto ∨ s.cutover.armed = true) ∧ s.maps.state = .synced ∧
    s.cutover.changeList ≠ []

/-- The latches after a boundary without a cutover (R37). -/
def deferredEvents (s : State) : EventUnit :=
  if s.cutover.changeList = [] then s.events
  else { s.events with latches := s.events.latches ||| eventMask .deferred }

/-- What a cutover makes of a circuit that is not RELEASING (R40, R41). -/
def applied (cycle : Word) (c : Circuit) : Circuit :=
  let d : Circuit := { c with live := c.staged, liveTreatment := c.stagedTreatment, cutoverCycle := some cycle }
  if c.state = .pending then { d with state := .active, pendingChange := none, leaseLeft := c.leaseLength }
  else if c.state = .active ∧ c.pendingChange = some .suspend then { d with state := .suspended, pendingChange := none }
  else if c.state = .suspended ∧ c.pendingChange = some .resume then { d with state := .active, pendingChange := none }
  else if c.state = .active ∧ c.pendingChange = some .reshapeAdd then { d with pendingChange := some .reshapeDrop }
  else if c.state = .active ∧ c.pendingChange = some .reshapeDrop then { d with pendingChange := none }
  else d

/-- What a cutover makes of a RELEASING circuit whose owner listens: CLOSED, with the branch list of a TRUNK emptied
(R11, R17, R40, R41). -/
def closedAt (cycle : Word) (c : Circuit) : Circuit :=
  { c with
    live := c.staged, liveTreatment := c.stagedTreatment, cutoverCycle := some cycle, state := .closed
    kind := match c.kind with
      | .trunk _ isOpen => .trunk [] isOpen
      | .branch parent => .branch parent }

/-- A cutover offers a DROP item for the circuit (R41). -/
def offersDrop (c : Circuit) : Bool := c.state == .active && c.pendingChange == some .reshapeAdd

/-- A cutover applies one record of the change list (R11, R17, R40 to R42): its circuit, the reports, the DROP item of a
reshape, and the branch list of the parent of a RELEASING branch; nothing else changes. -/
def Applied (id : Nat) (s t : State) : Prop :=
  match s.circuit id with
  | none => t = s
  | some c =>
    t.maps = s.maps ∧ SameOutsideRecords s t ∧
    (c.state ≠ .releasing →
      t.record id = { generation := (s.record id).generation, circuit := some (applied s.timing.cycle c) } ∧
        (∀ j, j ≠ id → t.record j = s.record j) ∧ Reported c.owner id s t ∧ t.cutover = s.cutover ∧
        t.engine = if offersDrop c then
          { s.engine with followUps := offerTo s.engine.followUps { kind := .drop, id := id } } else s.engine) ∧
    (c.state = .releasing →
      (∀ j, j ≠ id → t.record j = withoutBranch id c s j) ∧
      (OwnerListens s c.owner →
        t.record id = { generation := (s.record id).generation, circuit := some (closedAt s.timing.cycle c) } ∧
          Reported c.owner id s t ∧ t.cutover = s.cutover ∧ t.engine = s.engine) ∧
      (¬OwnerListens s c.owner →
        t.record id = { generation := (s.record id).generation, circuit := none } ∧
          (∀ n, t.link n = { s.link n with reports := (s.link n).reports.filter (· ≠ id) }) ∧
          t.supQueue = s.supQueue.filter (· ≠ id) ∧ t.events = s.events ∧
          t.engine = { s.engine with followUps := s.engine.followUps.filter fun f => f.id ≠ id } ∧
          t.cutover = { s.cutover with changeList := s.cutover.changeList.filter (· ≠ id) }))

/-- A cutover applies the records of a list, one after another in the order of the list (R39). -/
def AppliedAll : List Nat → State → State → Prop
  | [], s, t => t = s
  | id :: rest, s, t => ∃ u, Applied id s u ∧ AppliedAll rest u t

/-- A cutover (R39, R44): the records of the change list are applied in its order, the list is emptied, the COMMIT armed
flag is cleared, the banks change roles, the copy begins, and CUTOVER is raised. -/
def CutOver (s t : State) : Prop :=
  ∃ u, AppliedAll s.cutover.changeList s u ∧
    t = ((u.withCutover { changeList := [], armed := false, settle := u.cutover.settle }).withMaps
      { u.maps with live := otherBank u.maps.live, state := .copying }).raise .cutover

/-- The decision of the Cutover Controller at a boundary (R36 to R38). -/
def Decided (stepped : Bool) (s t : State) : Prop :=
  (stepped = true ∨ ¬CutsOver s →
    t = (s.withCutover { s.cutover with settle := if stepped then 2 else s.cutover.settle - 1 }).withEvents
      (deferredEvents s)) ∧
  (stepped = false → CutsOver s → CutOver s t)

/-- A boundary is taken by the Link Controllers that come first in an order, by the Cutover Controller, and by the other
Link Controllers (R36, R130, R175; the order is open, log 10). -/
def BoundaryTaken (stepped : Bool) (order : BoundaryOrder) (s t : State) : Prop :=
  ∃ u v, LinksCount (linksBefore order) s u ∧ Decided stepped u v ∧ LinksCount (linksAfter order) v t

/-- A running lease with lease left above 0 is counted down (R112, R113). -/
def counted (c : Circuit) : Circuit :=
  if (c.state = .active ∨ c.state = .suspended) ∧ c.leaseLength ≠ 0 ∧ c.leaseLeft ≠ 0 then
    { c with leaseLeft := c.leaseLeft - 1 }
  else c

/-- The ids whose lease runs out at a tick, in ascending order (R113, R114). -/
def runningOut (s : State) : List Nat :=
  s.idsWhere fun c =>
    (c.state == .active || c.state == .suspended) && c.leaseLength != 0 && c.leaseLeft == 1

/-- What the lease tick does (R113, R114). -/
def LeasesTicked (s t : State) : Prop :=
  (∀ id, t.record id = { generation := (s.record id).generation, circuit := (s.circuit id).map counted }) ∧
    t.engine = { s.engine with
      followUps := (runningOut s).foldl (fun q id => offerTo q { kind := .expire, id := id }) s.engine.followUps } ∧
    t.events =
      (if runningOut s = [] then s.events
       else { s.events with latches := s.events.latches ||| eventMask .expiry }) ∧
    t.maps = s.maps ∧ t.cutover = s.cutover ∧ t.links = s.links ∧ t.supQueue = s.supQueue

/-- The slots of the frame in progress that a stepped boundary at a time finds reached: those before the slot in progress,
and all of them when that is slot 63, since the frame is then not short (R168; log 6, log 9). -/
def slotsBefore (s : State) (now : Nat) : Nat :=
  let slot := (now - s.timing.frameStart) * 64 / 125000
  if slot < 63 then slot else 64

/-- The state t is s after a frame start of a kind at a time (R164, R165, R168, R175), with the effects of R113 and R114
at a lease tick and those of R36 to R44 and R130 at a boundary. -/
def FrameStarts (kind : FrameKind) (now : Nat) (f : FrameInput) (s t : State) : Prop :=
  match kind with
  | .ordinary =>
    FrameSwitched f.received 64 s.maps.liveBank s t ∧
      t = (s.withSwitch t.switch).withTiming
        { s.timing with frame := s.timing.frame + 1, time := now, frameStart := now }
  | .leaseTick =>
    FrameSwitched f.received 64 s.maps.liveBank s t ∧ LeasesTicked s t ∧
      t.timing = { s.timing with frame := 8, time := now, frameStart := now } ∧
      t.pending = s.pending ∧ t.resetAsserted = s.resetAsserted ∧ t.control = s.control ∧ t.idle = s.idle ∧
      t.mailbox = s.mailbox
  | .boundary stepped =>
    FrameSwitched f.received (if stepped then slotsBefore s now else 64) t.maps.liveBank s t ∧
      ∃ switch u,
        BoundaryTaken stepped f.order
          ((s.withSwitch switch).withTiming
            { s.timing with frame := 0, cycle := s.timing.cycle + 1, time := now, frameStart := now }) u ∧
        t = u.withSwitch t.switch

/-- The id of a branch leaves the branch list of a parent at a cutover: it is on the change list, RELEASING (R11). -/
def leavesTree (s : State) (parent branch : Nat) : Bool :=
  s.cutover.changeList.contains branch &&
    (s.circuit branch).any fun c => c.state == .releasing && c.kind == .branch parent

/-- The branch list of a circuit as a cutover leaves it, unless the circuit is itself taken out of live (R11). -/
def pruned (s : State) (id : Nat) (c : Circuit) : Circuit :=
  match c.kind with
  | .trunk branches isOpen => { c with kind := .trunk (branches.filter fun b => !leavesTree s id b) isOpen }
  | .branch _ => c

/-- The ids of the change list, in its order, whose records meet a test (R39). -/
def listedWhere (s : State) (test : Circuit → Bool) : List Nat :=
  s.cutover.changeList.filter fun id => (s.circuit id).any test

/-- A cutover makes the record FREE: it is RELEASING and its owner does not receive reports (R17). -/
def freedByCutover (s : State) (id : Nat) : Bool :=
  s.cutover.changeList.contains id && (s.circuit id).any fun c => c.state == .releasing && !s.receives c.owner

/-- The Timing Unit after the loss of the locked reference, already ABSENT (R172). -/
def lost (r : Ref) (u : TimingUnit) : TimingUnit :=
  if (u.ref (otherRef r)).isGood then { u with state := lockedTo (otherRef r), alignPending := true }
  else { u with state := .holdover, alignPending := false }

end Sys2Proof.Machine
end

