-- ==== Sys2Proof/WellFormed.lean ====
section
/-! DEFINITION. The checks a command's operands meet: what a link, a trunk and the register window can deliver. -/

namespace Sys2Proof

/-- A partial word has fewer bits than a word (R121). -/
def RxMessage.wf (m : RxMessage) : Bool := m.partialBits.length < 16

/-- The listed positions rise strictly: no input slot receives two bytes in one frame. -/
def TrunkBytes.rising : TrunkBytes → Bool
  | [] => true
  | (a, _) :: rest => rest.all (fun c => a < c.1) && TrunkBytes.rising rest

/-- Received bytes name input slots of the eight trunks, each at most once (R164). -/
def TrunkBytes.wf (b : TrunkBytes) : Bool :=
  b.all (fun c => c.1 < Config.positions) && TrunkBytes.rising b

/-- Each of the four Link Controllers takes a boundary exactly once (R175). -/
def BoundaryOrder.wf (o : BoundaryOrder) : Bool :=
  [Link.l0, .l1, .l2, .l3].all (fun n => (o.before ++ o.after).count n = 1)

/-- The bytes and the order that come with a frame start are both well formed. -/
def FrameInput.wf (f : FrameInput) : Bool := TrunkBytes.wf f.received && f.order.wf

/-- The operands of a command are such as the outside of the part can give. -/
def Instr.wf : Instr → Bool
  | .powerOnReset => true
  | .softReset _ => true
  | .cutoverMode _ => true
  | .supervisorReportsEnable _ => true
  | .primaryReference _ => true
  | .revertive _ => true
  | .linkEnable _ _ => true
  | .linkReset _ _ => true
  | .registerWrite _ _ => true
  | .eventsClear _ => true
  | .enablesWrite _ => true
  | .mailboxHeaderWrite _ => true
  | .mailboxBodyWrite position _ => 1 ≤ position && position ≤ Config.maxBody
  | .ack => true
  | .abort _ => true
  | .hello _ m => m.wf
  | .requestReceived _ m => m.wf
  | .damagedMessage _ m => m.wf
  | .damageLimit _ m => m.wf
  | .silenceLimit _ f => f.wf
  | .clockLoss _ => true
  | .transmitterTake _ => true
  | .transmissionComplete _ => true
  | .claim => true
  | .branch => true
  | .release => true
  | .reshape => true
  | .suspend => true
  | .resume => true
  | .renew => true
  | .ask => true
  | .readCircuit => true
  | .readSlot => true
  | .readFree => true
  | .takeReport => true
  | .commit => true
  | .resetLink => true
  | .drop => true
  | .expire => true
  | .orphan => true
  | .frameStart received => TrunkBytes.wf received
  | .boundary f => f.wf
  | .leaseTick received => TrunkBytes.wf received
  | .leaseRunOut id received => id < Config.records && TrunkBytes.wf received
  | .copyCompletion => true
  | .referencePulse _ _ f => f.wf
  | .windowClose _ f => f.wf
  | .referenceGood _ _ f => f.wf
  | .unknownKind => true
  | .resetnRelease => true
  | .clockReturn _ => true

end Sys2Proof
end

