-- ==== Sys2Proof/Certificates/Slice0/Obligations.lean ====
section
/-! DEFINITION. The statements for the provers. -/

open Sys2Proof Sys2Proof.Machine

/-! ### The queue and the resets -/

/-- A step runs the command at the front of the queue on the state with the queue's rest (the model's queue, log 1). -/
def Obligations.StepRunsTheFrontCommand : Prop :=
  ∀ (c : Instr) (rest : List Instr) (s : State), s.pending = c :: rest → step s = exec c (s.withPending rest)

/-- With an empty queue the part idles (log 1); while RESETn is asserted every command but POWER_ON_RESET and
RESETN_RELEASE leaves the part as it is (log 5). Both are the model's own choices. -/
def Obligations.IdleQueueAndHeldReset : Prop :=
  (∀ s : State, s.pending = [] → step s = .next s) ∧
    ∀ (c : Instr) (s : State), s.resetAsserted = true → c ≠ .powerOnReset → c ≠ .resetnRelease → exec c s = .next s

/-- Every command ends in a next state, and no command touches the queue. -/
def Obligations.EveryCommandAnswersNext : Prop :=
  ∀ (c : Instr) (s : State), ∃ t, exec c s = .next t ∧ t.pending = s.pending

/-- Power-on reset sets every piece of state that the spec gives a reset value to that value, whatever the state
before; nothing is driven and IRQ is deasserted while RESETn is asserted (R24, R47, R72, R146, R148, R149, R164, R166,
R167, R177, R183). -/
def Obligations.PowerOnResetValues : Prop :=
  ∀ s : State, ∃ t, exec .powerOnReset s = .next t ∧ t.pending = s.pending ∧ t.resetAsserted = true ∧
    (∀ id, t.record id = { generation := 0, circuit := none }) ∧
    (∀ k, Sparse.read Entry.idle t.maps.bankA k = .idle ∧ Sparse.read Entry.idle t.maps.bankB k = .idle) ∧
    t.maps.live = .a ∧ t.maps.state = .synced ∧
    t.cutover = { changeList := [], armed := false, settle := 0 } ∧
    t.engine = { followUps := [], pointer := .l0 } ∧
    (∀ n, (t.link n).state = .down ∧ (t.link n).downReason = .none ∧ (t.link n).lastFault = .none ∧
      (t.link n).damage = 0 ∧ (t.link n).silence = 0 ∧ (t.link n).tags = [] ∧ (t.link n).requests = [] ∧
      (t.link n).answers = [] ∧ (t.link n).reports = [] ∧ (t.link n).helloOwed = false ∧ (t.link n).line = none ∧
      (t.link n).enable = true ∧ (t.link n).policy = .keep ∧ (t.link n).quota = 64 ∧
      (t.link n).silenceLimit = 32) ∧
    t.control = { mode := .auto, reports := false, primary := .a, revertive := false } ∧
    (∀ trunk, t.idle.byte trunk = 0xFF) ∧
    t.mailbox.state = .idle ∧ t.mailbox.declared = 0 ∧ t.mailbox.mask = 0 ∧
    (∀ p, Sparse.read (0 : Word) t.mailbox.command p = 0 ∧ Sparse.read (0 : Word) t.mailbox.result p = 0) ∧
    t.supQueue = [] ∧
    (∀ k, Memory.read t.switch.half0 k = 0xFF ∧ Memory.read t.switch.half1 k = 0xFF) ∧
    t.switch.writeHalf = .half0 ∧
    t.timing.state = .freeRun ∧ t.timing.alignPending = false ∧ t.timing.refA = .absent ∧
    t.timing.refB = .absent ∧ t.timing.frame = 0 ∧ t.timing.cycle = 0 ∧
    t.events = { latches := 0, enables := 0 } ∧ t.irq = false ∧
    ∀ trunk slot, t.trunkOutput trunk slot = none

/-- On release of RESETn the part starts frame 0 of cycle 0000H in FREE_RUN; that frame start is no boundary, raises
nothing, and fixes the selection (R177, R167). After a power-on reset it leaves the part in the state of
State.reset, whose registers read as 12.7 gives, an address without a word as 0000H (R147); the write half after it
is log 18, and a release with RESETn released already is log 3. -/
def Obligations.ResetReleaseStartsFrameZero : Prop :=
  (∀ s t : State, exec .powerOnReset s = .next t →
      exec .resetnRelease t = .next (State.reset.withPending s.pending)) ∧
    (∀ s : State, s.resetAsserted = true →
      exec .resetnRelease s = .next ((s.withResetAsserted false).withSwitch
        { s.switch with selection := { entries := s.maps.liveBank, idle := s.idle } })) ∧
    (∀ s : State, s.resetAsserted = false → exec .resetnRelease s = .next s) ∧
    ∀ a : BitVec 7, State.reset.readWord a =
      if a = 0x08 ∨ a = 0x0A ∨ a = 0x0C ∨ a = 0x0E then 0x4001
      else if a = 0x09 ∨ a = 0x0B ∨ a = 0x0D ∨ a = 0x0F then 0x0020
      else if a = 0x10 ∨ a = 0x12 ∨ a = 0x14 ∨ a = 0x16 then 0x0001
      else if a = 0x18 ∨ a = 0x19 ∨ a = 0x1A ∨ a = 0x1B then 0xFFFF
      else 0

/-- A soft reset: first the fields of the CONTROL word are stored and act, as the same write without the soft reset
field would have it; then the values of R163 and R146 stand, the configuration, the Timing Unit and the Switch Core
being kept. That the clock-loss detector keeps its condition (log 12) and that a message in reception is discarded by
the mark `rxVoid` (log 13) are the model's own choices, and so is the row as a write of the CONTROL word (log 19). -/
def Obligations.SoftResetValues : Prop :=
  ∀ (s : State) (w : Word), s.resetAsserted = false →
    ∃ u t, exec (.registerWrite 0 (w &&& 0x7FFF)) s = .next u ∧ exec (.softReset w) s = .next t ∧
      (∀ id, t.record id = { generation := 0, circuit := none }) ∧
      (∀ k, Sparse.read Entry.idle t.maps.bankA k = .idle ∧ Sparse.read Entry.idle t.maps.bankB k = .idle) ∧
      t.maps.live = .a ∧ t.maps.state = .synced ∧
      t.cutover = { changeList := [], armed := false, settle := 0 } ∧
      t.engine = { followUps := [], pointer := .l0 } ∧
      (∀ n, t.link n =
        { state := if (s.link n).enable then .down else .disabled, downReason := .none, lastFault := .none,
          damage := 0, silence := 0, tags := [], requests := [], answers := [], reports := [], helloOwed := false,
          line := (s.link n).line.map (fun m => { m with frees := none }), clockArmed := (s.link n).clockArmed,
          rxVoid := true, enable := (s.link n).enable, policy := (s.link n).policy, quota := (s.link n).quota,
          silenceLimit := (s.link n).silenceLimit }) ∧
      t.mailbox.state = .idle ∧ t.mailbox.declared = 0 ∧ t.mailbox.mask = 0 ∧
      (∀ p, Sparse.read (0 : Word) t.mailbox.command p = 0 ∧ Sparse.read (0 : Word) t.mailbox.result p = 0) ∧
      t.supQueue = [] ∧ t.events = { latches := 0, enables := s.events.enables } ∧
      t.control = u.control ∧ t.idle = s.idle ∧ t.switch = s.switch ∧ t.timing = u.timing ∧
      t.resetAsserted = false

/-! ### Register writes -/

/-- The rows that name one field or word of the register window are writes of that word at its address (12.7, R147,
R154, R189; log 19). -/
def Obligations.RowsAreRegisterWrites : Prop :=
  ∀ (s : State) (w : Word),
    exec (.cutoverMode w) s = exec (.registerWrite 0x00 w) s ∧
    exec (.supervisorReportsEnable w) s = exec (.registerWrite 0x00 w) s ∧
    exec (.primaryReference w) s = exec (.registerWrite 0x00 w) s ∧
    exec (.revertive w) s = exec (.registerWrite 0x00 w) s ∧
    exec (.softReset w) s = exec (.registerWrite 0x00 (w ||| 0x8000)) s ∧
    exec (.eventsClear w) s = exec (.registerWrite 0x04 w) s ∧
    exec (.enablesWrite w) s = exec (.registerWrite 0x05 w) s ∧
    exec .ack s = exec (.registerWrite 0x06 1) s ∧
    exec (.abort false) s = exec (.registerWrite 0x06 2) s ∧
    exec (.abort true) s = exec (.registerWrite 0x06 3) s ∧
    (∀ n, exec (.linkEnable n w) s = exec (.registerWrite (BitVec.ofNat 7 (0x08 + 2 * linkNumber n)) w) s) ∧
    (∀ n, exec (.linkReset n w) s = exec (.registerWrite (BitVec.ofNat 7 (0x08 + 2 * linkNumber n)) (w ||| 2)) s) ∧
    exec (.mailboxHeaderWrite w) s = exec (.registerWrite 0x20 w) s ∧
    ∀ p, 1 ≤ p → p ≤ 20 →
      exec (.mailboxBodyWrite p w) s = exec (.registerWrite (BitVec.ofNat 7 (0x20 + p)) w) s

/-- A CONTROL write that leaves every other field at the value it holds stores the cutover mode and changes nothing
else, so that the next boundary reads the new mode (R45). -/
def Obligations.CutoverModeWrite : Prop :=
  ∀ (s : State) (w : Word), s.resetAsserted = false → w.getLsbD 15 = false → w.getLsbD 1 = s.control.reports →
    (w.getLsbD 2 = true ↔ s.control.primary = .b) → w.getLsbD 3 = s.control.revertive →
    exec (.cutoverMode w) s =
      .next (s.withControl { s.control with mode := if w.getLsbD 0 then .held else .auto })

/-- A CONTROL write that leaves the reference fields at the values they hold: setting the supervisor-reports enable
changes no record and queues no id (R162); clearing it empties the supervisor report queue and makes every CLOSED
record owned by SUPERVISOR FREE (R20). -/
def Obligations.SupervisorReportsWrite : Prop :=
  ∀ (s : State) (w : Word), s.resetAsserted = false → s.Canonical → w.getLsbD 15 = false →
    (w.getLsbD 2 = true ↔ s.control.primary = .b) → w.getLsbD 3 = s.control.revertive →
    (w.getLsbD 1 = true ∨ s.control.reports = false →
      exec (.supervisorReportsEnable w) s = .next (s.withControl
        { s.control with mode := if w.getLsbD 0 then .held else .auto, reports := w.getLsbD 1 })) ∧
    (w.getLsbD 1 = false → s.control.reports = true →
      ∃ t, exec (.supervisorReportsEnable w) s = .next t ∧
        Frees (isClosedOf s .supervisor)
          ((s.withControl { s.control with mode := if w.getLsbD 0 then .held else .auto, reports := false }
            ).withSupQueue []) t)

/-- A CONTROL write that leaves the supervisor-reports enable at the value it holds: the timing state moves to the
named primary in the cases of R174 and in no other; the two rows act alike (log 19, log 21). -/
def Obligations.ReferenceSelectionWrite : Prop :=
  ∀ (s : State) (w : Word) (p : Ref), s.resetAsserted = false → w.getLsbD 15 = false →
    w.getLsbD 1 = s.control.reports → (p = if w.getLsbD 2 then .b else .a) →
    exec (.revertive w) s = exec (.primaryReference w) s ∧
    exec (.primaryReference w) s =
      (let stored := s.withControl
        { mode := if w.getLsbD 0 then .held else .auto, reports := s.control.reports, primary := p,
          revertive := w.getLsbD 3 }
      if s.timing.state.locked = some (otherRef p) ∧ (s.timing.ref p).isGood = true ∧
          ((s.timing.alignPending = true ∧ p ≠ s.control.primary) ∨
            (s.timing.alignPending = false ∧ w.getLsbD 3 = true ∧
              (p ≠ s.control.primary ∨ s.control.revertive = false))) then
        .next ((stored.withTiming { s.timing with state := lockedTo p, alignPending := true }).raise .timing)
      else .next stored)

/-- The quota and the policy as a write to the first word of LINKCFGn stores them (R126, 12.7). -/
def Sys2Proof.Machine.configured (w : Word) (c : LinkController) : LinkController :=
  let q := w.toNat / 256 % 128
  { c with quota := if q = 0 then 1 else if 64 < q then 64 else q,
           policy := if w.getLsbD 2 then .release else .keep }

/-- A write to the first word of LINKCFGn with the reset field 0: the quota and the policy are stored, and a changed
enable bit acts as R144 gives, with the going-DOWN actions when the link was UP (R126, R142, R189). -/
def Obligations.LinkEnableWrite : Prop :=
  ∀ (s : State) (n : Link) (w : Word), s.resetAsserted = false → s.Canonical → w.getLsbD 1 = false →
    (w.getLsbD 0 = (s.link n).enable →
      exec (.linkEnable n w) s = .next (s.withLink n (configured w (s.link n)))) ∧
    (w.getLsbD 0 = true → (s.link n).enable = false →
      exec (.linkEnable n w) s = .next ((s.withLink n
        { configured w (s.link n) with enable := true, state := .down, rxVoid := true }).raise (.linkState n))) ∧
    (w.getLsbD 0 = false → (s.link n).enable = true → (s.link n).state ≠ .up →
      exec (.linkEnable n w) s = .next ((s.withLink n
        { configured w (s.link n) with enable := false, state := .disabled, downReason := .disabled,
                                       rxVoid := true }).raise (.linkState n))) ∧
    (w.getLsbD 0 = false → (s.link n).enable = true → (s.link n).state = .up →
      ∃ t, exec (.linkEnable n w) s = .next t ∧
        LeavesUp n .disabled .disabled
          (s.withLink n { configured w (s.link n) with enable := false, rxVoid := true }) t)

/-- A write to the first word of LINKCFGn with the reset field 1: the write without it, and then a link reset on the
link state it has left (R144, R189). -/
def Obligations.LinkResetWrite : Prop :=
  ∀ (s : State) (n : Link) (w : Word), s.resetAsserted = false → s.Canonical →
    ∃ u t, exec (.linkEnable n (w &&& 0xFFFD)) s = .next u ∧ exec (.linkReset n w) s = .next t ∧
      ((u.link n).state = .up → LeavesUp n .down .reset u t) ∧
      ((u.link n).state = .down →
        t = ((u.withLink n { u.link n with downReason := .reset }).withEngine
          { u.engine with followUps := afterPolicy u n u.engine.followUps }).raise (.linkState n)) ∧
      ((u.link n).state = .disabled → t = u)

/-- Register writes with no behaviour of their own: the idle bytes (R166) and the silence limit, held as 4 when written
below 4 (R126), are stored and nothing else changes; a write to a read-only word, or to an address that names no word,
is not taken (R147). -/
def Obligations.OtherRegisterWrites : Prop :=
  ∀ (s : State) (w : Word), s.resetAsserted = false →
    exec (.registerWrite 0x18 w) s = .next (s.withIdle { s.idle with idle01 := w }) ∧
    exec (.registerWrite 0x19 w) s = .next (s.withIdle { s.idle with idle23 := w }) ∧
    exec (.registerWrite 0x1A w) s = .next (s.withIdle { s.idle with idle45 := w }) ∧
    exec (.registerWrite 0x1B w) s = .next (s.withIdle { s.idle with idle67 := w }) ∧
    (∀ n, exec (.registerWrite (BitVec.ofNat 7 (0x09 + 2 * linkNumber n)) w) s =
      .next (s.withLink n
        { s.link n with silenceLimit := if w.toNat % 256 < 4 then 4 else w.toNat % 256 })) ∧
    ∀ a : BitVec 7,
      (a.toNat ∈ [0x01, 0x02, 0x03, 0x07] ∨ (0x10 ≤ a.toNat ∧ a.toNat < 0x18) ∨
        (0x1C ≤ a.toNat ∧ a.toNat < 0x20) ∨ 0x35 ≤ a.toNat) →
      exec (.registerWrite a w) s = .next s

/-- A write to EVENTS clears each latch whose bit is written 1 and leaves every other one (R179); a write to ENABLES
stores all 16 enables and changes no latch (R181); the words read back as they stand; nothing else changes. IRQ is
asserted exactly while at least one latch is SET with its enable 1, and not while RESETn is asserted (R182). -/
def Obligations.EventsAndEnables : Prop :=
  (∀ s : State, s.irq = true ↔
    s.resetAsserted = false ∧ ∃ e, s.events.isSet e = true ∧ s.events.enables.getLsbD (eventBit e) = true) ∧
  ∀ (s : State) (w : Word), s.resetAsserted = false →
    (∃ t, exec (.eventsClear w) s = .next t ∧ t = s.withEvents t.events ∧ t.events.enables = s.events.enables ∧
      (∀ e, t.events.isSet e = (s.events.isSet e && !w.getLsbD (eventBit e))) ∧
      t.readWord 0x04 = t.events.latches ∧ s.readWord 0x04 = s.events.latches) ∧
    ∃ t, exec (.enablesWrite w) s = .next t ∧
      t = s.withEvents { latches := s.events.latches, enables := w } ∧ t.readWord 0x05 = w

/-- The ids of the records that are not FREE and meet a test, each once. -/
def Sys2Proof.Machine.listsRecords (s : State) (test : Circuit → Prop) (ids : List Nat) : Prop :=
  ids.Nodup ∧ ∀ id, id ∈ ids ↔ ∃ c, s.circuit id = some c ∧ test c

/-- The command byte of a transaction as its bits on SDI: the direction, then the address, most significant bit first
(R147, 12.7; that bit 7 comes first is the model's choice, log 23). -/
def Sys2Proof.Machine.commandBits (isRead : Bool) (address : BitVec 7) : List Bool :=
  isRead :: (List.range 7).map fun i => address.getMsbD i

/-- What a read of each word of the register window returns, in every state (R147, R148, R185, 12.7): the fields of
CONTROL, STATUS, LINKCFGn and LINKSTATn in their places, the reset fields and MBOXCTL as 0, the counts of R23, and 0000H
at an address without a word. A transaction on the SPI lines (R147, 12.7): in a write every whole word is a write at its
address, which rises by 1 and wraps from 7FH to 00H, and a partial word is discarded; in a read, which writes nothing,
SDO carries the bits of the words, each fixed at the event of its first bit; SDO is in high impedance while SCS_N is
high. Where R147 gives SDO no value the model names none (log 22); the transaction as a list of bits (log 17) and the
order of the bits of its command byte (log 23) are its own choices. -/
def Obligations.RegisterWindowReads : Prop :=
  (∀ s : State,
    s.readWord 0x00 = BitVec.ofNat 16 ((if s.control.revertive then 8 else 0) +
      (if s.control.primary = .b then 4 else 0) + (if s.control.reports then 2 else 0) +
      (if s.control.mode = .held then 1 else 0)) ∧
    s.readWord 0x01 = BitVec.ofNat 16 (s.mailbox.state.code * 64 + (if s.cutover.armed then 32 else 0) +
      s.cutover.settle * 8 + s.timing.state.code * 2 + (if s.maps.state = .copying then 1 else 0)) ∧
    s.readWord 0x02 = s.timing.cycle ∧
    (s.Canonical → ∃ ids, listsRecords s (fun _ => True) ids ∧ s.readWord 0x03 = BitVec.ofNat 16 ids.length) ∧
    s.readWord 0x04 = s.events.latches ∧ s.readWord 0x05 = s.events.enables ∧ s.readWord 0x06 = 0 ∧
    (∀ n,
      s.readWord (BitVec.ofNat 7 (0x08 + 2 * linkNumber n)) = BitVec.ofNat 16 ((s.link n).quota * 256 +
        (if (s.link n).policy = .release then 4 else 0) + (if (s.link n).enable then 1 else 0)) ∧
      s.readWord (BitVec.ofNat 7 (0x09 + 2 * linkNumber n)) = BitVec.ofNat 16 (s.link n).silenceLimit ∧
      s.readWord (BitVec.ofNat 7 (0x10 + 2 * linkNumber n)) = BitVec.ofNat 16 ((s.link n).tags.length * 4096 +
        (s.link n).lastFault.code * 256 + (s.link n).downReason.code * 16 + (s.link n).state.code) ∧
      (s.Canonical → ∃ ids, listsRecords s (fun c => c.owner = .link n) ids ∧ s.ownedCount n = ids.length ∧
        s.readWord (BitVec.ofNat 7 (0x11 + 2 * linkNumber n)) = BitVec.ofNat 16 ids.length)) ∧
    s.readWord 0x18 = s.idle.idle01 ∧ s.readWord 0x19 = s.idle.idle23 ∧ s.readWord 0x1A = s.idle.idle45 ∧
    s.readWord 0x1B = s.idle.idle67 ∧
    (∀ p, p ≤ 20 → s.readWord (BitVec.ofNat 7 (0x20 + p)) = Sparse.read 0 s.mailbox.command p) ∧
    (∀ p, p ≤ 39 → s.readWord (BitVec.ofNat 7 (0x40 + p)) = Sparse.read 0 s.mailbox.result p) ∧
    ∀ a : BitVec 7,
      a.toNat = 0x07 ∨ (0x1C ≤ a.toNat ∧ a.toNat < 0x20) ∨ (0x35 ≤ a.toNat ∧ a.toNat < 0x40) ∨ 0x68 ≤ a.toNat →
      s.readWord a = 0) ∧
  (∀ bits : List Bool, bits.length < 8 → spiCommand bits = none ∧ spiWrites bits = []) ∧
  (∀ (isRead : Bool) (address : BitVec 7) (rest : List Bool),
    spiCommand (commandBits isRead address ++ rest) = some { isRead := isRead, address := address } ∧
      (isRead = true → spiWrites (commandBits isRead address ++ rest) = [])) ∧
  (∀ (address : BitVec 7) (words : List Word) (rest : List Bool), rest.length < 16 →
    let writes := spiWrites (commandBits false address ++ words.flatMap wordBits ++ rest)
    writes.length = words.length ∧
      ∀ i, writes[i]? = words[i]?.map fun w => Instr.registerWrite (address + BitVec.ofNat 7 i) w) ∧
  (∀ (address : BitVec 7) (states : List State) (i : Nat),
    (spiReadBurst { isRead := true, address := address } states)[i]? =
      states[i]?.map fun s => s.readWord (address + BitVec.ofNat 7 i)) ∧
  ∀ (s : State) (bits : List Bool), s.sdo false bits = .highImpedance ∧
    (bits.length < 8 → s.sdo true bits = .unstated) ∧
    ∀ address : BitVec 7, s.sdo true (commandBits false address ++ bits) = .unstated ∧
      s.sdo true (commandBits true address ++ bits) =
        .driven ((s.readWord (address + BitVec.ofNat 7 (bits.length / 16))).getMsbD (bits.length % 16))

/-- Writes to the command window: a header in IDLE or FILLING stores the word, sets the declared length and clears the
written-mask, and the mailbox becomes QUEUED, FILLING or, above 20, DONE with BAD_ARGUMENT (R150); a body position up to
the declared length in FILLING is stored and marked, and the last mark makes the mailbox QUEUED (R151); every other
write is refused with MBOX_REFUSED and changes nothing else (R152). Writes to MBOXCTL: ACK makes a DONE mailbox IDLE
and has no effect in another state; ABORT makes the mailbox IDLE in every state, with or without ACK in the same write;
both leave the declared length, the written-mask and the windows as they stand, and raise no event (R154). -/
def Obligations.MailboxWrites : Prop :=
  (∀ s : State, s.resetAsserted = false →
    exec .ack s =
      .next (if s.mailbox.state = .done then s.withMailbox { s.mailbox with state := .idle } else s) ∧
    ∀ withAck, exec (.abort withAck) s = .next (s.withMailbox { s.mailbox with state := .idle })) ∧
  ∀ (s : State) (w : Word), s.resetAsserted = false → s.Canonical →
    (s.mailbox.state = .idle ∨ s.mailbox.state = .filling →
      ∃ m, exec (.mailboxHeaderWrite w) s =
          .next (if 20 < w.toNat % 256 then (s.withMailbox m).raise .mboxDone else s.withMailbox m) ∧
        m.declared = w.toNat % 256 ∧ m.mask = 0 ∧
        m.state = (if w.toNat % 256 = 0 then .queued else if w.toNat % 256 ≤ 20 then .filling else .done) ∧
        (∀ p, Sparse.read 0 m.command p = if p = 0 then w else Sparse.read 0 s.mailbox.command p) ∧
        (w.toNat % 256 ≤ 20 → m.result = s.mailbox.result) ∧
        (20 < w.toNat % 256 →
          ∀ p, Sparse.read 0 m.result p = if p = 0 then Word.ofBytes w.hi 0x02 else 0)) ∧
    (s.mailbox.state = .queued ∨ s.mailbox.state = .done →
      exec (.mailboxHeaderWrite w) s = .next (s.raise .mboxRefused)) ∧
    ∀ p, 1 ≤ p → p ≤ 20 →
      (s.mailbox.state = .filling → p ≤ s.mailbox.declared →
        ∃ m, exec (.mailboxBodyWrite p w) s = .next (s.withMailbox m) ∧
          m.declared = s.mailbox.declared ∧ m.result = s.mailbox.result ∧
          (∀ i, m.mask.getLsbD i = (s.mailbox.mask.getLsbD i || i == p - 1)) ∧
          (∀ q, Sparse.read 0 m.command q = if q = p then w else Sparse.read 0 s.mailbox.command q) ∧
          ((∀ i, i < m.declared → m.mask.getLsbD i = true) → m.state = .queued) ∧
          (¬(∀ i, i < m.declared → m.mask.getLsbD i = true) → m.state = .filling)) ∧
      (s.mailbox.state ≠ .filling ∨ s.mailbox.declared < p →
        exec (.mailboxBodyWrite p w) s = .next (s.raise .mboxRefused))

/-! ### Request links -/

/-- The check word is computed bit by bit over the words, most significant bit first, from FFFFH, with 1021H (R122);
a received message is classified by the first condition of R123's table that applies. -/
def Obligations.MessageChecks : Prop :=
  (∀ words : List Word, crc16 words =
    (words.flatMap fun w => (List.range 16).map fun i => w.getMsbD i).foldl
      (fun (r : Word) b => if r.getMsbD 0 = b then r <<< 1 else (r <<< 1) ^^^ 0x1021) 0xFFFF) ∧
  ∀ (m : RxMessage) (count length : Nat),
    count = m.words.length + (if m.partialBits = [] then 0 else 1) →
    length = (m.words.getD 0 0).toNat % 256 →
    (count < 2 → classify m = .damaged .runt) ∧
    (2 ≤ count → 20 < length → classify m = .damaged .long) ∧
    (2 ≤ count → length ≤ 20 → count < length + 3 → classify m = .damaged .runt) ∧
    (2 ≤ count → length ≤ 20 → length + 3 < count → classify m = .damaged .long) ∧
    (2 ≤ count → length ≤ 20 → count = length + 3 → m.partialBits ≠ [] → classify m = .damaged .runt) ∧
    (2 ≤ count → length ≤ 20 → count = length + 3 → m.partialBits = [] →
      m.words.getLast? ≠ some (crc16 m.words.dropLast) → classify m = .damaged .check) ∧
    (2 ≤ count → length ≤ 20 → count = length + 3 → m.partialBits = [] →
      m.words.getLast? = some (crc16 m.words.dropLast) → classify m = .good)

/-- A good HELLO in DOWN brings the link UP with its inventory (R128, R139); in UP it sets the HELLO-owed flag and
queues nothing (R129). Either way the damage count and the silence count are set to 0. -/
def Obligations.HelloReceived : Prop :=
  ∀ (s : State) (n : Link) (m : RxMessage), TakesGood s n m → messageKind m = 0x01 →
    ((s.link n).state = .down →
      exec (.hello n m) s = .next ((s.withLink n
        { heard (s.link n) with
          state := .up, helloOwed := true, silence := 0, damage := 0,
          reports := s.idsWhere fun c => c.owner == .link n }).raise (.linkState n))) ∧
    ((s.link n).state = .up →
      exec (.hello n m) s =
        .next (s.withLink n { heard (s.link n) with helloOwed := true, silence := 0, damage := 0 }))

/-- A good message of another kind in UP is tested for BAD_KIND, then BUSY, then DUP_TAG (R134): a refusal is placed
in an unreserved entry (R136), or is a FLOOD when none is free (R137); a request that passes joins the window and the
request queue (R133, R135). In DOWN it is a NOT_UP fault (R127). -/
def Obligations.RequestReceived : Prop :=
  ∀ (s : State) (n : Link) (m : RxMessage) (k tag : Byte), TakesGood s n m → messageKind m = k → k ≠ 0x01 →
    messageTag m = tag →
    let c := { heard (s.link n) with damage := 0, silence := 0 }
    let refused (code : ResultCode) : Prop :=
      (((s.link n).answers.filter fun a => !a.reserved).length < 8 →
        exec (.requestReceived n m) s = .next (s.withLink n
          { c with answers :=
              c.answers ++ [{ kind := k, tag := tag, code := code, body := [], reserved := false }] })) ∧
      (8 ≤ ((s.link n).answers.filter fun a => !a.reserved).length →
        exec (.requestReceived n m) s =
          .next ((s.withLink n { c with lastFault := .flood }).raise (.linkFault n)))
    let known : Prop := 0x10 ≤ k.toNat ∧ k.toNat ≤ 0x17
    ((s.link n).state = .up → ¬known → refused .badKind) ∧
    ((s.link n).state = .up → known → 8 ≤ (s.link n).tags.length → refused .busy) ∧
    ((s.link n).state = .up → known → (s.link n).tags.length < 8 → tag ∈ (s.link n).tags → refused .dupTag) ∧
    ((s.link n).state = .up → known → (s.link n).tags.length < 8 → tag ∉ (s.link n).tags →
      exec (.requestReceived n m) s = .next (s.withLink n
        { c with tags := c.tags ++ [tag],
                 requests := c.requests ++ [{ kind := k, tag := tag, body := messageBody m }] })) ∧
    ((s.link n).state = .down →
      exec (.requestReceived n m) s = .next ((s.withLink n
        { heard (s.link n) with damage := 0, lastFault := .notUp }).raise (.linkFault n)))

/-- A damaged message sets the last fault reason and raises LINK_FAULT; in UP it counts, and the eighth in a row takes
the link DOWN with reason DAMAGE (R124, R142). In DISABLED every message is ignored (R123), and the message in
reception at a discarding event is not checked (R121, R144, R146; log 13). The four rows take a message alike
(log 4). -/
def Obligations.DamagedMessages : Prop :=
  (∀ (s : State) (n : Link) (m : RxMessage) (reason : FaultReason), s.Canonical → TakesDamaged s n m reason →
    ((s.link n).state = .down →
      exec (.damagedMessage n m) s =
        .next ((s.withLink n { heard (s.link n) with lastFault := reason }).raise (.linkFault n))) ∧
    ((s.link n).state = .up → (s.link n).damage + 1 < 8 →
      exec (.damagedMessage n m) s = .next ((s.withLink n
        { heard (s.link n) with lastFault := reason, damage := (s.link n).damage + 1 }).raise (.linkFault n))) ∧
    ((s.link n).state = .up → 8 ≤ (s.link n).damage + 1 →
      ∃ t, exec (.damageLimit n m) s = .next t ∧
        LeavesUp n .down .damage
          ((s.withLink n { heard (s.link n) with lastFault := reason }).raise (.linkFault n)) t)) ∧
  (∀ (s : State) (n : Link) (m : RxMessage), s.resetAsserted = false →
    ((s.link n).state = .disabled → exec (.damagedMessage n m) s = .next s) ∧
    ((s.link n).state ≠ .disabled → (s.link n).rxVoid = true → m.spansDiscard = true →
      exec (.damagedMessage n m) s = .next (s.withLink n (heard (s.link n))))) ∧
  ∀ (s : State) (n : Link) (m : RxMessage),
    exec (.hello n m) s = exec (.damagedMessage n m) s ∧
    exec (.requestReceived n m) s = exec (.damagedMessage n m) s ∧
    exec (.damageLimit n m) s = exec (.damagedMessage n m) s

/-- A clock loss is signalled once: in UP it takes the link DOWN with reason NO_CLOCK, in DOWN and DISABLED it changes
no link state, reason or count (R131); the next rising edge arms the detector again and leaves the link as it is
(R121). -/
def Obligations.ClockLossAndReturn : Prop :=
  ∀ (s : State) (n : Link), s.resetAsserted = false → s.Canonical →
    ((s.link n).clockArmed = true → (s.link n).state = .up →
      ∃ t, exec (.clockLoss n) s = .next t ∧
        LeavesUp n .down .noClock (s.withLink n { s.link n with clockArmed := false, rxVoid := true }) t) ∧
    ((s.link n).clockArmed = true → (s.link n).state ≠ .up →
      exec (.clockLoss n) s = .next (s.withLink n { s.link n with clockArmed := false, rxVoid := true })) ∧
    ((s.link n).clockArmed = false → exec (.clockLoss n) s = .next s) ∧
    exec (.clockReturn n) s = .next (s.withLink n { s.link n with clockArmed := true })

/-- The words of a message that the part sends: header, tag and result, body, check word (R122, R186). -/
def Sys2Proof.Machine.wireWords (kind tag result : Byte) (body : List Word) : List Word :=
  let front := BitVec.ofNat 16 (kind.toNat * 256 + body.length) ::
    BitVec.ofNat 16 (tag.toNat * 256 + result.toNat) :: body
  front ++ [crc16 front]

/-- The transmitter takes only in UP with its line idle, and takes the head answer, else the HELLO reply, else the head
report, as R140 orders; the message is built at the take, an answer keeps its tag in the window until its completion,
and the report of a CLOSED record frees the record (R141, R18). -/
def Obligations.TransmitterTakes : Prop :=
  ∀ (s : State) (n : Link), s.resetAsserted = false → s.Canonical →
    ((s.link n).state ≠ .up ∨ (s.link n).line ≠ none → exec (.transmitterTake n) s = .next s) ∧
    ((s.link n).state = .up → (s.link n).line = none →
      (∀ a rest, (s.link n).answers = a :: rest → a.body.length ≤ 255 →
        exec (.transmitterTake n) s = .next (s.withLink n
          { s.link n with
            answers := rest
            line := some { words := wireWords (a.kind ||| 0x80) a.tag a.code.value a.body,
                           frees := if a.reserved then some a.tag else none } })) ∧
      ((s.link n).answers = [] → (s.link n).helloOwed = true →
        exec (.transmitterTake n) s = .next (s.withLink n
          { s.link n with
            helloOwed := false
            line := some { words := wireWords 0x01 0 0 (s.helloBody n), frees := none } })) ∧
      (∀ id rest, (s.link n).answers = [] → (s.link n).helloOwed = false → (s.link n).reports = id :: rest →
        ∃ t, exec (.transmitterTake n) s = .next t ∧
          (let u := s.withLink n
            { s.link n with
              reports := rest
              line := some { words := wireWords 0x40 0 0 (s.reportBody id), frees := none } }
          (((s.circuit id).any fun c => c.state == .closed) = false → t = u) ∧
          (((s.circuit id).any fun c => c.state == .closed) = true → Frees (· = id) u t))) ∧
      ((s.link n).answers = [] → (s.link n).helloOwed = false → (s.link n).reports = [] →
        exec (.transmitterTake n) s = .next s))

/-- The completion of a transmission leaves the line idle; the tag of an answered request leaves the window, and
nothing else changes (R141, R133). That the row has no effect with no message on the line is the model's own choice
(log 3). -/
def Obligations.TransmissionCompletes : Prop :=
  ∀ (s : State) (n : Link), s.resetAsserted = false →
    ((s.link n).line = none → exec (.transmissionComplete n) s = .next s) ∧
    (∀ words, (s.link n).line = some { words := words, frees := none } →
      exec (.transmissionComplete n) s = .next (s.withLink n { s.link n with line := none })) ∧
    ∀ words tag, (s.link n).line = some { words := words, frees := some tag } →
      exec (.transmissionComplete n) s = .next (s.withLink n
        { s.link n with line := none, tags := (s.link n).tags.filter (· ≠ tag) })

/-- The codes of the fields (12.2), of the kinds (12.1) and of the results (12.5), by their values. -/
def Sys2Proof.Machine.fieldCodes : Prop :=
  (stateCode none = 0 ∧ (∀ c, stateCode (some c) = c.state.code) ∧ CircuitState.code .pending = 1 ∧
    CircuitState.code .active = 2 ∧ CircuitState.code .suspended = 3 ∧ CircuitState.code .releasing = 4 ∧
    CircuitState.code .closed = 5) ∧
  (pendingCode none = 0 ∧ pendingCode (some .suspend) = 1 ∧ pendingCode (some .resume) = 2 ∧
    pendingCode (some .reshapeAdd) = 3 ∧ pendingCode (some .reshapeDrop) = 4) ∧
  (reasonCode none = 0 ∧ reasonCode (some .released) = 1 ∧ reasonCode (some .forced) = 2 ∧
    reasonCode (some .expired) = 3 ∧ reasonCode (some .orphaned) = 4 ∧ reasonCode (some .parentGone) = 5) ∧
  (linkNumber .l0 = 0 ∧ linkNumber .l1 = 1 ∧ linkNumber .l2 = 2 ∧ linkNumber .l3 = 3 ∧
    (∀ n, Owner.code (.link n) = linkNumber n) ∧ Owner.code .supervisor = 4) ∧
  (Treatment.code .pass = 0 ∧ Treatment.code .fill = 1 ∧ BankName.code .a = 0 ∧ BankName.code .b = 1) ∧
  (LinkState.code .disabled = 0 ∧ LinkState.code .down = 1 ∧ LinkState.code .up = 2) ∧
  (DownReason.code .none = 0 ∧ DownReason.code .damage = 1 ∧ DownReason.code .silent = 2 ∧
    DownReason.code .noClock = 3 ∧ DownReason.code .reset = 4 ∧ DownReason.code .disabled = 5) ∧
  (FaultReason.code .none = 0 ∧ FaultReason.code .runt = 1 ∧ FaultReason.code .long = 2 ∧
    FaultReason.code .check = 3 ∧ FaultReason.code .notUp = 4 ∧ FaultReason.code .flood = 5) ∧
  (TimingState.code .freeRun = 0 ∧ TimingState.code .lockedA = 1 ∧ TimingState.code .lockedB = 2 ∧
    TimingState.code .holdover = 3) ∧
  (MailboxState.code .idle = 0 ∧ MailboxState.code .filling = 1 ∧ MailboxState.code .queued = 2 ∧
    MailboxState.code .done = 3) ∧
  (ResultCode.value .ok = 0x00 ∧ ResultCode.value .badKind = 0x01 ∧ ResultCode.value .badArgument = 0x02 ∧
    ResultCode.value .unknownCircuit = 0x03 ∧ ResultCode.value .notOwner = 0x04 ∧ ResultCode.value .going = 0x05 ∧
    ResultCode.value .wrongState = 0x06 ∧ ResultCode.value .changePending = 0x07 ∧
    ResultCode.value .hasBranches = 0x08 ∧ ResultCode.value .branchLimit = 0x09 ∧
    ResultCode.value .linkDown = 0x0A ∧ ResultCode.value .quota = 0x0B ∧ ResultCode.value .noRecord = 0x0C ∧
    ResultCode.value .noRoom = 0x0D ∧ ResultCode.value .noFit = 0x0E ∧ ResultCode.value .slotTaken = 0x0F ∧
    ResultCode.value .busy = 0x10 ∧ ResultCode.value .dupTag = 0x11) ∧
  ∀ k : Byte,
    (linkKind k = some .claim ↔ k = 0x10) ∧ (linkKind k = some .branch ↔ k = 0x11) ∧
    (linkKind k = some .release ↔ k = 0x12) ∧ (linkKind k = some .reshape ↔ k = 0x13) ∧
    (linkKind k = some .suspend ↔ k = 0x14) ∧ (linkKind k = some .resume ↔ k = 0x15) ∧
    (linkKind k = some .renew ↔ k = 0x16) ∧ (linkKind k = some .ask ↔ k = 0x17) ∧
    (linkKind k = none ↔ k.toNat < 0x10 ∨ 0x17 < k.toNat) ∧
    (mailboxKind k = some .readCircuit ↔ k = 0x20) ∧ (mailboxKind k = some .readSlot ↔ k = 0x21) ∧
    (mailboxKind k = some .readFree ↔ k = 0x22) ∧ (mailboxKind k = some .takeReport ↔ k = 0x23) ∧
    (mailboxKind k = some .commit ↔ k = 0x24) ∧ (mailboxKind k = some .resetLink ↔ k = 0x25) ∧
    (k.toNat < 0x20 ∨ 0x25 < k.toNat → mailboxKind k = linkKind k)

/-- The words of a pair, of a circuit reference and of a bank entry (12.2, 12.4), by their bits. -/
def Sys2Proof.Machine.smallWords : Prop :=
  (∀ (id : Nat) (generation : Byte), id < 256 →
    refWord id generation = BitVec.ofNat 16 (id * 256 + generation.toNat)) ∧
  (∀ p : Pair, pairWord p = BitVec.ofNat 16 ((if p.retiring then 32768 else 0) + p.src * 256 + p.dst)) ∧
  Entry.words .idle = [0x0000, 0x0000] ∧
  (∀ id srcTrunk srcSlot, Entry.words (.pass id srcTrunk srcSlot) =
    [BitVec.ofNat 16 (16384 + id), BitVec.ofNat 16 (srcTrunk * 256 + srcSlot)]) ∧
  ∀ (id : Nat) (byte : Byte), Entry.words (.fill id byte) =
    [BitVec.ofNat 16 (32768 + id), BitVec.ofNat 16 byte.toNat]

/-- The field codes, kind values and result values by their numbers (12.1, 12.2, 12.5), the words of a reference, a
pair and a bank entry (12.2, 12.4), and the layouts of the bodies the part builds: the summary, the report and the HELLO
reply (12.4, R22, R110, R129). -/
def Obligations.BodyLayouts : Prop :=
  fieldCodes ∧ smallWords ∧
  (∀ (s : State) (id : Nat) (c : Circuit), s.circuit id = some c →
    s.summary id =
      [ refWord id (s.record id).generation,
        BitVec.ofNat 16 (c.state.code * 8192 + pendingCode c.pendingChange * 1024 +
          (if c.isTrunk then 0 else 512) + c.owner.code * 64 + reasonCode c.closeReason * 8 +
          (if id ∈ s.cutover.changeList then 4 else 0) +
          (if id ∈ s.engine.followUps.map FollowUp.id then 2 else 0) +
          (if s.reportOwed c.owner id then 1 else 0)),
        BitVec.ofNat 16 (c.width * 2048 + c.live.length * 32 + (if c.liveTreatment = .fill then 16 else 0) +
          (if c.stagedTreatment = .fill then 8 else 0)),
        c.leaseLeft ] ∧
    (s.reportOwed c.owner id = true ↔
      match c.owner with
      | .link n => id ∈ (s.link n).reports
      | .supervisor => id ∈ s.supQueue) ∧
    s.reportBody id =
      [ refWord id (s.record id).generation,
        BitVec.ofNat 16 (c.state.code * 8192 + pendingCode c.pendingChange * 1024 +
          reasonCode c.closeReason * 128 + (if c.cutoverCycle = none then 0 else 64)),
        BitVec.ofNat 16 (c.width * 2048 + c.live.length * 32),
        c.cutoverCycle.getD 0 ]) ∧
  (∀ (s : State) (id : Nat), s.circuit id = none →
    s.summary id = [refWord id (s.record id).generation, 0, 0, 0]) ∧
  ∀ (s : State) (n : Link), s.helloBody n =
    [ BitVec.ofNat 16 (linkNumber n), s.timing.cycle, BitVec.ofNat 16 ((s.link n).quota * 256 + s.ownedCount n) ]

/-- What a boundary that reaches the silence limit of a link leaves of it (R130, R142, R19): the link is DOWN with reason
SILENT and holds nothing, its CLOSED records are FREE, and under policy RELEASE an item that releases it stands for each
of its PENDING, ACTIVE and SUSPENDED records (an ORPHAN, or the EXPIRE that stood first; R143, R74). -/
def Sys2Proof.Machine.Silenced (n : Link) (s t : State) : Prop :=
  (t.link n).state = .down ∧ (t.link n).downReason = .silent ∧ (t.link n).silence = 0 ∧
    (t.link n).damage = 0 ∧ (t.link n).tags = [] ∧ (t.link n).requests = [] ∧ (t.link n).answers = [] ∧
    (t.link n).reports = [] ∧ (t.link n).helloOwed = false ∧ t.events.isSet (.linkState n) = true ∧
    (∀ id c, s.circuit id = some c → c.owner = .link n → c.state = .closed → t.circuit id = none) ∧
    (∀ id c, t.circuit id = some c → c.owner = .link n → c.state ≠ .closed) ∧
    ((s.link n).policy = .release → ∀ id c, s.circuit id = some c → c.owner = .link n →
      c.state = .pending ∨ c.state = .active ∨ c.state = .suspended →
      ∃ item ∈ t.engine.followUps, item.id = id ∧ item.kind ≠ .drop)

/-- The boundary at which the silence count of a link reaches its limit takes the link DOWN with reason SILENT, in the
same event as the rest of the boundary, whichever way the boundary is made: its own timing, a pulse or the close of a
window (R130, R142). The row SILENCE_LIMIT is that boundary, and nothing happens under it where no limit is reached
(log 3); each link takes a boundary once, in the order that comes with it (log 10); a boundary of the part's own timing
falls at the time that the model's time line gives (logs 6 and 7). These four are the model's own choices. -/
def Obligations.SilenceTakesLinkDown : Prop :=
  (∀ (s : State) (n : Link) (f : FrameInput), s.resetAsserted = false →
    (LimitReached s n → exec (.silenceLimit n f) s = exec (.boundary f) s) ∧
    (¬LimitReached s n → exec (.silenceLimit n f) s = .next s)) ∧
  (∀ o : BoundaryOrder, (linksBefore o ++ linksAfter o).Nodup ∧ (∀ n, n ∈ linksBefore o ++ linksAfter o) ∧
    (o.wf = true → linksBefore o = o.before ∧ linksAfter o = o.after)) ∧
  (∀ (s t : State) (n : Link) (stepped : Bool) (now : Nat) (f : FrameInput), s.Canonical →
    FrameStarts (.boundary stepped) now f s t → LimitReached s n → Silenced n s t) ∧
  ∀ (s : State) (n : Link) (f : FrameInput), OwnFrameDue s → s.Canonical → 15 ≤ s.timing.frame → LimitReached s n →
    ∃ t, exec (.silenceLimit n f) s = .next t ∧ exec (.boundary f) s = .next t ∧ Silenced n s t ∧
      t.timing = { s.timing with frame := 0, cycle := s.timing.cycle + 1, time := s.timing.ownFrameTime,
                                 frameStart := s.timing.ownFrameTime, ownStart := s.timing.ownFrameTime }

/-! ### The Admission Engine -/

/-- The arbiter: nothing while the bank is COPYING (R68); else the head of the follow-up queue, else the QUEUED mailbox
command, else the first non-empty link request queue from the round-robin pointer (R69), in the order L0, L1, L2, L3
and L0 again (R70). -/
def Obligations.ArbiterChoice : Prop :=
  (nextLink .l0 = .l1 ∧ nextLink .l1 = .l2 ∧ nextLink .l2 = .l3 ∧ nextLink .l3 = .l0 ∧
    linksFrom .l0 = [.l0, .l1, .l2, .l3] ∧ linksFrom .l1 = [.l1, .l2, .l3, .l0] ∧
    linksFrom .l2 = [.l2, .l3, .l0, .l1] ∧ linksFrom .l3 = [.l3, .l0, .l1, .l2]) ∧
  ∀ s : State,
    (s.maps.state = .copying → s.nextItem = none) ∧
    (∀ f rest, s.maps.state = .synced → s.engine.followUps = f :: rest → s.nextItem = some (.followUp f)) ∧
    (s.maps.state = .synced → s.engine.followUps = [] → s.mailbox.state = .queued → s.nextItem = some .mailbox) ∧
    (∀ before n after, s.maps.state = .synced → s.engine.followUps = [] → s.mailbox.state ≠ .queued →
      linksFrom s.engine.pointer = before ++ n :: after → (∀ k ∈ before, (s.link k).requests = []) →
      (s.link n).requests ≠ [] → s.nextItem = some (.link n)) ∧
    (s.maps.state = .synced → s.engine.followUps = [] → s.mailbox.state ≠ .queued →
      (∀ k, (s.link k).requests = []) → s.nextItem = none)

/-- The merge rule of the follow-up queue (R74). -/
def Obligations.MergeRule : Prop :=
  ∀ (queue : List FollowUp) (kind : FollowKind) (id : Nat), (queue.map FollowUp.id).Nodup →
    (id ∉ queue.map FollowUp.id →
      offerTo queue { kind := kind, id := id } = queue ++ [{ kind := kind, id := id }]) ∧
    (∀ before after, kind ≠ .drop → queue = before ++ { kind := .drop, id := id } :: after →
      offerTo queue { kind := kind, id := id } = before ++ { kind := kind, id := id } :: after) ∧
    (∀ standing, standing ∈ queue → standing.id = id → standing.kind ≠ .drop →
      offerTo queue { kind := kind, id := id } = queue)

/-- Each request that the engine takes receives one answer in its admission (R85), and a refused request changes
nothing besides: its one effect is its answer, with no body, and for NO_RECORD the NO_RECORD event (R79). It is refused
with BAD_ARGUMENT exactly when its body is outside the lengths and ranges of its kind and source (R54, R80, R155, R187).
A mailbox command whose kind the mailbox does not accept is answered BAD_KIND (R80). -/
def Obligations.EveryRequestIsAnswered : Prop :=
  (∀ (s : State) (body : List Word), Takes s .supervisor none body →
    ∃ t, exec .unknownKind s = .next t ∧ Answered .supervisor .badKind [] s s t) ∧
  ∀ (s : State) (who : Owner) (kind : RequestKind) (body : List Word), Takes s who (some kind) body →
    ∃ code answer u t, exec (commandOf kind) s = .next t ∧ Answered who code answer s u t ∧
      (code ≠ .ok → answer = [] ∧ u = if code = .noRecord then s.raise .noRecord else s) ∧
      (code = .badArgument ↔ ¬BodyPermitted who kind body)

/-- The kinds that act on a named record of the requester's own. -/
def Sys2Proof.Machine.namesRecord (kind : RequestKind) : Prop :=
  kind ∈ [.release, .reshape, .suspend, .resume, .renew, .ask]

/-- The permitted bodies of the kinds that name a record, from their reference (12.3, R187). -/
def Sys2Proof.Machine.bodyFor (kind : RequestKind) (reference : Word) (body : List Word) : Prop :=
  match kind with
  | .reshape => ∃ width code, 1 ≤ width ∧ width ≤ 16 ∧ 1 ≤ code ∧ code ≤ 3 ∧
      body = [reference, BitVec.ofNat 16 (width * 256 + code)]
  | .renew => body = [reference] ∨ ∃ length, body = [reference, length]
  | _ => body = [reference]

/-- Steps 3 to 5 of the check order for the requests that name a record (R79, R81, R82): UNKNOWN_CIRCUIT, then
NOT_OWNER, then GOING, WRONG_STATE, CHANGE_PENDING and HAS_BRANCHES. -/
def Obligations.ChecksOfNamedRecords : Prop :=
  ∀ (s : State) (who : Owner) (kind : RequestKind) (id : Nat) (generation : Byte) (body : List Word),
    namesRecord kind → id < 256 → bodyFor kind (refWord id generation) body → Takes s who (some kind) body →
    let refused (code : ResultCode) : Prop :=
      ∃ t, exec (commandOf kind) s = .next t ∧ Answered who code [] s s t
    ((s.circuit id = none ∨ (s.record id).generation ≠ generation) → refused .unknownCircuit) ∧
    ∀ c, s.circuit id = some c → (s.record id).generation = generation →
      (who ≠ .supervisor → c.owner ≠ who → refused .notOwner) ∧
      ((who = .supervisor ∨ c.owner = who) →
        (kind ≠ .ask → c.state = .releasing ∨ c.state = .closed → refused .going) ∧
        (kind = .suspend → c.state = .pending ∨ c.state = .suspended → refused .wrongState) ∧
        (kind = .resume → c.state = .pending ∨ c.state = .active → refused .wrongState) ∧
        (kind = .reshape →
          c.state = .pending ∨ c.state = .suspended ∨ (c.state = .active ∧ c.isTrunk = false) →
          refused .wrongState) ∧
        (kind = .suspend → c.state = .active → c.pendingChange ≠ none → refused .changePending) ∧
        (kind = .resume → c.state = .suspended → c.pendingChange ≠ none → refused .changePending) ∧
        (kind = .reshape → c.state = .active → c.isTrunk = true → c.pendingChange ≠ none →
          refused .changePending) ∧
        (kind = .reshape → c.state = .active → c.isTrunk = true → c.pendingChange = none → c.branches ≠ [] →
          refused .hasBranches))

/-- Step 6 for a new record: its owner is the link of the request, or the owner the mailbox body names, or SUPERVISOR
(R13, R88); LINK_DOWN, then QUOTA (R83, R14); the record taken is the lowest-numbered FREE one (R15). -/
def Obligations.OwnerChecksAndRecordChoice : Prop :=
  ((∀ n named, newOwner (.link n) named = .link n) ∧ (∀ o, newOwner .supervisor (some o) = o) ∧
    newOwner .supervisor none = .supervisor) ∧
  (∀ (s : State) (n : Link),
    ((s.link n).state ≠ .up → s.ownerCheck .supervisor (.link n) = some .linkDown) ∧
    ((s.link n).state = .up → (s.link n).quota ≤ s.ownedCount n →
      s.ownerCheck .supervisor (.link n) = some .quota) ∧
    ((s.link n).state = .up → s.ownedCount n < (s.link n).quota →
      s.ownerCheck .supervisor (.link n) = none) ∧
    ((s.link n).quota ≤ s.ownedCount n → s.ownerCheck (.link n) (.link n) = some .quota) ∧
    (s.ownedCount n < (s.link n).quota → s.ownerCheck (.link n) (.link n) = none) ∧
    s.ownerCheck .supervisor .supervisor = none) ∧
  ∀ s : State,
    (∀ id, s.lowestFree = some id ↔ id < 256 ∧ s.circuit id = none ∧ ∀ j, j < id → s.circuit j ≠ none) ∧
    (s.lowestFree = none ↔ ∀ id, id < 256 → s.circuit id ≠ none)

/-- The placement procedures (R56 to R59), for 1 to 16 slots: FIXED, CONTIGUOUS, SPREAD and ANY choose what their rules
give, and find no choice exactly when the rules find none; CONTIGUOUS and SPREAD then answer NO_FIT, the count test of
R55 having passed. -/
def Obligations.PlacementProcedures : Prop :=
  ∀ (free : List Nat) (n : Nat), 1 ≤ n → n ≤ 16 →
    (∀ listed, (∀ slot ∈ listed, slot ∈ free) → chooseFixed free listed = some listed) ∧
    (∀ listed, (∃ slot ∈ listed, slot ∉ free) → chooseFixed free listed = none) ∧
    (∀ start, start ≤ 64 - n → (∀ k, k < n → start + k ∈ free) →
      (∀ earlier, earlier < start → ∃ k, k < n ∧ earlier + k ∉ free) →
      chooseContiguous free n = some ((List.range n).map fun k => start + k)) ∧
    ((∀ start, start ≤ 64 - n → ∃ k, k < n ∧ start + k ∉ free) →
      chooseContiguous free n = none ∧
        (n ≤ free.length → ∀ listed, chooseSlots free n .contiguous listed = .error .noFit)) ∧
    (∀ start, start < 64 / n → (∀ k, k < n → start + k * (64 / n) ∈ free) →
      (∀ earlier, earlier < start → ∃ k, k < n ∧ earlier + k * (64 / n) ∉ free) →
      chooseSpread free n = some ((List.range n).map fun k => start + k * (64 / n))) ∧
    ((∀ start, start < 64 / n → ∃ k, k < n ∧ start + k * (64 / n) ∉ free) →
      chooseSpread free n = none ∧
        (n ≤ free.length → ∀ listed, chooseSlots free n .spread listed = .error .noFit)) ∧
    (free.Pairwise (· < ·) → n ≤ free.length →
      (chooseAny free n).length = n ∧ (∀ a ∈ chooseAny free n, a ∈ free) ∧
        ∀ a ∈ chooseAny free n, ∀ b ∈ free, b ∉ chooseAny free n → a < b)

/-- The free sets (R49), the order of the checks on one side and of the two sides (R55), the source slots of a RESHAPE
(R63), its two sides, the destination side from the output free set of its destination trunk at the new width (R64),
and the sorted pairing of chosen slots (R60). -/
def Obligations.AllocationOrder : Prop :=
  (∀ s : State, s.Canonical → ∀ t slot,
    (slot ∈ s.freeOutputs t ↔ slot < 64 ∧
      ∀ id c, s.circuit id = some c → c.dstTrunk = t → ∀ p ∈ c.staged, p.dst ≠ slot) ∧
    (slot ∈ s.freeInputs t ↔ slot < 64 ∧
      ∀ id c, s.circuit id = some c → c.isTrunk = true → c.srcTrunk = t → ∀ p ∈ c.staged, p.src ≠ slot)) ∧
  (∀ (free : List Nat) (n : Nat) (listed : List Nat),
    (free.length < n → ∀ placement, chooseSlots free n placement listed = .error .noRoom) ∧
    (n ≤ free.length →
      (chooseFixed free listed = none → chooseSlots free n .fixed listed = .error .slotTaken) ∧
      (∀ slots, chooseFixed free listed = some slots → chooseSlots free n .fixed listed = .ok slots) ∧
      (chooseContiguous free n = none → chooseSlots free n .contiguous listed = .error .noFit) ∧
      (∀ slots, chooseContiguous free n = some slots → chooseSlots free n .contiguous listed = .ok slots) ∧
      (chooseSpread free n = none → chooseSlots free n .spread listed = .error .noFit) ∧
      (∀ slots, chooseSpread free n = some slots → chooseSlots free n .spread listed = .ok slots) ∧
      chooseSlots free n .any listed = .ok (chooseAny free n))) ∧
  (∀ (s : State) (f : ClaimFields) (code : ResultCode) (sources destinations : List Nat),
    (chooseSlots (s.freeInputs f.srcTrunk) f.width f.srcPlacement f.fixed = .error code →
      s.claimPairs f = .error code) ∧
    (chooseSlots (s.freeInputs f.srcTrunk) f.width f.srcPlacement f.fixed = .ok sources →
      (chooseSlots (s.freeOutputs f.dstTrunk) f.width f.dstPlacement [] = .error code →
        s.claimPairs f = .error code) ∧
      (chooseSlots (s.freeOutputs f.dstTrunk) f.width f.dstPlacement [] = .ok destinations →
        s.claimPairs f = .ok (pairSlots sources destinations)))) ∧
  (∀ (s : State) (c : Circuit) (width : Nat),
    (width ≤ c.width → s.reshapeSources c width = .ok (c.sources.take width)) ∧
    (c.width < width → (s.freeInputs c.srcTrunk).length < width - c.width →
      s.reshapeSources c width = .error .noRoom) ∧
    (c.width < width → width - c.width ≤ (s.freeInputs c.srcTrunk).length →
      s.reshapeSources c width = .ok (c.sources ++ chooseAny (s.freeInputs c.srcTrunk) (width - c.width)))) ∧
  (∀ c : Circuit, c.sources.Pairwise (· ≤ ·) ∧ c.sources.Perm ((marked false c.staged).map Pair.src)) ∧
  (∀ (s : State) (c : Circuit) (width : Nat) (placement : Placement) (code : ResultCode)
      (sources destinations : List Nat),
    (s.reshapeSources c width = .error code → s.reshapePairs c width placement = .error code) ∧
    (s.reshapeSources c width = .ok sources →
      (chooseSlots (s.freeOutputs c.dstTrunk) width placement [] = .error code →
        s.reshapePairs c width placement = .error code) ∧
      (chooseSlots (s.freeOutputs c.dstTrunk) width placement [] = .ok destinations →
        s.reshapePairs c width placement = .ok (pairSlots sources destinations)))) ∧
  ∀ sources destinations : List Nat, sources.Nodup → destinations.Nodup → sources.length = destinations.length →
    ((pairSlots sources destinations).map Pair.src).Pairwise (· < ·) ∧
    ((pairSlots sources destinations).map Pair.dst).Pairwise (· < ·) ∧
    (∀ a, a ∈ (pairSlots sources destinations).map Pair.src ↔ a ∈ sources) ∧
    (∀ a, a ∈ (pairSlots sources destinations).map Pair.dst ↔ a ∈ destinations) ∧
    ∀ p ∈ pairSlots sources destinations, p.retiring = false

/-- A CLAIM body and a BRANCH body written from their fields by the layout of 12.3 are read back as those fields, every
field at every value it may hold; and a CLAIM, BRANCH or RESHAPE body is read as some fields exactly when it holds them
by the lengths, the layout and the ranges of R54, R80, R187 and 12.3, and is otherwise read as none. -/
def Obligations.CreatingBodiesAreRead : Prop :=
  (∀ (who : Owner) (f : ClaimFields), f.srcTrunk ≤ 7 → f.dstTrunk ≤ 7 → 1 ≤ f.width → f.width ≤ 16 →
    f.dstPlacement ≠ .fixed →
    (f.srcPlacement = .fixed →
      f.fixed.length = f.width ∧ f.fixed.Pairwise (· < ·) ∧ ∀ slot ∈ f.fixed, slot < 64) →
    (f.srcPlacement ≠ .fixed → f.fixed = []) → (who ≠ .supervisor → f.owner = none) →
    parseClaim who
      (claimWords f (placementCode f.srcPlacement) (placementCode f.dstPlacement) (slotWords f.fixed) ++
        ownerWords f.owner) = some f) ∧
  (∀ (who : Owner) (f : BranchFields), f.parent < 256 → f.dstTrunk ≤ 7 → f.dstPlacement ≠ .fixed →
    (who ≠ .supervisor → f.owner = none) →
    parseBranch who
      ([ refWord f.parent f.generation, BitVec.ofNat 16 (f.dstTrunk * 256 + placementCode f.dstPlacement),
         BitVec.ofNat 16 f.fill.toNat, f.lease ] ++ ownerWords f.owner) = some f) ∧
  ∀ (who : Owner) (body : List Word),
    (∀ f, parseClaim who body = some f ↔ ClaimBody who body f) ∧
    (∀ f, parseBranch who body = some f ↔ BranchBody who body f) ∧
    ∀ width placement, parseReshape body = some (width, placement) ↔ ReshapeBody body width placement

/-! ### Requests -/

/-- A CLAIM (R89, R61, R79): a body outside its layout is refused with BAD_ARGUMENT (R54, R80, R187); then the owner of
the new record is checked, with LINK_DOWN or QUOTA (R83, R14); then a FREE record is sought, with NO_RECORD and its
event (R15); then the slots, with NO_ROOM, NO_FIT or SLOT_TAKEN (R55). A CLAIM that passes every check takes the lowest
FREE record and sets it as R16 gives, its pairs are described in the staged bank, its id is listed, and the OK answer
carries the reference, the width and the pairs. -/
def Obligations.ClaimCreatesCircuit : Prop :=
  ∀ (s : State) (who : Owner) (body : List Word), s.Canonical → Takes s who (some .claim) body →
    let refused (code : ResultCode) : Prop := ∃ t, exec .claim s = .next t ∧ Answered who code [] s s t
    (parseClaim who body = none → refused .badArgument) ∧
    ∀ f, parseClaim who body = some f →
      (∀ code, s.ownerCheck who (newOwner who f.owner) = some code → refused code) ∧
      (s.ownerCheck who (newOwner who f.owner) = none →
        (s.lowestFree = none →
          ∃ t, exec .claim s = .next t ∧ Answered who .noRecord [] s (s.raise .noRecord) t) ∧
        ∀ id, s.lowestFree = some id →
          (∀ code, s.claimPairs f = .error code → refused code) ∧
          ∀ pairs, s.claimPairs f = .ok pairs →
            ∃ u t, exec .claim s = .next t ∧
              RecordTaken id
                { state := .pending, owner := newOwner who f.owner, kind := .trunk [] f.isOpen,
                  srcTrunk := f.srcTrunk, dstTrunk := f.dstTrunk, width := f.width, staged := pairs, live := [],
                  stagedTreatment := .pass, liveTreatment := .pass, fill := f.fill, leaseLength := f.lease,
                  leaseLeft := f.lease, pendingChange := none, closeReason := none, cutoverCycle := none }
                s.record s u ∧
              Answered who .ok
                (refWord id ((s.record id).generation + 1) ::
                  BitVec.ofNat 16 (f.width * 256 + pairs.length) :: pairs.map pairWord) s u t)

/-- The record of another id when a branch is created: its parent's branch list takes the new id at its end (R11). -/
def Sys2Proof.Machine.withBranch (parent : Nat) (c : Circuit) (branches : List Nat) (isOpen : Bool) (id : Nat)
    (s : State) (j : Nat) : Record :=
  if j = parent then { s.record j with circuit := some { c with kind := .trunk (branches ++ [id]) isOpen } }
  else s.record j

/-- A BRANCH (R92, R62, R79): a body outside its layout is refused with BAD_ARGUMENT (R54, R80, R187), a reference that
names no record with UNKNOWN_CIRCUIT, a parent the requester may not branch with NOT_OWNER (R12, R81), and a parent in
another condition with the code of R82; then follow LINK_DOWN and QUOTA (R83, R14), NO_RECORD with its event (R15), and
NO_ROOM or NO_FIT (R55). A BRANCH that passes every check takes the lowest FREE record with the parent's source trunk,
width and staged source slots, the parent's branch list takes its id, and the answer is that of a CLAIM. -/
def Obligations.BranchCreatesCircuit : Prop :=
  ∀ (s : State) (who : Owner) (body : List Word), s.Canonical → Takes s who (some .branch) body →
    let refused (code : ResultCode) : Prop := ∃ t, exec .branch s = .next t ∧ Answered who code [] s s t
    (parseBranch who body = none → refused .badArgument) ∧
    ∀ f, parseBranch who body = some f →
      (s.circuit f.parent = none ∨ (s.record f.parent).generation ≠ f.generation → refused .unknownCircuit) ∧
      ∀ p, s.circuit f.parent = some p → (s.record f.parent).generation = f.generation →
        let admitted : Prop := who = .supervisor ∨ p.owner = who ∨ ∃ branches, p.kind = .trunk branches true
        (¬admitted → refused .notOwner) ∧
        (admitted → p.state = .releasing ∨ p.state = .closed → refused .going) ∧
        (admitted → p.state = .pending → refused .wrongState) ∧
        (admitted → p.state = .active ∨ p.state = .suspended → (∃ parent, p.kind = .branch parent) →
          refused .wrongState) ∧
        ∀ branches isOpen, p.kind = .trunk branches isOpen → admitted → p.state = .active ∨ p.state = .suspended →
          (p.pendingChange = some .reshapeAdd ∨ p.pendingChange = some .reshapeDrop → refused .changePending) ∧
          (p.pendingChange ≠ some .reshapeAdd → p.pendingChange ≠ some .reshapeDrop →
            (3 ≤ branches.length → refused .branchLimit) ∧
            (branches.length < 3 →
              (∀ code, s.ownerCheck who (newOwner who f.owner) = some code → refused code) ∧
              (s.ownerCheck who (newOwner who f.owner) = none →
                (s.lowestFree = none →
                  ∃ t, exec .branch s = .next t ∧ Answered who .noRecord [] s (s.raise .noRecord) t) ∧
                ∀ id, s.lowestFree = some id →
                  (∀ code, chooseSlots (s.freeOutputs f.dstTrunk) p.width f.dstPlacement [] = .error code →
                    refused code) ∧
                  ∀ destinations,
                    chooseSlots (s.freeOutputs f.dstTrunk) p.width f.dstPlacement [] = .ok destinations →
                    ∃ u t, exec .branch s = .next t ∧
                      RecordTaken id
                        { state := .pending, owner := newOwner who f.owner, kind := .branch f.parent,
                          srcTrunk := p.srcTrunk, dstTrunk := f.dstTrunk, width := p.width,
                          staged := pairSlots p.sources destinations, live := [], stagedTreatment := .pass,
                          liveTreatment := .pass, fill := f.fill, leaseLength := f.lease, leaseLeft := f.lease,
                          pendingChange := none, closeReason := none, cutoverCycle := none }
                        (withBranch f.parent p branches isOpen id s) s u ∧
                      Answered who .ok
                        (refWord id ((s.record id).generation + 1) ::
                          BitVec.ofNat 16 (p.width * 256 + (pairSlots p.sources destinations).length) ::
                          (pairSlots p.sources destinations).map pairWord) s u t)))

/-- A RELEASE that is accepted (R95 to R98): the record is released for its state, its branches with it, and the answer
carries the reference, the state after the admission and the number of branches released. -/
def Obligations.ReleaseRequest : Prop :=
  ∀ (s : State) (who : Owner) (id : Nat) (c : Circuit), s.Canonical → id < 256 → s.circuit id = some c →
    who = .supervisor ∨ c.owner = who → c.state = .pending ∨ c.state = .active ∨ c.state = .suspended →
    Takes s who (some .release) [refWord id (s.record id).generation] →
    ∃ u t, exec .release s = .next t ∧
      Released (if who = .supervisor ∧ c.owner ≠ .supervisor then .forced else .released) id c s u ∧
      Answered who .ok
        [ refWord id (s.record id).generation,
          BitVec.ofNat 16 (stateCode (u.circuit id) * 256 + (releasableBranches s c).length) ] s u t

/-- A RESHAPE of a record that passes the checks of R81 and R82 (R100, R65): when the slots are not found it is refused
with the code of the side that fails, NO_ROOM or NO_FIT (R55, R63, R64); when they are, the old pairs are marked, the
new pairs are staged beside them and described as PASS, the width and the pending change are set, the id is listed, and
the answer lists the new pairs. -/
def Obligations.ReshapeRequest : Prop :=
  ∀ (s : State) (who : Owner) (id : Nat) (c : Circuit) (isOpen : Bool) (width : Nat) (placement : Placement),
    s.Canonical → id < 256 → s.circuit id = some c → who = .supervisor ∨ c.owner = who →
    c.state = .active → c.kind = .trunk [] isOpen → c.pendingChange = none →
    1 ≤ width → width ≤ 16 → placement ≠ .fixed →
    Takes s who (some .reshape)
      [refWord id (s.record id).generation, BitVec.ofNat 16 (width * 256 + placementCode placement)] →
    (∀ code, s.reshapePairs c width placement = .error code →
      ∃ t, exec .reshape s = .next t ∧ Answered who code [] s s t) ∧
    ∀ pairs, c.stagedTreatment = .pass → s.reshapePairs c width placement = .ok pairs →
      ∃ u t staged, exec .reshape s = .next t ∧
        Restaged id c { c with staged := staged, width := width, pendingChange := some .reshapeAdd } pairs
          (fun p => .pass id c.srcTrunk p.src) s u ∧
        staged.length = c.staged.length + pairs.length ∧
        (∀ p, p ∈ staged ↔ (∃ q ∈ c.staged, p = { q with retiring := true }) ∨ p ∈ pairs) ∧
        ((c.staged.map Pair.dst).Pairwise (· < ·) → (staged.map Pair.dst).Pairwise (· < ·)) ∧
        Answered who .ok
          (refWord id (s.record id).generation ::
            BitVec.ofNat 16 (width * 256 + pairs.length) :: pairs.map pairWord) s u t

/-- A SUSPEND and a RESUME that are accepted (R105, R106): the staged treatment and the pending change are set, the
staged entries are rewritten, and the id is listed; the staged pairs are unchanged. -/
def Obligations.SuspendAndResume : Prop :=
  ∀ (s : State) (who : Owner) (id : Nat) (c : Circuit), s.Canonical → id < 256 → s.circuit id = some c →
    who = .supervisor ∨ c.owner = who → c.pendingChange = none →
    (c.state = .active → Takes s who (some .suspend) [refWord id (s.record id).generation] →
      ∃ u t, exec .suspend s = .next t ∧
        Restaged id c { c with stagedTreatment := .fill, pendingChange := some .suspend } c.staged
          (fun _ => .fill id c.fill) s u ∧
        Answered who .ok [refWord id (s.record id).generation] s u t) ∧
    (c.state = .suspended → (c.staged.map Pair.dst).Nodup →
      Takes s who (some .resume) [refWord id (s.record id).generation] →
      ∃ u t, exec .resume s = .next t ∧
        Restaged id c { c with stagedTreatment := .pass, pendingChange := some .resume } c.staged
          (fun p => .pass id c.srcTrunk p.src) s u ∧
        Answered who .ok [refWord id (s.record id).generation] s u t)

/-- RENEW replaces the lease length when it gives one and reloads lease left (R108); ASK answers with the summary and
changes nothing (R110). -/
def Obligations.RenewAndAsk : Prop :=
  ∀ (s : State) (who : Owner) (id : Nat) (c : Circuit), s.Canonical → id < 256 → s.circuit id = some c →
    who = .supervisor ∨ c.owner = who →
    let reference := refWord id (s.record id).generation
    (∀ body length, c.state = .pending ∨ c.state = .active ∨ c.state = .suspended →
      (body = [reference] ∧ length = c.leaseLength ∨ body = [reference, length]) →
      Takes s who (some .renew) body →
      ∃ u t, exec .renew s = .next t ∧ u = s.withTable u.table ∧
        u.record id = { generation := (s.record id).generation,
                        circuit := some { c with leaseLength := length, leaseLeft := length } } ∧
        (∀ j, j ≠ id → u.record j = s.record j) ∧
        Answered who .ok [reference, length, length] s u t) ∧
    (Takes s who (some .ask) [reference] →
      ∃ t, exec .ask s = .next t ∧ Answered who .ok (s.summary id) s s t)

/-- The reading commands of the supervisor: READ_CIRCUIT (R156), READ_SLOT (R157), READ_FREE (R158). They change
nothing but the mailbox, and a body out of range is refused with BAD_ARGUMENT (R155). -/
def Obligations.SupervisorReads : Prop :=
  ∀ (s : State) (a b : Nat), a < 256 → b < 256 →
    let word : Word := BitVec.ofNat 16 (a * 256 + b)
    let answered (command : Instr) (code : ResultCode) (body : List Word) : Prop :=
      ∃ t, exec command s = .next t ∧ Answered .supervisor code body s s t
    (Takes s .supervisor (some .readCircuit) [word] →
      (1 < b → answered .readCircuit .badArgument []) ∧
      (b ≤ 1 →
        (s.circuit a = none → answered .readCircuit .ok (s.summary a ++ [0])) ∧
        ∀ c, s.circuit a = some c →
          let pairs := if b = 0 then c.live else c.staged
          answered .readCircuit .ok
            (s.summary a ++ BitVec.ofNat 16 pairs.length :: pairs.map pairWord))) ∧
    (Takes s .supervisor (some .readSlot) [word] →
      (7 < a ∨ 63 < b → answered .readSlot .badArgument []) ∧
      (a ≤ 7 → b ≤ 63 →
        answered .readSlot .ok
          ((if s.maps.live = .a then 0 else 1) ::
            (Entry.words (Sparse.read .idle s.maps.bankA (64 * a + b)) ++
              Entry.words (Sparse.read .idle s.maps.bankB (64 * a + b)))))) ∧
    (Takes s .supervisor (some .readFree) [word] →
      (7 < a ∨ 1 < b → answered .readFree .badArgument []) ∧
      (a ≤ 7 → b ≤ 1 →
        ∃ map, answered .readFree .ok map ∧ map.length = 4 ∧
          ∀ slot, slot < 64 →
            ((map.getD (slot / 16) 0).getMsbD (slot % 16) = true ↔
              slot ∈ if b = 0 then s.freeInputs a else s.freeOutputs a)))

/-- TAKE_REPORT takes the head of the supervisor report queue and frees a CLOSED record, or answers with the empty flag
(R159, R18); COMMIT sets the COMMIT armed flag (R160, R46); RESET_LINK makes a link reset at its admission, with every
effect R144 gives for the link's state, and answers with the link's state and down reason after it (R160). -/
def Obligations.SupervisorActs : Prop :=
  ∀ s : State, s.Canonical →
    (Takes s .supervisor (some .takeReport) [] →
      (s.supQueue = [] → ∃ t, exec .takeReport s = .next t ∧ Answered .supervisor .ok [0x8000] s s t) ∧
      ∀ id rest, s.supQueue = id :: rest →
        ∃ u t, exec .takeReport s = .next t ∧
          Answered .supervisor .ok (BitVec.ofNat 16 rest.length :: s.reportBody id) s u t ∧
          (((s.circuit id).any fun c => c.state == .closed) = false → u = s.withSupQueue rest) ∧
          (((s.circuit id).any fun c => c.state == .closed) = true → Frees (· = id) (s.withSupQueue rest) u)) ∧
    (Takes s .supervisor (some .commit) [] →
      ∃ t, exec .commit s = .next t ∧
        Answered .supervisor .ok [] s (s.withCutover { s.cutover with armed := true }) t) ∧
    ∀ n, Takes s .supervisor (some .resetLink) [BitVec.ofNat 16 (linkNumber n)] →
      ∃ u t, exec .resetLink s = .next t ∧
        ((s.link n).state = .up → LeavesUp n .down .reset s u) ∧
        ((s.link n).state = .down →
          u = ((s.withLink n { s.link n with downReason := .reset }).withEngine
            { s.engine with followUps := afterPolicy s n s.engine.followUps }).raise (.linkState n)) ∧
        ((s.link n).state = .disabled → u = s) ∧
        Answered .supervisor .ok
          [BitVec.ofNat 16 ((u.link n).state.code * 256 + (u.link n).downReason.code)] s u t

/-! ### Follow-up items -/

/-- A DROP item that still applies removes the marked pairs, clears their staged entries and lists the record
(R77, R66); one that no longer applies is discarded (R76). The staged pairs are on distinct slots, as R4 has it. -/
def Obligations.DropItem : Prop :=
  ∀ (s : State) (id : Nat), s.Canonical → TakesFollowUp s .drop id →
    (∀ c, s.circuit id = some c → c.state = .active ∨ c.state = .suspended ∨ c.state = .pending →
      c.pendingChange = some .reshapeDrop → (c.staged.map Pair.dst).Nodup →
      ∃ t, exec .drop s = .next t ∧
        Restaged id c { c with staged := c.staged.filter fun p => !p.retiring }
          (c.staged.filter fun p => p.retiring) (fun _ => .idle) (withoutHead s) t) ∧
    (s.circuit id = none ∨
      (∃ c, s.circuit id = some c ∧
        (c.state = .releasing ∨ c.state = .closed ∨ c.pendingChange ≠ some .reshapeDrop)) →
      exec .drop s = .next (withoutHead s))

/-- An EXPIRE or ORPHAN item that still applies releases its record with its cascade, as a RELEASE would, with reason
EXPIRED or ORPHANED and no answer (R78, R117); one that no longer applies is discarded (R76). -/
def Obligations.ExpireAndOrphanItems : Prop :=
  ∀ (s : State) (id : Nat), s.Canonical →
    (∀ c, s.circuit id = some c → c.state = .pending ∨ c.state = .active ∨ c.state = .suspended →
      (TakesFollowUp s .expire id →
        ∃ t, exec .expire s = .next t ∧ Released .expired id c (withoutHead s) t) ∧
      (TakesFollowUp s .orphan id →
        ∃ t, exec .orphan s = .next t ∧ Released .orphaned id c (withoutHead s) t)) ∧
    (s.circuit id = none ∨ (∃ c, s.circuit id = some c ∧ (c.state = .releasing ∨ c.state = .closed)) →
      (TakesFollowUp s .expire id → exec .expire s = .next (withoutHead s)) ∧
      (TakesFollowUp s .orphan id → exec .orphan s = .next (withoutHead s)))

/-! ### Boundaries, leases and the copy -/

/-- The frame starts of the Timing Unit's own timing: an ordinary one, the lease tick at frame 8 and the boundary after
frame 15 (R164, R165, R175), with the countdown of R113 and R114, the decision of R36 to R38, the cutover of R39 to R44
and the count of silence of R130. The moment at which they fall is the model's own choice: its time line (log 6), and a
frame start whose nominal time has passed falls at once (log 7); so is the field that keeps this moment (log 6). -/
def Obligations.OwnFrameStarts : Prop :=
  ∀ (s : State) (f : FrameInput), OwnFrameDue s → s.Canonical →
    let now := s.timing.ownFrameTime
    let noted := s.withTiming { s.timing with ownStart := now }
    (s.timing.frame < 15 → s.timing.frame ≠ 7 →
      ∃ t, exec (.frameStart f.received) s = .next t ∧ FrameStarts .ordinary now f noted t) ∧
    (s.timing.frame = 7 →
      ∃ t, exec (.leaseTick f.received) s = .next t ∧ FrameStarts .leaseTick now f noted t) ∧
    (15 ≤ s.timing.frame →
      ∃ t, exec (.boundary f) s = .next t ∧ FrameStarts (.boundary false) now f noted t)

/-- The lease tick at which a lease runs out: lease left is 0, EXPIRY is raised, and an item that releases the record
stands in the follow-up queue, since an EXPIRE offer replaces a DROP and gives way to an ORPHAN (R113, R114). The row
LEASE_RUN_OUT as that tick (log 3), and its moment (log 6), are the model's own choices. -/
def Obligations.LeaseRunsOut : Prop :=
  ∀ (s : State) (received : TrunkBytes) (id : Nat) (c : Circuit), OwnFrameDue s → s.Canonical →
    s.timing.frame = 7 → s.circuit id = some c → c.state = .active ∨ c.state = .suspended → c.leaseLength ≠ 0 →
    c.leaseLeft = 1 →
    ∃ t, exec (.leaseRunOut id received) s = .next t ∧ exec (.leaseTick received) s = .next t ∧
      t.circuit id = some { c with leaseLeft := 0 } ∧ t.events.isSet .expiry = true ∧
      ∃ item ∈ t.engine.followUps, item.id = id ∧ item.kind ≠ .drop

/-- What a cutover does to every record, queue and count (R11, R39 to R44, R130), at a boundary of the part's own timing
at which no silence limit is reached: the live form of a record on the change list becomes its staged form, its state and
pending change follow R41, and a RELEASING record meets the owner test (R17); a record that is not listed is as it was;
either kind loses from its branch list the branches that leave live (R11). The ids of the listed records join their
owners' report queues in the order of the list (R39, R42, R138, R161), with SUP_REPORT for the first on an empty
supervisor report queue, and the DROP items join the follow-up queue in that order (R41); the list is emptied and the
banks change roles (R44). In the state before it the change list holds no id twice (R33) and the report queues hold the
ids of their owners' records (R138, R161). The moment of the boundary is the model's own choice (log 6). -/
def Obligations.CutoverAppliesRecords : Prop :=
  ∀ (s : State) (f : FrameInput), OwnFrameDue s → s.Canonical → 15 ≤ s.timing.frame →
    (∀ n, ¬LimitReached s n) → CutsOver s → s.cutover.changeList.Nodup → s.QueuesOwned →
    ∃ t, exec (.boundary f) s = .next t ∧
      (∀ id c, id ∈ s.cutover.changeList → s.circuit id = some c →
        (t.record id).generation = (s.record id).generation ∧
        (c.state ≠ .releasing → ∃ d, t.circuit id = some d ∧
          d = pruned s id (applied (s.timing.cycle + 1) c) ∧
          d.live = c.staged ∧ d.liveTreatment = c.stagedTreatment ∧ d.staged = c.staged ∧
          d.stagedTreatment = c.stagedTreatment ∧ d.cutoverCycle = some (s.timing.cycle + 1) ∧
          d.owner = c.owner ∧ d.width = c.width ∧
          (c.state = .pending → d.state = .active ∧ d.pendingChange = none ∧ d.leaseLeft = c.leaseLength) ∧
          (c.state = .active → c.pendingChange = some .suspend → d.state = .suspended ∧ d.pendingChange = none) ∧
          (c.state = .suspended → c.pendingChange = some .resume → d.state = .active ∧ d.pendingChange = none) ∧
          (c.state = .active → c.pendingChange = some .reshapeAdd →
            d.state = .active ∧ d.pendingChange = some .reshapeDrop ∧
              ∃ item ∈ t.engine.followUps, item.id = id) ∧
          (c.state = .active → c.pendingChange = some .reshapeDrop →
            d.state = .active ∧ d.pendingChange = none)) ∧
        (c.state = .releasing → OwnerListens s c.owner → ∃ d, t.circuit id = some d ∧
          d = closedAt (s.timing.cycle + 1) c ∧ d.state = .closed ∧ d.live = c.staged ∧
          d.closeReason = c.closeReason ∧ d.cutoverCycle = some (s.timing.cycle + 1) ∧ d.branches = []) ∧
        (c.state = .releasing → ¬OwnerListens s c.owner → t.circuit id = none) ∧
        (OwnerListens s c.owner → t.reportOwed c.owner id = true)) ∧
      (∀ id, id ∉ s.cutover.changeList ∨ s.circuit id = none →
        t.record id = { generation := (s.record id).generation, circuit := (s.circuit id).map (pruned s id) }) ∧
      (∀ n, t.link n =
        { silenceCounted (s.link n) with
          reports :=
            if (s.link n).state = .up then
              (listedWhere s fun c => c.owner == .link n).foldl appendOnce (s.link n).reports
            else (s.link n).reports.filter fun id => !freedByCutover s id }) ∧
      t.supQueue =
        (if s.control.reports then (listedWhere s fun c => c.owner == .supervisor).foldl appendOnce s.supQueue
         else s.supQueue.filter fun id => !freedByCutover s id) ∧
      t.events =
        { s.events with
          latches := s.events.latches ||| eventMask .cutover |||
            (if s.control.reports = true ∧ s.supQueue = [] ∧ (listedWhere s fun c => c.owner == .supervisor) ≠ [] then
              eventMask .supReport
             else 0) } ∧
      t.engine =
        { s.engine with
          followUps := (listedWhere s offersDrop).foldl (fun q id => offerTo q { kind := .drop, id := id })
            (s.engine.followUps.filter fun item => !freedByCutover s item.id) } ∧
      t.cutover = { changeList := [], armed := false, settle := 0 } ∧
      t.maps = { s.maps with live := otherBank s.maps.live, state := .copying }

/-- The copy completion leaves the staged bank with the content of the live bank and the bank SYNCED, and changes
nothing else (R31); in SYNCED none occurs (R30, log 3). -/
def Obligations.CopyCompletion : Prop :=
  ∀ s : State, s.resetAsserted = false →
    (s.maps.state = .copying → ∃ t, exec .copyCompletion s = .next t ∧ t = s.withMaps t.maps ∧
      t.maps.state = .synced ∧ t.maps.live = s.maps.live ∧ t.maps.liveBank = s.maps.liveBank ∧
      t.maps.stagedBank = s.maps.liveBank) ∧
    (s.maps.state = .synced → exec .copyCompletion s = .next s)

/-- The bytes on the trunks in a frame begun by the Timing Unit's own timing: an IDLE entry gives the trunk's idle
byte, a FILL entry its fill byte, and a PASS entry the byte received on its source slot in the frame before
(R165, R166). The output pins beside them: FSO is asserted for the first bit period of slot 0 of every frame, a frame
having 512 bit periods, and TCK runs, both in every timing state and through a soft reset and neither while RESETn is
asserted (R176); LnOCK is driven in DOWN and UP, and in DISABLED until the message on the line has been sent; LnODL is
asserted while a message is being sent, and LnODT then carries the bits of its words, each most significant first, which
a receiver reads back as those words with no partial word (R121). The time in the frame is that of the last timing event
(log 6), and that LnOCK does not run while RESETn is asserted is the model's own choice (log 5); the bytes received come
as an operand (log 8); where R121 gives LnODT no value the model names none (log 24). -/
def Obligations.TrunksCarryTheFrameBefore : Prop :=
  (∀ (s : State) (f : FrameInput) (trunk slot : Nat), OwnFrameDue s → s.Canonical → s.timing.frame < 15 →
    s.timing.frame ≠ 7 →
    ∃ t, exec (.frameStart f.received) s = .next t ∧ t.fso = true ∧
      (Sparse.read Entry.idle s.maps.liveBank (64 * trunk + slot) = .idle →
        t.trunkOutput trunk slot = some (s.idle.byte trunk)) ∧
      (∀ id byte, Sparse.read Entry.idle s.maps.liveBank (64 * trunk + slot) = .fill id byte →
        t.trunkOutput trunk slot = some byte) ∧
      ∀ id srcTrunk srcSlot, srcTrunk ≤ 7 → srcSlot ≤ 63 →
        Sparse.read Entry.idle s.maps.liveBank (64 * trunk + slot) = .pass id srcTrunk srcSlot →
        t.trunkOutput trunk slot = some (Sparse.read 0xFF f.received (64 * srcTrunk + srcSlot))) ∧
  (∀ (s t : State) (kind : FrameKind) (now : Nat) (f : FrameInput), s.resetAsserted = false →
    FrameStarts kind now f s t → t.fso = true ∧ t.tckRuns = true) ∧
  (∀ (s : State) (w : Word), ∃ t, exec (.softReset w) s = .next t ∧ t.fso = s.fso ∧ t.tckRuns = s.tckRuns) ∧
  (∀ (s : State) (n : Link), s.resetAsserted = false → (s.link n).state = .disabled →
    ∃ t, exec (.transmissionComplete n) s = .next t ∧ t.lnockRuns n = false ∧ t.lnodl n = false) ∧
  ∀ s : State,
    (s.fso = true ↔ s.resetAsserted = false ∧ (s.timing.time - s.timing.frameStart) * 512 < 125000) ∧
    (s.tckRuns = true ↔ s.resetAsserted = false) ∧
    ∀ n, (s.lnockRuns n = true ↔
        s.resetAsserted = false ∧ ((s.link n).state ≠ .disabled ∨ (s.link n).line ≠ none)) ∧
      (s.lnodl n = true ↔ (s.link n).line ≠ none) ∧
      ((s.link n).line = none → ∀ sent, s.lnodt n sent = none) ∧
      ∀ m, (s.link n).line = some m →
        (∀ word bit, bit < 16 →
          s.lnodt n (16 * word + bit) = m.words[word]?.map fun w => w.getMsbD bit) ∧
        (∀ bits : List Bool, (∀ i, s.lnodt n i = bits[i]?) →
          messageOfBits bits = { words := m.words, partialBits := [], spansDiscard := false })

/-! ### References -/

/-- A pulse of a reference that is not the locked one (R169), and the event in which it becomes GOOD (R171, R174):
the lock is taken in FREE_RUN and HOLDOVER, and moves to the primary with the align-pending flag set or with
revertive 1. The window reaches 15625 ns on either side of the expected time, its ends included (log 6). -/
def Obligations.PulsesOfAnUnlockedReference : Prop :=
  ∀ (s : State) (r : Ref) (elapsed now : Nat) (f : FrameInput), s.resetAsserted = false →
    now = s.timing.time + elapsed → s.timing.mayFall now = true → s.timing.state.locked ≠ some r →
    let taken (x : RefState) : State := s.withTiming { s.timing.setRef r x with time := now }
    (s.timing.ref r = .absent →
      exec (.referencePulse r elapsed f) s = .next (taken (.qualifying 0 (now + 125000)))) ∧
    (∀ count expected, s.timing.ref r = .qualifying count expected → now + 15625 < expected →
      exec (.referencePulse r elapsed f) s = .next (taken .absent)) ∧
    (∀ count expected, s.timing.ref r = .qualifying count expected → expected ≤ now + 15625 → count < 15 →
      exec (.referencePulse r elapsed f) s = .next (taken (.qualifying (count + 1) (now + 125000)))) ∧
    (∀ expected, s.timing.ref r = .good expected → now + 15625 < expected →
      exec (.referencePulse r elapsed f) s = .next (taken .absent)) ∧
    (∀ expected, s.timing.ref r = .good expected → expected ≤ now + 15625 →
      exec (.referencePulse r elapsed f) s = .next (taken (.good (now + 125000)))) ∧
    ∀ expected, s.timing.ref r = .qualifying 15 expected → expected ≤ now + 15625 →
      let good := (taken (.good (now + 125000))).timing
      let moved := (s.withTiming { good with state := lockedTo r, alignPending := true }).raise .timing
      (s.timing.state.locked = none → exec (.referenceGood r elapsed f) s = .next moved) ∧
      (s.timing.state.locked = some (otherRef r) →
        (s.control.primary = r → s.timing.alignPending = true ∨ s.control.revertive = true →
          exec (.referenceGood r elapsed f) s = .next moved) ∧
        (s.control.primary ≠ r ∨ (s.timing.alignPending = false ∧ s.control.revertive = false) →
          exec (.referenceGood r elapsed f) s = .next (s.withTiming good)))

/-- A pulse of the locked reference: an early one loses the lock without a frame start (R172); with the align-pending
flag set it is the aligning pulse and makes a stepped boundary (R171), and the slots of the short frame that it ends are
driven as far as they were reached (R168); otherwise it makes the frame start that is due (R173), which its own row
makes too at the expected time of the pulse, while a row of another kind does nothing. The model's own choices in it:
the time line, that an aligning pulse at the moment of a frame start of the part's own timing replaces it, so that none
falls there once that frame start is made, and that one at the moment of any other frame start comes after it (log 6);
the slots that a short frame has reached (log 9); and the frame-start rows while the part is aligned (logs 3 and 11). -/
def Obligations.PulsesOfTheLockedReference : Prop :=
  (∀ (s : State) (r : Ref) (elapsed now expected : Nat) (f : FrameInput), s.resetAsserted = false → s.Canonical →
    now = s.timing.time + elapsed → s.timing.mayFall now = true → s.timing.state.locked = some r →
    s.timing.ref r = .good expected →
    let taken (x : RefState) : TimingUnit := { s.timing.setRef r x with time := now }
    (now + 15625 < expected →
      exec (.referencePulse r elapsed f) s = .next ((s.withTiming (lost r (taken .absent))).raise .timing)) ∧
    (expected ≤ now + 15625 → s.timing.alignPending = true →
      (now = s.timing.ownStart → exec (.referencePulse r elapsed f) s = .next s) ∧
      (now ≠ s.timing.ownStart →
        (∃ t, exec (.referencePulse r elapsed f) s = .next t ∧
          FrameStarts (.boundary true) now f
            (s.withTiming { taken (.good (now + 125000)) with alignPending := false }) t) ∧
        ∀ trunk slot, s.frameOutput (.boundary true) now trunk slot =
          if slot < slotsBefore s now then s.trunkOutput trunk slot else none)) ∧
    (expected ≤ now + 15625 → s.timing.alignPending = false →
      ∃ t, exec (.referencePulse r elapsed f) s = .next t ∧
        FrameStarts s.timing.dueKind now f (s.withTiming (taken (.good (now + 125000)))) t)) ∧
  (∀ (s : State) (f : FrameInput) (id : Nat) (n : Link), s.resetAsserted = false →
    (s.timing.dueKind ≠ .ordinary → exec (.frameStart f.received) s = .next s) ∧
    (s.timing.dueKind ≠ .leaseTick →
      exec (.leaseTick f.received) s = .next s ∧ exec (.leaseRunOut id f.received) s = .next s) ∧
    (s.timing.dueKind ≠ .boundary false →
      exec (.boundary f) s = .next s ∧ exec (.silenceLimit n f) s = .next s)) ∧
  ∀ (s : State) (r : Ref) (now expected : Nat) (f : FrameInput), s.resetAsserted = false → s.Canonical →
    s.timing.aligned = some r → s.timing.ref r = .good expected → now = max s.timing.time expected →
    s.timing.mayFall now = true →
    ∃ t, exec (.referencePulse r (now - s.timing.time) f) s = .next t ∧
      FrameStarts s.timing.dueKind now f
        (s.withTiming { s.timing.setRef r (.good (now + 125000)) with time := now }) t ∧
      (s.timing.dueKind = .ordinary → exec (.frameStart f.received) s = .next t) ∧
      (s.timing.dueKind = .leaseTick →
        exec (.leaseTick f.received) s = .next t ∧
        ∀ id c, s.circuit id = some c → c.state = .active ∨ c.state = .suspended → c.leaseLength ≠ 0 →
          c.leaseLeft = 1 → exec (.leaseRunOut id f.received) s = .next t) ∧
      (s.timing.dueKind = .boundary false →
        exec (.boundary f) s = .next t ∧ ∀ n, LimitReached s n → exec (.silenceLimit n f) s = .next t)

/-- The close of a window with no pulse makes the reference ABSENT (R169); when it was the locked reference, the lock
is lost (R172), and when the Timing Unit was aligned to it, the frame start that was due is made in the same event, not
stepped. The moment of the close is that of the model's time line (log 6). -/
def Obligations.WindowCloses : Prop :=
  ∀ (s : State) (r : Ref) (now expected : Nat) (f : FrameInput), s.resetAsserted = false → s.Canonical →
    (s.timing.ref r).expected? = some expected → now = max s.timing.time (expected + 15625) →
    (s.timing.ref (otherRef r)).notClosedBefore now = true →
    s.timing.aligned.isSome = true ∨ now ≤ s.timing.ownFrameTime →
    let absent : TimingUnit := { s.timing.setRef r .absent with time := now }
    (s.timing.state.locked ≠ some r → exec (.windowClose r f) s = .next (s.withTiming absent)) ∧
    (s.timing.state.locked = some r → s.timing.alignPending = true →
      exec (.windowClose r f) s = .next ((s.withTiming (lost r absent)).raise .timing)) ∧
    (s.timing.state.locked = some r → s.timing.alignPending = false →
      ∃ t, exec (.windowClose r f) s = .next t ∧
        FrameStarts s.timing.dueKind now f ((s.withTiming (lost r absent)).raise .timing) t)

/-! ### Invariants -/

/-- The state after reset is sound in every sense the statements use. -/
def Obligations.ResetIsSound : Prop :=
  State.reset.Canonical ∧ State.reset.ListsDistinct ∧ State.reset.QueuesOwned ∧ State.reset.ClosedAreHeard ∧
    State.reset.DownLinksEmpty ∧ State.reset.LeasesBounded ∧ State.reset.StagedSlotsApart ∧
    State.reset.TimingSound ∧ State.reset.RecordsFormed ∧ State.reset.BanksDescribe

/-- Every step keeps the canonical form of the Circuit Table, the banks, the frame store and the windows. -/
def Obligations.StepsKeepCanonicalForm : Prop :=
  ∀ s t : State, s.Canonical → step s = .next t → t.Canonical

/-- Every step keeps the change list, the follow-up queue and the report queues free of repeats and the windows at 8
distinct tags or fewer (R33, R73, R133, R138), and each report queue to the ids of its owner's records (R138, R161). -/
def Obligations.StepsKeepListsDistinct : Prop :=
  (∀ s t : State, s.Canonical → s.ListsDistinct → step s = .next t → t.ListsDistinct) ∧
  ∀ s t : State, s.Canonical → s.QueuesOwned → step s = .next t → t.QueuesOwned

/-- Every step keeps the law of R19, with its like for the supervisor (R20), and keeps a link that is not UP empty and
DISABLED exactly by its enable bit (R127, R142). -/
def Obligations.StepsKeepTheLinkLaws : Prop :=
  ∀ s t : State, s.Canonical → s.ClosedAreHeard → s.DownLinksEmpty → step s = .next t →
    t.ClosedAreHeard ∧ t.DownLinksEmpty

/-- Every step keeps lease left at or below lease length (R111). -/
def Obligations.StepsKeepLeasesBounded : Prop :=
  ∀ s t : State, s.Canonical → s.LeasesBounded → step s = .next t → t.LeasesBounded

/-- Every step keeps the staged slots apart: no output slot is staged by two circuits, and no input slot by two TRUNK
circuits (R49, R50); and, in states with formed records (R4, R6) and lists without repeats (R33), it keeps the laws of
R26: the live bank describes the live pairs and is IDLE elsewhere, no output slot is live for two circuits, and in SYNCED
the staged bank describes the staged pairs and is IDLE elsewhere. -/
def Obligations.StepsKeepStagedSlotsApart : Prop :=
  (∀ s t : State, s.Canonical → s.StagedSlotsApart → step s = .next t → t.StagedSlotsApart) ∧
  ∀ s t : State, s.Canonical → s.ListsDistinct → s.RecordsFormed → s.StagedSlotsApart → s.BanksDescribe →
    step s = .next t → t.BanksDescribe

/-- Every step keeps the Timing Unit sound: the locked reference is GOOD, the counts are in range (R38, R170, R172,
R175). -/
def Obligations.StepsKeepTimingSound : Prop :=
  ∀ s t : State, s.TimingSound → step s = .next t → t.TimingSound

/-- Every step keeps each record in one of the conditions of R4 and R6: the sizes of its lists, their order and the
pairing law (R4), the contents, treatments and change-list membership that go with its state and pending change (R6, R7,
R33), and a close reason exactly once it is released (R6, R8). -/
def Obligations.StepsKeepRecordsFormed : Prop :=
  ∀ s t : State, s.Canonical → s.ListsDistinct → s.RecordsFormed → step s = .next t → t.RecordsFormed

/-- In a state with formed records the change list holds exactly the circuits that are not FREE and whose staged pairs
or staged treatment differ from their live ones (R33). -/
def Obligations.ChangeListLaw : Prop :=
  ∀ s : State, s.RecordsFormed → ∀ id,
    id ∈ s.cutover.changeList ↔
      ∃ c, s.circuit id = some c ∧ (c.staged ≠ c.live ∨ c.stagedTreatment ≠ c.liveTreatment)
end

