-- ==== Sys2Proof/Laws/State.lean ====
section
/-! SUPPORT. What each update of one field of State does to each field. -/

namespace Sys2Proof.Machine

/-! ### withPending -/
@[simp] theorem State.withPending_pending (s : State) (x : List Instr) : (s.withPending x).pending = x := rfl
@[simp] theorem State.withPending_resetAsserted (s : State) (x : List Instr) :
    (s.withPending x).resetAsserted = s.resetAsserted := rfl
@[simp] theorem State.withPending_table (s : State) (x : List Instr) : (s.withPending x).table = s.table := rfl
@[simp] theorem State.withPending_maps (s : State) (x : List Instr) : (s.withPending x).maps = s.maps := rfl
@[simp] theorem State.withPending_cutover (s : State) (x : List Instr) : (s.withPending x).cutover = s.cutover := rfl
@[simp] theorem State.withPending_engine (s : State) (x : List Instr) : (s.withPending x).engine = s.engine := rfl
@[simp] theorem State.withPending_links (s : State) (x : List Instr) : (s.withPending x).links = s.links := rfl
@[simp] theorem State.withPending_control (s : State) (x : List Instr) : (s.withPending x).control = s.control := rfl
@[simp] theorem State.withPending_idle (s : State) (x : List Instr) : (s.withPending x).idle = s.idle := rfl
@[simp] theorem State.withPending_mailbox (s : State) (x : List Instr) : (s.withPending x).mailbox = s.mailbox := rfl
@[simp] theorem State.withPending_supQueue (s : State) (x : List Instr) :
    (s.withPending x).supQueue = s.supQueue := rfl
@[simp] theorem State.withPending_switch (s : State) (x : List Instr) : (s.withPending x).switch = s.switch := rfl
@[simp] theorem State.withPending_timing (s : State) (x : List Instr) : (s.withPending x).timing = s.timing := rfl
@[simp] theorem State.withPending_events (s : State) (x : List Instr) : (s.withPending x).events = s.events := rfl

/-! ### withResetAsserted -/
@[simp] theorem State.withResetAsserted_pending (s : State) (x : Bool) :
    (s.withResetAsserted x).pending = s.pending := rfl
@[simp] theorem State.withResetAsserted_resetAsserted (s : State) (x : Bool) :
    (s.withResetAsserted x).resetAsserted = x := rfl
@[simp] theorem State.withResetAsserted_table (s : State) (x : Bool) : (s.withResetAsserted x).table = s.table := rfl
@[simp] theorem State.withResetAsserted_maps (s : State) (x : Bool) : (s.withResetAsserted x).maps = s.maps := rfl
@[simp] theorem State.withResetAsserted_cutover (s : State) (x : Bool) :
    (s.withResetAsserted x).cutover = s.cutover := rfl
@[simp] theorem State.withResetAsserted_engine (s : State) (x : Bool) :
    (s.withResetAsserted x).engine = s.engine := rfl
@[simp] theorem State.withResetAsserted_links (s : State) (x : Bool) : (s.withResetAsserted x).links = s.links := rfl
@[simp] theorem State.withResetAsserted_control (s : State) (x : Bool) :
    (s.withResetAsserted x).control = s.control := rfl
@[simp] theorem State.withResetAsserted_idle (s : State) (x : Bool) : (s.withResetAsserted x).idle = s.idle := rfl
@[simp] theorem State.withResetAsserted_mailbox (s : State) (x : Bool) :
    (s.withResetAsserted x).mailbox = s.mailbox := rfl
@[simp] theorem State.withResetAsserted_supQueue (s : State) (x : Bool) :
    (s.withResetAsserted x).supQueue = s.supQueue := rfl
@[simp] theorem State.withResetAsserted_switch (s : State) (x : Bool) :
    (s.withResetAsserted x).switch = s.switch := rfl
@[simp] theorem State.withResetAsserted_timing (s : State) (x : Bool) :
    (s.withResetAsserted x).timing = s.timing := rfl
@[simp] theorem State.withResetAsserted_events (s : State) (x : Bool) :
    (s.withResetAsserted x).events = s.events := rfl

/-! ### withTable -/
@[simp] theorem State.withTable_pending (s : State) (x : Table) : (s.withTable x).pending = s.pending := rfl
@[simp] theorem State.withTable_resetAsserted (s : State) (x : Table) :
    (s.withTable x).resetAsserted = s.resetAsserted := rfl
@[simp] theorem State.withTable_table (s : State) (x : Table) : (s.withTable x).table = x := rfl
@[simp] theorem State.withTable_maps (s : State) (x : Table) : (s.withTable x).maps = s.maps := rfl
@[simp] theorem State.withTable_cutover (s : State) (x : Table) : (s.withTable x).cutover = s.cutover := rfl
@[simp] theorem State.withTable_engine (s : State) (x : Table) : (s.withTable x).engine = s.engine := rfl
@[simp] theorem State.withTable_links (s : State) (x : Table) : (s.withTable x).links = s.links := rfl
@[simp] theorem State.withTable_control (s : State) (x : Table) : (s.withTable x).control = s.control := rfl
@[simp] theorem State.withTable_idle (s : State) (x : Table) : (s.withTable x).idle = s.idle := rfl
@[simp] theorem State.withTable_mailbox (s : State) (x : Table) : (s.withTable x).mailbox = s.mailbox := rfl
@[simp] theorem State.withTable_supQueue (s : State) (x : Table) : (s.withTable x).supQueue = s.supQueue := rfl
@[simp] theorem State.withTable_switch (s : State) (x : Table) : (s.withTable x).switch = s.switch := rfl
@[simp] theorem State.withTable_timing (s : State) (x : Table) : (s.withTable x).timing = s.timing := rfl
@[simp] theorem State.withTable_events (s : State) (x : Table) : (s.withTable x).events = s.events := rfl

/-! ### withMaps -/
@[simp] theorem State.withMaps_pending (s : State) (x : MapStore) : (s.withMaps x).pending = s.pending := rfl
@[simp] theorem State.withMaps_resetAsserted (s : State) (x : MapStore) :
    (s.withMaps x).resetAsserted = s.resetAsserted := rfl
@[simp] theorem State.withMaps_table (s : State) (x : MapStore) : (s.withMaps x).table = s.table := rfl
@[simp] theorem State.withMaps_maps (s : State) (x : MapStore) : (s.withMaps x).maps = x := rfl
@[simp] theorem State.withMaps_cutover (s : State) (x : MapStore) : (s.withMaps x).cutover = s.cutover := rfl
@[simp] theorem State.withMaps_engine (s : State) (x : MapStore) : (s.withMaps x).engine = s.engine := rfl
@[simp] theorem State.withMaps_links (s : State) (x : MapStore) : (s.withMaps x).links = s.links := rfl
@[simp] theorem State.withMaps_control (s : State) (x : MapStore) : (s.withMaps x).control = s.control := rfl
@[simp] theorem State.withMaps_idle (s : State) (x : MapStore) : (s.withMaps x).idle = s.idle := rfl
@[simp] theorem State.withMaps_mailbox (s : State) (x : MapStore) : (s.withMaps x).mailbox = s.mailbox := rfl
@[simp] theorem State.withMaps_supQueue (s : State) (x : MapStore) : (s.withMaps x).supQueue = s.supQueue := rfl
@[simp] theorem State.withMaps_switch (s : State) (x : MapStore) : (s.withMaps x).switch = s.switch := rfl
@[simp] theorem State.withMaps_timing (s : State) (x : MapStore) : (s.withMaps x).timing = s.timing := rfl
@[simp] theorem State.withMaps_events (s : State) (x : MapStore) : (s.withMaps x).events = s.events := rfl

/-! ### withCutover -/
@[simp] theorem State.withCutover_pending (s : State) (x : CutoverController) :
    (s.withCutover x).pending = s.pending := rfl
@[simp] theorem State.withCutover_resetAsserted (s : State) (x : CutoverController) :
    (s.withCutover x).resetAsserted = s.resetAsserted := rfl
@[simp] theorem State.withCutover_table (s : State) (x : CutoverController) : (s.withCutover x).table = s.table := rfl
@[simp] theorem State.withCutover_maps (s : State) (x : CutoverController) : (s.withCutover x).maps = s.maps := rfl
@[simp] theorem State.withCutover_cutover (s : State) (x : CutoverController) : (s.withCutover x).cutover = x := rfl
@[simp] theorem State.withCutover_engine (s : State) (x : CutoverController) :
    (s.withCutover x).engine = s.engine := rfl
@[simp] theorem State.withCutover_links (s : State) (x : CutoverController) : (s.withCutover x).links = s.links := rfl
@[simp] theorem State.withCutover_control (s : State) (x : CutoverController) :
    (s.withCutover x).control = s.control := rfl
@[simp] theorem State.withCutover_idle (s : State) (x : CutoverController) : (s.withCutover x).idle = s.idle := rfl
@[simp] theorem State.withCutover_mailbox (s : State) (x : CutoverController) :
    (s.withCutover x).mailbox = s.mailbox := rfl
@[simp] theorem State.withCutover_supQueue (s : State) (x : CutoverController) :
    (s.withCutover x).supQueue = s.supQueue := rfl
@[simp] theorem State.withCutover_switch (s : State) (x : CutoverController) :
    (s.withCutover x).switch = s.switch := rfl
@[simp] theorem State.withCutover_timing (s : State) (x : CutoverController) :
    (s.withCutover x).timing = s.timing := rfl
@[simp] theorem State.withCutover_events (s : State) (x : CutoverController) :
    (s.withCutover x).events = s.events := rfl

/-! ### withEngine -/
@[simp] theorem State.withEngine_pending (s : State) (x : AdmissionEngine) :
    (s.withEngine x).pending = s.pending := rfl
@[simp] theorem State.withEngine_resetAsserted (s : State) (x : AdmissionEngine) :
    (s.withEngine x).resetAsserted = s.resetAsserted := rfl
@[simp] theorem State.withEngine_table (s : State) (x : AdmissionEngine) : (s.withEngine x).table = s.table := rfl
@[simp] theorem State.withEngine_maps (s : State) (x : AdmissionEngine) : (s.withEngine x).maps = s.maps := rfl
@[simp] theorem State.withEngine_cutover (s : State) (x : AdmissionEngine) :
    (s.withEngine x).cutover = s.cutover := rfl
@[simp] theorem State.withEngine_engine (s : State) (x : AdmissionEngine) : (s.withEngine x).engine = x := rfl
@[simp] theorem State.withEngine_links (s : State) (x : AdmissionEngine) : (s.withEngine x).links = s.links := rfl
@[simp] theorem State.withEngine_control (s : State) (x : AdmissionEngine) :
    (s.withEngine x).control = s.control := rfl
@[simp] theorem State.withEngine_idle (s : State) (x : AdmissionEngine) : (s.withEngine x).idle = s.idle := rfl
@[simp] theorem State.withEngine_mailbox (s : State) (x : AdmissionEngine) :
    (s.withEngine x).mailbox = s.mailbox := rfl
@[simp] theorem State.withEngine_supQueue (s : State) (x : AdmissionEngine) :
    (s.withEngine x).supQueue = s.supQueue := rfl
@[simp] theorem State.withEngine_switch (s : State) (x : AdmissionEngine) : (s.withEngine x).switch = s.switch := rfl
@[simp] theorem State.withEngine_timing (s : State) (x : AdmissionEngine) : (s.withEngine x).timing = s.timing := rfl
@[simp] theorem State.withEngine_events (s : State) (x : AdmissionEngine) : (s.withEngine x).events = s.events := rfl

/-! ### withLinks -/
@[simp] theorem State.withLinks_pending (s : State) (x : Links) : (s.withLinks x).pending = s.pending := rfl
@[simp] theorem State.withLinks_resetAsserted (s : State) (x : Links) :
    (s.withLinks x).resetAsserted = s.resetAsserted := rfl
@[simp] theorem State.withLinks_table (s : State) (x : Links) : (s.withLinks x).table = s.table := rfl
@[simp] theorem State.withLinks_maps (s : State) (x : Links) : (s.withLinks x).maps = s.maps := rfl
@[simp] theorem State.withLinks_cutover (s : State) (x : Links) : (s.withLinks x).cutover = s.cutover := rfl
@[simp] theorem State.withLinks_engine (s : State) (x : Links) : (s.withLinks x).engine = s.engine := rfl
@[simp] theorem State.withLinks_links (s : State) (x : Links) : (s.withLinks x).links = x := rfl
@[simp] theorem State.withLinks_control (s : State) (x : Links) : (s.withLinks x).control = s.control := rfl
@[simp] theorem State.withLinks_idle (s : State) (x : Links) : (s.withLinks x).idle = s.idle := rfl
@[simp] theorem State.withLinks_mailbox (s : State) (x : Links) : (s.withLinks x).mailbox = s.mailbox := rfl
@[simp] theorem State.withLinks_supQueue (s : State) (x : Links) : (s.withLinks x).supQueue = s.supQueue := rfl
@[simp] theorem State.withLinks_switch (s : State) (x : Links) : (s.withLinks x).switch = s.switch := rfl
@[simp] theorem State.withLinks_timing (s : State) (x : Links) : (s.withLinks x).timing = s.timing := rfl
@[simp] theorem State.withLinks_events (s : State) (x : Links) : (s.withLinks x).events = s.events := rfl

/-! ### withControl -/
@[simp] theorem State.withControl_pending (s : State) (x : Control) : (s.withControl x).pending = s.pending := rfl
@[simp] theorem State.withControl_resetAsserted (s : State) (x : Control) :
    (s.withControl x).resetAsserted = s.resetAsserted := rfl
@[simp] theorem State.withControl_table (s : State) (x : Control) : (s.withControl x).table = s.table := rfl
@[simp] theorem State.withControl_maps (s : State) (x : Control) : (s.withControl x).maps = s.maps := rfl
@[simp] theorem State.withControl_cutover (s : State) (x : Control) : (s.withControl x).cutover = s.cutover := rfl
@[simp] theorem State.withControl_engine (s : State) (x : Control) : (s.withControl x).engine = s.engine := rfl
@[simp] theorem State.withControl_links (s : State) (x : Control) : (s.withControl x).links = s.links := rfl
@[simp] theorem State.withControl_control (s : State) (x : Control) : (s.withControl x).control = x := rfl
@[simp] theorem State.withControl_idle (s : State) (x : Control) : (s.withControl x).idle = s.idle := rfl
@[simp] theorem State.withControl_mailbox (s : State) (x : Control) : (s.withControl x).mailbox = s.mailbox := rfl
@[simp] theorem State.withControl_supQueue (s : State) (x : Control) : (s.withControl x).supQueue = s.supQueue := rfl
@[simp] theorem State.withControl_switch (s : State) (x : Control) : (s.withControl x).switch = s.switch := rfl
@[simp] theorem State.withControl_timing (s : State) (x : Control) : (s.withControl x).timing = s.timing := rfl
@[simp] theorem State.withControl_events (s : State) (x : Control) : (s.withControl x).events = s.events := rfl

/-! ### withIdle -/
@[simp] theorem State.withIdle_pending (s : State) (x : IdleWords) : (s.withIdle x).pending = s.pending := rfl
@[simp] theorem State.withIdle_resetAsserted (s : State) (x : IdleWords) :
    (s.withIdle x).resetAsserted = s.resetAsserted := rfl
@[simp] theorem State.withIdle_table (s : State) (x : IdleWords) : (s.withIdle x).table = s.table := rfl
@[simp] theorem State.withIdle_maps (s : State) (x : IdleWords) : (s.withIdle x).maps = s.maps := rfl
@[simp] theorem State.withIdle_cutover (s : State) (x : IdleWords) : (s.withIdle x).cutover = s.cutover := rfl
@[simp] theorem State.withIdle_engine (s : State) (x : IdleWords) : (s.withIdle x).engine = s.engine := rfl
@[simp] theorem State.withIdle_links (s : State) (x : IdleWords) : (s.withIdle x).links = s.links := rfl
@[simp] theorem State.withIdle_control (s : State) (x : IdleWords) : (s.withIdle x).control = s.control := rfl
@[simp] theorem State.withIdle_idle (s : State) (x : IdleWords) : (s.withIdle x).idle = x := rfl
@[simp] theorem State.withIdle_mailbox (s : State) (x : IdleWords) : (s.withIdle x).mailbox = s.mailbox := rfl
@[simp] theorem State.withIdle_supQueue (s : State) (x : IdleWords) : (s.withIdle x).supQueue = s.supQueue := rfl
@[simp] theorem State.withIdle_switch (s : State) (x : IdleWords) : (s.withIdle x).switch = s.switch := rfl
@[simp] theorem State.withIdle_timing (s : State) (x : IdleWords) : (s.withIdle x).timing = s.timing := rfl
@[simp] theorem State.withIdle_events (s : State) (x : IdleWords) : (s.withIdle x).events = s.events := rfl

/-! ### withMailbox -/
@[simp] theorem State.withMailbox_pending (s : State) (x : Mailbox) : (s.withMailbox x).pending = s.pending := rfl
@[simp] theorem State.withMailbox_resetAsserted (s : State) (x : Mailbox) :
    (s.withMailbox x).resetAsserted = s.resetAsserted := rfl
@[simp] theorem State.withMailbox_table (s : State) (x : Mailbox) : (s.withMailbox x).table = s.table := rfl
@[simp] theorem State.withMailbox_maps (s : State) (x : Mailbox) : (s.withMailbox x).maps = s.maps := rfl
@[simp] theorem State.withMailbox_cutover (s : State) (x : Mailbox) : (s.withMailbox x).cutover = s.cutover := rfl
@[simp] theorem State.withMailbox_engine (s : State) (x : Mailbox) : (s.withMailbox x).engine = s.engine := rfl
@[simp] theorem State.withMailbox_links (s : State) (x : Mailbox) : (s.withMailbox x).links = s.links := rfl
@[simp] theorem State.withMailbox_control (s : State) (x : Mailbox) : (s.withMailbox x).control = s.control := rfl
@[simp] theorem State.withMailbox_idle (s : State) (x : Mailbox) : (s.withMailbox x).idle = s.idle := rfl
@[simp] theorem State.withMailbox_mailbox (s : State) (x : Mailbox) : (s.withMailbox x).mailbox = x := rfl
@[simp] theorem State.withMailbox_supQueue (s : State) (x : Mailbox) : (s.withMailbox x).supQueue = s.supQueue := rfl
@[simp] theorem State.withMailbox_switch (s : State) (x : Mailbox) : (s.withMailbox x).switch = s.switch := rfl
@[simp] theorem State.withMailbox_timing (s : State) (x : Mailbox) : (s.withMailbox x).timing = s.timing := rfl
@[simp] theorem State.withMailbox_events (s : State) (x : Mailbox) : (s.withMailbox x).events = s.events := rfl

/-! ### withSupQueue -/
@[simp] theorem State.withSupQueue_pending (s : State) (x : List Nat) : (s.withSupQueue x).pending = s.pending := rfl
@[simp] theorem State.withSupQueue_resetAsserted (s : State) (x : List Nat) :
    (s.withSupQueue x).resetAsserted = s.resetAsserted := rfl
@[simp] theorem State.withSupQueue_table (s : State) (x : List Nat) : (s.withSupQueue x).table = s.table := rfl
@[simp] theorem State.withSupQueue_maps (s : State) (x : List Nat) : (s.withSupQueue x).maps = s.maps := rfl
@[simp] theorem State.withSupQueue_cutover (s : State) (x : List Nat) : (s.withSupQueue x).cutover = s.cutover := rfl
@[simp] theorem State.withSupQueue_engine (s : State) (x : List Nat) : (s.withSupQueue x).engine = s.engine := rfl
@[simp] theorem State.withSupQueue_links (s : State) (x : List Nat) : (s.withSupQueue x).links = s.links := rfl
@[simp] theorem State.withSupQueue_control (s : State) (x : List Nat) : (s.withSupQueue x).control = s.control := rfl
@[simp] theorem State.withSupQueue_idle (s : State) (x : List Nat) : (s.withSupQueue x).idle = s.idle := rfl
@[simp] theorem State.withSupQueue_mailbox (s : State) (x : List Nat) : (s.withSupQueue x).mailbox = s.mailbox := rfl
@[simp] theorem State.withSupQueue_supQueue (s : State) (x : List Nat) : (s.withSupQueue x).supQueue = x := rfl
@[simp] theorem State.withSupQueue_switch (s : State) (x : List Nat) : (s.withSupQueue x).switch = s.switch := rfl
@[simp] theorem State.withSupQueue_timing (s : State) (x : List Nat) : (s.withSupQueue x).timing = s.timing := rfl
@[simp] theorem State.withSupQueue_events (s : State) (x : List Nat) : (s.withSupQueue x).events = s.events := rfl

/-! ### withSwitch -/
@[simp] theorem State.withSwitch_pending (s : State) (x : SwitchCore) : (s.withSwitch x).pending = s.pending := rfl
@[simp] theorem State.withSwitch_resetAsserted (s : State) (x : SwitchCore) :
    (s.withSwitch x).resetAsserted = s.resetAsserted := rfl
@[simp] theorem State.withSwitch_table (s : State) (x : SwitchCore) : (s.withSwitch x).table = s.table := rfl
@[simp] theorem State.withSwitch_maps (s : State) (x : SwitchCore) : (s.withSwitch x).maps = s.maps := rfl
@[simp] theorem State.withSwitch_cutover (s : State) (x : SwitchCore) : (s.withSwitch x).cutover = s.cutover := rfl
@[simp] theorem State.withSwitch_engine (s : State) (x : SwitchCore) : (s.withSwitch x).engine = s.engine := rfl
@[simp] theorem State.withSwitch_links (s : State) (x : SwitchCore) : (s.withSwitch x).links = s.links := rfl
@[simp] theorem State.withSwitch_control (s : State) (x : SwitchCore) : (s.withSwitch x).control = s.control := rfl
@[simp] theorem State.withSwitch_idle (s : State) (x : SwitchCore) : (s.withSwitch x).idle = s.idle := rfl
@[simp] theorem State.withSwitch_mailbox (s : State) (x : SwitchCore) : (s.withSwitch x).mailbox = s.mailbox := rfl
@[simp] theorem State.withSwitch_supQueue (s : State) (x : SwitchCore) : (s.withSwitch x).supQueue = s.supQueue := rfl
@[simp] theorem State.withSwitch_switch (s : State) (x : SwitchCore) : (s.withSwitch x).switch = x := rfl
@[simp] theorem State.withSwitch_timing (s : State) (x : SwitchCore) : (s.withSwitch x).timing = s.timing := rfl
@[simp] theorem State.withSwitch_events (s : State) (x : SwitchCore) : (s.withSwitch x).events = s.events := rfl

/-! ### withTiming -/
@[simp] theorem State.withTiming_pending (s : State) (x : TimingUnit) : (s.withTiming x).pending = s.pending := rfl
@[simp] theorem State.withTiming_resetAsserted (s : State) (x : TimingUnit) :
    (s.withTiming x).resetAsserted = s.resetAsserted := rfl
@[simp] theorem State.withTiming_table (s : State) (x : TimingUnit) : (s.withTiming x).table = s.table := rfl
@[simp] theorem State.withTiming_maps (s : State) (x : TimingUnit) : (s.withTiming x).maps = s.maps := rfl
@[simp] theorem State.withTiming_cutover (s : State) (x : TimingUnit) : (s.withTiming x).cutover = s.cutover := rfl
@[simp] theorem State.withTiming_engine (s : State) (x : TimingUnit) : (s.withTiming x).engine = s.engine := rfl
@[simp] theorem State.withTiming_links (s : State) (x : TimingUnit) : (s.withTiming x).links = s.links := rfl
@[simp] theorem State.withTiming_control (s : State) (x : TimingUnit) : (s.withTiming x).control = s.control := rfl
@[simp] theorem State.withTiming_idle (s : State) (x : TimingUnit) : (s.withTiming x).idle = s.idle := rfl
@[simp] theorem State.withTiming_mailbox (s : State) (x : TimingUnit) : (s.withTiming x).mailbox = s.mailbox := rfl
@[simp] theorem State.withTiming_supQueue (s : State) (x : TimingUnit) : (s.withTiming x).supQueue = s.supQueue := rfl
@[simp] theorem State.withTiming_switch (s : State) (x : TimingUnit) : (s.withTiming x).switch = s.switch := rfl
@[simp] theorem State.withTiming_timing (s : State) (x : TimingUnit) : (s.withTiming x).timing = x := rfl
@[simp] theorem State.withTiming_events (s : State) (x : TimingUnit) : (s.withTiming x).events = s.events := rfl

/-! ### withEvents -/
@[simp] theorem State.withEvents_pending (s : State) (x : EventUnit) : (s.withEvents x).pending = s.pending := rfl
@[simp] theorem State.withEvents_resetAsserted (s : State) (x : EventUnit) :
    (s.withEvents x).resetAsserted = s.resetAsserted := rfl
@[simp] theorem State.withEvents_table (s : State) (x : EventUnit) : (s.withEvents x).table = s.table := rfl
@[simp] theorem State.withEvents_maps (s : State) (x : EventUnit) : (s.withEvents x).maps = s.maps := rfl
@[simp] theorem State.withEvents_cutover (s : State) (x : EventUnit) : (s.withEvents x).cutover = s.cutover := rfl
@[simp] theorem State.withEvents_engine (s : State) (x : EventUnit) : (s.withEvents x).engine = s.engine := rfl
@[simp] theorem State.withEvents_links (s : State) (x : EventUnit) : (s.withEvents x).links = s.links := rfl
@[simp] theorem State.withEvents_control (s : State) (x : EventUnit) : (s.withEvents x).control = s.control := rfl
@[simp] theorem State.withEvents_idle (s : State) (x : EventUnit) : (s.withEvents x).idle = s.idle := rfl
@[simp] theorem State.withEvents_mailbox (s : State) (x : EventUnit) : (s.withEvents x).mailbox = s.mailbox := rfl
@[simp] theorem State.withEvents_supQueue (s : State) (x : EventUnit) : (s.withEvents x).supQueue = s.supQueue := rfl
@[simp] theorem State.withEvents_switch (s : State) (x : EventUnit) : (s.withEvents x).switch = s.switch := rfl
@[simp] theorem State.withEvents_timing (s : State) (x : EventUnit) : (s.withEvents x).timing = s.timing := rfl
@[simp] theorem State.withEvents_events (s : State) (x : EventUnit) : (s.withEvents x).events = x := rfl

/-! ### Links -/

@[simp] theorem Links.get_set_same (ls : Links) (n : Link) (c : LinkController) : (ls.set n c).get n = c := by
  cases n <;> rfl

theorem Links.get_set_other (ls : Links) {n k : Link} (c : LinkController) (h : k ≠ n) :
    (ls.set n c).get k = ls.get k := by
  cases n <;> cases k <;> first | rfl | exact absurd rfl h

@[simp] theorem Links.set_get (ls : Links) (n : Link) : ls.set n (ls.get n) = ls := by
  cases n <;> rfl

@[simp] theorem Links.set_set (ls : Links) (n : Link) (c d : LinkController) : (ls.set n c).set n d = ls.set n d := by
  cases n <;> rfl

/-- Two sets of Link Controllers are equal when they agree on every link. -/
theorem Links.ext_get {a b : Links} (h : ∀ n, a.get n = b.get n) : a = b := by
  have h0 := h .l0
  have h1 := h .l1
  have h2 := h .l2
  have h3 := h .l3
  cases a
  cases b
  simp only [Links.get] at h0 h1 h2 h3
  simp only [h0, h1, h2, h3]

@[simp] theorem State.withLink_link_same (s : State) (n : Link) (c : LinkController) :
    (s.withLink n c).link n = c := by
  simp only [State.link, State.withLink, State.withLinks_links, Links.get_set_same]

theorem State.withLink_link_other (s : State) {n k : Link} (c : LinkController) (h : k ≠ n) :
    (s.withLink n c).link k = s.link k := by
  simp only [State.link, State.withLink, State.withLinks_links, Links.get_set_other _ _ h]

@[simp] theorem State.withLink_pending (s : State) (n : Link) (c : LinkController) :
    (s.withLink n c).pending = s.pending := rfl
@[simp] theorem State.withLink_resetAsserted (s : State) (n : Link) (c : LinkController) :
    (s.withLink n c).resetAsserted = s.resetAsserted := rfl
@[simp] theorem State.withLink_table (s : State) (n : Link) (c : LinkController) :
    (s.withLink n c).table = s.table := rfl
@[simp] theorem State.withLink_maps (s : State) (n : Link) (c : LinkController) :
    (s.withLink n c).maps = s.maps := rfl
@[simp] theorem State.withLink_cutover (s : State) (n : Link) (c : LinkController) :
    (s.withLink n c).cutover = s.cutover := rfl
@[simp] theorem State.withLink_engine (s : State) (n : Link) (c : LinkController) :
    (s.withLink n c).engine = s.engine := rfl
@[simp] theorem State.withLink_links (s : State) (n : Link) (c : LinkController) :
    (s.withLink n c).links = s.links.set n c := rfl
@[simp] theorem State.withLink_control (s : State) (n : Link) (c : LinkController) :
    (s.withLink n c).control = s.control := rfl
@[simp] theorem State.withLink_idle (s : State) (n : Link) (c : LinkController) :
    (s.withLink n c).idle = s.idle := rfl
@[simp] theorem State.withLink_mailbox (s : State) (n : Link) (c : LinkController) :
    (s.withLink n c).mailbox = s.mailbox := rfl
@[simp] theorem State.withLink_supQueue (s : State) (n : Link) (c : LinkController) :
    (s.withLink n c).supQueue = s.supQueue := rfl
@[simp] theorem State.withLink_switch (s : State) (n : Link) (c : LinkController) :
    (s.withLink n c).switch = s.switch := rfl
@[simp] theorem State.withLink_timing (s : State) (n : Link) (c : LinkController) :
    (s.withLink n c).timing = s.timing := rfl
@[simp] theorem State.withLink_events (s : State) (n : Link) (c : LinkController) :
    (s.withLink n c).events = s.events := rfl
@[simp] theorem State.withPending_link (s : State) (x : List Instr) (n : Link) :
    (s.withPending x).link n = s.link n := rfl
@[simp] theorem State.withResetAsserted_link (s : State) (x : Bool) (n : Link) :
    (s.withResetAsserted x).link n = s.link n := rfl
@[simp] theorem State.withTable_link (s : State) (x : Table) (n : Link) : (s.withTable x).link n = s.link n := rfl
@[simp] theorem State.withMaps_link (s : State) (x : MapStore) (n : Link) : (s.withMaps x).link n = s.link n := rfl
@[simp] theorem State.withCutover_link (s : State) (x : CutoverController) (n : Link) :
    (s.withCutover x).link n = s.link n := rfl
@[simp] theorem State.withEngine_link (s : State) (x : AdmissionEngine) (n : Link) :
    (s.withEngine x).link n = s.link n := rfl
@[simp] theorem State.withControl_link (s : State) (x : Control) (n : Link) :
    (s.withControl x).link n = s.link n := rfl
@[simp] theorem State.withIdle_link (s : State) (x : IdleWords) (n : Link) : (s.withIdle x).link n = s.link n := rfl
@[simp] theorem State.withMailbox_link (s : State) (x : Mailbox) (n : Link) :
    (s.withMailbox x).link n = s.link n := rfl
@[simp] theorem State.withSupQueue_link (s : State) (x : List Nat) (n : Link) :
    (s.withSupQueue x).link n = s.link n := rfl
@[simp] theorem State.withSwitch_link (s : State) (x : SwitchCore) (n : Link) :
    (s.withSwitch x).link n = s.link n := rfl
@[simp] theorem State.withTiming_link (s : State) (x : TimingUnit) (n : Link) :
    (s.withTiming x).link n = s.link n := rfl
@[simp] theorem State.withEvents_link (s : State) (x : EventUnit) (n : Link) :
    (s.withEvents x).link n = s.link n := rfl

end Sys2Proof.Machine
end

