-- ==== Sys2Proof/Laws/Frames.lean ====
section
/-! SUPPORT. The fields of State that each shared operation leaves as they were. -/

namespace Sys2Proof.Machine


/-! ### raise -/

@[simp] theorem State.raise_pending (s : State) (e : Event) : (s.raise e).pending = s.pending := rfl
@[simp] theorem State.raise_resetAsserted (s : State) (e : Event) : (s.raise e).resetAsserted = s.resetAsserted := rfl
@[simp] theorem State.raise_table (s : State) (e : Event) : (s.raise e).table = s.table := rfl
@[simp] theorem State.raise_maps (s : State) (e : Event) : (s.raise e).maps = s.maps := rfl
@[simp] theorem State.raise_cutover (s : State) (e : Event) : (s.raise e).cutover = s.cutover := rfl
@[simp] theorem State.raise_engine (s : State) (e : Event) : (s.raise e).engine = s.engine := rfl
@[simp] theorem State.raise_links (s : State) (e : Event) : (s.raise e).links = s.links := rfl
@[simp] theorem State.raise_control (s : State) (e : Event) : (s.raise e).control = s.control := rfl
@[simp] theorem State.raise_idle (s : State) (e : Event) : (s.raise e).idle = s.idle := rfl
@[simp] theorem State.raise_mailbox (s : State) (e : Event) : (s.raise e).mailbox = s.mailbox := rfl
@[simp] theorem State.raise_supQueue (s : State) (e : Event) : (s.raise e).supQueue = s.supQueue := rfl
@[simp] theorem State.raise_switch (s : State) (e : Event) : (s.raise e).switch = s.switch := rfl
@[simp] theorem State.raise_timing (s : State) (e : Event) : (s.raise e).timing = s.timing := rfl
@[simp] theorem State.raise_link (s : State) (e : Event) (n : Link) : (s.raise e).link n = s.link n := rfl
@[simp] theorem State.raise_record (s : State) (e : Event) (j : Nat) : (s.raise e).record j = s.record j := rfl
@[simp] theorem State.raise_circuit (s : State) (e : Event) (j : Nat) : (s.raise e).circuit j = s.circuit j := rfl

/-! ### setRecord -/

@[simp] theorem State.setRecord_pending (s : State) (i : Nat) (r : Record) :
    (s.setRecord i r).pending = s.pending := rfl
@[simp] theorem State.setRecord_resetAsserted (s : State) (i : Nat) (r : Record) :
    (s.setRecord i r).resetAsserted = s.resetAsserted := rfl
@[simp] theorem State.setRecord_maps (s : State) (i : Nat) (r : Record) : (s.setRecord i r).maps = s.maps := rfl
@[simp] theorem State.setRecord_cutover (s : State) (i : Nat) (r : Record) :
    (s.setRecord i r).cutover = s.cutover := rfl
@[simp] theorem State.setRecord_engine (s : State) (i : Nat) (r : Record) : (s.setRecord i r).engine = s.engine := rfl
@[simp] theorem State.setRecord_links (s : State) (i : Nat) (r : Record) : (s.setRecord i r).links = s.links := rfl
@[simp] theorem State.setRecord_control (s : State) (i : Nat) (r : Record) :
    (s.setRecord i r).control = s.control := rfl
@[simp] theorem State.setRecord_idle (s : State) (i : Nat) (r : Record) : (s.setRecord i r).idle = s.idle := rfl
@[simp] theorem State.setRecord_mailbox (s : State) (i : Nat) (r : Record) :
    (s.setRecord i r).mailbox = s.mailbox := rfl
@[simp] theorem State.setRecord_supQueue (s : State) (i : Nat) (r : Record) :
    (s.setRecord i r).supQueue = s.supQueue := rfl
@[simp] theorem State.setRecord_switch (s : State) (i : Nat) (r : Record) : (s.setRecord i r).switch = s.switch := rfl
@[simp] theorem State.setRecord_timing (s : State) (i : Nat) (r : Record) : (s.setRecord i r).timing = s.timing := rfl
@[simp] theorem State.setRecord_events (s : State) (i : Nat) (r : Record) : (s.setRecord i r).events = s.events := rfl
@[simp] theorem State.setRecord_link (s : State) (i : Nat) (r : Record) (n : Link) :
    (s.setRecord i r).link n = s.link n := rfl

/-! ### setCircuit -/

@[simp] theorem State.setCircuit_pending (s : State) (i : Nat) (c : Circuit) :
    (s.setCircuit i c).pending = s.pending := rfl
@[simp] theorem State.setCircuit_resetAsserted (s : State) (i : Nat) (c : Circuit) :
    (s.setCircuit i c).resetAsserted = s.resetAsserted := rfl
@[simp] theorem State.setCircuit_maps (s : State) (i : Nat) (c : Circuit) : (s.setCircuit i c).maps = s.maps := rfl
@[simp] theorem State.setCircuit_cutover (s : State) (i : Nat) (c : Circuit) :
    (s.setCircuit i c).cutover = s.cutover := rfl
@[simp] theorem State.setCircuit_engine (s : State) (i : Nat) (c : Circuit) :
    (s.setCircuit i c).engine = s.engine := rfl
@[simp] theorem State.setCircuit_links (s : State) (i : Nat) (c : Circuit) : (s.setCircuit i c).links = s.links := rfl
@[simp] theorem State.setCircuit_control (s : State) (i : Nat) (c : Circuit) :
    (s.setCircuit i c).control = s.control := rfl
@[simp] theorem State.setCircuit_idle (s : State) (i : Nat) (c : Circuit) : (s.setCircuit i c).idle = s.idle := rfl
@[simp] theorem State.setCircuit_mailbox (s : State) (i : Nat) (c : Circuit) :
    (s.setCircuit i c).mailbox = s.mailbox := rfl
@[simp] theorem State.setCircuit_supQueue (s : State) (i : Nat) (c : Circuit) :
    (s.setCircuit i c).supQueue = s.supQueue := rfl
@[simp] theorem State.setCircuit_switch (s : State) (i : Nat) (c : Circuit) :
    (s.setCircuit i c).switch = s.switch := rfl
@[simp] theorem State.setCircuit_timing (s : State) (i : Nat) (c : Circuit) :
    (s.setCircuit i c).timing = s.timing := rfl
@[simp] theorem State.setCircuit_events (s : State) (i : Nat) (c : Circuit) :
    (s.setCircuit i c).events = s.events := rfl
@[simp] theorem State.setCircuit_link (s : State) (i : Nat) (c : Circuit) (n : Link) :
    (s.setCircuit i c).link n = s.link n := rfl

/-! ### editStaged -/

@[simp] theorem State.editStaged_pending (s : State) (b : EditBatch) : (s.editStaged b).pending = s.pending := rfl
@[simp] theorem State.editStaged_resetAsserted (s : State) (b : EditBatch) :
    (s.editStaged b).resetAsserted = s.resetAsserted := rfl
@[simp] theorem State.editStaged_table (s : State) (b : EditBatch) : (s.editStaged b).table = s.table := rfl
@[simp] theorem State.editStaged_cutover (s : State) (b : EditBatch) : (s.editStaged b).cutover = s.cutover := rfl
@[simp] theorem State.editStaged_engine (s : State) (b : EditBatch) : (s.editStaged b).engine = s.engine := rfl
@[simp] theorem State.editStaged_links (s : State) (b : EditBatch) : (s.editStaged b).links = s.links := rfl
@[simp] theorem State.editStaged_control (s : State) (b : EditBatch) : (s.editStaged b).control = s.control := rfl
@[simp] theorem State.editStaged_idle (s : State) (b : EditBatch) : (s.editStaged b).idle = s.idle := rfl
@[simp] theorem State.editStaged_mailbox (s : State) (b : EditBatch) : (s.editStaged b).mailbox = s.mailbox := rfl
@[simp] theorem State.editStaged_supQueue (s : State) (b : EditBatch) : (s.editStaged b).supQueue = s.supQueue := rfl
@[simp] theorem State.editStaged_switch (s : State) (b : EditBatch) : (s.editStaged b).switch = s.switch := rfl
@[simp] theorem State.editStaged_timing (s : State) (b : EditBatch) : (s.editStaged b).timing = s.timing := rfl
@[simp] theorem State.editStaged_events (s : State) (b : EditBatch) : (s.editStaged b).events = s.events := rfl
@[simp] theorem State.editStaged_link (s : State) (b : EditBatch) (n : Link) :
    (s.editStaged b).link n = s.link n := rfl
@[simp] theorem State.editStaged_record (s : State) (b : EditBatch) (j : Nat) :
    (s.editStaged b).record j = s.record j := rfl
@[simp] theorem State.editStaged_circuit (s : State) (b : EditBatch) (j : Nat) :
    (s.editStaged b).circuit j = s.circuit j := rfl

/-! ### enlist -/

@[simp] theorem State.enlist_pending (s : State) (i : Nat) : (s.enlist i).pending = s.pending := rfl
@[simp] theorem State.enlist_resetAsserted (s : State) (i : Nat) : (s.enlist i).resetAsserted = s.resetAsserted := rfl
@[simp] theorem State.enlist_table (s : State) (i : Nat) : (s.enlist i).table = s.table := rfl
@[simp] theorem State.enlist_maps (s : State) (i : Nat) : (s.enlist i).maps = s.maps := rfl
@[simp] theorem State.enlist_engine (s : State) (i : Nat) : (s.enlist i).engine = s.engine := rfl
@[simp] theorem State.enlist_links (s : State) (i : Nat) : (s.enlist i).links = s.links := rfl
@[simp] theorem State.enlist_control (s : State) (i : Nat) : (s.enlist i).control = s.control := rfl
@[simp] theorem State.enlist_idle (s : State) (i : Nat) : (s.enlist i).idle = s.idle := rfl
@[simp] theorem State.enlist_mailbox (s : State) (i : Nat) : (s.enlist i).mailbox = s.mailbox := rfl
@[simp] theorem State.enlist_supQueue (s : State) (i : Nat) : (s.enlist i).supQueue = s.supQueue := rfl
@[simp] theorem State.enlist_switch (s : State) (i : Nat) : (s.enlist i).switch = s.switch := rfl
@[simp] theorem State.enlist_timing (s : State) (i : Nat) : (s.enlist i).timing = s.timing := rfl
@[simp] theorem State.enlist_events (s : State) (i : Nat) : (s.enlist i).events = s.events := rfl
@[simp] theorem State.enlist_link (s : State) (i : Nat) (n : Link) : (s.enlist i).link n = s.link n := rfl
@[simp] theorem State.enlist_record (s : State) (i : Nat) (j : Nat) : (s.enlist i).record j = s.record j := rfl
@[simp] theorem State.enlist_circuit (s : State) (i : Nat) (j : Nat) : (s.enlist i).circuit j = s.circuit j := rfl

/-! ### unlist -/

@[simp] theorem State.unlist_pending (s : State) (i : Nat) : (s.unlist i).pending = s.pending := rfl
@[simp] theorem State.unlist_resetAsserted (s : State) (i : Nat) : (s.unlist i).resetAsserted = s.resetAsserted := rfl
@[simp] theorem State.unlist_table (s : State) (i : Nat) : (s.unlist i).table = s.table := rfl
@[simp] theorem State.unlist_maps (s : State) (i : Nat) : (s.unlist i).maps = s.maps := rfl
@[simp] theorem State.unlist_engine (s : State) (i : Nat) : (s.unlist i).engine = s.engine := rfl
@[simp] theorem State.unlist_links (s : State) (i : Nat) : (s.unlist i).links = s.links := rfl
@[simp] theorem State.unlist_control (s : State) (i : Nat) : (s.unlist i).control = s.control := rfl
@[simp] theorem State.unlist_idle (s : State) (i : Nat) : (s.unlist i).idle = s.idle := rfl
@[simp] theorem State.unlist_mailbox (s : State) (i : Nat) : (s.unlist i).mailbox = s.mailbox := rfl
@[simp] theorem State.unlist_supQueue (s : State) (i : Nat) : (s.unlist i).supQueue = s.supQueue := rfl
@[simp] theorem State.unlist_switch (s : State) (i : Nat) : (s.unlist i).switch = s.switch := rfl
@[simp] theorem State.unlist_timing (s : State) (i : Nat) : (s.unlist i).timing = s.timing := rfl
@[simp] theorem State.unlist_events (s : State) (i : Nat) : (s.unlist i).events = s.events := rfl
@[simp] theorem State.unlist_link (s : State) (i : Nat) (n : Link) : (s.unlist i).link n = s.link n := rfl
@[simp] theorem State.unlist_record (s : State) (i : Nat) (j : Nat) : (s.unlist i).record j = s.record j := rfl
@[simp] theorem State.unlist_circuit (s : State) (i : Nat) (j : Nat) : (s.unlist i).circuit j = s.circuit j := rfl

/-! ### offer -/

@[simp] theorem State.offer_pending (s : State) (k : FollowKind) (i : Nat) : (s.offer k i).pending = s.pending := rfl
@[simp] theorem State.offer_resetAsserted (s : State) (k : FollowKind) (i : Nat) :
    (s.offer k i).resetAsserted = s.resetAsserted := rfl
@[simp] theorem State.offer_table (s : State) (k : FollowKind) (i : Nat) : (s.offer k i).table = s.table := rfl
@[simp] theorem State.offer_maps (s : State) (k : FollowKind) (i : Nat) : (s.offer k i).maps = s.maps := rfl
@[simp] theorem State.offer_cutover (s : State) (k : FollowKind) (i : Nat) : (s.offer k i).cutover = s.cutover := rfl
@[simp] theorem State.offer_links (s : State) (k : FollowKind) (i : Nat) : (s.offer k i).links = s.links := rfl
@[simp] theorem State.offer_control (s : State) (k : FollowKind) (i : Nat) : (s.offer k i).control = s.control := rfl
@[simp] theorem State.offer_idle (s : State) (k : FollowKind) (i : Nat) : (s.offer k i).idle = s.idle := rfl
@[simp] theorem State.offer_mailbox (s : State) (k : FollowKind) (i : Nat) : (s.offer k i).mailbox = s.mailbox := rfl
@[simp] theorem State.offer_supQueue (s : State) (k : FollowKind) (i : Nat) :
    (s.offer k i).supQueue = s.supQueue := rfl
@[simp] theorem State.offer_switch (s : State) (k : FollowKind) (i : Nat) : (s.offer k i).switch = s.switch := rfl
@[simp] theorem State.offer_timing (s : State) (k : FollowKind) (i : Nat) : (s.offer k i).timing = s.timing := rfl
@[simp] theorem State.offer_events (s : State) (k : FollowKind) (i : Nat) : (s.offer k i).events = s.events := rfl
@[simp] theorem State.offer_link (s : State) (k : FollowKind) (i : Nat) (n : Link) :
    (s.offer k i).link n = s.link n := rfl
@[simp] theorem State.offer_record (s : State) (k : FollowKind) (i : Nat) (j : Nat) :
    (s.offer k i).record j = s.record j := rfl
@[simp] theorem State.offer_circuit (s : State) (k : FollowKind) (i : Nat) (j : Nat) :
    (s.offer k i).circuit j = s.circuit j := rfl

/-! ### removeFollowUp -/

@[simp] theorem State.removeFollowUp_pending (s : State) (i : Nat) : (s.removeFollowUp i).pending = s.pending := rfl
@[simp] theorem State.removeFollowUp_resetAsserted (s : State) (i : Nat) :
    (s.removeFollowUp i).resetAsserted = s.resetAsserted := rfl
@[simp] theorem State.removeFollowUp_table (s : State) (i : Nat) : (s.removeFollowUp i).table = s.table := rfl
@[simp] theorem State.removeFollowUp_maps (s : State) (i : Nat) : (s.removeFollowUp i).maps = s.maps := rfl
@[simp] theorem State.removeFollowUp_cutover (s : State) (i : Nat) : (s.removeFollowUp i).cutover = s.cutover := rfl
@[simp] theorem State.removeFollowUp_links (s : State) (i : Nat) : (s.removeFollowUp i).links = s.links := rfl
@[simp] theorem State.removeFollowUp_control (s : State) (i : Nat) : (s.removeFollowUp i).control = s.control := rfl
@[simp] theorem State.removeFollowUp_idle (s : State) (i : Nat) : (s.removeFollowUp i).idle = s.idle := rfl
@[simp] theorem State.removeFollowUp_mailbox (s : State) (i : Nat) : (s.removeFollowUp i).mailbox = s.mailbox := rfl
@[simp] theorem State.removeFollowUp_supQueue (s : State) (i : Nat) :
    (s.removeFollowUp i).supQueue = s.supQueue := rfl
@[simp] theorem State.removeFollowUp_switch (s : State) (i : Nat) : (s.removeFollowUp i).switch = s.switch := rfl
@[simp] theorem State.removeFollowUp_timing (s : State) (i : Nat) : (s.removeFollowUp i).timing = s.timing := rfl
@[simp] theorem State.removeFollowUp_events (s : State) (i : Nat) : (s.removeFollowUp i).events = s.events := rfl
@[simp] theorem State.removeFollowUp_link (s : State) (i : Nat) (n : Link) :
    (s.removeFollowUp i).link n = s.link n := rfl
@[simp] theorem State.removeFollowUp_record (s : State) (i : Nat) (j : Nat) :
    (s.removeFollowUp i).record j = s.record j := rfl
@[simp] theorem State.removeFollowUp_circuit (s : State) (i : Nat) (j : Nat) :
    (s.removeFollowUp i).circuit j = s.circuit j := rfl

/-! ### modifyLink -/

@[simp] theorem State.modifyLink_pending (s : State) (m : Link) (f : LinkController → LinkController) :
    (s.modifyLink m f).pending = s.pending := rfl
@[simp] theorem State.modifyLink_resetAsserted (s : State) (m : Link) (f : LinkController → LinkController) :
    (s.modifyLink m f).resetAsserted = s.resetAsserted := rfl
@[simp] theorem State.modifyLink_table (s : State) (m : Link) (f : LinkController → LinkController) :
    (s.modifyLink m f).table = s.table := rfl
@[simp] theorem State.modifyLink_maps (s : State) (m : Link) (f : LinkController → LinkController) :
    (s.modifyLink m f).maps = s.maps := rfl
@[simp] theorem State.modifyLink_cutover (s : State) (m : Link) (f : LinkController → LinkController) :
    (s.modifyLink m f).cutover = s.cutover := rfl
@[simp] theorem State.modifyLink_engine (s : State) (m : Link) (f : LinkController → LinkController) :
    (s.modifyLink m f).engine = s.engine := rfl
@[simp] theorem State.modifyLink_control (s : State) (m : Link) (f : LinkController → LinkController) :
    (s.modifyLink m f).control = s.control := rfl
@[simp] theorem State.modifyLink_idle (s : State) (m : Link) (f : LinkController → LinkController) :
    (s.modifyLink m f).idle = s.idle := rfl
@[simp] theorem State.modifyLink_mailbox (s : State) (m : Link) (f : LinkController → LinkController) :
    (s.modifyLink m f).mailbox = s.mailbox := rfl
@[simp] theorem State.modifyLink_supQueue (s : State) (m : Link) (f : LinkController → LinkController) :
    (s.modifyLink m f).supQueue = s.supQueue := rfl
@[simp] theorem State.modifyLink_switch (s : State) (m : Link) (f : LinkController → LinkController) :
    (s.modifyLink m f).switch = s.switch := rfl
@[simp] theorem State.modifyLink_timing (s : State) (m : Link) (f : LinkController → LinkController) :
    (s.modifyLink m f).timing = s.timing := rfl
@[simp] theorem State.modifyLink_events (s : State) (m : Link) (f : LinkController → LinkController) :
    (s.modifyLink m f).events = s.events := rfl
@[simp] theorem State.modifyLink_record (s : State) (m : Link) (f : LinkController → LinkController) (j : Nat) :
    (s.modifyLink m f).record j = s.record j := rfl
@[simp] theorem State.modifyLink_circuit (s : State) (m : Link) (f : LinkController → LinkController) (j : Nat) :
    (s.modifyLink m f).circuit j = s.circuit j := rfl

/-! ### dropReports -/

@[simp] theorem State.dropReports_pending (s : State) (i : Nat) : (s.dropReports i).pending = s.pending := rfl
@[simp] theorem State.dropReports_resetAsserted (s : State) (i : Nat) :
    (s.dropReports i).resetAsserted = s.resetAsserted := rfl
@[simp] theorem State.dropReports_table (s : State) (i : Nat) : (s.dropReports i).table = s.table := rfl
@[simp] theorem State.dropReports_maps (s : State) (i : Nat) : (s.dropReports i).maps = s.maps := rfl
@[simp] theorem State.dropReports_cutover (s : State) (i : Nat) : (s.dropReports i).cutover = s.cutover := rfl
@[simp] theorem State.dropReports_engine (s : State) (i : Nat) : (s.dropReports i).engine = s.engine := rfl
@[simp] theorem State.dropReports_control (s : State) (i : Nat) : (s.dropReports i).control = s.control := rfl
@[simp] theorem State.dropReports_idle (s : State) (i : Nat) : (s.dropReports i).idle = s.idle := rfl
@[simp] theorem State.dropReports_mailbox (s : State) (i : Nat) : (s.dropReports i).mailbox = s.mailbox := rfl
@[simp] theorem State.dropReports_switch (s : State) (i : Nat) : (s.dropReports i).switch = s.switch := rfl
@[simp] theorem State.dropReports_timing (s : State) (i : Nat) : (s.dropReports i).timing = s.timing := rfl
@[simp] theorem State.dropReports_events (s : State) (i : Nat) : (s.dropReports i).events = s.events := rfl
@[simp] theorem State.dropReports_record (s : State) (i : Nat) (j : Nat) :
    (s.dropReports i).record j = s.record j := rfl
@[simp] theorem State.dropReports_circuit (s : State) (i : Nat) (j : Nat) :
    (s.dropReports i).circuit j = s.circuit j := rfl

/-! ### freeRecord -/

@[simp] theorem State.freeRecord_pending (s : State) (i : Nat) : (s.freeRecord i).pending = s.pending := rfl
@[simp] theorem State.freeRecord_resetAsserted (s : State) (i : Nat) :
    (s.freeRecord i).resetAsserted = s.resetAsserted := rfl
@[simp] theorem State.freeRecord_maps (s : State) (i : Nat) : (s.freeRecord i).maps = s.maps := rfl
@[simp] theorem State.freeRecord_control (s : State) (i : Nat) : (s.freeRecord i).control = s.control := rfl
@[simp] theorem State.freeRecord_idle (s : State) (i : Nat) : (s.freeRecord i).idle = s.idle := rfl
@[simp] theorem State.freeRecord_mailbox (s : State) (i : Nat) : (s.freeRecord i).mailbox = s.mailbox := rfl
@[simp] theorem State.freeRecord_switch (s : State) (i : Nat) : (s.freeRecord i).switch = s.switch := rfl
@[simp] theorem State.freeRecord_timing (s : State) (i : Nat) : (s.freeRecord i).timing = s.timing := rfl
@[simp] theorem State.freeRecord_events (s : State) (i : Nat) : (s.freeRecord i).events = s.events := rfl

/-! ### The records under an update of another field -/

@[simp] theorem State.withPending_record (s : State) (x : List Instr) (j : Nat) :
    (s.withPending x).record j = s.record j := rfl
@[simp] theorem State.withPending_circuit (s : State) (x : List Instr) (j : Nat) :
    (s.withPending x).circuit j = s.circuit j := rfl
@[simp] theorem State.withResetAsserted_record (s : State) (x : Bool) (j : Nat) :
    (s.withResetAsserted x).record j = s.record j := rfl
@[simp] theorem State.withResetAsserted_circuit (s : State) (x : Bool) (j : Nat) :
    (s.withResetAsserted x).circuit j = s.circuit j := rfl
@[simp] theorem State.withMaps_record (s : State) (x : MapStore) (j : Nat) :
    (s.withMaps x).record j = s.record j := rfl
@[simp] theorem State.withMaps_circuit (s : State) (x : MapStore) (j : Nat) :
    (s.withMaps x).circuit j = s.circuit j := rfl
@[simp] theorem State.withCutover_record (s : State) (x : CutoverController) (j : Nat) :
    (s.withCutover x).record j = s.record j := rfl
@[simp] theorem State.withCutover_circuit (s : State) (x : CutoverController) (j : Nat) :
    (s.withCutover x).circuit j = s.circuit j := rfl
@[simp] theorem State.withEngine_record (s : State) (x : AdmissionEngine) (j : Nat) :
    (s.withEngine x).record j = s.record j := rfl
@[simp] theorem State.withEngine_circuit (s : State) (x : AdmissionEngine) (j : Nat) :
    (s.withEngine x).circuit j = s.circuit j := rfl
@[simp] theorem State.withLinks_record (s : State) (x : Links) (j : Nat) :
    (s.withLinks x).record j = s.record j := rfl
@[simp] theorem State.withLinks_circuit (s : State) (x : Links) (j : Nat) :
    (s.withLinks x).circuit j = s.circuit j := rfl
@[simp] theorem State.withControl_record (s : State) (x : Control) (j : Nat) :
    (s.withControl x).record j = s.record j := rfl
@[simp] theorem State.withControl_circuit (s : State) (x : Control) (j : Nat) :
    (s.withControl x).circuit j = s.circuit j := rfl
@[simp] theorem State.withIdle_record (s : State) (x : IdleWords) (j : Nat) :
    (s.withIdle x).record j = s.record j := rfl
@[simp] theorem State.withIdle_circuit (s : State) (x : IdleWords) (j : Nat) :
    (s.withIdle x).circuit j = s.circuit j := rfl
@[simp] theorem State.withMailbox_record (s : State) (x : Mailbox) (j : Nat) :
    (s.withMailbox x).record j = s.record j := rfl
@[simp] theorem State.withMailbox_circuit (s : State) (x : Mailbox) (j : Nat) :
    (s.withMailbox x).circuit j = s.circuit j := rfl
@[simp] theorem State.withSupQueue_record (s : State) (x : List Nat) (j : Nat) :
    (s.withSupQueue x).record j = s.record j := rfl
@[simp] theorem State.withSupQueue_circuit (s : State) (x : List Nat) (j : Nat) :
    (s.withSupQueue x).circuit j = s.circuit j := rfl
@[simp] theorem State.withSwitch_record (s : State) (x : SwitchCore) (j : Nat) :
    (s.withSwitch x).record j = s.record j := rfl
@[simp] theorem State.withSwitch_circuit (s : State) (x : SwitchCore) (j : Nat) :
    (s.withSwitch x).circuit j = s.circuit j := rfl
@[simp] theorem State.withTiming_record (s : State) (x : TimingUnit) (j : Nat) :
    (s.withTiming x).record j = s.record j := rfl
@[simp] theorem State.withTiming_circuit (s : State) (x : TimingUnit) (j : Nat) :
    (s.withTiming x).circuit j = s.circuit j := rfl
@[simp] theorem State.withEvents_record (s : State) (x : EventUnit) (j : Nat) :
    (s.withEvents x).record j = s.record j := rfl
@[simp] theorem State.withEvents_circuit (s : State) (x : EventUnit) (j : Nat) :
    (s.withEvents x).circuit j = s.circuit j := rfl
@[simp] theorem State.withLink_record (s : State) (n : Link) (c : LinkController) (j : Nat) :
    (s.withLink n c).record j = s.record j := rfl
@[simp] theorem State.withLink_circuit (s : State) (n : Link) (c : LinkController) (j : Nat) :
    (s.withLink n c).circuit j = s.circuit j := rfl

end Sys2Proof.Machine
end

