-- ==== Sys2Proof/Laws/Sparse.lean ====
section
/-! SUPPORT. The sparse buffers: what a write does to a read, and that every operation over them keeps the canonical
form. -/

namespace Sys2Proof.Machine

/-! ### Reading and writing -/

/-- A write leaves every other key as it was. -/
theorem Sparse.read_write_other {α : Type} [DecidableEq α] (dflt : α) (l : Sparse α) {k j : Nat} (v : α)
    (h : j ≠ k) : Sparse.read dflt (Sparse.write dflt l k v) j = Sparse.read dflt l j := by
  induction l with
  | nil =>
    simp only [Sparse.write]
    split <;> simp [Sparse.read, h]
  | cons e rest ih =>
    obtain ⟨k', v'⟩ := e
    simp only [Sparse.write]
    split
    · split <;> simp [Sparse.read, h]
    · split
      · rename_i hk
        subst hk
        split <;> simp [Sparse.read, h]
      · simp only [Sparse.read, ih]

/-- In a canonical buffer whose keys are all above a key, that key is unlisted. -/
theorem Sparse.read_below {α : Type} (dflt : α) (l : Sparse α) {k : Nat} (h : ∀ e ∈ l, k < e.1) :
    Sparse.read dflt l k = dflt := by
  induction l with
  | nil => rfl
  | cons e rest ih =>
    obtain ⟨k', v'⟩ := e
    have hk : k < k' := h (k', v') List.mem_cons_self
    have hr : ∀ e ∈ rest, k < e.1 := fun e he => h e (List.mem_cons_of_mem _ he)
    simp only [Sparse.read, ih hr]
    split
    · omega
    · rfl

/-- The parts of the canonical form of a buffer with a first entry. -/
theorem Sparse.wf_cons {α : Type} [DecidableEq α] (dflt : α) (k : Nat) (v : α) (rest : Sparse α) :
    Sparse.wf dflt ((k, v) :: rest) = true ↔
      v ≠ dflt ∧ (∀ e ∈ rest, k < e.1) ∧ Sparse.wf dflt rest = true := by
  simp only [Sparse.wf, Bool.and_eq_true, decide_eq_true_eq, List.all_eq_true, and_assoc]

/-- A write shows at its own key. -/
theorem Sparse.read_write_same {α : Type} [DecidableEq α] (dflt : α) (l : Sparse α) (k : Nat) (v : α)
    (h : Sparse.wf dflt l = true) : Sparse.read dflt (Sparse.write dflt l k v) k = v := by
  induction l with
  | nil =>
    simp only [Sparse.write]
    split
    · rename_i hv
      simp [Sparse.read, hv]
    · simp [Sparse.read]
  | cons e rest ih =>
    obtain ⟨k', v'⟩ := e
    obtain ⟨_, hlt, hr⟩ := (Sparse.wf_cons dflt k' v' rest).mp h
    simp only [Sparse.write]
    split
    · rename_i hk
      split
      · rename_i hv
        rw [hv]
        apply Sparse.read_below
        intro e he
        rcases List.mem_cons.mp he with he | he
        · rw [he]
          exact hk
        · have := hlt e he
          omega
      · simp [Sparse.read]
    · split
      · rename_i hk
        split
        · rename_i hv
          rw [hv]
          apply Sparse.read_below
          intro e he
          rw [hk]
          exact hlt e he
        · simp [Sparse.read]
      · rename_i h1 h2
        simp only [Sparse.read, if_neg h2]
        exact ih hr

/-- A write adds no key but its own. -/
theorem Sparse.mem_write_key {α : Type} [DecidableEq α] (dflt : α) (l : Sparse α) (k : Nat) (v : α) {e : Nat × α}
    (h : e ∈ Sparse.write dflt l k v) : e.1 = k ∨ e ∈ l := by
  induction l with
  | nil =>
    simp only [Sparse.write] at h
    split at h
    · simp at h
    · simp only [List.mem_cons, List.not_mem_nil, or_false] at h
      exact Or.inl (by rw [h])
  | cons e' rest ih =>
    obtain ⟨k', v'⟩ := e'
    simp only [Sparse.write] at h
    split at h
    · split at h
      · exact Or.inr h
      · rcases List.mem_cons.mp h with h | h
        · exact Or.inl (by rw [h])
        · exact Or.inr h
    · split at h
      · split at h
        · exact Or.inr (List.mem_cons_of_mem _ h)
        · rcases List.mem_cons.mp h with h | h
          · exact Or.inl (by rw [h])
          · exact Or.inr (List.mem_cons_of_mem _ h)
      · rcases List.mem_cons.mp h with h | h
        · exact Or.inr (h ▸ List.mem_cons_self)
        · rcases ih h with h | h
          · exact Or.inl h
          · exact Or.inr (List.mem_cons_of_mem _ h)

/-- A write keeps the canonical form. -/
theorem Sparse.wf_write {α : Type} [DecidableEq α] (dflt : α) (l : Sparse α) (k : Nat) (v : α)
    (h : Sparse.wf dflt l = true) : Sparse.wf dflt (Sparse.write dflt l k v) = true := by
  induction l with
  | nil =>
    simp only [Sparse.write]
    split
    · rfl
    · rename_i hv
      rw [Sparse.wf_cons]
      exact ⟨hv, by simp, rfl⟩
  | cons e rest ih =>
    obtain ⟨k', v'⟩ := e
    obtain ⟨hv', hlt, hr⟩ := (Sparse.wf_cons dflt k' v' rest).mp h
    simp only [Sparse.write]
    split
    · rename_i hk
      split
      · exact h
      · rename_i hv
        rw [Sparse.wf_cons]
        refine ⟨hv, ?_, h⟩
        intro e he
        rcases List.mem_cons.mp he with he | he
        · rw [he]
          exact hk
        · have := hlt e he
          omega
    · split
      · rename_i hk
        split
        · exact hr
        · rename_i hv
          rw [Sparse.wf_cons]
          exact ⟨hv, fun e he => by rw [hk]; exact hlt e he, hr⟩
      · rename_i h1 h2
        rw [Sparse.wf_cons]
        refine ⟨hv', ?_, ih hr⟩
        intro e he
        rcases Sparse.mem_write_key dflt rest k v he with he | he
        · omega
        · exact hlt e he

/-- In a canonical buffer an entry shows at its key. -/
theorem Sparse.read_of_mem {α : Type} [DecidableEq α] (dflt : α) (l : Sparse α) {k : Nat} {v : α}
    (h : Sparse.wf dflt l = true) (hm : (k, v) ∈ l) : Sparse.read dflt l k = v := by
  induction l with
  | nil => simp at hm
  | cons e rest ih =>
    obtain ⟨k', v'⟩ := e
    obtain ⟨_, hlt, hr⟩ := (Sparse.wf_cons dflt k' v' rest).mp h
    rcases List.mem_cons.mp hm with hm | hm
    · cases hm
      simp [Sparse.read]
    · have hk := hlt _ hm
      simp only at hk
      simp only [Sparse.read]
      rw [if_neg (by omega)]
      exact ih hr hm

/-- A key that shows something other than the default is listed. -/
theorem Sparse.mem_of_read {α : Type} (dflt : α) (l : Sparse α) {k : Nat} (h : Sparse.read dflt l k ≠ dflt) :
    (k, Sparse.read dflt l k) ∈ l := by
  induction l with
  | nil => exact absurd rfl h
  | cons e rest ih =>
    obtain ⟨k', v'⟩ := e
    simp only [Sparse.read] at h ⊢
    split
    · rename_i hk
      rw [hk]
      exact List.mem_cons_self
    · rename_i hk
      rw [if_neg hk] at h
      exact List.mem_cons_of_mem _ (ih h)

/-- Two canonical buffers that show the same at every key are the same data. -/
theorem Sparse.ext_read {α : Type} [DecidableEq α] (dflt : α) (a b : Sparse α) (ha : Sparse.wf dflt a = true)
    (hb : Sparse.wf dflt b = true) (h : ∀ k, Sparse.read dflt a k = Sparse.read dflt b k) : a = b := by
  induction a generalizing b with
  | nil =>
    cases b with
    | nil => rfl
    | cons e rest =>
      obtain ⟨k, v⟩ := e
      have hk := h k
      rw [Sparse.read_of_mem dflt _ hb List.mem_cons_self] at hk
      exact absurd hk.symm ((Sparse.wf_cons dflt k v rest).mp hb).1
  | cons e ra ih =>
    obtain ⟨ka, va⟩ := e
    obtain ⟨hva, hlta, hra⟩ := (Sparse.wf_cons dflt ka va ra).mp ha
    cases b with
    | nil =>
      have hk := h ka
      rw [Sparse.read_of_mem dflt _ ha List.mem_cons_self] at hk
      exact absurd hk hva
    | cons e rb =>
      obtain ⟨kb, vb⟩ := e
      obtain ⟨hvb, hltb, hrb⟩ := (Sparse.wf_cons dflt kb vb rb).mp hb
      have hka := h ka
      have hkb := h kb
      rw [Sparse.read_of_mem dflt _ ha List.mem_cons_self] at hka
      rw [Sparse.read_of_mem dflt _ hb List.mem_cons_self] at hkb
      have hab : ka = kb := by
        rcases Nat.lt_trichotomy ka kb with hlt | heq | hgt
        · rw [Sparse.read_below] at hka
          · exact absurd hka hva
          · intro e he
            rcases List.mem_cons.mp he with he | he
            · rw [he]
              exact hlt
            · have := hltb e he
              omega
        · exact heq
        · rw [Sparse.read_below] at hkb
          · exact absurd hkb.symm hvb
          · intro e he
            rcases List.mem_cons.mp he with he | he
            · rw [he]
              exact hgt
            · have := hlta e he
              omega
      subst hab
      have hv : va = vb := by
        rw [Sparse.read_of_mem dflt _ hb List.mem_cons_self] at hka
        exact hka
      subst hv
      have hrest : ra = rb := by
        apply ih rb hra hrb
        intro k
        have hk := h k
        simp only [Sparse.read] at hk
        by_cases hkk : k = ka
        · rw [Sparse.read_below dflt ra (hkk ▸ hlta), Sparse.read_below dflt rb (hkk ▸ hltb)]
        · rw [if_neg hkk, if_neg hkk] at hk
          exact hk
      rw [hrest]

/-- Dropping entries keeps the canonical form. -/
theorem Sparse.wf_filter {α : Type} [DecidableEq α] (dflt : α) (l : Sparse α) (p : Nat × α → Bool)
    (h : Sparse.wf dflt l = true) : Sparse.wf dflt (l.filter p) = true := by
  induction l with
  | nil => rfl
  | cons e rest ih =>
    obtain ⟨k, v⟩ := e
    obtain ⟨hv, hlt, hr⟩ := (Sparse.wf_cons dflt k v rest).mp h
    simp only [List.filter]
    split
    · rw [Sparse.wf_cons]
      exact ⟨hv, fun e he => hlt e (List.mem_filter.mp he).1, ih hr⟩
    · exact ih hr

/-- Dropping entries by their keys: a kept key shows as before, a dropped one shows the default. -/
theorem Sparse.read_filter {α : Type} (dflt : α) (l : Sparse α) (p : Nat → Bool) (k : Nat) :
    Sparse.read dflt (l.filter fun e => p e.1) k = if p k then Sparse.read dflt l k else dflt := by
  induction l with
  | nil =>
    simp only [List.filter_nil, Sparse.read]
    split <;> rfl
  | cons e rest ih =>
    obtain ⟨k', v'⟩ := e
    simp only [List.filter]
    split
    · rename_i hp
      simp only [Sparse.read]
      split
      · rename_i hk
        rw [hk, if_pos hp]
      · exact ih
    · rename_i hp
      rw [ih]
      simp only [Sparse.read]
      split
      · rename_i hk
        split
        · rename_i hk2
          rw [hk2] at hk
          rw [hk] at hp
          exact absurd hp (by simp)
        · rfl
      · rfl

/-! ### Banks -/

/-- An edit batch keeps the canonical form of a bank. -/
theorem Bank.wf_edit (b : Bank) (batch : EditBatch) (h : Sparse.wf Entry.idle b = true) :
    Sparse.wf Entry.idle (Bank.edit b batch) = true := by
  unfold Bank.edit
  induction batch generalizing b with
  | nil => exact h
  | cons e rest ih => exact ih _ (Sparse.wf_write _ _ _ _ h)

/-- An edit batch leaves an entry that it does not name as it was. -/
theorem Bank.read_edit_other (b : Bank) (batch : EditBatch) {k : Nat} (h : ∀ e ∈ batch, e.1 ≠ k) :
    Sparse.read Entry.idle (Bank.edit b batch) k = Sparse.read Entry.idle b k := by
  unfold Bank.edit
  induction batch generalizing b with
  | nil => rfl
  | cons e rest ih =>
    rw [List.foldl_cons, ih _ (fun e' he => h e' (List.mem_cons_of_mem _ he)),
      Sparse.read_write_other _ _ _ (Ne.symm (h e List.mem_cons_self))]

/-- An edit batch that writes one entry to a key shows it there. -/
theorem Bank.read_edit_mem (b : Bank) (batch : EditBatch) {k : Nat} {x : Entry} (hb : Sparse.wf Entry.idle b = true)
    (hm : ∃ e ∈ batch, e.1 = k) (hall : ∀ e ∈ batch, e.1 = k → e.2 = x) :
    Sparse.read Entry.idle (Bank.edit b batch) k = x := by
  induction batch generalizing b with
  | nil => simp at hm
  | cons e rest ih =>
    have hw := Sparse.wf_write Entry.idle b e.1 e.2 hb
    by_cases hin : ∃ e' ∈ rest, e'.1 = k
    · exact ih (Sparse.write Entry.idle b e.1 e.2) hw hin (fun e' he' => hall e' (List.mem_cons_of_mem _ he'))
    · have hrest : ∀ e' ∈ rest, e'.1 ≠ k := fun e' he' hk => hin ⟨e', he', hk⟩
      have hek : e.1 = k := by
        obtain ⟨e', he', hk⟩ := hm
        rcases List.mem_cons.mp he' with he' | he'
        · rw [← he']
          exact hk
        · exact absurd hk (hrest e' he')
      have h1 : Bank.edit b (e :: rest) = Bank.edit (Sparse.write Entry.idle b e.1 e.2) rest := rfl
      rw [h1, Bank.read_edit_other _ _ hrest, hek, Sparse.read_write_same _ _ _ _ hb]
      exact hall e List.mem_cons_self hek

/-! ### Frame store -/

/-- A write to a half of the frame store keeps its canonical form. -/
theorem Memory.wf_write (m : Memory) (k : Nat) (v : Byte) (h : Memory.wf m = true) :
    Memory.wf (Memory.write m k v) = true :=
  Sparse.wf_write _ _ _ _ h

/-- A write to a half leaves every other position as it was. -/
theorem Memory.read_write_other (m : Memory) {k j : Nat} (v : Byte) (h : j ≠ k) :
    Memory.read (Memory.write m k v) j = Memory.read m j :=
  Sparse.read_write_other _ _ _ h

/-- A write to a half shows at its position. -/
theorem Memory.read_write_same (m : Memory) (k : Nat) (v : Byte) (h : Memory.wf m = true) :
    Memory.read (Memory.write m k v) k = v :=
  Sparse.read_write_same _ _ _ _ h

/-- The reception of a frame keeps the canonical form of the write half. -/
theorem receiveFrame_wf (old : Memory) (received : TrunkBytes) (reached : Nat) (h : Memory.wf old = true) :
    Memory.wf (receiveFrame old received reached) = true := by
  unfold receiveFrame
  induction received with
  | nil => exact Sparse.wf_filter _ _ _ h
  | cons e rest ih =>
    rw [List.foldr_cons]
    split
    · exact Memory.wf_write _ _ _ ih
    · exact ih

/-- A position whose slot was not reached keeps the byte it held (R168). -/
theorem receiveFrame_unreached (old : Memory) (received : TrunkBytes) {reached k : Nat}
    (h : slotReached reached k = false) : Memory.read (receiveFrame old received reached) k = Memory.read old k := by
  unfold receiveFrame
  induction received with
  | nil =>
    rw [List.foldr_nil, Memory.read, Sparse.read_filter (0xFF : Byte) old (fun i => !slotReached reached i) k, h]
    rfl
  | cons e rest ih =>
    rw [List.foldr_cons]
    split
    · rename_i he
      have hne : k ≠ e.1 := by
        intro hk
        rw [← hk, h] at he
        exact absurd he (by simp)
      rw [Memory.read_write_other _ _ hne, ih]
    · exact ih

/-- A position whose slot was reached holds the byte received there, FFH where none is listed (R164, log 8). -/
theorem receiveFrame_reached (old : Memory) (received : TrunkBytes) {reached k : Nat} (hold : Memory.wf old = true)
    (h : slotReached reached k = true) :
    Memory.read (receiveFrame old received reached) k = Sparse.read 0xFF received k := by
  induction received with
  | nil =>
    unfold receiveFrame
    rw [List.foldr_nil, Memory.read, Sparse.read_filter (0xFF : Byte) old (fun i => !slotReached reached i) k, h]
    rfl
  | cons e rest ih =>
    obtain ⟨k', v'⟩ := e
    have hcons : receiveFrame old ((k', v') :: rest) reached =
        if slotReached reached k' then Memory.write (receiveFrame old rest reached) k' v'
        else receiveFrame old rest reached := rfl
    rw [hcons]
    simp only [Sparse.read]
    by_cases hk : k = k'
    · subst hk
      rw [if_pos h, if_pos rfl, Memory.read_write_same _ _ _ (receiveFrame_wf _ _ _ hold)]
    · rw [if_neg hk]
      split
      · rw [Memory.read_write_other _ _ hk, ih]
      · exact ih

end Sys2Proof.Machine
end

