-- ==== Sys2Proof/Laws/Ops.lean ====
section
/-! SUPPORT. What the shared operations over records, banks, lists and links do, once for each. -/

namespace Sys2Proof.Machine

/-- Two members of a list with distinct images are equal when their images are. -/
theorem eq_of_nodup_map {α β : Type} {f : α → β} {l : List α} {a b : α} (h : (l.map f).Nodup) (ha : a ∈ l)
    (hb : b ∈ l) (hf : f a = f b) : a = b := by
  induction l with
  | nil => simp at ha
  | cons x rest ih =>
    rw [List.map_cons, List.nodup_cons] at h
    rcases List.mem_cons.mp ha with ha | ha <;> rcases List.mem_cons.mp hb with hb | hb
    · rw [ha, hb]
    · exact absurd (List.mem_map.mpr ⟨b, hb, by rw [← hf, ha]⟩) h.1
    · exact absurd (List.mem_map.mpr ⟨a, ha, by rw [hf, hb]⟩) h.1
    · exact ih h.2 ha hb

/-! ### Records -/

/-- The circuit of an id is that of its record. -/
theorem State.circuit_eq (s : State) (id : Nat) : s.circuit id = (s.record id).circuit := rfl

/-- A record replaced shows at its id. -/
theorem State.setRecord_record_same (s : State) (id : Nat) (r : Record)
    (h : Sparse.wf Record.initial s.table = true) : (s.setRecord id r).record id = r :=
  Sparse.read_write_same _ _ _ _ h

/-- A record replaced leaves every other id's record as it was. -/
theorem State.setRecord_record_other (s : State) {id j : Nat} (r : Record) (h : j ≠ id) :
    (s.setRecord id r).record j = s.record j :=
  Sparse.read_write_other _ _ _ h

/-- A record replaced keeps the Circuit Table canonical. -/
theorem State.setRecord_wf (s : State) (id : Nat) (r : Record) (h : Sparse.wf Record.initial s.table = true) :
    Sparse.wf Record.initial (s.setRecord id r).table = true :=
  Sparse.wf_write _ _ _ _ h

/-- The record of every id after one record is replaced. -/
theorem State.setRecord_record (s : State) (id : Nat) (r : Record) (h : Sparse.wf Record.initial s.table = true)
    (j : Nat) : (s.setRecord id r).record j = if j = id then r else s.record j := by
  split
  · rename_i hj
    rw [hj, State.setRecord_record_same _ _ _ h]
  · rename_i hj
    rw [State.setRecord_record_other _ _ hj]

/-- The record of every id after one circuit is replaced: its generation is held (R2). -/
theorem State.setCircuit_record (s : State) (id : Nat) (c : Circuit) (h : Sparse.wf Record.initial s.table = true)
    (j : Nat) :
    (s.setCircuit id c).record j =
      if j = id then { generation := (s.record id).generation, circuit := some c } else s.record j :=
  State.setRecord_record s id _ h j

/-- The circuit of every id after one circuit is replaced. -/
theorem State.setCircuit_circuit (s : State) (id : Nat) (c : Circuit) (h : Sparse.wf Record.initial s.table = true)
    (j : Nat) : (s.setCircuit id c).circuit j = if j = id then some c else s.circuit j := by
  rw [State.circuit_eq, State.setCircuit_record _ _ _ h]
  split <;> rfl

/-- A circuit replaced keeps the Circuit Table canonical. -/
theorem State.setCircuit_wf (s : State) (id : Nat) (c : Circuit) (h : Sparse.wf Record.initial s.table = true) :
    Sparse.wf Record.initial (s.setCircuit id c).table = true :=
  State.setRecord_wf s id _ h

/-- In a canonical table an id meets a test exactly when its circuit does. -/
theorem State.mem_idsWhere (s : State) (test : Circuit → Bool) (h : Sparse.wf Record.initial s.table = true)
    (id : Nat) : id ∈ s.idsWhere test ↔ ∃ c, s.circuit id = some c ∧ test c = true := by
  simp only [State.idsWhere, List.mem_filterMap, State.circuit, State.record]
  constructor
  · rintro ⟨⟨k, r⟩, hmem, hr⟩
    dsimp only at hr
    split at hr
    · rename_i c hc
      split at hr
      · rename_i ht
        injection hr with hr
        subst hr
        rw [Sparse.read_of_mem _ _ h hmem]
        exact ⟨c, hc, ht⟩
      · exact absurd hr (by simp)
    · exact absurd hr (by simp)
  · rintro ⟨c, hc, ht⟩
    have hne : Sparse.read Record.initial s.table id ≠ Record.initial := by
      intro he
      rw [he] at hc
      exact absurd hc (by simp [Record.initial])
    refine ⟨_, Sparse.mem_of_read _ _ hne, ?_⟩
    dsimp only
    rw [hc]
    simp only [ht, if_true]

/-- In a canonical table the ids that meet a test stand in ascending order. -/
theorem State.idsWhere_ascending (s : State) (test : Circuit → Bool) (h : Sparse.wf Record.initial s.table = true) :
    (s.idsWhere test).Pairwise (· < ·) := by
  unfold State.idsWhere
  generalize s.table = t at h
  induction t with
  | nil => simp
  | cons e rest ih =>
    obtain ⟨k, v⟩ := e
    obtain ⟨_, hlt, hr⟩ := (Sparse.wf_cons _ k v rest).mp h
    have htail := ih hr
    rw [List.filterMap_cons]
    split
    · exact htail
    · rename_i b hb
      rw [List.pairwise_cons]
      refine ⟨?_, htail⟩
      intro a ha
      obtain ⟨⟨k', v'⟩, hm, ha⟩ := List.mem_filterMap.mp ha
      have hk : k = b := by
        dsimp only at hb
        split at hb
        · split at hb
          · exact Option.some.inj hb
          · exact absurd hb (by simp)
        · exact absurd hb (by simp)
      have hk' : k' = a := by
        dsimp only at ha
        split at ha
        · split at ha
          · exact Option.some.inj ha
          · exact absurd ha (by simp)
        · exact absurd ha (by simp)
      rw [← hk, ← hk']
      exact hlt _ hm

/-- In a canonical table the ids that meet a test are distinct. -/
theorem State.idsWhere_nodup (s : State) (test : Circuit → Bool) (h : Sparse.wf Record.initial s.table = true) :
    (s.idsWhere test).Nodup :=
  (s.idsWhere_ascending test h).imp fun hab => Nat.ne_of_lt hab

/-- Ascending lists with the same members are the same list. -/
theorem ascending_ext {a b : List Nat} (ha : a.Pairwise (· < ·)) (hb : b.Pairwise (· < ·))
    (h : ∀ x, x ∈ a ↔ x ∈ b) : a = b := by
  induction a generalizing b with
  | nil =>
    cases b with
    | nil => rfl
    | cons y rest => exact absurd ((h y).mpr List.mem_cons_self) (by simp)
  | cons x ra ih =>
    cases b with
    | nil => exact absurd ((h x).mp List.mem_cons_self) (by simp)
    | cons y rb =>
      obtain ⟨hxa, hra⟩ := List.pairwise_cons.mp ha
      obtain ⟨hyb, hrb⟩ := List.pairwise_cons.mp hb
      have hxy : x = y := by
        rcases List.mem_cons.mp ((h x).mp List.mem_cons_self) with hx | hx
        · exact hx
        · rcases List.mem_cons.mp ((h y).mpr List.mem_cons_self) with hy | hy
          · exact hy.symm
          · have h1 := hxa y hy
            have h2 := hyb x hx
            omega
      subst hxy
      have hrest : ra = rb := by
        refine ih hra hrb fun z => ⟨fun hz => ?_, fun hz => ?_⟩
        · rcases List.mem_cons.mp ((h z).mp (List.mem_cons_of_mem _ hz)) with hx | hx
          · have h1 := hxa z hz
            omega
          · exact hx
        · rcases List.mem_cons.mp ((h z).mpr (List.mem_cons_of_mem _ hz)) with hx | hx
          · have h1 := hyb z hz
            omega
          · exact hx
      rw [hrest]

/-- The ids that meet a test depend on the Circuit Table alone. -/
theorem State.idsWhere_congr {s t : State} (test : Circuit → Bool) (h : t.table = s.table) :
    t.idsWhere test = s.idsWhere test := by
  unfold State.idsWhere
  rw [h]

/-! ### Links -/

/-- A link replaced twice holds the later value. -/
@[simp] theorem State.withLink_withLink (s : State) (n : Link) (c d : LinkController) :
    (s.withLink n c).withLink n d = s.withLink n d := by
  unfold State.withLink State.withLinks
  simp only [Links.set_set]

/-- A link replaced by itself. -/
@[simp] theorem State.withLink_link (s : State) (n : Link) : s.withLink n (s.link n) = s := by
  unfold State.withLink State.link
  rw [Links.set_get]
  rfl

/-- A change of a link is its replacement. -/
theorem State.modifyLink_eq (s : State) (n : Link) (f : LinkController → LinkController) :
    s.modifyLink n f = s.withLink n (f (s.link n)) := rfl

/-- A link changed shows the change. -/
@[simp] theorem State.modifyLink_link_same (s : State) (n : Link) (f : LinkController → LinkController) :
    (s.modifyLink n f).link n = f (s.link n) := by
  rw [State.modifyLink_eq, State.withLink_link_same]

/-- A link changed leaves every other link as it was. -/
theorem State.modifyLink_link_other (s : State) {n k : Link} (f : LinkController → LinkController) (h : k ≠ n) :
    (s.modifyLink n f).link k = s.link k := by
  rw [State.modifyLink_eq, State.withLink_link_other _ _ h]

/-! ### The Map Store -/

/-- The staged bank after its replacement. -/
@[simp] theorem MapStore.setStaged_stagedBank (m : MapStore) (b : Bank) : (m.setStaged b).stagedBank = b := by
  obtain ⟨_, _, live, _⟩ := m
  cases live <;> rfl

/-- The live bank is not the staged one. -/
@[simp] theorem MapStore.setStaged_liveBank (m : MapStore) (b : Bank) : (m.setStaged b).liveBank = m.liveBank := by
  obtain ⟨_, _, live, _⟩ := m
  cases live <;> rfl

@[simp] theorem MapStore.setStaged_live (m : MapStore) (b : Bank) : (m.setStaged b).live = m.live := by
  obtain ⟨_, _, live, _⟩ := m
  cases live <;> rfl

@[simp] theorem MapStore.setStaged_state (m : MapStore) (b : Bank) : (m.setStaged b).state = m.state := by
  obtain ⟨_, _, live, _⟩ := m
  cases live <;> rfl

/-- The keys of one trunk's slots are apart. -/
theorem slotKey_inj {t a b : Nat} : slotKey t a = slotKey t b ↔ a = b := by
  unfold slotKey
  omega

/-- An edit batch changes nothing of the live bank, the pointer and the bank state (R28, R29). -/
theorem State.editStaged_only (s : State) (batch : EditBatch) : StagedBankOnly s (s.editStaged batch) := by
  simp [StagedBankOnly, State.editStaged]

/-- A staged entry after an edit batch. -/
theorem State.editStaged_entry (s : State) (batch : EditBatch) (k : Nat) :
    (s.editStaged batch).stagedEntry k = Sparse.read Entry.idle (Bank.edit s.maps.stagedBank batch) k := by
  simp [State.stagedEntry, State.editStaged]

/-- The staged bank of a canonical state is canonical. -/
theorem State.stagedBank_wf {s : State} (h : s.Canonical) : Sparse.wf Entry.idle s.maps.stagedBank = true := by
  unfold MapStore.stagedBank MapStore.bank otherBank
  cases s.maps.live
  · exact h.2.2.1
  · exact h.2.1

/-- The live bank of a canonical state is canonical. -/
theorem State.liveBank_wf {s : State} (h : s.Canonical) : Sparse.wf Entry.idle s.maps.liveBank = true := by
  unfold MapStore.liveBank MapStore.bank
  cases s.maps.live
  · exact h.2.1
  · exact h.2.2.1

/-- The batch that clears some pairs makes their entries IDLE. -/
theorem State.editStaged_clear (s : State) (c : Circuit) (pairs : List Pair)
    (h : Sparse.wf Entry.idle s.maps.stagedBank = true) :
    StagedEntries c pairs (fun _ => .idle) s (s.editStaged (c.clearBatch pairs)) := by
  refine ⟨s.editStaged_only _, ?_, ?_⟩
  · intro p hp
    rw [State.editStaged_entry]
    refine Bank.read_edit_mem _ _ h ⟨_, List.mem_map.mpr ⟨p, hp, rfl⟩, rfl⟩ ?_
    intro e he _
    obtain ⟨q, _, rfl⟩ := List.mem_map.mp he
    rfl
  · intro k hk
    rw [State.editStaged_entry]
    refine Bank.read_edit_other _ _ ?_
    intro e he
    obtain ⟨q, hq, rfl⟩ := List.mem_map.mp he
    exact hk q hq

/-- The batch that describes some pairs, on distinct destinations, makes their entries describe them; pairs that are
all described alike need not be on distinct destinations. -/
theorem State.editStaged_describe (s : State) (id : Nat) (c : Circuit) (pairs : List Pair)
    (h : Sparse.wf Entry.idle s.maps.stagedBank = true)
    (hd : (pairs.map Pair.dst).Nodup ∨ c.stagedTreatment = .fill) :
    StagedEntries c pairs (c.entry id c.stagedTreatment) s (s.editStaged (c.describeBatch id pairs)) := by
  refine ⟨s.editStaged_only _, ?_, ?_⟩
  · intro p hp
    rw [State.editStaged_entry]
    refine Bank.read_edit_mem _ _ h ⟨_, List.mem_map.mpr ⟨p, hp, rfl⟩, rfl⟩ ?_
    intro e he hk
    obtain ⟨q, hq, rfl⟩ := List.mem_map.mp he
    dsimp only at hk ⊢
    rcases hd with hd | hd
    · have hqp : q = p := by
        have hdst := slotKey_inj.mp hk
        exact eq_of_nodup_map hd hq hp hdst
      rw [hqp]
    · rw [hd]
      rfl
  · intro k hk
    rw [State.editStaged_entry]
    refine Bank.read_edit_other _ _ ?_
    intro e he
    obtain ⟨q, hq, rfl⟩ := List.mem_map.mp he
    exact hk q hq

end Sys2Proof.Machine
end

