-- ==== Sys2Proof/Laws/Allocator.lean ====
section
/-! SUPPORT. What the slots that the Allocator chooses are, and how they are sorted. -/

namespace Sys2Proof.Machine

/-! ### Sorting -/

theorem mem_insertSlot (x y : Nat) (l : List Nat) : y ∈ insertSlot x l ↔ y = x ∨ y ∈ l := by
  induction l with
  | nil => simp [insertSlot]
  | cons z rest ih =>
    unfold insertSlot
    split
    · simp
    · simp only [List.mem_cons, ih]
      constructor
      · rintro (h | h | h)
        · exact Or.inr (Or.inl h)
        · exact Or.inl h
        · exact Or.inr (Or.inr h)
      · rintro (h | h | h)
        · exact Or.inr (Or.inl h)
        · exact Or.inl h
        · exact Or.inr (Or.inr h)

/-- Sorting keeps the members. -/
theorem mem_sortSlots (x : Nat) (l : List Nat) : x ∈ sortSlots l ↔ x ∈ l := by
  induction l with
  | nil => simp [sortSlots]
  | cons y rest ih =>
    have h : sortSlots (y :: rest) = insertSlot y (sortSlots rest) := rfl
    rw [h, mem_insertSlot, ih, List.mem_cons]

theorem length_insertSlot (x : Nat) (l : List Nat) : (insertSlot x l).length = l.length + 1 := by
  induction l with
  | nil => rfl
  | cons z rest ih =>
    unfold insertSlot
    split
    · rfl
    · simp only [List.length_cons, ih]

/-- Sorting keeps the length. -/
theorem length_sortSlots (l : List Nat) : (sortSlots l).length = l.length := by
  induction l with
  | nil => rfl
  | cons y rest ih =>
    have h : sortSlots (y :: rest) = insertSlot y (sortSlots rest) := rfl
    rw [h, length_insertSlot, ih, List.length_cons]

theorem insertSlot_ascending (x : Nat) (l : List Nat) (h : l.Pairwise (· < ·)) (hx : x ∉ l) :
    (insertSlot x l).Pairwise (· < ·) := by
  induction l with
  | nil => simp [insertSlot]
  | cons z rest ih =>
    obtain ⟨hz, hrest⟩ := List.pairwise_cons.mp h
    have hxz : x ≠ z := fun he => hx (he ▸ List.mem_cons_self)
    have hxr : x ∉ rest := fun hm => hx (List.mem_cons_of_mem _ hm)
    unfold insertSlot
    split
    · rw [List.pairwise_cons]
      refine ⟨fun a ha => ?_, h⟩
      rcases List.mem_cons.mp ha with ha | ha
      · omega
      · have := hz a ha
        omega
    · rw [List.pairwise_cons]
      refine ⟨fun a ha => ?_, ih hrest hxr⟩
      rcases (mem_insertSlot x a rest).mp ha with ha | ha
      · omega
      · exact hz a ha

/-- Distinct slots sorted stand in strictly ascending order. -/
theorem sortSlots_ascending (l : List Nat) (h : l.Nodup) : (sortSlots l).Pairwise (· < ·) := by
  induction l with
  | nil => simp [sortSlots]
  | cons y rest ih =>
    obtain ⟨hy, hrest⟩ := List.nodup_cons.mp h
    have hs : sortSlots (y :: rest) = insertSlot y (sortSlots rest) := rfl
    rw [hs]
    exact insertSlot_ascending _ _ (ih hrest) fun hm => hy ((mem_sortSlots y rest).mp hm)

/-! ### Pairing -/

theorem zipPairs_dst (a b : List Nat) :
    ((a.zipWith (fun s d => ({ src := s, dst := d, retiring := false } : Pair)) b).map Pair.dst) =
      b.take a.length := by
  induction a generalizing b with
  | nil => simp
  | cons x rest ih =>
    cases b with
    | nil => simp
    | cons y tail => simp [ih]

theorem zipPairs_src (a b : List Nat) :
    ((a.zipWith (fun s d => ({ src := s, dst := d, retiring := false } : Pair)) b).map Pair.src) =
      a.take b.length := by
  induction a generalizing b with
  | nil => simp
  | cons x rest ih =>
    cases b with
    | nil => simp
    | cons y tail => simp [ih]

/-- The destinations of sorted pairs are the lowest of the sorted destinations. -/
theorem pairSlots_dst (sources destinations : List Nat) :
    (pairSlots sources destinations).map Pair.dst = (sortSlots destinations).take sources.length := by
  unfold pairSlots
  rw [zipPairs_dst, length_sortSlots]

/-- The sources of sorted pairs are the lowest of the sorted sources. -/
theorem pairSlots_src (sources destinations : List Nat) :
    (pairSlots sources destinations).map Pair.src = (sortSlots sources).take destinations.length := by
  unfold pairSlots
  rw [zipPairs_src, length_sortSlots]

/-- Sorted pairs on distinct destinations stand in ascending order of destination slot. -/
theorem pairSlots_dst_ascending (sources destinations : List Nat) (h : destinations.Nodup) :
    ((pairSlots sources destinations).map Pair.dst).Pairwise (· < ·) := by
  rw [pairSlots_dst]
  exact (sortSlots_ascending _ h).sublist (List.take_sublist _ _)

/-- Sorted pairs on distinct sources stand in ascending order of source slot. -/
theorem pairSlots_src_ascending (sources destinations : List Nat) (h : sources.Nodup) :
    ((pairSlots sources destinations).map Pair.src).Pairwise (· < ·) := by
  rw [pairSlots_src]
  exact (sortSlots_ascending _ h).sublist (List.take_sublist _ _)

/-- No new pair carries the retiring mark. -/
theorem pairSlots_unmarked (sources destinations : List Nat) :
    ∀ p ∈ pairSlots sources destinations, p.retiring = false := by
  unfold pairSlots
  generalize sortSlots sources = a
  generalize sortSlots destinations = b
  induction a generalizing b with
  | nil => simp
  | cons x rest ih =>
    cases b with
    | nil => simp
    | cons y tail =>
      intro p hp
      rw [List.zipWith_cons_cons] at hp
      rcases List.mem_cons.mp hp with hp | hp
      · rw [hp]
      · exact ih tail p hp

/-! ### The slots chosen -/

/-- Positions one stride apart are distinct. -/
theorem strided_nodup (start stride n : Nat) (h : 0 < stride) :
    ((List.range n).map fun k => start + k * stride).Nodup := by
  rw [List.nodup_iff_pairwise_ne, List.pairwise_map]
  refine List.Pairwise.imp ?_ (List.nodup_range (n := n))
  intro a b hab he
  apply hab
  have : a * stride = b * stride := by omega
  exact Nat.eq_of_mul_eq_mul_right h this

/-- Slots chosen by a placement other than FIXED from distinct free slots are distinct, as many as asked for, and
free. -/
theorem chooseSlots_spec {free : List Nat} {n : Nat} {placement : Placement} {slots : List Nat} (hfree : free.Nodup)
    (hp : placement ≠ .fixed) (h : chooseSlots free n placement [] = .ok slots) :
    slots.Nodup ∧ slots.length = n ∧ ∀ slot ∈ slots, slot ∈ free := by
  unfold chooseSlots at h
  split at h
  · cases h
  · rename_i hn
    cases placement with
    | fixed => exact absurd rfl hp
    | contiguous =>
      dsimp only at h
      cases hc : chooseContiguous free n with
      | none =>
        rw [hc] at h
        cases h
      | some run =>
        rw [hc] at h
        cases h
        unfold chooseContiguous at hc
        have hall := List.find?_some hc
        obtain ⟨start, _, rfl⟩ := List.mem_map.mp (List.mem_of_find?_eq_some hc)
        refine ⟨?_, by simp, ?_⟩
        · have := strided_nodup start 1 n (by omega)
          simpa using this
        · intro slot hs
          exact List.contains_iff_mem.mp (List.all_eq_true.mp hall slot hs)
    | spread =>
      dsimp only at h
      cases hc : chooseSpread free n with
      | none =>
        rw [hc] at h
        cases h
      | some run =>
        rw [hc] at h
        cases h
        unfold chooseSpread at hc
        have hall := List.find?_some hc
        obtain ⟨start, hstart, rfl⟩ := List.mem_map.mp (List.mem_of_find?_eq_some hc)
        refine ⟨strided_nodup start _ n ?_, by simp, ?_⟩
        · have := List.mem_range.mp hstart
          omega
        · intro slot hs
          exact List.contains_iff_mem.mp (List.all_eq_true.mp hall slot hs)
    | any =>
      cases h
      unfold chooseAny
      refine ⟨hfree.sublist (List.take_sublist _ _), ?_, fun slot hs => List.mem_of_mem_take hs⟩
      rw [List.length_take]
      omega

/-- The output free set holds distinct slots. -/
theorem State.freeOutputs_nodup (s : State) (t : Nat) : (s.freeOutputs t).Nodup :=
  List.nodup_range.filter _

/-- The input free set holds distinct slots. -/
theorem State.freeInputs_nodup (s : State) (t : Nat) : (s.freeInputs t).Nodup :=
  List.nodup_range.filter _

end Sys2Proof.Machine
end

