-- ==== Sys2Proof/Laws/Releases.lean ====
section
/-! SUPPORT. What the freeing of records, the report queues, the owner test, a release with its cascade, and the
departure of a link from UP do, in the terms of Safety.lean. -/

namespace Sys2Proof.Machine

/-- States with the same fields are equal. -/
theorem State.eq_of_fields {s t : State} (h1 : t.pending = s.pending) (h2 : t.resetAsserted = s.resetAsserted)
    (h3 : t.table = s.table) (h4 : t.maps = s.maps) (h5 : t.cutover = s.cutover) (h6 : t.engine = s.engine)
    (h7 : t.links = s.links) (h8 : t.control = s.control) (h9 : t.idle = s.idle) (h10 : t.mailbox = s.mailbox)
    (h11 : t.supQueue = s.supQueue) (h12 : t.switch = s.switch) (h13 : t.timing = s.timing)
    (h14 : t.events = s.events) : t = s := by
  cases s
  cases t
  simp only at h1 h2 h3 h4 h5 h6 h7 h8 h9 h10 h11 h12 h13 h14
  subst_vars
  rfl

/-! ### Freeing records -/

/-- Freeing one record (R21). -/
theorem State.freeRecord_frees (s : State) (id : Nat) (h : Sparse.wf Record.initial s.table = true) :
    Frees (fun j => j = id) s (s.freeRecord id) := by
  refine ⟨?_, ?_, ?_, ?_, ?_, rfl, rfl, rfl, rfl, rfl, rfl, rfl, rfl, rfl⟩
  · intro j
    have hr : (s.freeRecord id).record j =
        (s.setRecord id { generation := (s.record id).generation, circuit := none }).record j := rfl
    rw [hr, State.setRecord_record _ _ _ h]
    by_cases hj : j = id
    · simp [hj]
    · simp [hj]
  · intro n
    cases n <;> simp [State.freeRecord, State.unlist, State.removeFollowUp, State.dropReports, State.link,
      Links.get, State.setRecord]
  · simp [State.freeRecord, State.unlist, State.removeFollowUp, State.dropReports]
  · simp [State.freeRecord, State.unlist, State.removeFollowUp, State.dropReports, State.setRecord]
  · simp [State.freeRecord, State.unlist, State.removeFollowUp, State.dropReports, State.setRecord]

/-- Freeing one set of records after another. -/
theorem Frees.trans {f g : Nat → Bool} {s t u : State} (h1 : Frees f s t) (h2 : Frees g t u) :
    Frees (fun j => f j || g j) s u := by
  obtain ⟨a1, a2, a3, a4, a5, a6, a7, a8, a9, a10, a11, a12, a13, a14⟩ := h1
  obtain ⟨b1, b2, b3, b4, b5, b6, b7, b8, b9, b10, b11, b12, b13, b14⟩ := h2
  refine ⟨?_, ?_, ?_, ?_, ?_, b6.trans a6, b7.trans a7, b8.trans a8, b9.trans a9, b10.trans a10, b11.trans a11,
    b12.trans a12, b13.trans a13, b14.trans a14⟩
  · intro j
    rw [b1, a1]
    show _ = if (f j || g j) = true then _ else _
    cases f j <;> cases g j <;> rfl
  · intro n
    rw [b2, a2]
    simp only [List.filter_filter, Bool.not_or, Bool.and_comm]
  · rw [b3, a3]
    simp only [List.filter_filter, Bool.not_or, Bool.and_comm]
  · rw [b4, a4]
    simp only [List.filter_filter, Bool.not_or, Bool.and_comm]
  · rw [b5, a5]
    simp only [List.filter_filter, Bool.not_or, Bool.and_comm]

/-- Freeing no record. -/
theorem Frees.none (s : State) : Frees (fun _ => false) s s := by
  have keep : ∀ {α : Type} (l : List α), l.filter (fun _ => true) = l := fun l =>
    List.filter_eq_self.mpr fun _ _ => rfl
  refine ⟨fun _ => rfl, ?_, ?_, ?_, ?_, rfl, rfl, rfl, rfl, rfl, rfl, rfl, rfl, rfl⟩ <;>
    simp only [Bool.not_false, keep, implies_true]

/-- The set of records freed may be described in another way. -/
theorem Frees.congr {f g : Nat → Bool} {s t : State} (h : Frees f s t) (hfg : ∀ j, f j = g j) : Frees g s t := by
  have : f = g := funext hfg
  rwa [← this]

/-- Freeing a record keeps the Circuit Table canonical. -/
theorem State.freeRecord_wf (s : State) (id : Nat) (h : Sparse.wf Record.initial s.table = true) :
    Sparse.wf Record.initial (s.freeRecord id).table = true :=
  Sparse.wf_write _ _ _ _ h

/-- Freeing a list of records keeps the Circuit Table canonical. -/
theorem State.freeAll_wf (ids : List Nat) : ∀ s : State, Sparse.wf Record.initial s.table = true →
    Sparse.wf Record.initial (s.freeAll ids).table = true := by
  induction ids with
  | nil => exact fun s h => h
  | cons id rest ih => exact fun s h => ih _ (s.freeRecord_wf id h)

/-- Freeing a list of records. -/
theorem State.freeAll_frees (ids : List Nat) : ∀ s : State, Sparse.wf Record.initial s.table = true →
    Frees (fun j => j ∈ ids) s (s.freeAll ids) := by
  induction ids with
  | nil =>
    intro s _
    exact (Frees.none s).congr (by simp)
  | cons id rest ih =>
    intro s h
    refine ((s.freeRecord_frees id h).trans (ih _ (s.freeRecord_wf id h))).congr ?_
    intro j
    simp only [List.mem_cons, Bool.decide_or]

/-- An id is among the CLOSED records of an owner exactly when its record is one. -/
theorem State.mem_closedOf (s : State) (o : Owner) (h : Sparse.wf Record.initial s.table = true) (id : Nat) :
    id ∈ s.closedOf o ↔ isClosedOf s o id = true := by
  simp only [State.closedOf, s.mem_idsWhere _ h, isClosedOf, Option.any_eq_true]

/-- The CLOSED records of an owner become FREE (R19, R20). -/
theorem State.freeClosed_frees (s : State) (o : Owner) (h : Sparse.wf Record.initial s.table = true) :
    Frees (isClosedOf s o) s (s.freeAll (s.closedOf o)) := by
  refine (State.freeAll_frees _ s h).congr ?_
  intro j
  have := s.mem_closedOf o h j
  by_cases hj : j ∈ s.closedOf o
  · simp [hj, this.mp hj]
  · have hf : isClosedOf s o j = false := by
      cases hb : isClosedOf s o j
      · rfl
      · exact absurd (this.mpr hb) hj
    simp [hj, hf]

/-! ### Report queues -/

/-- What queuing a report does (R17, R42, R86, R138, R161). -/
theorem State.queueReport_reported (s : State) (o : Owner) (id : Nat) : Reported o id s (s.queueReport o id) := by
  cases o with
  | link n =>
    by_cases h : (s.link n).state = .up
    · simp [Reported, State.queueReport, State.receives, h, reportedLinks, reportedSupQueue, reportedEvents,
        State.modifyLink]
    · simp [Reported, State.queueReport, State.receives, h, reportedLinks, reportedSupQueue, reportedEvents]
  | supervisor =>
    cases h : s.control.reports
    · simp [Reported, State.queueReport, State.receives, h, reportedLinks, reportedSupQueue, reportedEvents]
    · by_cases hq : s.supQueue = []
      · simp [Reported, State.queueReport, State.receives, h, hq, reportedLinks, reportedSupQueue, reportedEvents,
          State.raise, appendOnce]
      · simp [Reported, State.queueReport, State.receives, h, hq, reportedLinks, reportedSupQueue, reportedEvents]

/-- Queuing a report changes the report queues and the latches alone. -/
theorem State.queueReport_eq (s : State) (o : Owner) (id : Nat) :
    s.queueReport o id =
      ((s.withLinks (reportedLinks s o id)).withSupQueue (reportedSupQueue s o id)).withEvents (reportedEvents s o) := by
  obtain ⟨h1, h2, h3⟩ := s.queueReport_reported o id
  apply State.eq_of_fields
  case h7 => exact h1
  case h11 => exact h2
  case h14 => exact h3
  all_goals
    unfold State.queueReport
    split
    · split
      · rfl
      · split <;> rfl
    · rfl

@[simp] theorem State.queueReport_table (s : State) (o : Owner) (id : Nat) :
    (s.queueReport o id).table = s.table := by rw [State.queueReport_eq]; rfl
@[simp] theorem State.queueReport_maps (s : State) (o : Owner) (id : Nat) :
    (s.queueReport o id).maps = s.maps := by rw [State.queueReport_eq]; rfl
@[simp] theorem State.queueReport_cutover (s : State) (o : Owner) (id : Nat) :
    (s.queueReport o id).cutover = s.cutover := by rw [State.queueReport_eq]; rfl
@[simp] theorem State.queueReport_engine (s : State) (o : Owner) (id : Nat) :
    (s.queueReport o id).engine = s.engine := by rw [State.queueReport_eq]; rfl
@[simp] theorem State.queueReport_mailbox (s : State) (o : Owner) (id : Nat) :
    (s.queueReport o id).mailbox = s.mailbox := by rw [State.queueReport_eq]; rfl
@[simp] theorem State.queueReport_switch (s : State) (o : Owner) (id : Nat) :
    (s.queueReport o id).switch = s.switch := by rw [State.queueReport_eq]; rfl
@[simp] theorem State.queueReport_timing (s : State) (o : Owner) (id : Nat) :
    (s.queueReport o id).timing = s.timing := by rw [State.queueReport_eq]; rfl
@[simp] theorem State.queueReport_control (s : State) (o : Owner) (id : Nat) :
    (s.queueReport o id).control = s.control := by rw [State.queueReport_eq]; rfl
@[simp] theorem State.queueReport_record (s : State) (o : Owner) (id j : Nat) :
    (s.queueReport o id).record j = s.record j := by rw [State.queueReport_eq]; rfl
@[simp] theorem State.queueReport_circuit (s : State) (o : Owner) (id j : Nat) :
    (s.queueReport o id).circuit j = s.circuit j := by rw [State.queueReport_eq]; rfl

/-- Queuing a report is outside the records' frame. -/
theorem State.queueReport_same (s : State) (o : Owner) (id : Nat) : SameOutsideRecords s (s.queueReport o id) := by
  rw [State.queueReport_eq]
  exact ⟨rfl, rfl, rfl, rfl, rfl, rfl, rfl⟩

/-- The owner receives reports, as the operation tests it. -/
theorem State.receives_iff (s : State) (o : Owner) : s.receives o = true ↔ OwnerListens s o := by
  cases o <;> simp [State.receives, OwnerListens]

/-! ### Branch lists -/

/-- A change of a branch list changes the Circuit Table alone. -/
theorem State.updateBranches_eq (s : State) (parent : Nat) (f : List Nat → List Nat) :
    s.updateBranches parent f = s.withTable (s.updateBranches parent f).table := by
  unfold State.updateBranches
  split
  · split <;> rfl
  · rfl

/-- The record of every id after a change of a branch list. -/
theorem State.updateBranches_record (s : State) (parent : Nat) (f : List Nat → List Nat)
    (h : Sparse.wf Record.initial s.table = true) (j : Nat) :
    (s.updateBranches parent f).record j =
      match (s.record j).circuit with
      | some c =>
        match c.kind with
        | .trunk branches isOpen =>
          if j = parent then { s.record j with circuit := some { c with kind := .trunk (f branches) isOpen } }
          else s.record j
        | .branch _ => s.record j
      | none => s.record j := by
  unfold State.updateBranches
  by_cases hj : j = parent
  · subst hj
    rw [← State.circuit_eq]
    split
    · rename_i c hc
      split
      · rename_i branches isOpen hk
        rw [State.setCircuit_record _ _ _ h]
        all_goals simp [hc, hk]
      · rename_i p hk
        simp [hc, hk]
    · rename_i hc
      simp [hc]
  · simp only [hj, if_false]
    split
    · split
      · rw [State.setCircuit_record _ _ _ h, if_neg hj]
        split <;> (try split) <;> rfl
      · split <;> (try split) <;> rfl
    · split <;> (try split) <;> rfl

/-- A change of a branch list keeps the Circuit Table canonical. -/
theorem State.updateBranches_wf (s : State) (parent : Nat) (f : List Nat → List Nat)
    (h : Sparse.wf Record.initial s.table = true) :
    Sparse.wf Record.initial (s.updateBranches parent f).table = true := by
  unfold State.updateBranches
  split
  · split
    · exact State.setCircuit_wf _ _ _ h
    · exact h
  · exact h

/-- A branch leaving its parent changes the Circuit Table alone. -/
theorem State.leaveParent_eq (s : State) (id : Nat) (c : Circuit) :
    s.leaveParent id c = s.withTable (s.leaveParent id c).table := by
  unfold State.leaveParent
  split
  · exact State.updateBranches_eq _ _ _
  · rfl

/-- The record of every id after a branch has left its parent (R11). -/
theorem State.leaveParent_record (s : State) (id : Nat) (c : Circuit)
    (h : Sparse.wf Record.initial s.table = true) (j : Nat) :
    (s.leaveParent id c).record j = withoutBranch id c s j := by
  unfold State.leaveParent withoutBranch
  cases hk : c.kind with
  | trunk _ _ => rfl
  | branch parent =>
    dsimp only
    rw [State.updateBranches_record _ _ _ h]
    cases hr : (s.record j).circuit with
    | none => rfl
    | some p =>
      cases hp : p.kind with
      | branch _ => simp only [hp]
      | trunk _ _ =>
        simp only [hp]
        by_cases hj : j = parent
        · rw [if_pos hj, if_pos hj.symm]
        · rw [if_neg hj, if_neg (Ne.symm hj)]

/-- A branch leaving its parent keeps the Circuit Table canonical. -/
theorem State.leaveParent_wf (s : State) (id : Nat) (c : Circuit) (h : Sparse.wf Record.initial s.table = true) :
    Sparse.wf Record.initial (s.leaveParent id c).table = true := by
  unfold State.leaveParent
  split
  · exact State.updateBranches_wf _ _ _ h
  · exact h

/-- The generation of a record is held when a branch leaves it. -/
theorem withoutBranch_generation (id : Nat) (c : Circuit) (s : State) (j : Nat) :
    (withoutBranch id c s j).generation = (s.record j).generation := by
  unfold withoutBranch
  split
  · split
    · split <;> rfl
    · rfl
  · rfl

/-! ### The owner test and the releases -/

/-- What an edit batch says of the staged bank does not read the rest of the state. -/
theorem StagedEntries.congr {c : Circuit} {pairs : List Pair} {entry : Pair → Entry} {s t u : State}
    (h : StagedEntries c pairs entry s t) (hm : u.maps = t.maps) : StagedEntries c pairs entry s u := by
  unfold StagedEntries StagedBankOnly State.stagedEntry at *
  rw [hm]
  exact h

/-- What queuing a report does reads the links, the supervisor report queue, the latches and CONTROL alone. -/
theorem Reported.congr {o : Owner} {id : Nat} {s s' t : State} (h : Reported o id s t) (hl : s.links = s'.links)
    (hq : s.supQueue = s'.supQueue) (he : s.events = s'.events) (hc : s.control = s'.control) :
    Reported o id s' t := by
  unfold Reported reportedLinks reportedSupQueue reportedEvents State.link at *
  rw [hl, hq, he, hc] at h
  exact h

/-- Everything outside the records stays through two changes. -/
theorem SameOutsideRecords.trans {s t u : State} (h1 : SameOutsideRecords s t) (h2 : SameOutsideRecords t u) :
    SameOutsideRecords s u := by
  obtain ⟨a1, a2, a3, a4, a5, a6, a7⟩ := h1
  obtain ⟨b1, b2, b3, b4, b5, b6, b7⟩ := h2
  exact ⟨b1.trans a1, b2.trans a2, b3.trans a3, b4.trans a4, b5.trans a5, b6.trans a6, b7.trans a7⟩

/-- The owner test when the owner listens (R17): CLOSED and reported. -/
theorem State.ownerTest_heard (s : State) (id : Nat) (c : Circuit) (h : OwnerListens s c.owner) :
    s.ownerTest id c = (s.setCircuit id { c with state := .closed }).queueReport c.owner id := by
  unfold State.ownerTest
  rw [if_pos ((s.receives_iff c.owner).mpr h)]

/-- The owner test when the owner does not listen (R17): FREE at once. -/
theorem State.ownerTest_unheard (s : State) (id : Nat) (c : Circuit) (h : ¬OwnerListens s c.owner) :
    s.ownerTest id c = s.freeRecord id := by
  unfold State.ownerTest
  rw [if_neg fun hr => h ((s.receives_iff c.owner).mp hr)]

/-- An owner test keeps the Circuit Table canonical. -/
theorem State.ownerTest_wf (s : State) (id : Nat) (c : Circuit) (h : Sparse.wf Record.initial s.table = true) :
    Sparse.wf Record.initial (s.ownerTest id c).table = true := by
  unfold State.ownerTest
  split
  · rw [State.queueReport_table]
    exact State.setCircuit_wf _ _ _ h
  · exact State.freeRecord_wf _ _ h

/-- A release of a PENDING record (R95, R17). -/
theorem State.releasePending_released (s : State) (reason : CloseReason) (id : Nat) (c : Circuit)
    (h : s.Canonical) : ReleasedPending reason id c s (s.releasePending reason id c) := by
  have hbank := s.editStaged_clear c c.staged (State.stagedBank_wf h)
  obtain ⟨v, hv, hrec, hwf, hmaps, hcut, heng, hlinks, hsup, hev, hsame⟩ :
      ∃ v : State,
        s.releasePending reason id c = v.ownerTest id
          { c with staged := [], pendingChange := none, closeReason := some reason } ∧
        (∀ j, v.record j = withoutBranch id c s j) ∧ Sparse.wf Record.initial v.table = true ∧
        v.maps = (s.editStaged (c.clearBatch c.staged)).maps ∧
        v.cutover = { s.cutover with changeList := s.cutover.changeList.filter (· ≠ id) } ∧
        v.engine = { s.engine with followUps := s.engine.followUps.filter fun f => f.id ≠ id } ∧
        v.links = s.links ∧ v.supQueue = s.supQueue ∧ v.events = s.events ∧ SameOutsideRecords s v := by
    have hwf : Sparse.wf Record.initial
        (((s.editStaged (c.clearBatch c.staged)).unlist id).removeFollowUp id).table = true := h.1
    refine ⟨(((s.editStaged (c.clearBatch c.staged)).unlist id).removeFollowUp id).leaveParent id c, rfl,
      fun j => State.leaveParent_record _ _ _ hwf j, State.leaveParent_wf _ _ _ hwf, ?_⟩
    rw [State.leaveParent_eq]
    exact ⟨rfl, rfl, rfl, rfl, rfl, rfl, rfl, rfl, rfl, rfl, rfl, rfl, rfl⟩
  have hlisten : OwnerListens v c.owner ↔ OwnerListens s c.owner := by
    unfold OwnerListens State.link
    rw [hlinks, hsame.2.2.1]
  rw [hv]
  generalize hc : { c with staged := [], pendingChange := none, closeReason := some reason } = c'
  have howner : c'.owner = c.owner := by rw [← hc]
  by_cases ho : OwnerListens s c.owner
  · rw [State.ownerTest_heard v id c' (howner ▸ hlisten.mpr ho)]
    refine ⟨hbank.congr ?_, ?_, ?_, ?_, ?_, fun _ => ⟨?_, ?_⟩, fun hn => absurd ho hn⟩
    · rw [State.queueReport_maps]
      exact hmaps
    · intro j hj
      rw [State.queueReport_record, State.setCircuit_record _ _ _ hwf, if_neg hj, hrec]
    · rw [State.queueReport_cutover]
      exact hcut
    · rw [State.queueReport_engine]
      exact heng
    · exact hsame.trans (State.queueReport_same _ _ _)
    · rw [State.queueReport_record, State.setCircuit_record _ _ _ hwf, if_pos rfl, hrec,
        withoutBranch_generation, ← hc]
    · rw [← howner]
      exact (State.queueReport_reported (v.setCircuit id { c' with state := .closed }) c'.owner id).congr hlinks hsup
        hev hsame.2.2.1
  · rw [State.ownerTest_unheard v id c' fun hn => ho (hlisten.mp (howner ▸ hn))]
    obtain ⟨f1, f2, f3, f4, f5, f6, f7, f8⟩ := v.freeRecord_frees id hwf
    refine ⟨hbank.congr (f6.trans hmaps), ?_, ?_, ?_, hsame.trans f8, fun hn => absurd hn ho,
      fun _ => ⟨?_, ?_, ?_, f7.trans hev⟩⟩
    · intro j hj
      rw [f1 j, hrec, if_neg (by simp [hj])]
    · rw [f5, hcut]
      simp [List.filter_filter]
    · rw [f4, heng]
      simp [List.filter_filter]
    · rw [f1 id, hrec, if_pos (by simp), withoutBranch_generation]
    · intro n
      rw [f2 n]
      unfold State.link
      rw [hlinks]
      simp
    · rw [f3, hsup]
      simp

/-- A release of an ACTIVE or SUSPENDED record (R96, R86). -/
theorem State.releaseLive_released (s : State) (reason : CloseReason) (id : Nat) (c : Circuit)
    (h : s.Canonical) : ReleasedLive reason id c s (s.releaseLive reason id c) := by
  have hbank := s.editStaged_clear c c.staged (State.stagedBank_wf h)
  have hwf : Sparse.wf Record.initial ((s.editStaged (c.clearBatch c.staged)).removeFollowUp id).table = true := h.1
  unfold State.releaseLive
  refine ⟨?_, ?_, hbank.congr ?_, ?_, ?_, ?_, ?_⟩
  · rw [State.queueReport_record, State.enlist_record, State.setCircuit_record _ _ _ hwf, if_pos rfl]
    rfl
  · intro j hj
    rw [State.queueReport_record, State.enlist_record, State.setCircuit_record _ _ _ hwf, if_neg hj]
    rfl
  · rw [State.queueReport_maps]
    rfl
  · rw [State.queueReport_cutover]
    rfl
  · rw [State.queueReport_engine]
    rfl
  · exact State.queueReport_reported _ _ _
  · exact SameOutsideRecords.trans ⟨rfl, rfl, rfl, rfl, rfl, rfl, rfl⟩ (State.queueReport_same _ _ _)

/-- The release of one record for its own state (R95 to R97). -/
theorem State.releaseRecord_released (s : State) (reason : CloseReason) (id : Nat) (h : s.Canonical) :
    ReleasedOne reason id s (s.releaseRecord reason id) := by
  unfold ReleasedOne State.releaseRecord
  cases s.circuit id with
  | none => rfl
  | some c =>
    dsimp only
    cases c.state
    · exact s.releasePending_released reason id c h
    · exact s.releaseLive_released reason id c h
    · exact s.releaseLive_released reason id c h
    · rfl
    · rfl

/-! ### The canonical form -/

/-- A state whose table is canonical and whose other buffers are those of a canonical state is canonical. -/
theorem State.Canonical.of_table {s t : State} (h : s.Canonical)
    (ht : Sparse.wf Record.initial t.table = true) (hm : t.maps = s.maps) (hs : t.switch = s.switch)
    (hb : t.mailbox = s.mailbox) : t.Canonical := by
  unfold State.Canonical at *
  rw [hm, hs, hb]
  exact ⟨ht, h.2⟩

/-- An edit batch keeps every buffer canonical. -/
theorem State.Canonical.editStaged {s : State} (h : s.Canonical) (batch : EditBatch) :
    (s.editStaged batch).Canonical := by
  have hs := Bank.wf_edit s.maps.stagedBank batch (State.stagedBank_wf h)
  obtain ⟨h1, h2, h3, h4⟩ := h
  unfold State.editStaged MapStore.setStaged
  unfold MapStore.stagedBank MapStore.bank otherBank at hs ⊢
  cases hl : s.maps.live <;> rw [hl] at hs
  · exact ⟨h1, h2, hs, h4⟩
  · exact ⟨h1, hs, h3, h4⟩

/-- A replaced circuit keeps every buffer canonical. -/
theorem State.Canonical.setCircuit {s : State} (h : s.Canonical) (id : Nat) (c : Circuit) :
    (s.setCircuit id c).Canonical :=
  h.of_table (s.setCircuit_wf id c h.1) rfl rfl rfl

/-- A queued report keeps every buffer canonical. -/
theorem State.Canonical.queueReport {s : State} (h : s.Canonical) (o : Owner) (id : Nat) :
    (s.queueReport o id).Canonical :=
  h.of_table (by rw [State.queueReport_table]; exact h.1) (s.queueReport_maps o id) (s.queueReport_switch o id)
    (s.queueReport_mailbox o id)

/-- A freed record keeps every buffer canonical. -/
theorem State.Canonical.freeRecord {s : State} (h : s.Canonical) (id : Nat) : (s.freeRecord id).Canonical :=
  h.of_table (s.freeRecord_wf id h.1) rfl rfl rfl

/-- Freed records keep every buffer canonical. -/
theorem State.Canonical.freeAll {s : State} (h : s.Canonical) (ids : List Nat) : (s.freeAll ids).Canonical := by
  unfold State.freeAll
  induction ids generalizing s with
  | nil => exact h
  | cons id rest ih => exact ih (h.freeRecord id)

/-- An owner test keeps every buffer canonical. -/
theorem State.Canonical.ownerTest {s : State} (h : s.Canonical) (id : Nat) (c : Circuit) :
    (s.ownerTest id c).Canonical := by
  unfold State.ownerTest
  split
  · exact (h.setCircuit id _).queueReport _ _
  · exact h.freeRecord id

/-- A changed branch list keeps every buffer canonical. -/
theorem State.Canonical.updateBranches {s : State} (h : s.Canonical) (parent : Nat) (f : List Nat → List Nat) :
    (s.updateBranches parent f).Canonical := by
  rw [State.updateBranches_eq]
  exact h.of_table (s.updateBranches_wf parent f h.1) rfl rfl rfl

/-- A branch leaving its parent keeps every buffer canonical. -/
theorem State.Canonical.leaveParent {s : State} (h : s.Canonical) (id : Nat) (c : Circuit) :
    (s.leaveParent id c).Canonical := by
  rw [State.leaveParent_eq]
  exact h.of_table (s.leaveParent_wf id c h.1) rfl rfl rfl

/-- A release of one record keeps every buffer canonical. -/
theorem State.Canonical.releaseRecord {s : State} (h : s.Canonical) (reason : CloseReason) (id : Nat) :
    (s.releaseRecord reason id).Canonical := by
  have hpending : ∀ c, (s.releasePending reason id c).Canonical := by
    intro c
    have h1 : (((s.editStaged (c.clearBatch c.staged)).unlist id).removeFollowUp id).Canonical :=
      h.editStaged (c.clearBatch c.staged)
    exact (h1.leaveParent id c).ownerTest id _
  have hlive : ∀ c, (s.releaseLive reason id c).Canonical := by
    intro c
    have h1 : ((s.editStaged (c.clearBatch c.staged)).removeFollowUp id).Canonical :=
      h.editStaged (c.clearBatch c.staged)
    have h2 := h1.setCircuit id
      { c with staged := [], pendingChange := none, closeReason := some reason, state := .releasing }
    have h3 : ((((s.editStaged (c.clearBatch c.staged)).removeFollowUp id).setCircuit id
        { c with staged := [], pendingChange := none, closeReason := some reason, state := .releasing }).enlist
          id).Canonical := h2
    exact h3.queueReport _ _
  unfold State.releaseRecord
  split
  · exact h
  · split
    · exact hpending _
    · exact hlive _
    · exact hlive _
    · exact h
    · exact h

/-! ### The cascade -/

/-- A list of records released one after another (R97). -/
theorem State.releaseList_cascade (ids : List Nat) : ∀ s : State, s.Canonical →
    Cascade ids s (ids.foldl (fun s b => s.releaseRecord .parentGone b) s) ∧
      (ids.foldl (fun s b => s.releaseRecord .parentGone b) s).Canonical := by
  induction ids with
  | nil => exact fun s h => ⟨rfl, h⟩
  | cons b rest ih =>
    intro s h
    have h' := h.releaseRecord .parentGone b
    exact ⟨⟨_, s.releaseRecord_released .parentGone b h, (ih _ h').1⟩, (ih _ h').2⟩

/-- The branches that a release releases with its record are the releasable ones of its branch list. -/
theorem State.cascadeOf_eq (s : State) (id : Nat) (c : Circuit) (hc : s.circuit id = some c) :
    s.cascadeOf id = releasableBranches s c := by
  unfold State.cascadeOf releasableBranches
  rw [hc]

/-- A release with its cascade (R95 to R97). -/
theorem State.releaseAll_released (s : State) (reason : CloseReason) (id : Nat) (c : Circuit) (h : s.Canonical)
    (hc : s.circuit id = some c) : Released reason id c s (s.releaseAll reason id) := by
  refine ⟨_, s.releaseRecord_released reason id h, ?_⟩
  unfold State.releaseAll
  rw [s.cascadeOf_eq id c hc]
  exact (State.releaseList_cascade _ _ (h.releaseRecord reason id)).1

/-- A release with its cascade keeps every buffer canonical. -/
theorem State.Canonical.releaseAll {s : State} (h : s.Canonical) (reason : CloseReason) (id : Nat) :
    (s.releaseAll reason id).Canonical :=
  (State.releaseList_cascade _ _ (h.releaseRecord reason id)).2

/-! ### A departure from UP -/

/-- The ORPHAN items that a policy offers change the follow-up queue alone (R143). -/
theorem State.offerOrphans_eq (s : State) (n : Link) :
    s.offerOrphans n = s.withEngine { s.engine with followUps := afterPolicy s n s.engine.followUps } := by
  have hfold : ∀ (ids : List Nat) (u : State), ids.foldl (fun s id => s.offer .orphan id) u =
      u.withEngine { u.engine with
        followUps := ids.foldl (fun q id => offerTo q { kind := .orphan, id := id }) u.engine.followUps } := by
    intro ids
    induction ids with
    | nil => exact fun u => rfl
    | cons id rest ih => exact fun u => by rw [List.foldl_cons, ih]; rfl
  unfold State.offerOrphans afterPolicy
  cases (s.link n).policy
  · rfl
  · exact hfold _ s

/-- The freeing of a record and the replacement of a link with an empty report queue may be taken in either order. -/
theorem State.freeRecord_withLink (s : State) (id : Nat) (n : Link) (c : LinkController) (hc : c.reports = []) :
    (s.withLink n c).freeRecord id = (s.freeRecord id).withLink n c := by
  have hstrip : { c with reports := c.reports.filter (· ≠ id) } = c := by
    cases c
    simp only at hc
    subst hc
    rfl
  apply State.eq_of_fields
  case h7 =>
    apply Links.ext_get
    intro k
    cases n <;> cases k <;> simp only [State.freeRecord, State.unlist, State.removeFollowUp, State.dropReports,
      State.withLink, State.withLinks_links, Links.set, Links.get, State.withCutover_links, State.withEngine_links,
      State.withSupQueue_links, State.setRecord_links, hstrip]
  all_goals rfl

/-- As for one record, so for a list of them. -/
theorem State.freeAll_withLink (ids : List Nat) (n : Link) (c : LinkController) (hc : c.reports = []) :
    ∀ s : State, (s.withLink n c).freeAll ids = (s.freeAll ids).withLink n c := by
  induction ids with
  | nil => exact fun s => rfl
  | cons id rest ih =>
    intro s
    have h := ih (s.freeRecord id)
    rw [← State.freeRecord_withLink s id n c hc] at h
    exact h

/-- The items of a policy are for the same records before and after its link's CLOSED records become FREE. -/
theorem orphansOf_freed (s t : State) (n : Link) (hs : Sparse.wf Record.initial s.table = true)
    (ht : Sparse.wf Record.initial t.table = true) (h : Frees (isClosedOf s (.link n)) s t) :
    orphansOf t n = orphansOf s n := by
  refine ascending_ext (t.idsWhere_ascending _ ht) (s.idsWhere_ascending _ hs) fun id => ?_
  simp only [orphansOf, State.mem_idsWhere _ _ hs, State.mem_idsWhere _ _ ht, State.circuit_eq, h.1 id]
  cases hf : isClosedOf s (.link n) id
  · simp
  · simp only [isClosedOf, Option.any_eq_true, State.circuit_eq] at hf
    obtain ⟨c, hc, hclosed⟩ := hf
    simp only [hc, if_true]
    constructor
    · rintro ⟨_, h, _⟩
      exact absurd h (by simp)
    · rintro ⟨d, hd, hrel⟩
      cases hd
      simp only [Bool.and_eq_true, beq_iff_eq] at hclosed hrel
      rw [Circuit.isReleasable, hclosed.2] at hrel
      exact absurd hrel.2 (by simp)

/-- A departure from UP (R142, R19, R143). -/
theorem State.leaveUp_leaves (s : State) (n : Link) (target : LinkState) (reason : DownReason) (h : s.Canonical) :
    LeavesUp n target reason s (s.leaveUp n target reason) := by
  refine ⟨s.freeAll (s.closedOf (.link n)), s.freeClosed_frees _ h.1, ?_⟩
  have horphans := orphansOf_freed s _ n h.1 (State.freeAll_wf _ s h.1) (s.freeClosed_frees (.link n) h.1)
  unfold State.leaveUp State.modifyLink
  rw [State.freeAll_withLink _ _ _ rfl, State.offerOrphans_eq]
  have hpolicy : afterPolicy ((s.freeAll (s.closedOf (.link n))).withLink n ((s.link n).leave target reason)) n
      = afterPolicy s n := by
    funext queue
    unfold afterPolicy
    rw [State.withLink_link_same]
    show (match (s.link n).policy with | .keep => _ | .release => _) = _
    cases (s.link n).policy
    · rfl
    · show List.foldl _ queue (orphansOf (s.freeAll (s.closedOf (.link n))) n) = _
      rw [horphans]
  rw [hpolicy]
  rfl

/-- The ORPHAN items of a policy keep every buffer canonical. -/
theorem State.Canonical.offerOrphans {s : State} (h : s.Canonical) (n : Link) : (s.offerOrphans n).Canonical := by
  rw [State.offerOrphans_eq]
  exact h

/-- A departure from UP keeps every buffer canonical. -/
theorem State.Canonical.leaveUp {s : State} (h : s.Canonical) (n : Link) (target : LinkState) (reason : DownReason) :
    (s.leaveUp n target reason).Canonical := by
  have h1 : (s.modifyLink n fun c => c.leave target reason).Canonical := h
  exact (h1.freeAll (s.closedOf (.link n))).offerOrphans n

/-- A link reset keeps every buffer canonical. -/
theorem State.Canonical.resetLink {s : State} (h : s.Canonical) (n : Link) : (s.resetLink n).Canonical := by
  unfold State.resetLink
  split
  · exact h.leaveUp _ _ _
  · have h1 : (s.modifyLink n fun c => { c with downReason := .reset }).Canonical := h
    exact h1.offerOrphans n
  · exact h

end Sys2Proof.Machine
end

