-- ==== Sys2Proof/Laws/Engine.lean ====
section
/-! SUPPORT. The admission of a request: that the taking of a request from its queue and the effects of the request
may be told apart, and what the answer leaves. -/

namespace Sys2Proof.Machine

/-! ### Taking a request and the shared operations -/

/-- The taking of a request touches no owner's hearing. -/
theorem State.receives_takeRequest (s : State) (n : Link) (o : Owner) :
    (s.takeRequest n).receives o = s.receives o := by
  cases o with
  | link m => cases n <;> cases m <;> rfl
  | supervisor => rfl

theorem State.setRecord_takeRequest (s : State) (n : Link) (id : Nat) (r : Record) :
    (s.takeRequest n).setRecord id r = (s.setRecord id r).takeRequest n := rfl

theorem State.setCircuit_takeRequest (s : State) (n : Link) (id : Nat) (c : Circuit) :
    (s.takeRequest n).setCircuit id c = (s.setCircuit id c).takeRequest n := rfl

theorem State.editStaged_takeRequest (s : State) (n : Link) (b : EditBatch) :
    (s.takeRequest n).editStaged b = (s.editStaged b).takeRequest n := rfl

theorem State.enlist_takeRequest (s : State) (n : Link) (id : Nat) :
    (s.takeRequest n).enlist id = (s.enlist id).takeRequest n := rfl

theorem State.unlist_takeRequest (s : State) (n : Link) (id : Nat) :
    (s.takeRequest n).unlist id = (s.unlist id).takeRequest n := rfl

theorem State.removeFollowUp_takeRequest (s : State) (n : Link) (id : Nat) :
    (s.takeRequest n).removeFollowUp id = (s.removeFollowUp id).takeRequest n := rfl

theorem State.freeRecord_takeRequest (s : State) (n : Link) (id : Nat) :
    (s.takeRequest n).freeRecord id = (s.freeRecord id).takeRequest n := by
  cases n <;> rfl

theorem State.queueReport_takeRequest (s : State) (n : Link) (o : Owner) (id : Nat) :
    (s.takeRequest n).queueReport o id = (s.queueReport o id).takeRequest n := by
  unfold State.queueReport
  rw [State.receives_takeRequest]
  split
  · cases o with
    | link m => cases n <;> cases m <;> rfl
    | supervisor =>
      show (if s.supQueue = [] then _ else _) = State.takeRequest n (if s.supQueue = [] then _ else _)
      split <;> rfl
  · rfl

theorem State.updateBranches_takeRequest (s : State) (n : Link) (parent : Nat) (f : List Nat → List Nat) :
    (s.takeRequest n).updateBranches parent f = (s.updateBranches parent f).takeRequest n := by
  unfold State.updateBranches
  show (match s.circuit parent with | some c => _ | none => _) = _
  cases s.circuit parent with
  | none => rfl
  | some c =>
    dsimp only
    cases c.kind <;> rfl

theorem State.leaveParent_takeRequest (s : State) (n : Link) (id : Nat) (c : Circuit) :
    (s.takeRequest n).leaveParent id c = (s.leaveParent id c).takeRequest n := by
  unfold State.leaveParent
  cases c.kind with
  | trunk _ _ => rfl
  | branch parent => exact State.updateBranches_takeRequest _ _ _ _

theorem State.ownerTest_takeRequest (s : State) (n : Link) (id : Nat) (c : Circuit) :
    (s.takeRequest n).ownerTest id c = (s.ownerTest id c).takeRequest n := by
  unfold State.ownerTest
  rw [State.receives_takeRequest]
  split
  · rw [State.setCircuit_takeRequest, State.queueReport_takeRequest]
  · rw [State.freeRecord_takeRequest]

theorem State.releaseRecord_takeRequest (s : State) (n : Link) (reason : CloseReason) (id : Nat) :
    (s.takeRequest n).releaseRecord reason id = (s.releaseRecord reason id).takeRequest n := by
  have hp : ∀ c, (s.takeRequest n).releasePending reason id c = (s.releasePending reason id c).takeRequest n := by
    intro c
    unfold State.releasePending
    rw [State.editStaged_takeRequest, State.unlist_takeRequest, State.removeFollowUp_takeRequest,
      State.leaveParent_takeRequest, State.ownerTest_takeRequest]
  have hl : ∀ c, (s.takeRequest n).releaseLive reason id c = (s.releaseLive reason id c).takeRequest n := by
    intro c
    unfold State.releaseLive
    rw [State.editStaged_takeRequest, State.removeFollowUp_takeRequest, State.setCircuit_takeRequest,
      State.enlist_takeRequest, State.queueReport_takeRequest]
  unfold State.releaseRecord
  show (match s.circuit id with | none => _ | some c => _) = _
  cases s.circuit id with
  | none => rfl
  | some c =>
    dsimp only
    cases c.state
    · exact hp c
    · exact hl c
    · exact hl c
    · rfl
    · rfl

theorem State.releaseAll_takeRequest (s : State) (n : Link) (reason : CloseReason) (id : Nat) :
    (s.takeRequest n).releaseAll reason id = (s.releaseAll reason id).takeRequest n := by
  have hfold : ∀ (ids : List Nat) (s : State),
      ids.foldl (fun s b => s.releaseRecord .parentGone b) (s.takeRequest n) =
        (ids.foldl (fun s b => s.releaseRecord .parentGone b) s).takeRequest n := by
    intro ids
    induction ids with
    | nil => exact fun s => rfl
    | cons b rest ih => exact fun s => by rw [List.foldl_cons, State.releaseRecord_takeRequest, ih]; rfl
  unfold State.releaseAll
  rw [State.releaseRecord_takeRequest]
  exact hfold _ _

/-- The checks of step 6 do not read the request queue. -/
theorem State.ownerCheck_takeRequest (s : State) (n : Link) (who owner : Owner) :
    (s.takeRequest n).ownerCheck who owner = s.ownerCheck who owner := by
  cases owner with
  | supervisor => rfl
  | link m => cases n <;> cases m <;> rfl

/-- The summary of a record does not read the request queue. -/
theorem State.summary_takeRequest (s : State) (n : Link) (id : Nat) :
    (s.takeRequest n).summary id = s.summary id := by
  have hrep : ∀ o, (s.takeRequest n).reportOwed o id = s.reportOwed o id := by
    intro o
    cases o with
    | link m => cases n <;> cases m <;> rfl
    | supervisor => rfl
  unfold State.summary
  simp only [hrep]
  rfl

/-! ### Taking a request and the decisions -/

/-- The decision on a request with the taking of that request behind its effects. -/
def Decision.thenTaken (d : Decision) (n : Link) : Decision :=
  { code := d.code, body := d.body, state := d.state.takeRequest n }

/-- A decision does not read the queue its request stands in. -/
def Untaken (n : Link) (decide : State → Decision) : Prop :=
  ∀ s : State, decide (s.takeRequest n) = (decide s).thenTaken n

/-- Steps 3 and 4 do not read the queue of the request. -/
theorem onCircuit_untaken (n : Link) (who : Owner) (body : List Word) (go : Nat → Circuit → State → Decision)
    (hgo : ∀ id c, Untaken n (go id c)) : Untaken n fun s => onCircuit who body s fun id c => go id c s := by
  intro s
  unfold onCircuit
  have hnamed : ∀ i g, (s.takeRequest n).named i g = s.named i g := fun _ _ => rfl
  simp only [hnamed]
  cases s.named (bodyHi body 1) (bodyWord body 1).lo with
  | none => rfl
  | some c =>
    dsimp only
    split
    · exact hgo _ _ s
    · rfl

theorem decideClaim_untaken (n : Link) (who : Owner) (body : List Word) : Untaken n (decideClaim who body) := by
  intro s
  unfold decideClaim
  cases parseClaim who body with
  | none => rfl
  | some f =>
    simp only [State.ownerCheck_takeRequest]
    cases s.ownerCheck who (newOwner who f.owner) with
    | some code => rfl
    | none =>
      dsimp only
      show (match s.lowestFree with | none => _ | some id => _) = _
      cases s.lowestFree with
      | none => rfl
      | some id =>
        dsimp only
        show (match s.claimPairs f with | .error code => _ | .ok pairs => _) = _
        cases s.claimPairs f <;> rfl

theorem decideBranch_untaken (n : Link) (who : Owner) (body : List Word) : Untaken n (decideBranch who body) := by
  intro s
  unfold decideBranch
  cases parseBranch who body with
  | none => rfl
  | some f =>
    dsimp only
    show (match s.named f.parent f.generation with | none => _ | some parent => _) = _
    cases s.named f.parent f.generation with
    | none => rfl
    | some parent =>
      dsimp only
      cases mayBranch who parent with
      | false => rfl
      | true =>
        simp only [State.ownerCheck_takeRequest]
        cases branchState parent with
        | some code => rfl
        | none =>
          cases s.ownerCheck who (newOwner who f.owner) with
          | some code => rfl
          | none =>
            show (match s.lowestFree with | none => _ | some id => _) = Decision.thenTaken
              (match s.lowestFree with | none => _ | some id => _) n
            cases s.lowestFree with
            | none => rfl
            | some id =>
              dsimp only
              show (match chooseSlots (s.freeOutputs f.dstTrunk) parent.width f.dstPlacement [] with
                | .error code => _ | .ok destinations => _) = _
              cases chooseSlots (s.freeOutputs f.dstTrunk) parent.width f.dstPlacement [] with
              | error code => rfl
              | ok destinations =>
                dsimp only
                have h : ∀ c, (s.takeRequest n).takeRecord id c = (s.takeRecord id c).takeRequest n := fun c => rfl
                simp only [h, State.updateBranches_takeRequest]
                rfl

theorem decideRelease_untaken (n : Link) (who : Owner) (body : List Word) : Untaken n (decideRelease who body) := by
  intro s
  unfold decideRelease
  split
  · rfl
  · refine onCircuit_untaken n who body (fun id c s => if c.isGoing then refuse .going s else
      { code := .ok,
        body := [bodyWord body 1,
          Word.field (stateCode ((s.releaseAll (releaseReason who c) id).circuit id)) 8 +
            Word.field (s.cascadeOf id).length 0],
        state := s.releaseAll (releaseReason who c) id }) ?_ s
    intro id c s
    dsimp only
    split
    · rfl
    · rw [State.releaseAll_takeRequest]
      rfl

theorem decideReshape_untaken (n : Link) (who : Owner) (body : List Word) : Untaken n (decideReshape who body) := by
  intro s
  unfold decideReshape
  cases parseReshape body with
  | none => rfl
  | some wp =>
    obtain ⟨width, placement⟩ := wp
    refine onCircuit_untaken n who body (fun id c s =>
      match reshapeState c with
      | some code => refuse code s
      | none =>
        match s.reshapePairs c width placement with
        | .error code => refuse code s
        | .ok pairs =>
          { code := .ok, body := pairsBody (s.refWordOf id) width pairs,
            state := s.reshapeTo id c width pairs }) ?_ s
    intro id c s
    dsimp only
    cases reshapeState c with
    | some code => rfl
    | none =>
      dsimp only
      show (match s.reshapePairs c width placement with | .error code => _ | .ok pairs => _) = _
      cases s.reshapePairs c width placement <;> rfl

theorem decideSuspend_untaken (n : Link) (who : Owner) (body : List Word) : Untaken n (decideSuspend who body) := by
  intro s
  unfold decideSuspend
  split
  · rfl
  · refine onCircuit_untaken n who body (fun id c s =>
      match suspendState c with
      | some code => refuse code s
      | none => { code := .ok, body := [s.refWordOf id], state := s.treat id c .fill .suspend }) ?_ s
    intro id c s
    dsimp only
    cases suspendState c <;> rfl

theorem decideResume_untaken (n : Link) (who : Owner) (body : List Word) : Untaken n (decideResume who body) := by
  intro s
  unfold decideResume
  split
  · rfl
  · refine onCircuit_untaken n who body (fun id c s =>
      match resumeState c with
      | some code => refuse code s
      | none => { code := .ok, body := [s.refWordOf id], state := s.treat id c .pass .resume }) ?_ s
    intro id c s
    dsimp only
    cases resumeState c <;> rfl

theorem decideRenew_untaken (n : Link) (who : Owner) (body : List Word) : Untaken n (decideRenew who body) := by
  intro s
  unfold decideRenew
  split
  · rfl
  · refine onCircuit_untaken n who body (fun id c s => if c.isGoing then refuse .going s else
      { code := .ok, body := [s.refWordOf id, renewedLength body c, renewedLength body c],
        state := s.setCircuit id
          { c with leaseLength := renewedLength body c, leaseLeft := renewedLength body c } }) ?_ s
    intro id c s
    dsimp only
    split <;> rfl

theorem decideAsk_untaken (n : Link) (who : Owner) (body : List Word) : Untaken n (decideAsk who body) := by
  intro s
  unfold decideAsk
  split
  · rfl
  · refine onCircuit_untaken n who body (fun id _ s => { code := .ok, body := s.summary id, state := s }) ?_ s
    intro id c s
    dsimp only
    rw [State.summary_takeRequest]
    rfl

theorem decideUnknownKind_untaken (n : Link) (who : Owner) (body : List Word) :
    Untaken n (decideUnknownKind who body) := fun _ => rfl

/-! ### Effects and the rest of a link -/

/-- Every link is as it was but for its report queue. -/
def ReportsAlone (s t : State) : Prop := ∀ n, t.link n = { s.link n with reports := (t.link n).reports }

theorem ReportsAlone.refl (s : State) : ReportsAlone s s := fun _ => rfl

theorem ReportsAlone.of_links {s t : State} (h : t.links = s.links) : ReportsAlone s t := by
  intro n
  unfold State.link
  rw [h]

theorem ReportsAlone.trans {s t u : State} (h1 : ReportsAlone s t) (h2 : ReportsAlone t u) : ReportsAlone s u := by
  intro n
  have a := h1 n
  have b := h2 n
  rw [a] at b
  exact b

theorem State.freeRecord_reportsAlone (s : State) (id : Nat) : ReportsAlone s (s.freeRecord id) := by
  intro n
  cases n <;> rfl

theorem State.queueReport_reportsAlone (s : State) (o : Owner) (id : Nat) :
    ReportsAlone s (s.queueReport o id) := by
  intro n
  have h := (s.queueReport_reported o id).1
  unfold State.link
  rw [h]
  unfold reportedLinks
  cases o with
  | link m =>
    dsimp only
    split
    · by_cases hnm : n = m
      · subst hnm
        rw [Links.get_set_same]
        rfl
      · rw [Links.get_set_other _ _ hnm]
    · rfl
  | supervisor => rfl

theorem State.ownerTest_reportsAlone (s : State) (id : Nat) (c : Circuit) :
    ReportsAlone s (s.ownerTest id c) := by
  unfold State.ownerTest
  split
  · exact (ReportsAlone.of_links rfl).trans (State.queueReport_reportsAlone _ _ _)
  · exact s.freeRecord_reportsAlone id

theorem State.releaseRecord_reportsAlone (s : State) (reason : CloseReason) (id : Nat) :
    ReportsAlone s (s.releaseRecord reason id) := by
  unfold State.releaseRecord
  split
  · exact ReportsAlone.refl s
  · split
    · unfold State.releasePending
      refine ReportsAlone.trans (ReportsAlone.of_links ?_) (State.ownerTest_reportsAlone _ _ _)
      rw [State.leaveParent_eq]
      rfl
    · exact (ReportsAlone.of_links rfl).trans (State.queueReport_reportsAlone _ _ _)
    · exact (ReportsAlone.of_links rfl).trans (State.queueReport_reportsAlone _ _ _)
    · exact ReportsAlone.refl s
    · exact ReportsAlone.refl s

theorem State.releaseAll_reportsAlone (s : State) (reason : CloseReason) (id : Nat) :
    ReportsAlone s (s.releaseAll reason id) := by
  have hfold : ∀ (ids : List Nat) (s : State),
      ReportsAlone s (ids.foldl (fun s b => s.releaseRecord .parentGone b) s) := by
    intro ids
    induction ids with
    | nil => exact ReportsAlone.refl
    | cons b rest ih => exact fun s => (s.releaseRecord_reportsAlone _ b).trans (ih _)
  exact (s.releaseRecord_reportsAlone reason id).trans (hfold _ _)

/-! ### Effects and everything outside the records -/

theorem SameOutsideRecords.refl (s : State) : SameOutsideRecords s s := ⟨rfl, rfl, rfl, rfl, rfl, rfl, rfl⟩

theorem State.updateBranches_same (s : State) (parent : Nat) (f : List Nat → List Nat) :
    SameOutsideRecords s (s.updateBranches parent f) := by
  rw [State.updateBranches_eq]
  exact ⟨rfl, rfl, rfl, rfl, rfl, rfl, rfl⟩

theorem State.updateBranches_links (s : State) (parent : Nat) (f : List Nat → List Nat) :
    (s.updateBranches parent f).links = s.links := by
  rw [State.updateBranches_eq]
  rfl

theorem State.leaveParent_same (s : State) (id : Nat) (c : Circuit) : SameOutsideRecords s (s.leaveParent id c) := by
  rw [State.leaveParent_eq]
  exact ⟨rfl, rfl, rfl, rfl, rfl, rfl, rfl⟩

theorem State.ownerTest_same (s : State) (id : Nat) (c : Circuit) : SameOutsideRecords s (s.ownerTest id c) := by
  unfold State.ownerTest
  split
  · exact SameOutsideRecords.trans ⟨rfl, rfl, rfl, rfl, rfl, rfl, rfl⟩ (State.queueReport_same _ _ _)
  · exact ⟨rfl, rfl, rfl, rfl, rfl, rfl, rfl⟩

theorem State.releaseRecord_same (s : State) (reason : CloseReason) (id : Nat) :
    SameOutsideRecords s (s.releaseRecord reason id) := by
  have h0 : ∀ c : Circuit,
      SameOutsideRecords s (((s.editStaged (c.clearBatch c.staged)).unlist id).removeFollowUp id) := fun _ =>
    ⟨rfl, rfl, rfl, rfl, rfl, rfl, rfl⟩
  unfold State.releaseRecord
  split
  · exact SameOutsideRecords.refl s
  · split
    · exact (h0 _).trans ((State.leaveParent_same _ _ _).trans (State.ownerTest_same _ _ _))
    · exact SameOutsideRecords.trans ⟨rfl, rfl, rfl, rfl, rfl, rfl, rfl⟩ (State.queueReport_same _ _ _)
    · exact SameOutsideRecords.trans ⟨rfl, rfl, rfl, rfl, rfl, rfl, rfl⟩ (State.queueReport_same _ _ _)
    · exact SameOutsideRecords.refl s
    · exact SameOutsideRecords.refl s

theorem State.releaseAll_same (s : State) (reason : CloseReason) (id : Nat) :
    SameOutsideRecords s (s.releaseAll reason id) := by
  have hfold : ∀ (ids : List Nat) (s : State),
      SameOutsideRecords s (ids.foldl (fun s b => s.releaseRecord .parentGone b) s) := by
    intro ids
    induction ids with
    | nil => exact SameOutsideRecords.refl
    | cons b rest ih => exact fun s => (s.releaseRecord_same _ b).trans (ih _)
  exact (s.releaseRecord_same reason id).trans (hfold _ _)

/-! ### The decisions -/

/-- The decisions that one admission may make: a refusal, whose one effect besides its answer is the NO_RECORD event
(R15, R79), or an acceptance, with the effects of the request as a relation of states. -/
def Decides (s : State) (accepted : List Word → State → Prop) (d : Decision) : Prop :=
  (d.code ≠ .ok ∧ d.body = [] ∧ d.state = if d.code = .noRecord then s.raise .noRecord else s) ∨
    (d.code = .ok ∧ accepted d.body d.state)

/-- A refusal decides. -/
theorem refuse_decides (s : State) (accepted : List Word → State → Prop) (code : ResultCode) (h : code ≠ .ok)
    (h' : code ≠ .noRecord) : Decides s accepted (refuse code s) :=
  Or.inl ⟨h, rfl, (if_neg h').symm⟩

/-- A refusal with NO_RECORD decides. -/
theorem refuseNoRecord_decides (s : State) (accepted : List Word → State → Prop) :
    Decides s accepted (refuseNoRecord s) :=
  Or.inl ⟨show ResultCode.noRecord ≠ .ok by decide, rfl, rfl⟩

/-- What an acceptance leaves of the rest of the state: the links but for their report queues, and everything
outside the records. -/
def Contained (s : State) (_body : List Word) (t : State) : Prop := ReportsAlone s t ∧ SameOutsideRecords s t

theorem onCircuit_decides (s : State) (who : Owner) (body : List Word) (accepted : List Word → State → Prop)
    (go : Nat → Circuit → Decision) (hgo : ∀ id c, Decides s accepted (go id c)) :
    Decides s accepted (onCircuit who body s go) := by
  unfold onCircuit
  split
  · exact refuse_decides _ _ _ (by decide) (by decide)
  · split
    · exact hgo _ _
    · exact refuse_decides _ _ _ (by decide) (by decide)

/-- The code of a refused choice of slots. -/
theorem chooseSlots_code {free : List Nat} {n : Nat} {placement : Placement} {listed : List Nat} {code : ResultCode}
    (h : chooseSlots free n placement listed = .error code) : code ≠ .ok ∧ code ≠ .noRecord := by
  unfold chooseSlots at h
  split at h
  · cases h
    exact ⟨by decide, by decide⟩
  · split at h
    · split at h
      · cases h
      · cases h
        exact ⟨by decide, by decide⟩
    · split at h
      · cases h
      · cases h
        exact ⟨by decide, by decide⟩
    · split at h
      · cases h
      · cases h
        exact ⟨by decide, by decide⟩
    · cases h

theorem ownerCheck_code {s : State} {who owner : Owner} {code : ResultCode} (h : s.ownerCheck who owner = some code) :
    code ≠ .ok ∧ code ≠ .noRecord := by
  unfold State.ownerCheck at h
  split at h
  · cases h
  · split at h
    · cases h
      exact ⟨by decide, by decide⟩
    · split at h
      · cases h
        exact ⟨by decide, by decide⟩
      · cases h

theorem decideClaim_decides (s : State) (who : Owner) (body : List Word) :
    Decides s (Contained s) (decideClaim who body s) := by
  unfold decideClaim
  split
  · exact refuse_decides _ _ _ (by decide) (by decide)
  · split
    · rename_i hc
      exact refuse_decides _ _ _ (ownerCheck_code hc).1 (ownerCheck_code hc).2
    · split
      · exact refuseNoRecord_decides s _
      · split
        · rename_i code hp
          have hcode : code ≠ .ok ∧ code ≠ .noRecord := by
            unfold State.claimPairs at hp
            split at hp
            · rename_i hs
              cases hp
              exact chooseSlots_code hs
            · split at hp
              · rename_i hs
                cases hp
                exact chooseSlots_code hs
              · cases hp
          exact refuse_decides _ _ _ hcode.1 hcode.2
        · exact Or.inr ⟨rfl, ReportsAlone.of_links rfl, ⟨rfl, rfl, rfl, rfl, rfl, rfl, rfl⟩⟩

theorem branchState_code {c : Circuit} {code : ResultCode} (h : branchState c = some code) :
    code ≠ .ok ∧ code ≠ .noRecord := by
  unfold branchState at h
  repeat' split at h
  all_goals first | (cases h; done) | (cases h; exact ⟨by decide, by decide⟩)

theorem decideBranch_decides (s : State) (who : Owner) (body : List Word) :
    Decides s (Contained s) (decideBranch who body s) := by
  unfold decideBranch
  split
  · exact refuse_decides _ _ _ (by decide) (by decide)
  · split
    · exact refuse_decides _ _ _ (by decide) (by decide)
    · split
      · exact refuse_decides _ _ _ (by decide) (by decide)
      · split
        · rename_i hc
          exact refuse_decides _ _ _ (branchState_code hc).1 (branchState_code hc).2
        · split
          · rename_i hc
            exact refuse_decides _ _ _ (ownerCheck_code hc).1 (ownerCheck_code hc).2
          · split
            · exact refuseNoRecord_decides s _
            · split
              · rename_i hs
                exact refuse_decides _ _ _ (chooseSlots_code hs).1 (chooseSlots_code hs).2
              · exact Or.inr ⟨rfl, ReportsAlone.of_links (State.updateBranches_links _ _ _),
                  SameOutsideRecords.trans ⟨rfl, rfl, rfl, rfl, rfl, rfl, rfl⟩ (State.updateBranches_same _ _ _)⟩

theorem decideRelease_decides (s : State) (who : Owner) (body : List Word) :
    Decides s (Contained s) (decideRelease who body s) := by
  unfold decideRelease
  split
  · exact refuse_decides _ _ _ (by decide) (by decide)
  · refine onCircuit_decides _ _ _ _ _ fun id c => ?_
    split
    · exact refuse_decides _ _ _ (by decide) (by decide)
    · exact Or.inr ⟨rfl, s.releaseAll_reportsAlone _ _, s.releaseAll_same _ _⟩

theorem decideReshape_decides (s : State) (who : Owner) (body : List Word) :
    Decides s (Contained s) (decideReshape who body s) := by
  unfold decideReshape
  split
  · exact refuse_decides _ _ _ (by decide) (by decide)
  · refine onCircuit_decides _ _ _ _ _ fun id c => ?_
    split
    · rename_i code hc
      have hcode : code ≠ .ok ∧ code ≠ .noRecord := by
        unfold reshapeState at hc
        repeat' split at hc
        all_goals first | (cases hc; done) | (cases hc; exact ⟨by decide, by decide⟩)
      exact refuse_decides _ _ _ hcode.1 hcode.2
    · split
      · rename_i code hp
        have hcode : code ≠ .ok ∧ code ≠ .noRecord := by
          unfold State.reshapePairs at hp
          split at hp
          · rename_i hs
            cases hp
            unfold State.reshapeSources at hs
            split at hs
            · cases hs
            · split at hs
              · cases hs
              · rename_i hs'
                cases hs
                exact chooseSlots_code hs'
          · split at hp
            · rename_i hs
              cases hp
              exact chooseSlots_code hs
            · cases hp
        exact refuse_decides _ _ _ hcode.1 hcode.2
      · exact Or.inr ⟨rfl, ReportsAlone.of_links rfl, ⟨rfl, rfl, rfl, rfl, rfl, rfl, rfl⟩⟩

theorem decideSuspend_decides (s : State) (who : Owner) (body : List Word) :
    Decides s (Contained s) (decideSuspend who body s) := by
  unfold decideSuspend
  split
  · exact refuse_decides _ _ _ (by decide) (by decide)
  · refine onCircuit_decides _ _ _ _ _ fun id c => ?_
    split
    · rename_i code hc
      have hcode : code ≠ .ok ∧ code ≠ .noRecord := by
        unfold suspendState at hc
        repeat' split at hc
        all_goals first | (cases hc; done) | (cases hc; exact ⟨by decide, by decide⟩)
      exact refuse_decides _ _ _ hcode.1 hcode.2
    · exact Or.inr ⟨rfl, ReportsAlone.of_links rfl, ⟨rfl, rfl, rfl, rfl, rfl, rfl, rfl⟩⟩

theorem decideResume_decides (s : State) (who : Owner) (body : List Word) :
    Decides s (Contained s) (decideResume who body s) := by
  unfold decideResume
  split
  · exact refuse_decides _ _ _ (by decide) (by decide)
  · refine onCircuit_decides _ _ _ _ _ fun id c => ?_
    split
    · rename_i code hc
      have hcode : code ≠ .ok ∧ code ≠ .noRecord := by
        unfold resumeState at hc
        repeat' split at hc
        all_goals first | (cases hc; done) | (cases hc; exact ⟨by decide, by decide⟩)
      exact refuse_decides _ _ _ hcode.1 hcode.2
    · exact Or.inr ⟨rfl, ReportsAlone.of_links rfl, ⟨rfl, rfl, rfl, rfl, rfl, rfl, rfl⟩⟩

theorem decideRenew_decides (s : State) (who : Owner) (body : List Word) :
    Decides s (Contained s) (decideRenew who body s) := by
  unfold decideRenew
  split
  · exact refuse_decides _ _ _ (by decide) (by decide)
  · refine onCircuit_decides _ _ _ _ _ fun id c => ?_
    split
    · exact refuse_decides _ _ _ (by decide) (by decide)
    · exact Or.inr ⟨rfl, ReportsAlone.of_links rfl, ⟨rfl, rfl, rfl, rfl, rfl, rfl, rfl⟩⟩

theorem decideAsk_decides (s : State) (who : Owner) (body : List Word) :
    Decides s (Contained s) (decideAsk who body s) := by
  unfold decideAsk
  split
  · exact refuse_decides _ _ _ (by decide) (by decide)
  · exact onCircuit_decides _ _ _ _ _ fun id c => Or.inr ⟨rfl, ReportsAlone.refl s, SameOutsideRecords.refl s⟩

theorem decideReadCircuit_decides (s : State) (who : Owner) (body : List Word) :
    Decides s (Contained s) (decideReadCircuit who body s) := by
  unfold decideReadCircuit
  split
  · exact refuse_decides _ _ _ (by decide) (by decide)
  · exact Or.inr ⟨rfl, ReportsAlone.refl s, SameOutsideRecords.refl s⟩

theorem decideReadSlot_decides (s : State) (who : Owner) (body : List Word) :
    Decides s (Contained s) (decideReadSlot who body s) := by
  unfold decideReadSlot
  split
  · exact refuse_decides _ _ _ (by decide) (by decide)
  · exact Or.inr ⟨rfl, ReportsAlone.refl s, SameOutsideRecords.refl s⟩

theorem decideReadFree_decides (s : State) (who : Owner) (body : List Word) :
    Decides s (Contained s) (decideReadFree who body s) := by
  unfold decideReadFree
  split
  · exact refuse_decides _ _ _ (by decide) (by decide)
  · exact Or.inr ⟨rfl, ReportsAlone.refl s, SameOutsideRecords.refl s⟩

theorem State.deliver_contained (s : State) (id : Nat) : ReportsAlone s (s.deliver id) ∧
    SameOutsideRecords s (s.deliver id) := by
  unfold State.deliver
  split
  · exact ⟨s.freeRecord_reportsAlone id, ⟨rfl, rfl, rfl, rfl, rfl, rfl, rfl⟩⟩
  · exact ⟨ReportsAlone.refl s, SameOutsideRecords.refl s⟩

theorem decideTakeReport_decides (s : State) (who : Owner) (body : List Word) :
    Decides s (Contained s) (decideTakeReport who body s) := by
  unfold decideTakeReport
  split
  · exact refuse_decides _ _ _ (by decide) (by decide)
  · split
    · exact Or.inr ⟨rfl, ReportsAlone.refl s, SameOutsideRecords.refl s⟩
    · rename_i id rest _
      obtain ⟨h1, h2⟩ := (s.withSupQueue rest).deliver_contained id
      exact Or.inr ⟨rfl, h1, h2⟩

theorem decideCommit_decides (s : State) (who : Owner) (body : List Word) :
    Decides s (Contained s) (decideCommit who body s) := by
  unfold decideCommit
  split
  · exact refuse_decides _ _ _ (by decide) (by decide)
  · exact Or.inr ⟨rfl, ReportsAlone.of_links rfl, ⟨rfl, rfl, rfl, rfl, rfl, rfl, rfl⟩⟩

/-- A link reset touches nothing outside the records and the links. -/
theorem State.resetLink_same (s : State) (n : Link) (h : s.Canonical) : SameOutsideRecords s (s.resetLink n) := by
  unfold State.resetLink
  split
  · obtain ⟨u, hu, ht⟩ := s.leaveUp_leaves n .down .reset h
    rw [ht]
    obtain ⟨_, _, _, _, _, _, _, hsame⟩ := hu
    exact hsame
  · rw [State.offerOrphans_eq]
    exact ⟨rfl, rfl, rfl, rfl, rfl, rfl, rfl⟩
  · exact SameOutsideRecords.refl s

/-! ### The answer -/

/-- A window written word by word from a position. -/
theorem read_writeWords (words : List Word) : ∀ (start : Nat) (window : Sparse Word),
    Sparse.wf (0 : Word) window = true → ∀ p,
    Sparse.read 0 (((List.range' start words.length).zip words).foldl (fun w e => Sparse.write 0 w e.1 e.2) window) p =
      if start ≤ p ∧ p < start + words.length then words.getD (p - start) 0 else Sparse.read 0 window p := by
  induction words with
  | nil =>
    intro start window _ p
    rw [if_neg (by simp)]
    rfl
  | cons x rest ih =>
    intro start window h p
    rw [List.length_cons, List.range'_succ, List.zip_cons_cons, List.foldl_cons,
      ih (start + 1) _ (Sparse.wf_write _ _ _ _ h)]
    by_cases hp : p = start
    · subst hp
      rw [if_neg (by omega), if_pos (by omega), Sparse.read_write_same _ _ _ _ h]
      simp
    · rw [Sparse.read_write_other _ _ _ hp]
      by_cases h1 : start + 1 ≤ p ∧ p < start + 1 + rest.length
      · rw [if_pos h1, if_pos (by omega)]
        have : p - start = (p - (start + 1)) + 1 := by omega
        rw [this, List.getD_cons_succ]
      · rw [if_neg h1, if_neg (by omega)]

/-- What a window holds after words are written to it one by one stays canonical. -/
theorem wf_writeWords (batch : List (Nat × Word)) : ∀ window : Sparse Word, Sparse.wf (0 : Word) window = true →
    Sparse.wf (0 : Word) (batch.foldl (fun w e => Sparse.write 0 w e.1 e.2) window) = true := by
  induction batch with
  | nil => exact fun _ h => h
  | cons e rest ih => exact fun window h => ih _ (Sparse.wf_write _ _ _ _ h)

/-- The result window: the header, the body, and 0000H behind them (R153, R188). -/
theorem resultWindow_read (kind : Byte) (code : ResultCode) (body : List Word) (p : Nat) :
    Sparse.read 0 (resultWindow kind code body) p =
      if p = 0 then Word.ofBytes kind code.value else if p ≤ body.length then bodyWord body p else 0 := by
  have h := read_writeWords (Word.ofBytes kind code.value :: body) 0 [] rfl p
  unfold resultWindow
  dsimp only
  rw [List.range_eq_range', h]
  cases p with
  | zero => simp
  | succ p =>
    simp only [List.length_cons, Nat.zero_add, Nat.zero_le, true_and, Nat.sub_zero, List.getD_cons_succ, bodyWord,
      Nat.add_sub_cancel, Sparse.read, Nat.add_lt_add_iff_right, Nat.succ_le_iff, if_false, Nat.add_eq_zero_iff,
      Nat.one_ne_zero, and_false]

/-- The result window is canonical. -/
theorem resultWindow_wf (kind : Byte) (code : ResultCode) (body : List Word) :
    Sparse.wf (0 : Word) (resultWindow kind code body) = true := wf_writeWords _ [] rfl

/-- The admission of a mailbox command (R153). -/
theorem State.admission_mailbox (s : State) (kind : Option RequestKind) (body : List Word)
    (decide : Owner → List Word → State → Decision) (h : Takes s .supervisor kind body)
    (hm : (decide .supervisor body s).state.mailbox = s.mailbox) :
    Answered .supervisor (decide .supervisor body s).code (decide .supervisor body s).body s
      (decide .supervisor body s).state (s.admission kind decide) := by
  obtain ⟨_, hnext, hkind, hbody⟩ := h
  unfold State.admission
  rw [hnext]
  dsimp only
  rw [if_pos (show kindFrom .supervisor s.mailboxKindByte = kind from hkind), hbody]
  exact ⟨_, resultWindow_read _ _ _, by rw [State.answerMailbox, hm]⟩

/-- The admission of a link's request (R69, R70, R85). -/
theorem State.admission_link (s : State) (n : Link) (kind : Option RequestKind) (body : List Word)
    (decide : Owner → List Word → State → Decision) (h : Takes s (.link n) kind body)
    (hu : Untaken n (decide (.link n) body)) (hr : ReportsAlone s (decide (.link n) body s).state) :
    Answered (.link n) (decide (.link n) body s).code (decide (.link n) body s).body s
      (decide (.link n) body s).state (s.admission kind decide) := by
  obtain ⟨_, hnext, r, rest, hq, hkind, hbody⟩ := h
  refine ⟨r, rest, hq, ?_⟩
  unfold State.admission
  rw [hnext]
  dsimp only
  rw [hq]
  dsimp only
  rw [if_pos (show kindFrom (.link n) r.kind = kind from hkind), hbody, hu s]
  have hreq : ((decide (.link n) body s).state.link n).requests = r :: rest := by
    rw [hr n]
    exact hq
  generalize decide (.link n) body s = d at hreq ⊢
  unfold State.answerLink Decision.thenTaken State.takeRequest State.modifyLink
  apply State.eq_of_fields
  case h7 =>
    simp [hreq]
  all_goals rfl

/-- The admission of a request whose decision is contained (R69, R70, R85, R153): its answer is placed, on the state
as its effects leave it. -/
theorem State.admission_answered (s : State) (who : Owner) (kind : Option RequestKind) (body : List Word)
    (decide : Owner → List Word → State → Decision) (h : Takes s who kind body)
    (hu : ∀ n, who = .link n → Untaken n (decide who body)) (hd : Decides s (Contained s) (decide who body s)) :
    Answered who (decide who body s).code (decide who body s).body s (decide who body s).state
      (s.admission kind decide) := by
  have hcont : ReportsAlone s (decide who body s).state ∧ (decide who body s).state.mailbox = s.mailbox := by
    rcases hd with ⟨_, _, hstate⟩ | ⟨_, hc, hsame⟩
    · rw [hstate]
      split <;> exact ⟨ReportsAlone.of_links rfl, rfl⟩
    · exact ⟨hc, hsame.2.2.2.2.1⟩
  cases who with
  | supervisor => exact State.admission_mailbox s kind body decide h hcont.2
  | link n => exact State.admission_link s n kind body decide h (hu n rfl) hcont.1

/-- While RESETn is released an operation acts. -/
theorem State.whileRunning_released {s : State} (f : State → State) (h : s.resetAsserted = false) :
    s.whileRunning f = f s := by
  unfold State.whileRunning
  rw [h]
  rfl

/-- A command of one operation, while RESETn is released. -/
theorem State.next_released {s : State} (f : State → State) (h : s.resetAsserted = false) :
    (Host.Outcome.next (s.whileRunning f) : Host.Outcome State Fault Refusal) = .next (f s) := by
  rw [State.whileRunning_released f h]

/-- The admission of a follow-up item (R75). -/
theorem State.followUpAdmission_taken (s : State) (kind : FollowKind) (id : Nat) (act : Nat → State → State)
    (h : TakesFollowUp s kind id) : s.followUpAdmission kind act = act id (withoutHead s) := by
  unfold State.followUpAdmission
  rw [h.2]
  dsimp only
  rw [if_pos rfl]
  rfl

end Sys2Proof.Machine
end

