-- ==== Sys2Proof/Laws/Flags.lean ====
section
/-! SUPPORT. The event latches: what raising one and clearing some do to each. -/

namespace Sys2Proof.Machine

/-- A latch's bit is one of the sixteen. -/
theorem eventBit_lt (e : Event) : eventBit e < 16 := by
  cases e <;> first | decide | (rename_i n; cases n <;> decide)

/-- Different latches have different bits. -/
theorem eventBit_inj {e f : Event} : eventBit e = eventBit f ↔ e = f := by
  constructor
  · intro h
    cases e <;> cases f <;> first
      | rfl
      | exact absurd h (by decide)
      | (rename_i n; cases n <;> exact absurd h (by decide))
      | (rename_i n m; cases n <;> cases m <;> first | rfl | exact absurd h (by decide))
  · intro h
    rw [h]

/-- The mask of a latch has its bit alone. -/
theorem eventMask_getLsbD (e : Event) (i : Nat) : (eventMask e).getLsbD i = decide (i = eventBit e) := by
  unfold eventMask
  rw [BitVec.getLsbD_ofNat, Nat.testBit_two_pow]
  have h := eventBit_lt e
  by_cases hi : i = eventBit e
  · subst hi
    simp [h]
  · simp [hi, Ne.symm hi]

/-- Raising a latch sets it and no other (R178). -/
theorem EventUnit.isSet_raise (s : State) (e f : Event) :
    (s.raise e).events.isSet f = (s.events.isSet f || decide (f = e)) := by
  unfold State.raise EventUnit.isSet
  rw [State.withEvents_events, BitVec.getLsbD_or, eventMask_getLsbD]
  simp only [eventBit_inj]

/-- A write to EVENTS clears a latch exactly when its bit is written 1 (R179). -/
theorem EventUnit.isSet_clear (s : State) (w : Word) (e : Event) :
    (s.clearEvents w).events.isSet e = (s.events.isSet e && !w.getLsbD (eventBit e)) := by
  unfold State.clearEvents EventUnit.isSet
  rw [State.withEvents_events, BitVec.getLsbD_and, BitVec.getLsbD_not]
  simp [eventBit_lt e]

/-- Every bit of EVENTS is some latch's. -/
theorem eventBit_surj {i : Nat} (h : i < 16) : ∃ e, eventBit e = i := by
  have hall : ∀ i : Fin 16, ∃ e, eventBit e = i.val := by
    intro i
    match i with
    | 0 => exact ⟨.cutover, rfl⟩
    | 1 => exact ⟨.deferred, rfl⟩
    | 2 => exact ⟨.timing, rfl⟩
    | 3 => exact ⟨.linkState .l0, rfl⟩
    | 4 => exact ⟨.linkState .l1, rfl⟩
    | 5 => exact ⟨.linkState .l2, rfl⟩
    | 6 => exact ⟨.linkState .l3, rfl⟩
    | 7 => exact ⟨.linkFault .l0, rfl⟩
    | 8 => exact ⟨.linkFault .l1, rfl⟩
    | 9 => exact ⟨.linkFault .l2, rfl⟩
    | 10 => exact ⟨.linkFault .l3, rfl⟩
    | 11 => exact ⟨.mboxDone, rfl⟩
    | 12 => exact ⟨.mboxRefused, rfl⟩
    | 13 => exact ⟨.expiry, rfl⟩
    | 14 => exact ⟨.noRecord, rfl⟩
    | 15 => exact ⟨.supReport, rfl⟩
    | ⟨k + 16, hk⟩ => omega
  exact hall ⟨i, h⟩

end Sys2Proof.Machine
end

