-- ==== Sys2Proof/Laws/Boundary.lean ====
section
/-! SUPPORT. The frame starts: the reception of a frame, the lease tick, the count of silence, the decision at a
boundary and the cutover. -/

namespace Sys2Proof.Machine

/-! ### The lease tick -/

/-- A table whose circuits are all changed by a function shows the changed circuit at every id. -/
theorem countLeases_read (t : Table) (id : Nat) :
    Sparse.read Record.initial (countLeases t) id =
      { generation := (Sparse.read Record.initial t id).generation,
        circuit := (Sparse.read Record.initial t id).circuit.map Circuit.countLease } := by
  unfold countLeases
  induction t with
  | nil => rfl
  | cons e rest ih =>
    obtain ⟨k, v⟩ := e
    simp only [List.map_cons, Sparse.read]
    split
    · rfl
    · exact ih

/-- The countdown keeps the Circuit Table canonical. -/
theorem countLeases_wf (t : Table) (h : Sparse.wf Record.initial t = true) :
    Sparse.wf Record.initial (countLeases t) = true := by
  unfold countLeases
  induction t with
  | nil => rfl
  | cons e rest ih =>
    obtain ⟨k, v⟩ := e
    obtain ⟨hv, hlt, hr⟩ := (Sparse.wf_cons _ k v rest).mp h
    rw [List.map_cons, Sparse.wf_cons]
    refine ⟨?_, ?_, ih hr⟩
    · intro hi
      obtain ⟨g, c⟩ := v
      cases c with
      | none =>
        apply hv
        exact hi
      | some c => exact absurd (congrArg Record.circuit hi) (by simp [Record.initial])
    · intro e he
      obtain ⟨x, hx, rfl⟩ := List.mem_map.mp he
      exact hlt x hx

/-- The countdown of one circuit, as the statements name it. -/
theorem Circuit.countLease_eq (c : Circuit) : c.countLease = counted c := by
  unfold Circuit.countLease Circuit.leaseRuns counted
  simp only [Bool.and_eq_true, Bool.or_eq_true, beq_iff_eq, bne_iff_ne, ne_eq, and_assoc]

/-- The lease tick (R113, R114). -/
theorem State.takeLeaseTick_ticked (s : State) : LeasesTicked s s.takeLeaseTick := by
  have hfold : ∀ (ids : List Nat) (u : State), ids.foldl (fun s id => s.offer .expire id) u =
      u.withEngine { u.engine with
        followUps := ids.foldl (fun q id => offerTo q { kind := .expire, id := id }) u.engine.followUps } := by
    intro ids
    induction ids with
    | nil => exact fun u => rfl
    | cons id rest ih => exact fun u => by rw [List.foldl_cons, ih]; rfl
  have hrec : ∀ (u : State) (id : Nat), u.table = countLeases s.table → u.record id =
      { generation := (s.record id).generation, circuit := (s.circuit id).map counted } := by
    intro u id hu
    unfold State.record State.circuit State.record
    rw [hu, countLeases_read, funext Circuit.countLease_eq]
  have hout : s.idsWhere Circuit.runsOut = runningOut s := rfl
  unfold State.takeLeaseTick
  rw [hout]
  cases ho : runningOut s with
  | nil =>
    refine ⟨fun id => hrec _ id rfl, ?_, ?_, rfl, rfl, rfl, rfl⟩
    · rw [ho]
      rfl
    · rw [ho]
      rfl
  | cons id rest =>
    dsimp only
    rw [hfold]
    refine ⟨fun id => hrec _ id rfl, ?_, ?_, rfl, rfl, rfl, rfl⟩
    · rw [ho]
      rfl
    · rw [ho]
      rfl

/-- The lease tick touches nothing outside the records but the queue and the latches. -/
theorem State.takeLeaseTick_same (s : State) : SameOutsideRecords s s.takeLeaseTick := by
  have hfold : ∀ (ids : List Nat) (u : State), SameOutsideRecords u (ids.foldl (fun s id => s.offer .expire id) u) := by
    intro ids
    induction ids with
    | nil => exact SameOutsideRecords.refl
    | cons id rest ih => exact fun u => SameOutsideRecords.trans ⟨rfl, rfl, rfl, rfl, rfl, rfl, rfl⟩ (ih _)
  unfold State.takeLeaseTick
  split
  · exact ⟨rfl, rfl, rfl, rfl, rfl, rfl, rfl⟩
  · have h := SameOutsideRecords.trans (s := s) (t := s.withTable (countLeases s.table))
      ⟨rfl, rfl, rfl, rfl, rfl, rfl, rfl⟩ (hfold (s.idsWhere Circuit.runsOut) _)
    exact h

/-! ### Silence -/

/-- The count of silence at a boundary at which the link's limit is not reached (R130). -/
theorem State.countSilence_undue (s : State) (n : Link) (h : s.silenceDue n = false) :
    s.countSilence n = s.withLink n (silenceCounted (s.link n)) := by
  unfold State.countSilence silenceCounted
  rw [h]
  simp only [Bool.false_eq_true, if_false]
  split
  · rfl
  · unfold State.withLink State.link
    rw [Links.set_get]
    rfl

/-- Links counted one after another at a boundary at which no limit is reached: each listed link is counted once. -/
theorem State.countSilence_list (ls : List Link) : ∀ s : State, ls.Nodup → (∀ n ∈ ls, s.silenceDue n = false) →
    ∃ links : Links, ls.foldl (fun s n => s.countSilence n) s = s.withLinks links ∧
      ∀ n, links.get n = if n ∈ ls then silenceCounted (s.link n) else s.link n := by
  induction ls with
  | nil => exact fun s _ _ => ⟨s.links, rfl, fun n => by simp [State.link]⟩
  | cons m rest ih =>
    intro s hd hs
    obtain ⟨hm, hrest⟩ := List.nodup_cons.mp hd
    rw [List.foldl_cons, s.countSilence_undue m (hs m List.mem_cons_self)]
    have hlink : ∀ n ∈ rest, (s.withLink m (silenceCounted (s.link m))).link n = s.link n := by
      intro n hn
      apply State.withLink_link_other
      intro hnm
      exact hm (hnm ▸ hn)
    obtain ⟨links, hfold, hget⟩ := ih (s.withLink m (silenceCounted (s.link m))) hrest (by
      intro n hn
      unfold State.silenceDue
      rw [hlink n hn]
      exact hs n (List.mem_cons_of_mem _ hn))
    refine ⟨links, ?_, ?_⟩
    · rw [hfold]
      rfl
    · intro n
      rw [hget]
      by_cases hn : n ∈ rest
      · rw [if_pos hn, if_pos (List.mem_cons_of_mem _ hn), hlink n hn]
      · rw [if_neg hn]
        by_cases hnm : n = m
        · subst hnm
          rw [if_pos List.mem_cons_self, State.withLink_link_same]
        · rw [if_neg (by simp [hnm, hn]), State.withLink_link_other _ _ hnm]

/-- Links without repeats are without repeats, and no link is lost. -/
theorem dedupLinks_spec (ls : List Link) : (dedupLinks ls).Nodup ∧ ∀ n, n ∈ dedupLinks ls ↔ n ∈ ls := by
  induction ls with
  | nil => exact ⟨List.nodup_nil, fun n => Iff.rfl⟩
  | cons m rest ih =>
    unfold dedupLinks
    refine ⟨List.nodup_cons.mpr ⟨by simp [List.mem_filter], ih.1.filter _⟩, fun n => ?_⟩
    simp only [List.mem_cons, List.mem_filter, ih.2]
    by_cases hn : n = m <;> simp [hn]

/-- Every link takes a boundary once, before the Cutover Controller or after it (log 10). -/
theorem linksAround (o : BoundaryOrder) : (linksBefore o).Nodup ∧ (linksAfter o).Nodup ∧
    (∀ n, n ∈ linksAfter o ↔ n ∉ linksBefore o) := by
  refine ⟨(dedupLinks_spec _).1, (dedupLinks_spec _).1.filter _, fun n => ?_⟩
  unfold linksAfter
  simp only [List.mem_filter, (dedupLinks_spec _).2, Bool.not_eq_true', List.contains_eq_mem, decide_eq_false_iff_not,
    List.mem_append]
  constructor
  · exact fun h => h.2
  · exact fun h => ⟨Or.inr (by cases n <;> simp), h⟩

/-! ### The cutover -/

/-- The effects of one record of a cutover on the links, the latches and everything outside the records. -/
structure Confined (s t : State) : Prop where
  reports  : ReportsAlone s t
  outside  : SameOutsideRecords s t
  maps     : t.maps = s.maps
  armed    : t.cutover.armed = s.cutover.armed
  settle   : t.cutover.settle = s.cutover.settle
  latches  : ∀ e, e ≠ .supReport → t.events.isSet e = s.events.isSet e
  enables  : t.events.enables = s.events.enables

theorem Confined.refl (s : State) : Confined s s :=
  ⟨ReportsAlone.refl s, SameOutsideRecords.refl s, rfl, rfl, rfl, fun _ _ => rfl, rfl⟩

theorem Confined.trans {s t u : State} (h1 : Confined s t) (h2 : Confined t u) : Confined s u :=
  ⟨h1.reports.trans h2.reports, h1.outside.trans h2.outside, h2.maps.trans h1.maps, h2.armed.trans h1.armed,
    h2.settle.trans h1.settle, fun e he => (h2.latches e he).trans (h1.latches e he), h2.enables.trans h1.enables⟩

/-- A change of the Circuit Table alone. -/
theorem Confined.withTable (s : State) (t : Table) : Confined s (s.withTable t) :=
  ⟨ReportsAlone.of_links rfl, ⟨rfl, rfl, rfl, rfl, rfl, rfl, rfl⟩, rfl, rfl, rfl, fun _ _ => rfl, rfl⟩

theorem State.queueReport_confined (s : State) (o : Owner) (id : Nat) : Confined s (s.queueReport o id) := by
  refine ⟨s.queueReport_reportsAlone o id, s.queueReport_same o id, s.queueReport_maps o id, ?_, ?_, ?_, ?_⟩
  · rw [State.queueReport_cutover]
  · rw [State.queueReport_cutover]
  · intro e he
    rw [(s.queueReport_reported o id).2.2]
    unfold reportedEvents
    cases o with
    | link _ => rfl
    | supervisor =>
      dsimp only
      split
      · have h := EventUnit.isSet_raise s .supReport e
        rw [decide_eq_false he, Bool.or_false] at h
        exact h
      · rfl
  · rw [(s.queueReport_reported o id).2.2]
    unfold reportedEvents
    cases o with
    | link _ => rfl
    | supervisor =>
      dsimp only
      split <;> rfl

theorem State.freeRecord_confined (s : State) (id : Nat) : Confined s (s.freeRecord id) :=
  ⟨s.freeRecord_reportsAlone id, ⟨rfl, rfl, rfl, rfl, rfl, rfl, rfl⟩, rfl, rfl, rfl, fun _ _ => rfl, rfl⟩

theorem State.ownerTest_confined (s : State) (id : Nat) (c : Circuit) : Confined s (s.ownerTest id c) := by
  unfold State.ownerTest
  split
  · exact (Confined.withTable _ _).trans (State.queueReport_confined _ _ _)
  · exact s.freeRecord_confined id

theorem State.offer_confined (s : State) (kind : FollowKind) (id : Nat) : Confined s (s.offer kind id) :=
  ⟨ReportsAlone.of_links rfl, ⟨rfl, rfl, rfl, rfl, rfl, rfl, rfl⟩, rfl, rfl, rfl, fun _ _ => rfl, rfl⟩

/-- The application of one record touches the records, the report queues, the follow-up queue and SUP_REPORT. -/
theorem State.applyRecord_confined (s : State) (id : Nat) : Confined s (s.applyRecord id) := by
  unfold State.applyRecord
  split
  · exact Confined.refl s
  · dsimp only
    split
    · refine Confined.trans ?_ (State.ownerTest_confined _ _ _)
      rw [State.leaveParent_eq]
      exact Confined.withTable _ _
    · split
      · exact ((Confined.withTable _ _).trans (State.queueReport_confined _ _ _)).trans
          (State.offer_confined _ _ _)
      · exact (Confined.withTable _ _).trans (State.queueReport_confined _ _ _)

/-- The application of a list of records. -/
theorem State.applyRecords_confined (ids : List Nat) : ∀ s : State,
    Confined s (ids.foldl (fun s id => s.applyRecord id) s) := by
  induction ids with
  | nil => exact Confined.refl
  | cons id rest ih => exact fun s => (s.applyRecord_confined id).trans (ih _)

/-- The application of one record keeps every buffer canonical. -/
theorem State.Canonical.applyRecord {s : State} (h : s.Canonical) (id : Nat) : (s.applyRecord id).Canonical := by
  unfold State.applyRecord
  split
  · exact h
  · dsimp only
    split
    · exact (h.leaveParent id _).ownerTest id _
    · split
      · exact (h.setCircuit id _).queueReport _ _
      · exact (h.setCircuit id _).queueReport _ _

/-- The application of a list of records keeps every buffer canonical. -/
theorem State.Canonical.applyRecords (ids : List Nat) : ∀ {s : State}, s.Canonical →
    (ids.foldl (fun s id => s.applyRecord id) s).Canonical := by
  induction ids with
  | nil => exact fun h => h
  | cons id rest ih => exact fun h => ih (h.applyRecord id)

/-- What a cutover leaves, besides the records (R39, R44). -/
theorem State.cutOver_leaves (s : State) (hsettle : s.cutover.settle = 0) :
    ReportsAlone s s.cutOver ∧ SameOutsideRecords s s.cutOver ∧
      s.cutOver.cutover = { changeList := [], armed := false, settle := 0 } ∧
      s.cutOver.maps = { s.maps with live := otherBank s.maps.live, state := .copying } ∧
      s.cutOver.events.isSet .cutover = true ∧ s.cutOver.events.isSet .deferred = s.events.isSet .deferred := by
  have hc := State.applyRecords_confined s.cutover.changeList s
  unfold State.cutOver
  dsimp only
  refine ⟨hc.reports, hc.outside, ?_, ?_, ?_, ?_⟩
  · have h := hc.settle.trans hsettle
    show CutoverController.mk _ _ _ = _
    rw [h]
  · show MapStore.mk _ _ _ _ = _
    rw [hc.maps]
  · rw [EventUnit.isSet_raise]
    simp
  · rw [EventUnit.isSet_raise]
    have h := hc.latches .deferred (by decide)
    simp only [show decide (Event.deferred = Event.cutover) = false from rfl, Bool.or_false]
    exact h

/-- What a cutover makes of a circuit that is not RELEASING, as the statements name it. -/
theorem Circuit.cutOver_applied (cycle : Word) (c : Circuit) (h : c.state ≠ .releasing) :
    c.cutOver cycle = applied cycle c := by
  obtain ⟨state, _, _, _, _, _, _, _, _, _, _, _, _, change, _, _⟩ := c
  cases state with
  | releasing => exact absurd rfl h
  | pending => rfl
  | active => cases change with
    | none => rfl
    | some x => cases x <;> rfl
  | suspended => cases change with
    | none => rfl
    | some x => cases x <;> rfl
  | closed => cases change with
    | none => rfl
    | some x => cases x <;> rfl

/-- What a cutover makes of a RELEASING circuit before its owner test. -/
theorem Circuit.cutOver_releasing (cycle : Word) (c : Circuit) (h : c.state = .releasing) :
    { (c.cutOver cycle).leaveTree with state := .closed } = closedAt cycle c ∧
      (c.cutOver cycle).leaveTree.owner = c.owner := by
  obtain ⟨state, _, kind, _, _, _, _, _, _, _, _, _, _, change, _, _⟩ := c
  cases h
  cases kind <;> exact ⟨rfl, rfl⟩

/-- The application of one record at a cutover (R11, R17, R40 to R42). -/
theorem State.applyRecord_applied (s : State) (id : Nat) (h : s.Canonical) : Applied id s (s.applyRecord id) := by
  have hcon := s.applyRecord_confined id
  unfold Applied
  cases hc : s.circuit id with
  | none =>
    unfold State.applyRecord
    rw [hc]
  | some c =>
    refine ⟨hcon.maps, hcon.outside, ?_, ?_⟩
    · intro hstate
      have happly : s.applyRecord id = if offersDrop c then
          ((s.setCircuit id (applied s.timing.cycle c)).queueReport c.owner id).offer .drop id
          else (s.setCircuit id (applied s.timing.cycle c)).queueReport c.owner id := by
        unfold State.applyRecord
        rw [hc]
        simp only [hstate, if_false, Circuit.cutOver_applied _ c hstate]
        unfold offersDrop
        simp only [Bool.and_eq_true, beq_iff_eq]
      have hrep : Reported c.owner id s ((s.setCircuit id (applied s.timing.cycle c)).queueReport c.owner id) :=
        (State.queueReport_reported _ _ _).congr rfl rfl rfl rfl
      have hrec : ∀ j, ((s.setCircuit id (applied s.timing.cycle c)).queueReport c.owner id).record j =
          if j = id then { generation := (s.record id).generation, circuit := some (applied s.timing.cycle c) }
          else s.record j := by
        intro j
        rw [State.queueReport_record, State.setCircuit_record _ _ _ h.1]
      have hcut : ((s.setCircuit id (applied s.timing.cycle c)).queueReport c.owner id).cutover = s.cutover :=
        State.queueReport_cutover _ _ _
      have heng : ((s.setCircuit id (applied s.timing.cycle c)).queueReport c.owner id).engine = s.engine :=
        State.queueReport_engine _ _ _
      rw [happly]
      by_cases ho : offersDrop c = true
      · simp only [ho, if_true]
        refine ⟨(hrec id).trans (if_pos rfl), fun j hj => (hrec j).trans (if_neg hj), hrep, hcut, ?_⟩
        show ({ (State.queueReport c.owner id _).engine with followUps := _ } : AdmissionEngine) = _
        rw [heng]
      · simp only [ho, if_false, Bool.false_eq_true]
        exact ⟨(hrec id).trans (if_pos rfl), fun j hj => (hrec j).trans (if_neg hj), hrep, hcut, heng⟩
    · intro hstate
      obtain ⟨hclosed, howner⟩ := Circuit.cutOver_releasing s.timing.cycle c hstate
      have happly : s.applyRecord id =
          (s.leaveParent id c).ownerTest id (c.cutOver s.timing.cycle).leaveTree := by
        unfold State.applyRecord
        rw [hc]
        simp only [hstate, if_true]
      have hleave := s.leaveParent_eq id c
      have hrecord : ∀ j, (s.leaveParent id c).record j = withoutBranch id c s j := s.leaveParent_record id c h.1
      have hwf := s.leaveParent_wf id c h.1
      have hgen : ((s.leaveParent id c).record id).generation = (s.record id).generation := by
        rw [hrecord, withoutBranch_generation]
      rw [happly]
      generalize s.leaveParent id c = v at *
      have hlisten : OwnerListens v c.owner ↔ OwnerListens s c.owner := by
        rw [hleave]
        exact Iff.rfl
      have hlinks : v.links = s.links := by rw [hleave]; rfl
      have hsup : v.supQueue = s.supQueue := by rw [hleave]; rfl
      have hev : v.events = s.events := by rw [hleave]; rfl
      have hctl : v.control = s.control := by rw [hleave]; rfl
      have hcut : v.cutover = s.cutover := by rw [hleave]; rfl
      have heng : v.engine = s.engine := by rw [hleave]; rfl
      by_cases hl : OwnerListens s c.owner
      · have htest := v.ownerTest_heard id (c.cutOver s.timing.cycle).leaveTree (by rw [howner]; exact hlisten.mpr hl)
        rw [hclosed, howner] at htest
        have hrec : ∀ j, ((v.setCircuit id (closedAt s.timing.cycle c)).queueReport c.owner id).record j =
            if j = id then { generation := (s.record id).generation, circuit := some (closedAt s.timing.cycle c) }
            else withoutBranch id c s j := by
          intro j
          rw [State.queueReport_record, State.setCircuit_record _ _ _ hwf, hgen, hrecord]
        rw [htest]
        refine ⟨fun j hj => (hrec j).trans (if_neg hj), fun _ => ⟨(hrec id).trans (if_pos rfl),
          (State.queueReport_reported _ _ _).congr hlinks hsup hev hctl, ?_, ?_⟩, fun hn => absurd hl hn⟩
        · rw [State.queueReport_cutover]
          exact hcut
        · rw [State.queueReport_engine]
          exact heng
      · have htest := v.ownerTest_unheard id (c.cutOver s.timing.cycle).leaveTree (by
          rw [howner]
          exact fun hv => hl (hlisten.mp hv))
        obtain ⟨f1, f2, f3, f4, f5, f6, f7, f8⟩ := v.freeRecord_frees id hwf
        rw [htest]
        have hbool : ∀ j, (!decide (j = id)) = decide (j ≠ id) := fun j => by simp
        refine ⟨fun j hj => ?_, fun hh => absurd hh hl, fun _ => ⟨?_, fun n => ?_, ?_, f7.trans hev, ?_, ?_⟩⟩
        · rw [f1 j, ← hrecord]
          simp [hj]
        · rw [f1 id, hgen]
          simp
        · have h2 := f2 n
          have hn : v.link n = s.link n := by unfold State.link; rw [hlinks]
          rw [hn] at h2
          rw [h2]
          simp [decide_not]
        · rw [f3, hsup]
          simp [decide_not]
        · rw [f4, heng]
          simp [decide_not]
        · rw [f5, hcut]
          simp [decide_not]

/-- The application of a list of records (R39). -/
theorem State.applyRecords_applied (ids : List Nat) : ∀ s : State, s.Canonical →
    AppliedAll ids s (ids.foldl (fun s id => s.applyRecord id) s) := by
  induction ids with
  | nil => exact fun s _ => rfl
  | cons id rest ih => exact fun s h => ⟨_, s.applyRecord_applied id h, ih _ (h.applyRecord id)⟩

/-- A cutover (R39, R44). -/
theorem State.cutOver_cuts (s : State) (h : s.Canonical) : CutOver s s.cutOver := by
  refine ⟨_, s.applyRecords_applied s.cutover.changeList h, ?_⟩
  rfl

/-- A cutover keeps every buffer canonical. -/
theorem State.Canonical.cutOver {s : State} (h : s.Canonical) : s.cutOver.Canonical := by
  have ht := h.applyRecords s.cutover.changeList
  exact ht

/-! ### The decision at a boundary -/

/-- The conditions of a cutover, as the decision tests them. -/
theorem State.mayCutOver_iff (s : State) (h : s.cutover.settle = 0) : s.mayCutOver = true ↔ CutsOver s := by
  unfold State.mayCutOver CutsOver
  simp only [Bool.and_eq_true, Bool.or_eq_true, beq_iff_eq, Bool.not_eq_true', List.isEmpty_eq_false_iff, h,
    true_and, and_assoc]

/-- A boundary without a cutover (R37, R38). -/
theorem State.decideBoundary_deferred (s : State) (stepped : Bool) (h : stepped = true ∨ ¬CutsOver s) :
    s.decideBoundary stepped =
      (s.withCutover { s.cutover with settle := if stepped then 2 else s.cutover.settle - 1 }).withEvents
        (deferredEvents s) := by
  have hdefer : ∀ u : State, u.defer = u.withEvents (deferredEvents u) := by
    intro u
    unfold State.defer deferredEvents
    split <;> rfl
  unfold State.decideBoundary
  cases stepped with
  | true =>
    rw [if_pos rfl, hdefer]
    rfl
  | false =>
    rw [if_neg (by simp)]
    by_cases hs : 0 < s.cutover.settle
    · rw [if_pos hs, hdefer]
      rfl
    · have h0 : s.cutover.settle = 0 := by omega
      rw [if_neg hs]
      have hn : ¬s.mayCutOver = true := by
        rw [s.mayCutOver_iff h0]
        rcases h with h | h
        · exact absurd h (by simp)
        · exact h
      rw [if_neg hn, hdefer]
      apply State.eq_of_fields
      case h5 =>
        have hsame : s.cutover.settle - 1 = s.cutover.settle := by omega
        show s.cutover = CutoverController.mk _ _ (s.cutover.settle - 1)
        rw [hsame]
      all_goals rfl

/-- A boundary with a cutover (R36). -/
theorem State.decideBoundary_cutOver (s : State) (h : CutsOver s) : s.decideBoundary false = s.cutOver := by
  unfold State.decideBoundary
  rw [if_neg (by simp), if_neg (by rw [h.1]; simp), if_pos ((s.mayCutOver_iff h.1).mpr h)]

/-- The decision at a boundary (R36 to R38). -/
theorem State.decideBoundary_decided (s : State) (stepped : Bool) (h : s.Canonical) :
    Decided stepped s (s.decideBoundary stepped) := by
  refine ⟨s.decideBoundary_deferred stepped, fun hf hc => ?_⟩
  subst hf
  rw [s.decideBoundary_cutOver hc]
  exact s.cutOver_cuts h

/-- The decision keeps every buffer canonical. -/
theorem State.Canonical.decideBoundary {s : State} (h : s.Canonical) (stepped : Bool) :
    (s.decideBoundary stepped).Canonical := by
  by_cases hc : stepped = true ∨ ¬CutsOver s
  · rw [s.decideBoundary_deferred stepped hc]
    exact h
  · have hco : CutsOver s := Classical.byContradiction fun hn => hc (Or.inr hn)
    have hst : stepped = false := by
      cases stepped
      · rfl
      · exact absurd (Or.inl rfl) hc
    subst hst
    rw [s.decideBoundary_cutOver hco]
    exact h.cutOver

/-- The decision touches nothing outside the records. -/
theorem State.decideBoundary_same (s : State) (stepped : Bool) : SameOutsideRecords s (s.decideBoundary stepped) := by
  by_cases hc : stepped = true ∨ ¬CutsOver s
  · rw [s.decideBoundary_deferred stepped hc]
    exact ⟨rfl, rfl, rfl, rfl, rfl, rfl, rfl⟩
  · have hco : CutsOver s := Classical.byContradiction fun hn => hc (Or.inr hn)
    have hst : stepped = false := by
      cases stepped
      · rfl
      · exact absurd (Or.inl rfl) hc
    subst hst
    rw [s.decideBoundary_cutOver hco]
    exact (s.cutOver_leaves hco.1).2.1

/-! ### Silence at a boundary -/

/-- The silence limit is reached, as the operation tests it. -/
theorem State.silenceDue_iff (s : State) (n : Link) : s.silenceDue n = true ↔ LimitReached s n := by
  unfold State.silenceDue LimitReached
  simp

/-- A Link Controller takes a boundary (R130, R142). -/
theorem State.countSilence_counts (s : State) (n : Link) (h : s.Canonical) : CountsSilence n s (s.countSilence n) := by
  refine ⟨fun hl => ?_, fun hl => ?_⟩
  · unfold State.countSilence
    rw [if_pos ((s.silenceDue_iff n).mpr hl)]
    exact s.leaveUp_leaves n .down .silent h
  · exact s.countSilence_undue n (Bool.eq_false_iff.mpr fun hd => hl ((s.silenceDue_iff n).mp hd))

/-- A departure from UP touches nothing outside the records. -/
theorem LeavesUp.same {n : Link} {target : LinkState} {reason : DownReason} {s t : State}
    (h : LeavesUp n target reason s t) : SameOutsideRecords s t := by
  obtain ⟨u, ⟨_, _, _, _, _, _, _, hu⟩, rfl⟩ := h
  exact SameOutsideRecords.trans hu ⟨rfl, rfl, rfl, rfl, rfl, rfl, rfl⟩

/-- A Link Controller that takes a boundary touches nothing outside the records. -/
theorem CountsSilence.same {n : Link} {s t : State} (h : CountsSilence n s t) : SameOutsideRecords s t := by
  by_cases hl : LimitReached s n
  · exact (h.1 hl).same
  · rw [h.2 hl]
    exact ⟨rfl, rfl, rfl, rfl, rfl, rfl, rfl⟩

/-- Link Controllers that take a boundary touch nothing outside the records. -/
theorem LinksCount.same : ∀ {ls : List Link} {s t : State}, LinksCount ls s t → SameOutsideRecords s t
  | [], _, _, h => by
    rw [show _ = _ from h]
    exact ⟨rfl, rfl, rfl, rfl, rfl, rfl, rfl⟩
  | _ :: _, _, _, ⟨_, hn, hr⟩ => hn.same.trans hr.same

/-- A Link Controller that takes a boundary keeps every buffer canonical. -/
theorem State.Canonical.countSilence {s : State} (h : s.Canonical) (n : Link) : (s.countSilence n).Canonical := by
  unfold State.countSilence
  split
  · exact h.leaveUp _ _ _
  · split
    · exact h
    · exact h

/-- Link Controllers that take a boundary, one after another (R130). -/
theorem State.countSilence_count (ls : List Link) : ∀ s : State, s.Canonical →
    LinksCount ls s (ls.foldl (fun s n => s.countSilence n) s) ∧
      (ls.foldl (fun s n => s.countSilence n) s).Canonical := by
  induction ls with
  | nil => exact fun s h => ⟨rfl, h⟩
  | cons n rest ih =>
    intro s h
    obtain ⟨hr, hc⟩ := ih (s.countSilence n) (h.countSilence n)
    exact ⟨⟨_, s.countSilence_counts n h, hr⟩, hc⟩

/-! ### A boundary at every controller -/

/-- The state with the links replaced, as the decision sees it. -/
theorem State.decideBoundary_cutsOver_links (s : State) (ls : Links) : CutsOver (s.withLinks ls) ↔ CutsOver s :=
  Iff.rfl

/-- A boundary at which no silence limit is reached, taken by the Cutover Controller and the four Link Controllers
(R36 to R38, R130). -/
theorem State.takeBoundary_undue (s : State) (stepped : Bool) (o : BoundaryOrder)
    (hd : ∀ n, s.silenceDue n = false) :
    SameOutsideRecords s (s.takeBoundary stepped o) ∧
    (stepped = true ∨ ¬CutsOver s → ∃ links : Links, (∀ n, links.get n = silenceCounted (s.link n)) ∧
      s.takeBoundary stepped o =
        ((s.withLinks links).withCutover
          { s.cutover with settle := if stepped then 2 else s.cutover.settle - 1 }).withEvents (deferredEvents s)) ∧
    (stepped = false → CutsOver s →
      (s.takeBoundary stepped o).cutover = { changeList := [], armed := false, settle := 0 } ∧
      (s.takeBoundary stepped o).maps = { s.maps with live := otherBank s.maps.live, state := .copying } ∧
      (s.takeBoundary stepped o).events.isSet .cutover = true ∧
      (s.takeBoundary stepped o).events.isSet .deferred = s.events.isSet .deferred) := by
  obtain ⟨hb, ha, hmem⟩ := linksAround o
  obtain ⟨lb, hfb, hgb⟩ := State.countSilence_list (linksBefore o) s hb fun n _ => hd n
  -- After the decision, the links not yet counted stand as in s.
  have hlast : ∀ u : State, (∀ n, (u.link n).state = (s.link n).state ∧ (u.link n).silence = (lb.get n).silence ∧
      (u.link n).silenceLimit = (s.link n).silenceLimit) → ∃ links : Links,
      (linksAfter o).foldl (fun s n => s.countSilence n) u = u.withLinks links ∧
      ∀ n, links.get n = if n ∈ linksAfter o then silenceCounted (u.link n) else u.link n := by
    intro u hu
    refine State.countSilence_list (linksAfter o) u ha fun n hn => ?_
    have h0 := hd n
    unfold State.silenceDue at h0 ⊢
    rw [(hu n).1, (hu n).2.1, (hu n).2.2, hgb n, if_neg ((hmem n).mp hn)]
    exact h0
  have hcount : ∀ c : LinkController, (silenceCounted c).state = c.state ∧
      (silenceCounted c).silenceLimit = c.silenceLimit := by
    intro c
    unfold silenceCounted
    split <;> exact ⟨rfl, rfl⟩
  have hlb : ∀ n, (lb.get n).state = (s.link n).state ∧ (lb.get n).silenceLimit = (s.link n).silenceLimit := by
    intro n
    rw [hgb n]
    split
    · exact hcount _
    · exact ⟨rfl, rfl⟩
  have hunfold : s.takeBoundary stepped o =
      (linksAfter o).foldl (fun s n => s.countSilence n) ((s.withLinks lb).decideBoundary stepped) := by
    unfold State.takeBoundary
    dsimp only
    rw [hfb]
  by_cases hcase : stepped = true ∨ ¬CutsOver s
  · have hdec := State.decideBoundary_deferred (s.withLinks lb) stepped hcase
    obtain ⟨links, hfold, hget⟩ := hlast ((s.withLinks lb).decideBoundary stepped) (by
      intro n
      rw [hdec]
      exact ⟨(hlb n).1, rfl, (hlb n).2⟩)
    rw [hunfold, hfold, hdec]
    refine ⟨⟨rfl, rfl, rfl, rfl, rfl, rfl, rfl⟩, fun _ => ⟨links, ?_, rfl⟩, ?_⟩
    · intro n
      rw [hget n, hdec]
      show (if n ∈ linksAfter o then silenceCounted (lb.get n) else lb.get n) = _
      rw [hgb n]
      by_cases hn : n ∈ linksBefore o
      · rw [if_neg fun h => (hmem n).mp h hn, if_pos hn]
      · rw [if_pos ((hmem n).mpr hn), if_neg hn]
    · intro hf hco
      rcases hcase with h | h
      · exact absurd (hf ▸ h) (by simp)
      · exact absurd hco h
  · have hst : stepped = false := by
      cases stepped
      · rfl
      · exact absurd (Or.inl rfl) hcase
    have hco : CutsOver s := Classical.byContradiction fun h => hcase (Or.inr h)
    subst hst
    have hdec := State.decideBoundary_cutOver (s.withLinks lb) hco
    obtain ⟨c1, c2, c3, c4, c5, c6⟩ := State.cutOver_leaves (s.withLinks lb) hco.1
    obtain ⟨links, hfold, _⟩ := hlast ((s.withLinks lb).decideBoundary false) (by
      intro n
      rw [hdec, c1 n]
      exact ⟨(hlb n).1, rfl, (hlb n).2⟩)
    rw [hunfold, hfold, hdec]
    refine ⟨c2, fun h => absurd h hcase, fun _ _ => ⟨c3, c4, c5, c6⟩⟩

/-- A boundary, taken by the Cutover Controller and the four Link Controllers (R36 to R44, R130). -/
theorem State.takeBoundary_taken (s : State) (stepped : Bool) (o : BoundaryOrder) (h : s.Canonical) :
    BoundaryTaken stepped o s (s.takeBoundary stepped o) ∧ SameOutsideRecords s (s.takeBoundary stepped o) := by
  obtain ⟨hb, hbc⟩ := State.countSilence_count (linksBefore o) s h
  have hd := State.decideBoundary_decided _ stepped hbc
  have hds := State.decideBoundary_same ((linksBefore o).foldl (fun s n => s.countSilence n) s) stepped
  obtain ⟨ha, _⟩ := State.countSilence_count (linksAfter o) _ (hbc.decideBoundary stepped)
  exact ⟨⟨_, _, hb, hd, ha⟩, (hb.same.trans hds).trans ha.same⟩

/-! ### Frame starts -/

/-- The written half of the frame store at a frame start, and the half that is read after it (R164, R168). -/
theorem SwitchCore.endFrame_spec (c : SwitchCore) (received : TrunkBytes) (reached : Nat) :
    (c.endFrame received reached).writeHalf = otherHalf c.writeHalf ∧
    (c.endFrame received reached).half (otherHalf c.writeHalf) = c.half (otherHalf c.writeHalf) ∧
    (c.endFrame received reached).readHalf = receiveFrame (c.half c.writeHalf) received reached ∧
    (c.endFrame received reached).selection = c.selection := by
  obtain ⟨h0, h1, w, sel⟩ := c
  cases w <;> exact ⟨rfl, rfl, rfl, rfl⟩

/-- The halves of a canonical state are canonical. -/
theorem State.half_wf {s : State} (h : s.Canonical) (k : Half) : Memory.wf (s.switch.half k) = true := by
  cases k
  · exact h.2.2.2.1
  · exact h.2.2.2.2.1

/-- A frame start keeps the canonical form of both halves. -/
theorem State.endFrame_half_wf {s : State} (h : s.Canonical) (received : TrunkBytes) (reached : Nat) (k : Half) :
    Memory.wf ((s.switch.endFrame received reached).half k) = true := by
  have h0 := receiveFrame_wf s.switch.half0 received reached h.2.2.2.1
  have h1 := receiveFrame_wf s.switch.half1 received reached h.2.2.2.2.1
  have k0 := h.2.2.2.1
  have k1 := h.2.2.2.2.1
  revert h0 h1 k0 k1
  generalize s.switch = c
  obtain ⟨a, b, w, sel⟩ := c
  intro h0 h1 k0 k1
  cases w <;> cases k <;> assumption

/-- The Switch Core after a frame start (R164, R165, R168). -/
theorem State.frameSwitched (s t : State) (received : TrunkBytes) (reached : Nat) (live : Bank) (h : s.Canonical)
    (ht : t.switch = { s.switch.endFrame received reached with selection := { entries := live, idle := s.idle } }) :
    FrameSwitched received reached live s t := by
  obtain ⟨e1, e2, e3, _⟩ := s.switch.endFrame_spec received reached
  unfold FrameSwitched
  rw [ht]
  refine ⟨e1, e2, fun k => ?_, rfl⟩
  have hread : ({ s.switch.endFrame received reached with
      selection := { entries := live, idle := s.idle } } : SwitchCore).readHalf =
      (s.switch.endFrame received reached).readHalf := rfl
  rw [hread, e3]
  by_cases hr : slotReached reached k = true
  · rw [if_pos hr, receiveFrame_reached _ _ (State.half_wf h _) hr]
  · rw [if_neg hr, receiveFrame_unreached _ _ (Bool.eq_false_iff.mpr hr)]

/-- A frame start before its effects are delivered: the reception of the frame and the counts of the Timing Unit. -/
theorem State.beginFrame_fields (s : State) (c : SwitchCore) (x : TimingUnit) {u : State}
    (hu : (s.withSwitch c).withTiming x = u) :
    u.pending = s.pending ∧ u.resetAsserted = s.resetAsserted ∧ u.table = s.table ∧ u.maps = s.maps ∧
      u.cutover = s.cutover ∧ u.engine = s.engine ∧ u.links = s.links ∧ u.control = s.control ∧ u.idle = s.idle ∧
      u.mailbox = s.mailbox ∧ u.supQueue = s.supQueue ∧ u.switch = c ∧ u.timing = x ∧ u.events = s.events := by
  subst hu
  exact ⟨rfl, rfl, rfl, rfl, rfl, rfl, rfl, rfl, rfl, rfl, rfl, rfl, rfl, rfl⟩

/-- A lease tick at a frame start (R113, R114, R175). -/
theorem State.startFrame_leaseTick (s : State) (now : Nat) (f : FrameInput) (h : s.Canonical) :
    FrameStarts .leaseTick now f s (s.startFrame .leaseTick now f.received f.order) := by
  have hstart : s.startFrame .leaseTick now f.received f.order =
      ((s.withSwitch (s.switch.endFrame f.received (s.timing.slotsReached .leaseTick now))).withTiming
        (s.timing.startFrame .leaseTick now)).takeLeaseTick.fixSelection := rfl
  generalize hu : (s.withSwitch (s.switch.endFrame f.received (s.timing.slotsReached .leaseTick now))).withTiming
    (s.timing.startFrame .leaseTick now) = u at hstart
  obtain ⟨u1, u2, u3, u4, u5, u6, u7, u8, u9, u10, u11, u12, u13, u14⟩ := State.beginFrame_fields s _ _ hu
  obtain ⟨t1, t2, t3, t4, t5, t6, t7⟩ := u.takeLeaseTick_ticked
  obtain ⟨o1, o2, o3, o4, o5, o6, o7⟩ := u.takeLeaseTick_same
  have hrecord : ∀ id, u.record id = s.record id := fun id => by unfold State.record; rw [u3]
  have hout : runningOut u = runningOut s := State.idsWhere_congr _ u3
  have hlive : u.takeLeaseTick.maps.liveBank = s.maps.liveBank := by rw [t4, u4]
  rw [hstart]
  generalize u.takeLeaseTick = v at *
  refine ⟨s.frameSwitched _ _ _ _ h ?_, ⟨?_, ?_, ?_, ?_, ?_, ?_, ?_⟩, ?_, ?_, ?_, ?_, ?_, ?_⟩
  · show SwitchCore.mk _ _ _ (Selection.mk v.maps.liveBank v.idle) = _
    rw [o6, o4, u12, u9, hlive]
    rfl
  · intro id
    have ht := t1 id
    unfold State.circuit at ht ⊢
    rw [hrecord] at ht
    exact ht
  · rw [hout, u6] at t2
    exact t2
  · rw [hout, u14] at t3
    exact t3
  · exact t4.trans u4
  · exact t5.trans u5
  · exact t6.trans u7
  · exact t7.trans u11
  · exact o7.trans u13
  · exact o1.trans u1
  · exact o2.trans u2
  · exact o3.trans u8
  · exact o4.trans u9
  · exact o5.trans u10

/-- A boundary at a frame start (R36 to R44, R130, R168, R175). -/
theorem State.startFrame_boundary (s : State) (stepped : Bool) (now : Nat) (f : FrameInput) (h : s.Canonical) :
    FrameStarts (.boundary stepped) now f s (s.startFrame (.boundary stepped) now f.received f.order) := by
  have hreached : s.timing.slotsReached (.boundary stepped) now = if stepped then slotsBefore s now else 64 := by
    cases stepped <;> rfl
  have hstart : s.startFrame (.boundary stepped) now f.received f.order =
      (((s.withSwitch (s.switch.endFrame f.received (s.timing.slotsReached (.boundary stepped) now))).withTiming
        (s.timing.startFrame (.boundary stepped) now)).takeBoundary stepped f.order).fixSelection := rfl
  have hcanon : ((s.withSwitch (s.switch.endFrame f.received (s.timing.slotsReached (.boundary stepped) now))
      ).withTiming (s.timing.startFrame (.boundary stepped) now)).Canonical := by
    have hw : ∀ k, Memory.wf ((s.switch.endFrame f.received
        (s.timing.slotsReached (.boundary stepped) now)).half k) = true := by
      intro k
      exact State.endFrame_half_wf h _ _ k
    refine ⟨h.1, h.2.1, h.2.2.1, hw .half0, hw .half1, ?_, h.2.2.2.2.2.2.1, h.2.2.2.2.2.2.2⟩
    show Sparse.wf Entry.idle (s.switch.endFrame _ _).selection.entries = true
    rw [(s.switch.endFrame_spec _ _).2.2.2]
    exact h.2.2.2.2.2.1
  rw [hreached] at hstart hcanon
  generalize hr : (if stepped then slotsBefore s now else 64) = reached at hstart hcanon
  generalize hu : (s.withSwitch (s.switch.endFrame f.received reached)).withTiming
    (s.timing.startFrame (.boundary stepped) now) = u at hstart hcanon
  obtain ⟨u1, u2, u3, u4, u5, u6, u7, u8, u9, u10, u11, u12, u13, u14⟩ := State.beginFrame_fields s _ _ hu
  obtain ⟨htaken, o1, o2, o3, o4, o5, o6, o7⟩ := u.takeBoundary_taken stepped f.order hcanon
  rw [hstart]
  generalize u.takeBoundary stepped f.order = v at *
  refine ⟨s.frameSwitched _ _ _ _ h ?_, s.switch.endFrame f.received reached, v, ?_, rfl⟩
  · show SwitchCore.mk _ _ _ (Selection.mk v.maps.liveBank v.idle) = _
    rw [o6, o4, u12, u9]
    subst hr
    rfl
  · rw [← hu] at htaken
    exact htaken

/-- A frame start of each kind (R164, R165, R175). -/
theorem State.startFrame_starts (s : State) (kind : FrameKind) (now : Nat) (f : FrameInput) (h : s.Canonical) :
    FrameStarts kind now f s (s.startFrame kind now f.received f.order) := by
  cases kind with
  | ordinary => exact ⟨s.frameSwitched _ _ _ _ h rfl, rfl⟩
  | leaseTick => exact s.startFrame_leaseTick now f h
  | boundary stepped => exact s.startFrame_boundary stepped now f h

end Sys2Proof.Machine
end

