-- ==== Sys2Proof/Laws/Operands.lean ====
section
/-! SUPPORT. The layouts of chapter 12: the bytes of a word and the sums of fields. -/

namespace Sys2Proof.Machine

/-- The upper byte of a word made of two bytes. -/
@[simp] theorem Word.hi_ofBytes (h l : Byte) : (Word.ofBytes h l).hi = h := by
  apply BitVec.eq_of_toNat_eq
  have h1 := h.isLt
  have h2 := l.isLt
  simp only [Word.ofBytes, Word.hi, BitVec.toNat_ofNat]
  omega

/-- The lower byte of a word made of two bytes. -/
@[simp] theorem Word.lo_ofBytes (h l : Byte) : (Word.ofBytes h l).lo = l := by
  apply BitVec.eq_of_toNat_eq
  have h1 := h.isLt
  have h2 := l.isLt
  simp only [Word.ofBytes, Word.lo, BitVec.toNat_ofNat]
  omega

/-- The upper byte of a word made of two numbers below 256. -/
theorem Word.hi_ofNat {a b : Nat} (ha : a < 256) (hb : b < 256) :
    (Word.hi (BitVec.ofNat 16 (a * 256 + b))).toNat = a := by
  simp only [Word.hi, BitVec.toNat_ofNat]
  omega

/-- The lower byte of a word made of two numbers below 256. -/
theorem Word.lo_ofNat (a : Nat) {b : Nat} (hb : b < 256) :
    (Word.lo (BitVec.ofNat 16 (a * 256 + b))).toNat = b := by
  simp only [Word.lo, BitVec.toNat_ofNat]
  omega

/-- A circuit reference word names its record. -/
theorem refWord_id {id : Nat} (generation : Byte) (h : id < 256) : (refWord id generation).hi.toNat = id := by
  rw [refWord, Word.hi_ofBytes, BitVec.toNat_ofNat]
  omega

/-- A circuit reference word carries its generation. -/
@[simp] theorem refWord_generation (id : Nat) (generation : Byte) : (refWord id generation).lo = generation := by
  rw [refWord, Word.lo_ofBytes]

/-- Two fields of a word are the word of the sum. -/
theorem Word.field_add (a b i j : Nat) :
    Word.field a i + Word.field b j = BitVec.ofNat 16 (a * 2 ^ i + b * 2 ^ j) := by
  rw [Word.field, Word.field, ← BitVec.ofNat_add]

/-- A word with one more field. -/
theorem Word.add_field (x b j : Nat) : BitVec.ofNat 16 x + Word.field b j = BitVec.ofNat 16 (x + b * 2 ^ j) := by
  rw [Word.field, ← BitVec.ofNat_add]

/-- What a CLAIM body that passes steps 1 and 2 holds (R54, R80). -/
theorem parseClaim_fields {who : Owner} {body : List Word} {f : ClaimFields} (h : parseClaim who body = some f) :
    f.srcTrunk ≤ 7 ∧ f.dstTrunk ≤ 7 ∧ 1 ≤ f.width ∧ f.width ≤ 16 ∧ f.dstPlacement ≠ .fixed := by
  unfold parseClaim at h
  simp only at h
  by_cases h1 : body.length < 2 ∨ bodyHi body 2 = 0 ∨ 16 < bodyHi body 2
  · rw [if_pos h1] at h
    cases h
  · rw [if_neg h1] at h
    split at h
    · rename_i owner src dst isOpen _ _ _ _
      generalize (if src = .fixed then fixedSlots body (bodyHi body 2) else []) = fixed at h
      by_cases h2 : 7 < bodyHi body 1 ∨ 7 < bodyLo body 1 ∨ dst = .fixed
      · rw [if_pos h2] at h
        cases h
      · rw [if_neg h2] at h
        split at h
        · cases h
        · cases h
          refine ⟨?_, ?_, ?_, ?_, fun hd => h2 (Or.inr (Or.inr hd))⟩ <;> dsimp only <;> omega
    · cases h

/-- What a BRANCH body that passes steps 1 and 2 holds (R54, R80). -/
theorem parseBranch_fields {who : Owner} {body : List Word} {f : BranchFields} (h : parseBranch who body = some f) :
    f.dstTrunk ≤ 7 ∧ f.dstPlacement ≠ .fixed := by
  unfold parseBranch at h
  split at h
  · rename_i dst _ hd
    split at h
    · cases h
    · cases h
      refine ⟨by dsimp only; omega, ?_⟩
      dsimp only
      intro he
      subst he
      unfold destinationPlacement at hd
      split at hd
      · cases hd
      · rename_i hne
        exact hne hd
  · cases h

/-- What a RESHAPE body that passes steps 1 and 2 holds (R54, R80). -/
theorem parseReshape_fields {body : List Word} {width : Nat} {placement : Placement}
    (h : parseReshape body = some (width, placement)) : 1 ≤ width ∧ width ≤ 16 ∧ placement ≠ .fixed := by
  unfold parseReshape at h
  split at h
  · cases h
  · cases hd : destinationPlacement (bodyLo body 2) with
    | none =>
      rw [hd] at h
      cases h
    | some p =>
      rw [hd] at h
      cases h
      refine ⟨by omega, by omega, ?_⟩
      intro he
      subst he
      unfold destinationPlacement at hd
      split at hd
      · cases hd
      · rename_i hne
        exact hne hd

end Sys2Proof.Machine
end

