-- ==== Sys2Proof/Laws/Spi.lean ====
section
/-! SUPPORT. What the bits of words, of an SPI transaction and of a message read back as. -/

namespace Sys2Proof.Machine

/-- A word shifted up by one bit with a new lowest bit. -/
theorem bitsWord_push (w : Word) (b : Bool) (i : Nat) (hi : i < 16) :
    (w <<< 1 ||| BitVec.ofNat 16 (bitNat b)).getLsbD i = if i = 0 then b else w.getLsbD (i - 1) := by
  rw [BitVec.getLsbD_or, BitVec.getLsbD_shiftLeft, BitVec.getLsbD_ofNat]
  by_cases h : i = 0
  · subst h
    cases b <;> rfl
  · have hb : (bitNat b).testBit i = false := by
      obtain ⟨j, rfl⟩ := Nat.exists_eq_succ_of_ne_zero h
      cases b
      · exact Nat.zero_testBit _
      · show Nat.testBit 1 (j + 1) = false
        rw [Nat.testBit_succ]
        exact Nat.zero_testBit _
    rw [hb, if_neg h]
    simp only [decide_eq_true hi, Bool.true_and, Bool.and_false, Bool.or_false]
    rw [decide_eq_false (by omega), Bool.not_false, Bool.true_and]

/-- Sixteen bits make the word that has them, most significant first. -/
theorem bitsWord_wordBits (w : Word) : bitsWord (wordBits w) = w := by
  have key : ∀ (k : Nat) (acc : Word), k ≤ 16 → (∀ i, i < k → acc.getLsbD i = w.getLsbD (16 - k + i)) →
      (((List.range 16).drop k).map fun i => w.getMsbD i).foldl
        (fun (w : Word) b => w <<< 1 ||| BitVec.ofNat 16 (bitNat b)) acc = w := by
    intro k
    induction hn : 16 - k generalizing k with
    | zero =>
      intro acc hk hacc
      have : k = 16 := by omega
      subst this
      show acc = w
      apply BitVec.eq_of_getLsbD_eq
      intro i hi
      have := hacc i hi
      rw [this]
      congr 1
      omega
    | succ m ih =>
      intro acc hk hacc
      have hlt : k < (List.range 16).length := by rw [List.length_range]; omega
      rw [List.drop_eq_getElem_cons hlt, List.map_cons, List.foldl_cons]
      refine ih (k + 1) (by omega) _ (by omega) ?_
      intro i hi
      rw [bitsWord_push _ _ _ (by omega), List.getElem_range]
      by_cases h : i = 0
      · subst h
        rw [if_pos rfl, BitVec.getMsbD]
        have : k < 16 := by omega
        rw [decide_eq_true this, Bool.true_and]
        congr 1
        omega
      · rw [if_neg h, hacc (i - 1) (by omega)]
        congr 1
        omega
  exact key 0 0 (by omega) (fun i hi => absurd hi (by omega))

/-- A word has 16 bits. -/
theorem wordBits_length (w : Word) : (wordBits w).length = 16 := rfl

/-- Bits that complete a word split off that word. -/
theorem splitBits_word : ∀ (bits rest acc : List Bool), bits ≠ [] → acc.length + bits.length = 16 →
    splitBits (bits ++ rest) acc = (bitsWord (acc ++ bits) :: (splitBits rest []).1, (splitBits rest []).2)
  | [], _, _, h, _ => absurd rfl h
  | b :: bits, rest, acc, _, hlen => by
    rw [List.cons_append, splitBits]
    simp only [List.length_cons] at hlen
    cases bits with
    | nil =>
      have : (acc ++ [b]).length = 16 := by simpa using hlen
      simp only [this, if_true, List.nil_append]
    | cons b' bits =>
      have hne : (acc ++ [b]).length ≠ 16 := by
        simp only [List.length_append, List.length_cons, List.length_nil] at hlen ⊢
        omega
      simp only [hne, if_false]
      rw [splitBits_word (b' :: bits) rest (acc ++ [b]) (by simp) (by
        simp only [List.length_append, List.length_cons, List.length_nil] at hlen ⊢
        omega)]
      rw [List.append_assoc]
      rfl

/-- Bits that do not complete a word stay a partial word. -/
theorem splitBits_partial : ∀ (bits acc : List Bool), acc.length + bits.length < 16 →
    splitBits bits acc = ([], acc ++ bits)
  | [], acc, _ => by rw [splitBits, List.append_nil]
  | b :: bits, acc, h => by
    simp only [List.length_cons] at h
    have hne : (acc ++ [b]).length ≠ 16 := by
      simp only [List.length_append, List.length_cons, List.length_nil]
      omega
    rw [splitBits]
    simp only [hne, if_false]
    rw [splitBits_partial bits (acc ++ [b]) (by
      simp only [List.length_append, List.length_cons, List.length_nil]
      omega), List.append_assoc]
    rfl

/-- The bits of words, with fewer than 16 bits after them, split into those words and a partial word (R121, R147). -/
theorem splitBits_words (words : List Word) (rest : List Bool) (h : rest.length < 16) :
    splitBits (words.flatMap wordBits ++ rest) [] = (words, rest) := by
  induction words with
  | nil => exact splitBits_partial rest [] (by simpa using h)
  | cons w words ih =>
    rw [List.flatMap_cons, List.append_assoc,
      splitBits_word (wordBits w) _ [] (by intro hw; cases hw) (by rw [wordBits_length]; rfl), ih,
      List.nil_append, bitsWord_wordBits]

/-- A bit of words sent one after another (R121). -/
theorem wordBits_flatMap_getElem? : ∀ (words : List Word) (word bit : Nat), bit < 16 →
    (words.flatMap wordBits)[16 * word + bit]? = words[word]?.map fun w => w.getMsbD bit
  | [], _, _, _ => by simp
  | w :: words, 0, bit, h => by
    rw [List.flatMap_cons, Nat.mul_zero, Nat.zero_add, List.getElem?_append_left (by rw [wordBits_length]; exact h),
      wordBits, List.getElem?_map, List.getElem?_range h]
    rfl
  | w :: words, word + 1, bit, h => by
    rw [List.flatMap_cons, List.getElem?_append_right (by rw [wordBits_length]; omega), wordBits_length,
      show 16 * (word + 1) + bit - 16 = 16 * word + bit by omega, wordBits_flatMap_getElem? words word bit h,
      List.getElem?_cons_succ]

/-- LnODT carries nothing while no message is being sent. -/
theorem State.lnodt_idle {s : State} {n : Link} (h : (s.link n).line = none) (sent : Nat) : s.lnodt n sent = none := by
  unfold State.lnodt
  rw [h]
  rfl

/-- LnODT carries the bits of the words of the message being sent, each most significant first (R121). -/
theorem State.lnodt_sending {s : State} {n : Link} {m : Sending} (h : (s.link n).line = some m) (word bit : Nat)
    (hbit : bit < 16) : s.lnodt n (16 * word + bit) = m.words[word]?.map fun w => w.getMsbD bit := by
  unfold State.lnodt
  rw [h]
  exact wordBits_flatMap_getElem? m.words word bit hbit

/-- The bits of a message sent are read back as its words, with no partial word (R121). -/
theorem messageOfBits_sent (m : Sending) :
    messageOfBits m.bits = { words := m.words, partialBits := [], spansDiscard := false } := by
  have h := splitBits_words m.words [] (by decide)
  rw [List.append_nil] at h
  unfold messageOfBits Sending.bits
  rw [h]

/-- Seven bits make the address that has them, most significant first. -/
theorem bitsNat_address : ∀ address : BitVec 7,
    BitVec.ofNat 7 (bitsNat ((List.range 7).map fun i => address.getMsbD i)) = address := by
  decide +kernel

/-- The first 8 bits of a transaction are its command byte (R147, 12.7). -/
theorem spiCommand_bits (isRead : Bool) (address : BitVec 7) (rest : List Bool) :
    spiCommand ((isRead :: (List.range 7).map fun i => address.getMsbD i) ++ rest) =
      some { isRead := isRead, address := address } := by
  unfold spiCommand
  rw [if_neg (by simp)]
  have h : (((isRead :: (List.range 7).map fun i => address.getMsbD i) ++ rest).take 8).drop 1 =
      (List.range 7).map fun i => address.getMsbD i := rfl
  rw [h, bitsNat_address]
  rfl

/-- The writes of a burst, by position (R147). -/
theorem spiBurst_getElem? : ∀ (words : List Word) (address : BitVec 7) (i : Nat),
    (spiBurst address words)[i]? = words[i]?.map fun w => Instr.registerWrite (address + BitVec.ofNat 7 i) w
  | [], _, i => by simp [spiBurst]
  | w :: words, address, 0 => by simp [spiBurst]
  | w :: words, address, i + 1 => by
    rw [spiBurst, List.getElem?_cons_succ, List.getElem?_cons_succ, spiBurst_getElem? words (address + 1) i]
    congr 1
    funext v
    rw [BitVec.add_assoc, Nat.add_comm i 1, BitVec.ofNat_add]
    rfl

/-- A burst has one write for each word. -/
theorem spiBurst_length (words : List Word) : ∀ address, (spiBurst address words).length = words.length := by
  induction words with
  | nil => exact fun _ => rfl
  | cons w words ih => exact fun address => congrArg (· + 1) (ih (address + 1))

end Sys2Proof.Machine
end

