-- ==== Sys2Proof/Tests/Slice0.lean ====
section
/-! SUPPORT. The model's own tests: the checks on operands, a few events with values worked out by hand from the spec,
and, for every statement with hypotheses, states and operands that meet them. -/

namespace Sys2Proof.Machine.Test

-- one theorem at a time: each of them waits for the kernel, and a thread each would fill the memory limit
set_option Elab.async false

/-! ### Operands -/

def good : RxMessage := { words := [0x0100, 0x0000], partialBits := [], spansDiscard := false }
def order : BoundaryOrder := { before := [.l1], after := [.l0, .l2, .l3] }
def frame : FrameInput := { received := [(0, 0x12), (511, 0x34)], order := order }

theorem test_wf_accepts : (Instr.mailboxBodyWrite 1 0).wf = true ∧ (Instr.mailboxBodyWrite 20 0).wf = true ∧
    (Instr.hello .l0 good).wf = true ∧ (Instr.boundary frame).wf = true ∧
    (Instr.leaseRunOut 255 [(0, 0x12)]).wf = true := by decide +kernel

theorem test_wf_refuses_body_positions : (Instr.mailboxBodyWrite 0 0).wf = false ∧
    (Instr.mailboxBodyWrite 21 0).wf = false := by decide +kernel

theorem test_wf_refuses_a_whole_partial_word :
    (Instr.requestReceived .l2 { good with partialBits := List.replicate 16 true }).wf = false := by decide +kernel

theorem test_wf_refuses_a_slot_that_no_trunk_has : (Instr.frameStart [(512, 0)]).wf = false := by decide +kernel

theorem test_wf_refuses_a_slot_received_twice : (Instr.leaseTick [(7, 1), (7, 2)]).wf = false := by decide +kernel

theorem test_wf_refuses_an_order_without_a_link :
    (Instr.boundary { frame with order := { before := [.l1], after := [.l0, .l2] } }).wf = false := by decide +kernel

theorem test_wf_refuses_an_order_with_a_link_twice :
    (Instr.silenceLimit .l0 { frame with order := { before := [.l1], after := [.l0, .l1, .l2, .l3] } }).wf = false := by
  decide +kernel

theorem test_wf_refuses_an_id_beyond_the_table : (Instr.leaseRunOut 256 []).wf = false := by decide +kernel

/-! ### Small states -/

/-- The state after a command. -/
def after (c : Instr) (s : State) : State :=
  match exec c s with
  | .next t => t
  | _ => s

/-- The mailbox QUEUED with a command. -/
def mailboxHolds (kind : Byte) (body : List Word) (s : State) : State :=
  s.withMailbox
    { state := .queued, declared := body.length, mask := 0,
      command := ((List.range (body.length + 1)).zip (Word.ofBytes kind (BitVec.ofNat 8 body.length) :: body)).foldl
        (fun w e => Sparse.write 0 w e.1 e.2) [],
      result := [] }

/-- A link UP. -/
def linkUp (n : Link) (s : State) : State := s.modifyLink n fun c => { c with state := .up }

/-- A link UP with one request in its queue. -/
def linkHolds (n : Link) (kind tag : Byte) (body : List Word) (s : State) : State :=
  s.modifyLink n fun c =>
    { c with state := .up, tags := [tag], requests := [{ kind := kind, tag := tag, body := body }] }

/-- A TRUNK circuit of width 2 from trunk 0 to trunk 1, as it stands between changes. -/
def trunk (owner : Owner) (state : CircuitState) : Circuit :=
  { state := state, owner := owner, kind := .trunk [] false, srcTrunk := 0, dstTrunk := 1, width := 2,
    staged := [{ src := 3, dst := 5, retiring := false }, { src := 4, dst := 9, retiring := false }],
    live := [{ src := 3, dst := 5, retiring := false }, { src := 4, dst := 9, retiring := false }],
    stagedTreatment := .pass, liveTreatment := .pass, fill := 0x55, leaseLength := 10, leaseLeft := 1,
    pendingChange := none, closeReason := none, cutoverCycle := some 0 }

/-- A record in use with generation 1. -/
def holds (id : Nat) (c : Circuit) (s : State) : State :=
  s.setRecord id { generation := 1, circuit := some c }

/-- The Timing Unit in a frame, at the start of that frame. -/
def inFrame (frame : Nat) (s : State) : State := s.withTiming { s.timing with frame := frame }

/-! ### Events worked out by hand -/

theorem test_claim_is_answered_with_its_pairs :
    (after .claim (mailboxHolds 0x10 [0x0001, 0x0233, 0x0055, 0x000A] State.reset)).mailbox.result =
      [(0, 0x1000), (1, 0x0001), (2, 0x0202), (4, 0x0101)] := by decide +kernel

theorem test_branch_takes_its_parents_sources :
    ((after .branch (mailboxHolds 0x11 [0x0001, 0x0201, 0, 0]
      (holds 0 (trunk .supervisor .active) State.reset))).circuit 1).map Circuit.staged =
      some [{ src := 3, dst := 0, retiring := false }, { src := 4, dst := 1, retiring := false }] := by
  decide +kernel

theorem test_crc_of_the_digits_1_to_9_as_words : crc16 [0x3132, 0x3334, 0x3536, 0x3738] = 0xA12B := by decide +kernel

theorem test_spread_strides : chooseSpread (List.range 64) 3 = some [0, 21, 42] ∧
    chooseSpread ((List.range 64).filter (· ≠ 21)) 3 = some [1, 22, 43] := by decide +kernel

theorem test_placements_take_the_lowest : chooseContiguous [0, 1, 3, 4, 5, 9] 3 = some [3, 4, 5] ∧
    chooseAny [2, 7, 8] 2 = [2, 7] ∧ chooseFixed [2, 7, 8] [2, 8] = some [2, 8] ∧
    chooseFixed [2, 7, 8] [2, 9] = none := by decide +kernel

theorem test_boundary_cuts_a_claim_over :
    let s := after .claim (mailboxHolds 0x10 [0x0001, 0x0233, 0x0055, 0x000A] State.reset)
    let t := after (.boundary frame) (inFrame 15 s)
    (t.circuit 0).map Circuit.state = some .active ∧ t.maps.live = .b ∧ t.maps.state = .copying ∧
      t.cutover.changeList = [] ∧ t.readWord 0x02 = 1 ∧ t.trunkOutput 1 0 = some 0x12 := by decide +kernel

theorem test_release_of_a_pending_claim_frees_it :
    let s := after .claim (mailboxHolds 0x10 [0x0001, 0x0233, 0x0055, 0x000A] State.reset)
    let t := after .release (mailboxHolds 0x12 [0x0001] s)
    t.circuit 0 = none ∧ t.cutover.changeList = [] ∧ t.maps.bankB = [] ∧
      t.mailbox.result = [(0, 0x1200), (1, 0x0001)] := by decide +kernel

theorem test_reset_window : State.reset.readWord 0x08 = 0x4001 ∧ State.reset.readWord 0x09 = 0x0020 ∧
    State.reset.readWord 0x10 = 0x0001 ∧ State.reset.readWord 0x18 = 0xFFFF ∧ State.reset.readWord 0x07 = 0 := by
  decide +kernel

/-- A write of two words from the last address, with 15 bits of a third; and the first bits of a read of LINKCFG0. -/
theorem test_spi_transactions :
    spiWrites ([false, true, true, true, true, true, true, true] ++ wordBits 0x1234 ++ wordBits 0x8001 ++
      List.replicate 15 true) = [.registerWrite 0x7F 0x1234, .registerWrite 0x00 0x8001] ∧
    (List.range 16).map (fun k =>
        State.reset.sdo true ([true, false, false, false, true, false, false, false] ++ List.replicate k false)) =
      (wordBits 0x4001).map Sdo.driven ∧
    State.reset.sdo true ([true, false, false, false, true, false, false, false] ++ List.replicate 26 false) =
      .driven true ∧
    State.reset.sdo false [] = .highImpedance := by decide +kernel

/-! ### States and operands that meet the hypotheses of the statements, clause by clause -/

def idle : State := State.reset
def reporting : State := State.reset.withControl { State.reset.control with reports := true }

theorem idle_canonical : idle.Canonical := by
  unfold State.Canonical
  decide +kernel

/-- A record in use leaves the state after reset canonical. -/
theorem holds_canonical (id : Nat) (c : Circuit) : (holds id c idle).Canonical :=
  ⟨Sparse.wf_write _ _ _ _ rfl, rfl, rfl, rfl, rfl, rfl, rfl, rfl⟩

/-- The mailbox command leaves the state after reset canonical. -/
theorem mailboxHolds_canonical (kind : Byte) (body : List Word) {s : State} (h : s.Canonical) :
    (mailboxHolds kind body s).Canonical :=
  ⟨h.1, h.2.1, h.2.2.1, h.2.2.2.1, h.2.2.2.2.1, h.2.2.2.2.2.1, wf_writeWords _ [] rfl, rfl⟩

theorem test_StepRunsTheFrontCommand_hypotheses : (idle.withPending [.ack, .commit]).pending = [.ack, .commit] := rfl

theorem test_IdleQueueAndHeldReset_hypotheses : idle.pending = [] ∧
    (idle.withResetAsserted true).resetAsserted = true ∧ Instr.ack ≠ .powerOnReset ∧ Instr.ack ≠ .resetnRelease := by
  decide +kernel

theorem test_ResetReleaseStartsFrameZero_hypotheses : exec .powerOnReset idle = .next (after .powerOnReset idle) ∧
    (after .powerOnReset idle).resetAsserted = true ∧ idle.resetAsserted = false :=
  ⟨rfl, rfl, rfl⟩

theorem test_RowsAreRegisterWrites_hypotheses : (1 ≤ 1 ∧ 1 ≤ 20) ∧ 1 ≤ 20 ∧ 20 ≤ 20 := by decide

theorem test_SoftResetValues_hypotheses : (linkUp .l1 idle).resetAsserted = false := rfl

theorem test_EventsAndEnables_hypotheses : (idle.raise .expiry).resetAsserted = false := rfl

theorem test_CutoverModeWrite_hypotheses : idle.resetAsserted = false ∧ (0x0001 : Word).getLsbD 15 = false ∧
    (0x0001 : Word).getLsbD 1 = idle.control.reports ∧ ((0x0001 : Word).getLsbD 2 = true ↔ idle.control.primary = .b) ∧
    (0x0001 : Word).getLsbD 3 = idle.control.revertive := by decide +kernel

/-- A write that enables reports, one that leaves them disabled, and one that disables them. -/
theorem test_SupervisorReportsWrite_hypotheses :
    (idle.Canonical ∧ reporting.Canonical) ∧ (idle.resetAsserted = false ∧ reporting.resetAsserted = false) ∧
    ((0x0002 : Word).getLsbD 15 = false ∧ ((0x0002 : Word).getLsbD 2 = true ↔ idle.control.primary = .b) ∧
      (0x0002 : Word).getLsbD 3 = idle.control.revertive ∧ (0x0002 : Word).getLsbD 1 = true) ∧
    ((0x0000 : Word).getLsbD 15 = false ∧ ((0x0000 : Word).getLsbD 2 = true ↔ reporting.control.primary = .b) ∧
      (0x0000 : Word).getLsbD 3 = reporting.control.revertive ∧ (0x0000 : Word).getLsbD 1 = false ∧
      reporting.control.reports = true ∧ idle.control.reports = false) :=
  ⟨⟨idle_canonical, idle_canonical⟩, by decide +kernel⟩

/-- A lock that a write to CONTROL moves, before and after the align. -/
def lockedOnA (pending : Bool) : State :=
  idle.withTiming { idle.timing with state := .lockedA, alignPending := pending, refA := .good 125000,
                                     refB := .good 125003 }

theorem test_ReferenceSelectionWrite_hypotheses :
    ((lockedOnA true).resetAsserted = false ∧ (0x0004 : Word).getLsbD 15 = false ∧
      (0x0004 : Word).getLsbD 1 = (lockedOnA true).control.reports ∧
      Ref.b = if (0x0004 : Word).getLsbD 2 then Ref.b else Ref.a) ∧
    ((lockedOnA true).timing.state.locked = some (otherRef .b) ∧ ((lockedOnA true).timing.ref .b).isGood = true ∧
      (lockedOnA true).timing.alignPending = true ∧ Ref.b ≠ (lockedOnA true).control.primary) ∧
    (after (.primaryReference 0x0004) (lockedOnA true)).timing.state = .lockedB ∧
    (after (.primaryReference 0x0004) (lockedOnA false)).timing.state = .lockedA ∧
    (after (.revertive 0x000C) (lockedOnA false)).timing.state = .lockedB := by decide +kernel

def disabledL0 : State := after (.linkEnable .l0 0x4000) idle

theorem disabledL0_canonical : disabledL0.Canonical := by
  unfold State.Canonical
  decide +kernel

theorem test_LinkEnableWrite_hypotheses : (idle.Canonical ∧ disabledL0.Canonical ∧ (linkUp .l0 idle).Canonical) ∧
    (idle.resetAsserted = false ∧ disabledL0.resetAsserted = false ∧ (linkUp .l0 idle).resetAsserted = false) ∧
    ((0x4001 : Word).getLsbD 1 = false ∧ (0x4001 : Word).getLsbD 0 = (idle.link .l0).enable) ∧
    ((0x4001 : Word).getLsbD 0 = true ∧ (disabledL0.link .l0).enable = false) ∧
    ((0x4000 : Word).getLsbD 0 = false ∧ (idle.link .l0).enable = true ∧ (idle.link .l0).state ≠ .up) ∧
    ((linkUp .l0 idle).link .l0).enable = true ∧ ((linkUp .l0 idle).link .l0).state = .up :=
  ⟨⟨idle_canonical, disabledL0_canonical, idle_canonical⟩, by decide +kernel⟩

theorem test_LinkResetWrite_hypotheses : ((linkUp .l0 idle).Canonical ∧ idle.Canonical) ∧
    ((linkUp .l0 idle).resetAsserted = false ∧ idle.resetAsserted = false) ∧
    ((after (.linkEnable .l0 (0x4003 &&& 0xFFFD)) (linkUp .l0 idle)).link .l0).state = .up ∧
    ((after (.linkEnable .l0 (0x4003 &&& 0xFFFD)) idle).link .l0).state = .down ∧
    ((after (.linkEnable .l0 (0x4002 &&& 0xFFFD)) idle).link .l0).state = .disabled :=
  ⟨⟨idle_canonical, idle_canonical⟩, by decide +kernel⟩

theorem test_OtherRegisterWrites_hypotheses : idle.resetAsserted = false ∧
    ((0x07 : BitVec 7).toNat ∈ [0x01, 0x02, 0x03, 0x07]) ∧ (0x10 ≤ (0x17 : BitVec 7).toNat ∧
      (0x17 : BitVec 7).toNat < 0x18) ∧ (0x1C ≤ (0x1F : BitVec 7).toNat ∧ (0x1F : BitVec 7).toNat < 0x20) ∧
      0x35 ≤ (0x35 : BitVec 7).toNat ∧ 0x35 ≤ (0x7F : BitVec 7).toNat := by decide +kernel

theorem test_RegisterWindowReads_hypotheses : (List.replicate 7 true).length < 8 ∧
    (List.replicate 15 true).length < 16 ∧ 20 ≤ 20 ∧ 39 ≤ 39 ∧ (0x07 : BitVec 7).toNat = 0x07 ∧
    (0x1C ≤ (0x1F : BitVec 7).toNat ∧ (0x1F : BitVec 7).toNat < 0x20) ∧
    (0x35 ≤ (0x3F : BitVec 7).toNat ∧ (0x3F : BitVec 7).toNat < 0x40) ∧ 0x68 ≤ (0x68 : BitVec 7).toNat ∧
    (holds 7 (trunk (.link .l1) .active) idle).readWord 0x03 = 1 ∧
    (holds 7 (trunk (.link .l1) .active) idle).readWord 0x13 = 1 := by decide +kernel

def filling : State := after (.mailboxHeaderWrite 0x2001) idle
def queued : State := after (.mailboxHeaderWrite 0x2300) idle
def done : State := after .takeReport queued

/-- The mailbox in each of its states; headers of length 0, 20 and 21; body positions at the declared length and
beyond it; the last mark and a mark that is not the last. -/
theorem test_MailboxWrites_hypotheses : (filling.Canonical ∧ queued.Canonical ∧ done.Canonical) ∧
    (filling.resetAsserted = false ∧ queued.resetAsserted = false ∧ done.resetAsserted = false) ∧
    idle.mailbox.state = .idle ∧ filling.mailbox.state = .filling ∧ queued.mailbox.state = .queued ∧
    done.mailbox.state = .done ∧ ((0x2300 : Word).toNat % 256 = 0) ∧ ((0x2014 : Word).toNat % 256 ≤ 20) ∧
    (20 < (0x2015 : Word).toNat % 256) ∧ 1 ≤ filling.mailbox.declared ∧ filling.mailbox.declared < 2 ∧
    (after (.mailboxBodyWrite 1 0x0501) filling).mailbox.state = .queued ∧
    (after (.mailboxBodyWrite 2 0) (after (.mailboxHeaderWrite 0x1002) idle)).mailbox.state = .filling := by
  unfold State.Canonical
  decide +kernel

/-- A message with its check word. -/
def message (kind tag : Byte) (body : List Word) : RxMessage :=
  { words := buildMessage kind tag 0 body, partialBits := [], spansDiscard := false }

def hello : RxMessage := message 0x01 0x00 []

/-- A message for each row of R123's table, at the boundary of the row. -/
theorem test_MessageChecks_hypotheses :
    classify { words := [0x0100], partialBits := [], spansDiscard := false } = .damaged .runt ∧
    classify { words := [0x0115, 0x0000], partialBits := [], spansDiscard := false } = .damaged .long ∧
    classify { words := [0x0101, 0x0000, 0x0000], partialBits := [], spansDiscard := false } = .damaged .runt ∧
    classify { words := [0x0100, 0x0000, 0x0000], partialBits := [true], spansDiscard := false } = .damaged .long ∧
    classify { words := [0x0100, 0x0000], partialBits := [true], spansDiscard := false } = .damaged .runt ∧
    classify { words := [0x0100, 0x0000, 0x0000], partialBits := [], spansDiscard := false } = .damaged .check ∧
    classify hello = .good ∧ classify (message 0x10 0x07 (List.replicate 20 0)) = .good := by decide +kernel

theorem takesGood (s : State) (n : Link) (m : RxMessage) (h1 : s.resetAsserted = false)
    (h2 : (s.link n).state ≠ .disabled) (h3 : m.spansDiscard = false) (h4 : classify m = .good) : TakesGood s n m :=
  ⟨h1, h2, fun _ => h3, h4⟩

theorem test_HelloReceived_hypotheses : TakesGood idle .l1 hello ∧ messageKind hello = 0x01 ∧
    (idle.link .l1).state = .down ∧ TakesGood (linkUp .l1 idle) .l1 hello ∧
    ((linkUp .l1 idle).link .l1).state = .up :=
  ⟨takesGood _ _ _ rfl (by decide +kernel) rfl (by decide +kernel), by decide +kernel, by decide +kernel,
    takesGood _ _ _ rfl (by decide +kernel) rfl (by decide +kernel), by decide +kernel⟩

def askMessage : RxMessage := message 0x17 0x2A [0x0001]
def oddMessage : RxMessage := message 0x18 0x2A []
def withTags (tags : List Byte) : State := idle.modifyLink .l1 fun c => { c with state := .up, tags := tags }
def refusedAnswer : Answer := { kind := 0x18, tag := 0, code := .badKind, body := [], reserved := false }
def withRefusals (k : Nat) : State :=
  idle.modifyLink .l1 fun c => { c with state := .up, answers := List.replicate k refusedAnswer }

theorem test_RequestReceived_hypotheses :
    (TakesGood (withTags []) .l1 askMessage ∧ TakesGood (withTags []) .l1 oddMessage ∧
      TakesGood (withRefusals 8) .l1 oddMessage ∧ TakesGood idle .l1 askMessage) ∧
    (classify askMessage = .good ∧ messageKind askMessage = 0x17 ∧ messageTag askMessage = 0x2A) ∧
    (classify oddMessage = .good ∧ ¬(0x10 ≤ (messageKind oddMessage).toNat ∧ (messageKind oddMessage).toNat ≤ 0x17)) ∧
    ((((withRefusals 7).link .l1).answers.filter fun a => !a.reserved).length < 8 ∧
      8 ≤ (((withRefusals 8).link .l1).answers.filter fun a => !a.reserved).length) ∧
    (8 ≤ ((withTags [0, 1, 2, 3, 4, 5, 6, 7]).link .l1).tags.length) ∧
    (((withTags [0x2A]).link .l1).tags.length < 8 ∧ messageTag askMessage ∈ ((withTags [0x2A]).link .l1).tags) ∧
    (((withTags [1, 2, 3, 4, 5, 6, 7]).link .l1).tags.length < 8 ∧
      messageTag askMessage ∉ ((withTags [1, 2, 3, 4, 5, 6, 7]).link .l1).tags) ∧
    (idle.link .l1).state = .down ∧ ((withTags []).link .l1).state = .up :=
  ⟨⟨takesGood _ _ _ rfl (by decide +kernel) rfl (by decide +kernel),
      takesGood _ _ _ rfl (by decide +kernel) rfl (by decide +kernel),
      takesGood _ _ _ rfl (by decide +kernel) rfl (by decide +kernel),
      takesGood _ _ _ rfl (by decide +kernel) rfl (by decide +kernel)⟩, by decide +kernel⟩

def badCheck : RxMessage := { words := [0x0100, 0x0000, 0x0000], partialBits := [], spansDiscard := false }
def damagedTo (k : Nat) : State := idle.modifyLink .l1 fun c => { c with state := .up, damage := k }

theorem test_DamagedMessages_hypotheses : (idle.Canonical ∧ (damagedTo 6).Canonical ∧ (damagedTo 7).Canonical) ∧
    TakesDamaged idle .l1 badCheck .check ∧ (idle.link .l1).state = .down ∧
    (TakesDamaged (damagedTo 6) .l1 badCheck .check ∧ ((damagedTo 6).link .l1).damage + 1 < 8) ∧
    (TakesDamaged (damagedTo 7) .l1 badCheck .check ∧ 8 ≤ ((damagedTo 7).link .l1).damage + 1) ∧
    (disabledL0.link .l0).state = .disabled ∧ (idle.link .l1).rxVoid = true ∧
    ({ badCheck with spansDiscard := true } : RxMessage).spansDiscard = true :=
  ⟨⟨idle_canonical, idle_canonical, idle_canonical⟩,
    ⟨rfl, by decide +kernel, fun _ => rfl, by decide +kernel⟩, rfl, ⟨⟨rfl, by decide +kernel, fun _ => rfl, by decide +kernel⟩, by decide +kernel⟩,
    ⟨⟨rfl, by decide +kernel, fun _ => rfl, by decide +kernel⟩, by decide +kernel⟩, by decide +kernel, rfl, rfl⟩

theorem test_ClockLossAndReturn_hypotheses : ((linkUp .l2 idle).Canonical ∧ idle.Canonical) ∧
    ((linkUp .l2 idle).resetAsserted = false ∧ idle.resetAsserted = false) ∧
    (((linkUp .l2 idle).link .l2).clockArmed = true ∧ ((linkUp .l2 idle).link .l2).state = .up) ∧
    ((idle.link .l2).clockArmed = true ∧ (idle.link .l2).state ≠ .up) ∧
    ((after (.clockLoss .l2) idle).link .l2).clockArmed = false :=
  ⟨⟨idle_canonical, idle_canonical⟩, by decide +kernel⟩

def answerOwed : Answer := { kind := 0x17, tag := 0x2A, code := .ok, body := [1, 2, 3, 4], reserved := true }
def sendsAnswer : State := idle.modifyLink .l1 fun c => { c with state := .up, answers := [answerOwed], tags := [0x2A] }
def sendsHello : State := idle.modifyLink .l1 fun c => { c with state := .up, helloOwed := true }
def sendsReport (state : CircuitState) : State :=
  (holds 7 (trunk (.link .l1) state) idle).modifyLink .l1 fun c => { c with state := .up, reports := [7] }

theorem test_TransmitterTakes_hypotheses :
    (sendsAnswer.Canonical ∧ sendsHello.Canonical ∧ (sendsReport .closed).Canonical ∧ (sendsReport .active).Canonical) ∧
    (sendsAnswer.resetAsserted = false ∧ sendsHello.resetAsserted = false ∧
      (sendsReport .closed).resetAsserted = false) ∧
    ((idle.link .l1).state ≠ .up ∧ ((after (.transmitterTake .l1) sendsHello).link .l1).line ≠ none) ∧
    ((sendsAnswer.link .l1).state = .up ∧ (sendsAnswer.link .l1).line = none ∧
      (sendsAnswer.link .l1).answers = [answerOwed] ∧ answerOwed.body.length ≤ 255) ∧
    ((sendsHello.link .l1).answers = [] ∧ (sendsHello.link .l1).helloOwed = true) ∧
    (((sendsReport .closed).link .l1).answers = [] ∧ ((sendsReport .closed).link .l1).helloOwed = false ∧
      ((sendsReport .closed).link .l1).reports = [7] ∧
      (((sendsReport .closed).circuit 7).any fun c => c.state == .closed) = true ∧
      (((sendsReport .active).circuit 7).any fun c => c.state == .closed) = false) ∧
    ((linkUp .l1 idle).link .l1).reports = [] :=
  ⟨⟨idle_canonical, idle_canonical, holds_canonical 7 _, holds_canonical 7 _⟩, by decide +kernel⟩

theorem test_TransmissionCompletes_hypotheses : idle.resetAsserted = false ∧ (idle.link .l1).line = none ∧
    (∃ words, ((after (.transmitterTake .l1) sendsHello).link .l1).line = some { words := words, frees := none }) ∧
    ∃ words, ((after (.transmitterTake .l1) sendsAnswer).link .l1).line =
      some { words := words, frees := some 0x2A } :=
  ⟨rfl, rfl, ⟨_, rfl⟩, ⟨_, rfl⟩⟩

theorem test_BodyLayouts_hypotheses :
    (holds 7 (trunk (.link .l1) .active) idle).circuit 7 = some (trunk (.link .l1) .active) ∧
    idle.circuit 7 = none := by decide +kernel

/-- A link UP whose next boundary reaches the limit. -/
def silent : State := inFrame 15 (idle.modifyLink .l1 fun c => { c with state := .up, silence := 31 })

/-- A CLOSED and an ACTIVE record of a silent link under policy RELEASE. -/
def silentOwner : State :=
  inFrame 15 ((holds 8 (trunk (.link .l1) .active) (holds 7 (trunk (.link .l1) .closed) idle)).modifyLink .l1
    fun c => { c with state := .up, silence := 31, policy := .release })

theorem silentOwner_canonical : silentOwner.Canonical := by
  unfold State.Canonical
  decide +kernel

theorem test_SilenceTakesLinkDown_hypotheses : (OwnFrameDue silent ∧ silent.Canonical ∧ 15 ≤ silent.timing.frame) ∧
    LimitReached silent .l1 ∧ ¬LimitReached idle .l1 ∧ order.wf = true ∧
    (FrameStarts (.boundary false) 125000 frame silentOwner
        (silentOwner.startFrame (.boundary false) 125000 frame.received frame.order) ∧
      FrameStarts (.boundary true) 60000 frame silentOwner
        (silentOwner.startFrame (.boundary true) 60000 frame.received frame.order)) ∧
    silentOwner.Canonical ∧ LimitReached silentOwner .l1 ∧
    (silentOwner.circuit 7 = some (trunk (.link .l1) .closed) ∧
      silentOwner.circuit 8 = some (trunk (.link .l1) .active) ∧ (silentOwner.link .l1).policy = .release) :=
  ⟨⟨⟨by decide +kernel, by decide +kernel, by decide +kernel⟩, idle_canonical, by decide +kernel⟩,
    ⟨by decide +kernel, by decide +kernel⟩, fun h => LinkState.noConfusion h.1, by decide +kernel,
    ⟨State.startFrame_starts _ _ _ _ silentOwner_canonical, State.startFrame_starts _ _ _ _ silentOwner_canonical⟩,
    silentOwner_canonical, ⟨by decide +kernel, by decide +kernel⟩, by decide +kernel⟩

def dropItem : FollowUp := { kind := .drop, id := 7 }
def queueOf (items : List FollowUp) : State := idle.withEngine { idle.engine with followUps := items }
def asked : State := linkHolds .l2 0x17 0x2A [0x0001] idle

theorem test_ArbiterChoice_hypotheses :
    (idle.withMaps { idle.maps with state := .copying }).maps.state = .copying ∧
    ((queueOf [dropItem]).maps.state = .synced ∧ (queueOf [dropItem]).engine.followUps = [dropItem]) ∧
    (queued.engine.followUps = [] ∧ queued.mailbox.state = .queued) ∧
    (asked.mailbox.state ≠ .queued ∧ linksFrom asked.engine.pointer = [.l0, .l1] ++ .l2 :: [.l3] ∧
      (asked.link .l0).requests = [] ∧ (asked.link .l1).requests = [] ∧ (asked.link .l2).requests ≠ []) ∧
    ((idle.link .l0).requests = [] ∧ (idle.link .l1).requests = [] ∧ (idle.link .l2).requests = [] ∧
      (idle.link .l3).requests = []) := by decide +kernel

theorem test_MergeRule_hypotheses : (([dropItem] : List FollowUp).map FollowUp.id).Nodup ∧
    8 ∉ ([dropItem] : List FollowUp).map FollowUp.id ∧ FollowKind.expire ≠ .drop ∧
    [dropItem] = [] ++ { kind := .drop, id := 7 } :: [] ∧
    ({ kind := .orphan, id := 7 } : FollowUp) ∈ [({ kind := .orphan, id := 7 } : FollowUp)] ∧
    FollowKind.orphan ≠ .drop := by decide

/-- The mailbox command is taken next. -/
theorem takesMailbox {s : State} {kind : Option RequestKind} {body : List Word} (h1 : s.resetAsserted = false)
    (h2 : s.nextItem = some .mailbox) (h3 : mailboxKind s.mailboxKindByte = kind) (h4 : s.mailboxBody = body) :
    Takes s .supervisor kind body := ⟨h1, h2, h3, h4⟩

theorem test_EveryRequestIsAnswered_hypotheses :
    Takes (mailboxHolds 0x7F [] idle) .supervisor none [] ∧
    Takes asked (.link .l2) (some .ask) [0x0001] ∧ Takes queued .supervisor (some .takeReport) [] :=
  ⟨takesMailbox rfl (by decide +kernel) (by decide +kernel) (by decide +kernel),
    ⟨rfl, by decide +kernel, _, _, rfl, by decide +kernel, rfl⟩,
    takesMailbox rfl (by decide +kernel) (by decide +kernel) (by decide +kernel)⟩

/-- Record 7 in use, and a mailbox command on it. -/
def onSeven (kind : Byte) (c : Circuit) (rest : List Word) : State :=
  mailboxHolds kind (refWord 7 1 :: rest) (holds 7 c idle)

theorem onSeven_canonical (kind : Byte) (c : Circuit) (rest : List Word) : (onSeven kind c rest).Canonical :=
  mailboxHolds_canonical _ _ (holds_canonical 7 c)

/-- The command on record 7 is taken next. -/
theorem onSeven_taken {kind : Byte} {c : Circuit} {rest : List Word} {k : RequestKind}
    (h : (onSeven kind c rest).mailboxBody = refWord 7 1 :: rest ∧
      mailboxKind (onSeven kind c rest).mailboxKindByte = some k) :
    Takes (onSeven kind c rest) .supervisor (some k) (refWord 7 1 :: rest) :=
  ⟨rfl, rfl, h.2, h.1⟩

def owned (state : CircuitState) : Circuit := trunk .supervisor state
def changing (state : CircuitState) (change : PendingChange) : Circuit :=
  { owned state with pendingChange := some change }
def branched : Circuit := { owned .active with kind := .trunk [8] false }
def leaf (state : CircuitState) : Circuit := { owned state with kind := .branch 6 }

theorem test_ChecksOfNamedRecords_bodies :
    bodyFor .suspend (refWord 7 1) [refWord 7 1] ∧ bodyFor .renew (refWord 7 1) [refWord 7 1, 0xFFFF] ∧
    bodyFor .reshape (refWord 7 1) [refWord 7 1, BitVec.ofNat 16 (1 * 256 + 1)] ∧
    bodyFor .reshape (refWord 7 1) [refWord 7 1, BitVec.ofNat 16 (16 * 256 + 3)] :=
  ⟨rfl, Or.inr ⟨_, rfl⟩, ⟨1, 1, by decide, by decide, by decide, by decide, rfl⟩,
    ⟨16, 3, by decide, by decide, by decide, by decide, rfl⟩⟩

theorem test_ChecksOfNamedRecords_unknown :
    Takes (mailboxHolds 0x14 [refWord 255 1] idle) .supervisor (some .suspend) [refWord 255 1] ∧
    idle.circuit 255 = none ∧ namesRecord .suspend ∧
    Takes (mailboxHolds 0x17 [refWord 7 2] (holds 7 (owned .active) idle)) .supervisor (some .ask) [refWord 7 2] ∧
    ((holds 7 (owned .active) idle).record 7).generation ≠ 2 :=
  ⟨takesMailbox rfl rfl (by decide +kernel) (by decide +kernel), rfl, by unfold namesRecord; decide,
    takesMailbox rfl rfl (by decide +kernel) (by decide +kernel), by decide +kernel⟩

theorem test_ChecksOfNamedRecords_owner :
    Takes (linkHolds .l2 0x12 0x2A [refWord 7 1] (holds 7 (trunk (.link .l1) .active) idle)) (.link .l2)
      (some .release) [refWord 7 1] ∧ (trunk (.link .l1) .active).owner ≠ .link .l2 :=
  ⟨⟨rfl, by decide +kernel, _, _, rfl, by decide +kernel, rfl⟩, by decide⟩

theorem test_ChecksOfNamedRecords_states :
    Takes (onSeven 0x12 (owned .closed) []) .supervisor (some .release) [refWord 7 1] ∧
    Takes (onSeven 0x14 (owned .pending) []) .supervisor (some .suspend) [refWord 7 1] ∧
    Takes (onSeven 0x15 (owned .active) []) .supervisor (some .resume) [refWord 7 1] ∧
    Takes (onSeven 0x13 (leaf .active) [0x0101]) .supervisor (some .reshape) [refWord 7 1, 0x0101] ∧
    Takes (onSeven 0x14 (changing .active .suspend) []) .supervisor (some .suspend) [refWord 7 1] ∧
    Takes (onSeven 0x15 (changing .suspended .resume) []) .supervisor (some .resume) [refWord 7 1] ∧
    Takes (onSeven 0x13 (changing .active .reshapeAdd) [0x0101]) .supervisor (some .reshape) [refWord 7 1, 0x0101] ∧
    Takes (onSeven 0x13 branched [0x0101]) .supervisor (some .reshape) [refWord 7 1, 0x0101] ∧
    branched.branches ≠ [] ∧ (onSeven 0x13 branched [0x0101]).circuit 7 = some branched :=
  ⟨onSeven_taken (by decide +kernel), onSeven_taken (by decide +kernel), onSeven_taken (by decide +kernel),
    onSeven_taken (by decide +kernel), onSeven_taken (by decide +kernel), onSeven_taken (by decide +kernel),
    onSeven_taken (by decide +kernel), onSeven_taken (by decide +kernel), by decide, by decide +kernel⟩

def quotaOne : State := linkUp .l1 (idle.modifyLink .l1 fun c => { c with quota := 1 })

theorem test_OwnerChecksAndRecordChoice_hypotheses :
    (idle.link .l1).state ≠ .up ∧ (quotaOne.link .l1).state = .up ∧
    quotaOne.ownedCount .l1 < (quotaOne.link .l1).quota ∧
    ((holds 7 (trunk (.link .l1) .pending) quotaOne).link .l1).quota ≤
      (holds 7 (trunk (.link .l1) .pending) quotaOne).ownedCount .l1 := by decide +kernel

def lastSixteen : List Nat := (List.range 16).map fun k => 48 + k
def strideFour : List Nat := (List.range 16).map fun k => 3 + k * 4

/-- Each placement with a choice at the end of its range, and with none. -/
theorem test_PlacementProcedures_hypotheses :
    ((∀ slot ∈ [48, 63], slot ∈ lastSixteen) ∧ (∃ slot ∈ [48, 2], slot ∉ lastSixteen)) ∧
    (48 ≤ 64 - 16 ∧ (∀ k, k < 16 → 48 + k ∈ lastSixteen) ∧
      (∀ earlier, earlier < 48 → ∃ k, k < 16 ∧ earlier + k ∉ lastSixteen)) ∧
    (∀ start, start ≤ 64 - 2 → ∃ k, k < 2 ∧ start + k ∉ strideFour) ∧
    (3 < 64 / 16 ∧ (∀ k, k < 16 → 3 + k * (64 / 16) ∈ strideFour) ∧
      (∀ earlier, earlier < 3 → ∃ k, k < 16 ∧ earlier + k * (64 / 16) ∉ strideFour)) ∧
    (∀ start, start < 64 / 16 → ∃ k, k < 16 ∧ start + k * (64 / 16) ∉ lastSixteen) ∧
    (63 ≤ 64 - 1 ∧ (0 : Nat) < 64 / 1) ∧ lastSixteen.Pairwise (· < ·) ∧ 16 ≤ lastSixteen.length := by
  refine ⟨by decide +kernel, by decide +kernel, by decide +kernel, by decide +kernel, by decide +kernel,
    by decide +kernel, by decide +kernel, by decide +kernel⟩

theorem test_AllocationOrder_hypotheses : (lastSixteen.length < 17 ∧ 16 ≤ lastSixteen.length) ∧
    (chooseFixed lastSixteen [2] = none ∧ chooseFixed lastSixteen [48] = some [48]) ∧
    (chooseContiguous strideFour 2 = none ∧ chooseContiguous strideFour 1 = some [3]) ∧
    (chooseSpread lastSixteen 16 = none ∧ chooseSpread strideFour 16 = some strideFour) ∧
    ([5, 3].Nodup ∧ [9, 1].Nodup ∧ [5, 3].length = [9, 1].length) := by decide +kernel

/-- A circuit whose staged pairs leave one slot of its destination trunk free. -/
def crowded : Circuit :=
  { trunk .supervisor .active with
    staged := (List.range 63).map fun slot => { src := slot, dst := slot, retiring := false } }

/-- A reshape whose sources are found, one whose sources are not, and one whose destinations are not. -/
theorem test_AllocationOrder_reshape :
    (holds 7 crowded idle).reshapeSources (trunk .supervisor .active) 3 = .ok [3, 4, 63] ∧
    (holds 7 crowded idle).reshapeSources (trunk .supervisor .active) 16 = .error .noRoom ∧
    chooseSlots ((holds 7 crowded idle).freeOutputs 1) 2 .any [] = .error .noRoom ∧
    chooseSlots ((holds 7 crowded idle).freeOutputs 1) 1 .any [] = .ok [63] :=
  ⟨rfl, rfl, rfl, rfl⟩

def sixteenFixed : ClaimFields :=
  { srcTrunk := 7, dstTrunk := 7, width := 16, srcPlacement := .fixed, dstPlacement := .any, isOpen := true,
    fill := 0xFF, lease := 0xFFFF, fixed := lastSixteen, owner := some .supervisor }

theorem test_CreatingBodiesAreRead_hypotheses : sixteenFixed.srcTrunk ≤ 7 ∧ sixteenFixed.dstTrunk ≤ 7 ∧
    1 ≤ sixteenFixed.width ∧ sixteenFixed.width ≤ 16 ∧ sixteenFixed.dstPlacement ≠ .fixed ∧
    sixteenFixed.fixed.length = sixteenFixed.width ∧ sixteenFixed.fixed.Pairwise (· < ·) ∧
    (∀ slot ∈ sixteenFixed.fixed, slot < 64) ∧
    parseClaim .supervisor (claimWords sixteenFixed 0 3 (slotWords lastSixteen) ++ ownerWords (some .supervisor)) =
      some sixteenFixed := by decide +kernel

def claimed : State := mailboxHolds 0x10 [0x0001, 0x0233, 0x0055, 0x000A] idle
def claimedFields : ClaimFields :=
  { srcTrunk := 0, dstTrunk := 1, width := 2, srcPlacement := .any, dstPlacement := .any, isOpen := false,
    fill := 0x55, lease := 0x000A, fixed := [], owner := none }

theorem test_ClaimCreatesCircuit_hypotheses : claimed.Canonical ∧
    Takes claimed .supervisor (some .claim) [0x0001, 0x0233, 0x0055, 0x000A] ∧
    parseClaim .supervisor [0x0001, 0x0233, 0x0055, 0x000A] = some claimedFields ∧
    claimed.ownerCheck .supervisor (newOwner .supervisor claimedFields.owner) = none ∧
    claimed.lowestFree = some 0 ∧
    claimed.claimPairs claimedFields =
      .ok [{ src := 0, dst := 0, retiring := false }, { src := 1, dst := 1, retiring := false }] :=
  ⟨mailboxHolds_canonical _ _ idle_canonical, takesMailbox rfl rfl (by decide +kernel) (by decide +kernel),
    by decide +kernel, by decide +kernel, by decide +kernel, rfl⟩

/-- Every record in use. -/
def fullTable : State :=
  idle.withTable ((List.range 256).map fun id => (id, { generation := 1, circuit := some (trunk .supervisor .closed) }))

/-- A body too short, an owner at its quota, a full table, and a FIXED slot that is taken. -/
theorem test_ClaimCreatesCircuit_refusals :
    (Takes (mailboxHolds 0x10 [0x0001] idle) .supervisor (some .claim) [0x0001] ∧
      parseClaim .supervisor [0x0001] = none) ∧
    (holds 7 (trunk (.link .l1) .pending) quotaOne).ownerCheck (.link .l1) (newOwner (.link .l1) none) = some .quota ∧
    (Takes (mailboxHolds 0x10 [0x0001, 0x0233, 0x0055, 0x000A] fullTable) .supervisor (some .claim)
        [0x0001, 0x0233, 0x0055, 0x000A] ∧
      (mailboxHolds 0x10 [0x0001, 0x0233, 0x0055, 0x000A] fullTable).Canonical ∧ fullTable.lowestFree = none) ∧
    (holds 7 (trunk .supervisor .active) idle).claimPairs
      { claimedFields with srcPlacement := .fixed, fixed := [3, 6] } = .error .slotTaken :=
  ⟨⟨takesMailbox rfl rfl (by decide +kernel) (by decide +kernel), by decide +kernel⟩, by decide +kernel,
    ⟨takesMailbox rfl rfl (by decide +kernel) (by decide +kernel),
      mailboxHolds_canonical _ _ ⟨by decide +kernel, rfl, rfl, rfl, rfl, rfl, rfl, rfl⟩, by decide +kernel⟩, rfl⟩

def branchBody : List Word := [0x0201, 0, 0]

/-- Parents in every condition, with a branch list that is full and one that is not. -/
theorem test_BranchCreatesCircuit_hypotheses : (onSeven 0x11 (owned .active) branchBody).Canonical ∧
    (onSeven 0x11 (owned .active) branchBody).ownerCheck .supervisor .supervisor = none ∧
    (parseBranch .supervisor (refWord 7 1 :: branchBody)).isSome = true ∧
    Takes (onSeven 0x11 (owned .active) branchBody) .supervisor (some .branch) (refWord 7 1 :: branchBody) ∧
    (onSeven 0x11 (owned .active) branchBody).lowestFree = some 0 ∧
    chooseSlots ((onSeven 0x11 (owned .active) branchBody).freeOutputs 2) 2 .contiguous [] = .ok [0, 1] ∧
    Takes (onSeven 0x11 { owned .active with kind := .trunk [1, 2, 3] true } branchBody) .supervisor (some .branch)
      (refWord 7 1 :: branchBody) ∧
    Takes (onSeven 0x11 (changing .active .reshapeDrop) branchBody) .supervisor (some .branch)
      (refWord 7 1 :: branchBody) ∧
    Takes (onSeven 0x11 (owned .pending) branchBody) .supervisor (some .branch) (refWord 7 1 :: branchBody) ∧
    Takes (onSeven 0x11 (owned .releasing) branchBody) .supervisor (some .branch) (refWord 7 1 :: branchBody) ∧
    Takes (linkHolds .l2 0x11 0x2A (refWord 7 1 :: branchBody) (holds 7 (owned .active) idle)) (.link .l2)
      (some .branch) (refWord 7 1 :: branchBody) ∧ (owned .active).owner ≠ .link .l2 :=
  ⟨onSeven_canonical _ _ _, rfl, by decide +kernel, onSeven_taken (by decide +kernel), by decide +kernel, rfl,
    onSeven_taken (by decide +kernel), onSeven_taken (by decide +kernel), onSeven_taken (by decide +kernel),
    onSeven_taken (by decide +kernel), ⟨rfl, by decide +kernel, _, _, rfl, by decide +kernel, rfl⟩, by decide⟩

/-- A body too short, a reference that names no record, a parent of kind BRANCH, and a trunk without room. -/
theorem test_BranchCreatesCircuit_refusals :
    (Takes (onSeven 0x11 (owned .active) []) .supervisor (some .branch) [refWord 7 1] ∧
      parseBranch .supervisor [refWord 7 1] = none) ∧
    (Takes (mailboxHolds 0x11 (refWord 7 1 :: branchBody) idle) .supervisor (some .branch) (refWord 7 1 :: branchBody) ∧
      idle.circuit 7 = none) ∧
    (Takes (onSeven 0x11 (leaf .suspended) branchBody) .supervisor (some .branch) (refWord 7 1 :: branchBody) ∧
      (leaf .suspended).kind = .branch 6 ∧ (leaf .suspended).state = .suspended) ∧
    chooseSlots ((holds 7 { crowded with dstTrunk := 2 } idle).freeOutputs 2) 2 .contiguous [] = .error .noRoom :=
  ⟨⟨onSeven_taken (by decide +kernel), by decide +kernel⟩,
    ⟨takesMailbox rfl rfl (by decide +kernel) (by decide +kernel), rfl⟩,
    ⟨onSeven_taken (by decide +kernel), rfl, rfl⟩, rfl⟩

theorem test_ReleaseRequest_hypotheses :
    Takes (onSeven 0x12 (owned .pending) []) .supervisor (some .release) [refWord 7 1] ∧
    Takes (onSeven 0x12 branched []) .supervisor (some .release) [refWord 7 1] ∧
    Takes (onSeven 0x12 (owned .suspended) []) .supervisor (some .release) [refWord 7 1] ∧
    (onSeven 0x12 branched []).Canonical ∧ (onSeven 0x12 branched []).circuit 7 = some branched :=
  ⟨onSeven_taken (by decide +kernel), onSeven_taken (by decide +kernel), onSeven_taken (by decide +kernel),
    onSeven_canonical _ _ _, by decide +kernel⟩

theorem test_ReshapeRequest_hypotheses : (onSeven 0x13 (owned .active) [0x0101]).Canonical ∧
    Takes (onSeven 0x13 (owned .active) [BitVec.ofNat 16 (1 * 256 + placementCode .contiguous)]) .supervisor
      (some .reshape) [refWord 7 1, BitVec.ofNat 16 (1 * 256 + placementCode .contiguous)] ∧
    Takes (onSeven 0x13 (owned .active) [BitVec.ofNat 16 (16 * 256 + placementCode .any)]) .supervisor
      (some .reshape) [refWord 7 1, BitVec.ofNat 16 (16 * 256 + placementCode .any)] ∧
    (owned .active).kind = .trunk [] false ∧ (owned .active).stagedTreatment = .pass ∧
    (onSeven 0x13 (owned .active) [0x0101]).reshapePairs (owned .active) 1 .contiguous =
      .ok [{ src := 3, dst := 0, retiring := false }] ∧
    (onSeven 0x13 crowded [BitVec.ofNat 16 (16 * 256 + placementCode .any)]).reshapePairs crowded 16 .any =
      .error .noRoom :=
  ⟨onSeven_canonical _ _ _, onSeven_taken (by decide +kernel), onSeven_taken (by decide +kernel), rfl, rfl, rfl, rfl⟩

theorem test_SuspendAndResume_hypotheses :
    ((onSeven 0x14 (owned .active) []).Canonical ∧ (onSeven 0x15 (owned .suspended) []).Canonical) ∧
    Takes (onSeven 0x14 (owned .active) []) .supervisor (some .suspend) [refWord 7 1] ∧
    Takes (onSeven 0x15 (owned .suspended) []) .supervisor (some .resume) [refWord 7 1] ∧
    ((owned .suspended).staged.map Pair.dst).Nodup ∧ (owned .active).pendingChange = none :=
  ⟨⟨onSeven_canonical _ _ _, onSeven_canonical _ _ _⟩, onSeven_taken (by decide +kernel),
    onSeven_taken (by decide +kernel), by decide, rfl⟩

theorem test_RenewAndAsk_hypotheses :
    ((onSeven 0x16 (owned .active) [0xFFFF]).Canonical ∧ (onSeven 0x17 (owned .closed) []).Canonical) ∧
    Takes (onSeven 0x16 (owned .pending) []) .supervisor (some .renew) [refWord 7 1] ∧
    Takes (onSeven 0x16 (owned .active) [0xFFFF]) .supervisor (some .renew) [refWord 7 1, 0xFFFF] ∧
    Takes (onSeven 0x17 (owned .closed) []) .supervisor (some .ask) [refWord 7 1] ∧
    Takes (linkHolds .l1 0x17 0x2A [refWord 7 1] (holds 7 (trunk (.link .l1) .active) idle)) (.link .l1)
      (some .ask) [refWord 7 1] :=
  ⟨⟨onSeven_canonical _ _ _, onSeven_canonical _ _ _⟩, onSeven_taken (by decide +kernel),
    onSeven_taken (by decide +kernel), onSeven_taken (by decide +kernel),
    ⟨rfl, by decide +kernel, _, _, rfl, by decide +kernel, rfl⟩⟩

/-- A read with each operand at the last value in range and at the first out of range. -/
theorem test_SupervisorReads_hypotheses :
    Takes (mailboxHolds 0x20 [BitVec.ofNat 16 (255 * 256 + 1)] idle) .supervisor (some .readCircuit)
      [BitVec.ofNat 16 (255 * 256 + 1)] ∧
    Takes (mailboxHolds 0x20 [BitVec.ofNat 16 (7 * 256 + 2)] (holds 7 (owned .active) idle)) .supervisor
      (some .readCircuit) [BitVec.ofNat 16 (7 * 256 + 2)] ∧
    Takes (mailboxHolds 0x21 [BitVec.ofNat 16 (7 * 256 + 63)] idle) .supervisor (some .readSlot)
      [BitVec.ofNat 16 (7 * 256 + 63)] ∧
    Takes (mailboxHolds 0x21 [BitVec.ofNat 16 (8 * 256 + 64)] idle) .supervisor (some .readSlot)
      [BitVec.ofNat 16 (8 * 256 + 64)] ∧
    Takes (mailboxHolds 0x22 [BitVec.ofNat 16 (7 * 256 + 1)] idle) .supervisor (some .readFree)
      [BitVec.ofNat 16 (7 * 256 + 1)] ∧
    Takes (mailboxHolds 0x22 [BitVec.ofNat 16 (8 * 256 + 2)] idle) .supervisor (some .readFree)
      [BitVec.ofNat 16 (8 * 256 + 2)] :=
  ⟨takesMailbox rfl rfl (by decide +kernel) (by decide +kernel),
    takesMailbox rfl rfl (by decide +kernel) (by decide +kernel),
    takesMailbox rfl rfl (by decide +kernel) (by decide +kernel),
    takesMailbox rfl rfl (by decide +kernel) (by decide +kernel),
    takesMailbox rfl rfl (by decide +kernel) (by decide +kernel),
    takesMailbox rfl rfl (by decide +kernel) (by decide +kernel)⟩

theorem test_SupervisorActs_hypotheses :
    (queued.Canonical ∧ (mailboxHolds 0x24 [] idle).Canonical ∧
      (mailboxHolds 0x25 [BitVec.ofNat 16 (linkNumber .l3)] (linkUp .l3 idle)).Canonical) ∧
    Takes queued .supervisor (some .takeReport) [] ∧ queued.supQueue = [] ∧ (queued.withSupQueue [7]).supQueue = [7] ∧
    Takes (mailboxHolds 0x24 [] idle) .supervisor (some .commit) [] ∧
    Takes (mailboxHolds 0x25 [BitVec.ofNat 16 (linkNumber .l3)] (linkUp .l3 idle)) .supervisor (some .resetLink)
      [BitVec.ofNat 16 (linkNumber .l3)] ∧
    Takes (mailboxHolds 0x25 [BitVec.ofNat 16 (linkNumber .l0)] disabledL0) .supervisor (some .resetLink)
      [BitVec.ofNat 16 (linkNumber .l0)] :=
  ⟨⟨by unfold State.Canonical; decide +kernel, mailboxHolds_canonical _ _ idle_canonical,
      mailboxHolds_canonical _ _ idle_canonical⟩,
    takesMailbox rfl rfl (by decide +kernel) (by decide +kernel), by decide +kernel, rfl,
    takesMailbox rfl rfl (by decide +kernel) (by decide +kernel),
    takesMailbox rfl rfl (by decide +kernel) (by decide +kernel),
    takesMailbox rfl (by decide +kernel) (by decide +kernel) (by decide +kernel)⟩

/-- Record 7 in use, and a follow-up item for it. -/
def itemFor (kind : FollowKind) (c : Circuit) : State :=
  (holds 7 c idle).withEngine { idle.engine with followUps := [{ kind := kind, id := 7 }] }

theorem itemFor_canonical (kind : FollowKind) (c : Circuit) : (itemFor kind c).Canonical := holds_canonical 7 c

theorem test_DropItem_hypotheses : (itemFor .drop (changing .active .reshapeDrop)).Canonical ∧
    TakesFollowUp (itemFor .drop (changing .active .reshapeDrop)) .drop 7 ∧
    TakesFollowUp (itemFor .drop (owned .releasing)) .drop 7 ∧ TakesFollowUp (itemFor .drop (owned .active)) .drop 7 ∧
    ((changing .active .reshapeDrop).staged.map Pair.dst).Nodup ∧ (owned .active).pendingChange ≠ some .reshapeDrop :=
  ⟨itemFor_canonical _ _, ⟨rfl, rfl⟩, ⟨rfl, rfl⟩, ⟨rfl, rfl⟩, by decide, by decide⟩

theorem test_ExpireAndOrphanItems_hypotheses : (itemFor .expire (owned .suspended)).Canonical ∧
    TakesFollowUp (itemFor .expire (owned .suspended)) .expire 7 ∧
    TakesFollowUp (itemFor .orphan (owned .pending)) .orphan 7 ∧
    TakesFollowUp (itemFor .expire (owned .closed)) .expire 7 ∧
    TakesFollowUp (itemFor .orphan (owned .releasing)) .orphan 7 ∧
    (itemFor .expire (owned .suspended)).circuit 7 = some (owned .suspended) :=
  ⟨itemFor_canonical _ _, ⟨rfl, rfl⟩, ⟨rfl, rfl⟩, ⟨rfl, rfl⟩, ⟨rfl, rfl⟩, by decide +kernel⟩

theorem noneSilent (s : State) (h : ∀ n, (s.link n).state = .down) : ∀ n, ¬LimitReached s n :=
  fun n hn => LinkState.noConfusion ((h n).symm.trans hn.1)

theorem ownFrameDue (frame : Nat) : OwnFrameDue (inFrame frame idle) :=
  ⟨rfl, rfl, show idle.timing.mayFall idle.timing.ownFrameTime = true by decide +kernel⟩

/-- Frames 0, 6, 8 and 14 begin an ordinary frame next, frame 7 the lease tick, frame 15 a boundary. -/
theorem test_OwnFrameStarts_hypotheses : OwnFrameDue (inFrame 0 idle) ∧ OwnFrameDue (inFrame 14 idle) ∧
    (0 < 15 ∧ 0 ≠ 7 ∧ 6 ≠ 7 ∧ 8 ≠ 7 ∧ 14 < 15) ∧ (inFrame 7 idle).timing.frame = 7 ∧
    15 ≤ (inFrame 15 idle).timing.frame ∧ (inFrame 15 idle).Canonical :=
  ⟨ownFrameDue 0, ownFrameDue 14, by decide, rfl, by decide +kernel, idle_canonical⟩

theorem test_LeaseRunsOut_hypotheses : OwnFrameDue (inFrame 7 (holds 7 (owned .active) idle)) ∧
    (inFrame 7 (holds 7 (owned .active) idle)).Canonical ∧
    (inFrame 7 (holds 7 (owned .active) idle)).circuit 7 = some (owned .active) ∧
    (owned .active).leaseLength ≠ 0 ∧ (owned .active).leaseLeft = 1 :=
  ⟨⟨rfl, rfl, by decide +kernel⟩, holds_canonical 7 _, by decide +kernel, by decide, rfl⟩

/-- A boundary with record 7 on the change list. -/
def listed (c : Circuit) : State := inFrame 15 ((holds 7 c idle).enlist 7)

/-- The report queues are empty. -/
theorem listed_queuesOwned (c : Circuit) : (listed c).QueuesOwned :=
  ⟨fun n id h => (by cases n <;> cases h), fun id h => (by cases h)⟩

theorem test_CutoverAppliesRecords_hypotheses : OwnFrameDue (listed (owned .pending)) ∧
    (listed (owned .pending)).Canonical ∧ 15 ≤ (listed (owned .pending)).timing.frame ∧
    (∀ n, ¬LimitReached (listed (owned .pending)) n) ∧ CutsOver (listed (owned .pending)) ∧
    (listed (owned .pending)).cutover.changeList.Nodup ∧ (listed (owned .pending)).QueuesOwned ∧
    7 ∈ (listed (owned .pending)).cutover.changeList ∧ 8 ∉ (listed (owned .pending)).cutover.changeList ∧
    (listed (owned .pending)).circuit 7 = some (owned .pending) ∧
    (listed (changing .active .suspend)).circuit 7 = some (changing .active .suspend) ∧
    (listed (changing .suspended .resume)).circuit 7 = some (changing .suspended .resume) ∧
    (listed (changing .active .reshapeAdd)).circuit 7 = some (changing .active .reshapeAdd) ∧
    (listed (changing .active .reshapeDrop)).circuit 7 = some (changing .active .reshapeDrop) ∧
    (listed (owned .releasing)).circuit 7 = some (owned .releasing) ∧ ¬OwnerListens (listed (owned .releasing)) .supervisor :=
  ⟨⟨rfl, rfl, by decide +kernel⟩, holds_canonical 7 _, by decide +kernel, noneSilent _ fun n => by cases n <;> rfl,
    ⟨rfl, Or.inl rfl, rfl, by decide +kernel⟩, by decide +kernel, listed_queuesOwned _, by decide +kernel,
    by decide +kernel, by decide +kernel, by decide +kernel, by decide +kernel, by decide +kernel, by decide +kernel,
    by decide +kernel, fun h => Bool.noConfusion h⟩

/-- A branch that leaves live leaves its parent's branch list, the parent's own record being on no list. -/
theorem test_cutover_takes_a_branch_from_its_parent :
    let s := inFrame 15 ((holds 8 { owned .releasing with kind := .branch 7 }
      (holds 7 { owned .active with kind := .trunk [8] false } idle)).enlist 8)
    let t := after (.boundary frame) s
    t.circuit 8 = none ∧ t.circuit 7 = some (pruned s 7 branched) ∧
      pruned s 7 branched = owned .active := by decide +kernel

/-- A boundary with a RELEASING record of a supervisor that listens. -/
theorem test_CutoverAppliesRecords_heard :
    OwnerListens ((listed (owned .releasing)).withControl reporting.control) .supervisor ∧
    CutsOver ((listed (owned .releasing)).withControl reporting.control) :=
  ⟨rfl, ⟨rfl, Or.inl rfl, rfl, by decide +kernel⟩⟩

theorem test_CopyCompletion_hypotheses : idle.resetAsserted = false ∧ idle.maps.state = .synced ∧
    (idle.withMaps { idle.maps with state := .copying }).maps.state = .copying := ⟨rfl, rfl, rfl⟩

def switched : State :=
  inFrame 3 (idle.withMaps
    { idle.maps with bankA := [(65, .fill 7 0x55), (511, .pass 7 7 63)] })

theorem test_TrunksCarryTheFrameBefore_hypotheses : switched.Canonical ∧ OwnFrameDue switched ∧ switched.timing.frame < 15 ∧
    switched.timing.frame ≠ 7 ∧ Sparse.read Entry.idle switched.maps.liveBank (64 * 0 + 0) = .idle ∧
    Sparse.read Entry.idle switched.maps.liveBank (64 * 1 + 1) = .fill 7 0x55 ∧
    Sparse.read Entry.idle switched.maps.liveBank (64 * 7 + 63) = .pass 7 7 63 ∧
    (after (.frameStart [(511, 0x34)]) switched).trunkOutput 7 63 = some 0x34 :=
  ⟨by unfold State.Canonical; decide +kernel, ⟨rfl, rfl, by decide +kernel⟩, by decide +kernel, by decide +kernel,
    by decide +kernel, by decide +kernel, by decide +kernel, by decide +kernel⟩

/-- A link disabled while a message is on its line. -/
def sendingDisabled : State := after (.linkEnable .l1 0x4000) (after (.transmitterTake .l1) sendsHello)

/-- The first and the last nanosecond of a bit period, and a link disabled while a message is on its line. -/
theorem test_TrunksCarryTheFrameBefore_pins :
    ((idle.withTiming { idle.timing with time := 244 }).fso = true ∧
      (idle.withTiming { idle.timing with time := 245 }).fso = false) ∧
    FrameStarts .ordinary 125000 frame idle (idle.startFrame .ordinary 125000 frame.received frame.order) ∧
    sendingDisabled.resetAsserted = false ∧ (sendingDisabled.link .l1).state = .disabled ∧
    sendingDisabled.lnockRuns .l1 = true ∧ sendingDisabled.lnodl .l1 = true ∧
    (List.range 16).map (sendingDisabled.lnodt .l1) =
      (wordBits 0x0103).map some :=
  ⟨by decide +kernel, State.startFrame_starts _ _ _ _ idle_canonical, by decide +kernel⟩

/-! ### References -/

def refA (x : RefState) : State := idle.withTiming { idle.timing with refA := x }

/-- A pulse one nanosecond before the window, and one at its first nanosecond; counts 14 and 15. -/
theorem test_PulsesOfAnUnlockedReference_hypotheses : idle.resetAsserted = false ∧
    (idle.timing.mayFall (0 + 5) = true ∧ idle.timing.state.locked ≠ some .a ∧ idle.timing.ref .a = .absent) ∧
    ((refA (.qualifying 14 125000)).timing.mayFall (0 + 109374) = true ∧ 109374 + 15625 < 125000) ∧
    ((refA (.qualifying 14 125000)).timing.mayFall (0 + 109375) = true ∧ 125000 ≤ 109375 + 15625 ∧ 14 < 15) ∧
    ((refA (.good 125000)).timing.ref .a = .good 125000 ∧ (refA (.good 125000)).timing.mayFall (0 + 125000) = true) ∧
    ((refA (.qualifying 15 125000)).timing.ref .a = .qualifying 15 125000 ∧
      (refA (.qualifying 15 125000)).timing.state.locked = none ∧ idle.control.primary = .a) ∧
    ((refA (.qualifying 15 125000)).withTiming { (refA (.qualifying 15 125000)).timing with
        state := .lockedB, refB := .good 125000 }).timing.state.locked = some (otherRef .a) := by decide +kernel

def lockedA (pending : Bool) : State :=
  idle.withTiming { idle.timing with state := .lockedA, alignPending := pending, refA := .good 125000 }

/-- The aligning pulse still to come at the moment of a frame start of the part's own timing already made. -/
def justStarted : State :=
  (lockedA true).withTiming
    { (lockedA true).timing with time := 125000, frameStart := 125000, ownStart := 125000, refA := .good 130000 }

/-- Aligned to REFA, whose window closes, with a pulse of REFB inside its window at that moment. -/
def losesA : State := (lockedA false).withTiming { (lockedA false).timing with refB := .good 150000 }

/-- After the close of the window the lock is on REFB, and its pulse at that moment makes a stepped boundary, in a frame of
which no slot was reached, and sets its expected time (R171, R172). -/
theorem test_aligning_pulse_at_a_window_close :
    let t := after (.windowClose .a frame) losesA
    let u := after (.referencePulse .b 0 frame) t
    t.timing = { losesA.timing with state := .lockedB, alignPending := true, refA := .absent, frame := 1,
                                    time := 140625, frameStart := 140625 } ∧
      u.timing = { t.timing with alignPending := false, refB := .good 265625, frame := 0, cycle := 1 } ∧
      u.cutover.settle = 2 ∧ slotsBefore t 140625 = 0 ∧ 140625 ≠ t.timing.ownStart := by decide +kernel

/-- An early pulse, the aligning pulse and the pulse of a frame start, at the first nanosecond of the window and at
its last; the aligning pulse in slot 62 and in slot 63 of the frame it ends, and at a frame start already made; the
frame-start rows at the expected time of the locked reference. -/
theorem test_PulsesOfTheLockedReference_hypotheses :
    ((∀ pending, (lockedA pending).Canonical ∧ (lockedA pending).resetAsserted = false) ∧
      (justStarted.Canonical ∧ justStarted.resetAsserted = false)) ∧
    ((lockedA false).timing.mayFall (0 + 109374) = true ∧ 109374 + 15625 < 125000) ∧
    ((lockedA true).timing.mayFall (0 + 109375) = true ∧ (lockedA true).timing.alignPending = true ∧
      125000 ≤ 109375 + 15625 ∧ 109375 ≠ (lockedA true).timing.ownStart) ∧
    (slotsBefore (lockedA true) 123046 = 62 ∧ slotsBefore (lockedA true) 123047 = 64) ∧
    (125000 = justStarted.timing.time + 0 ∧ justStarted.timing.mayFall 125000 = true ∧
      justStarted.timing.ref .a = .good 130000 ∧ 130000 ≤ 125000 + 15625 ∧
      125000 = justStarted.timing.ownStart ∧ justStarted.timing.alignPending = true) ∧
    ((lockedA false).timing.mayFall (0 + 140625) = true ∧ (lockedA false).timing.alignPending = false ∧
      (lockedA false).timing.state.locked = some .a ∧ (lockedA false).timing.ref .a = .good 125000) ∧
    ((lockedA false).timing.aligned = some .a ∧ 125000 = max (lockedA false).timing.time 125000 ∧
      (lockedA false).timing.mayFall 125000 = true ∧ (lockedA false).timing.dueKind = .ordinary ∧
      (inFrame 7 (lockedA false)).timing.dueKind = .leaseTick ∧
      (inFrame 15 (lockedA false)).timing.dueKind = .boundary false) :=
  ⟨⟨fun _ => ⟨idle_canonical, rfl⟩, ⟨idle_canonical, rfl⟩⟩, by decide +kernel⟩

/-- A lease that runs out and a silence limit that is reached, while the part is aligned. -/
theorem test_aligned_rows_hypotheses :
    (inFrame 7 (holds 7 (owned .active) (lockedA false))).circuit 7 = some (owned .active) ∧
    LimitReached (silent.withTiming { (lockedA false).timing with frame := 15 }) .l1 ∧
    after (.silenceLimit .l1 frame) (silent.withTiming { (lockedA false).timing with frame := 15 }) =
      after (.referencePulse .a 125000 frame) (silent.withTiming { (lockedA false).timing with frame := 15 }) :=
  ⟨by decide +kernel, ⟨by decide +kernel, by decide +kernel⟩, by decide +kernel⟩

theorem test_WindowCloses_hypotheses :
    (∀ x, (refA x).Canonical ∧ (refA x).resetAsserted = false) ∧
    (((refA (.qualifying 3 50000)).timing.ref .a).expected? = some 50000 ∧
      (max (refA (.qualifying 3 50000)).timing.time (50000 + 15625) = 65625) ∧
      ((refA (.qualifying 3 50000)).timing.ref (otherRef .a)).notClosedBefore 65625 = true ∧
      65625 ≤ (refA (.qualifying 3 50000)).timing.ownFrameTime) ∧
    ((lockedA false).timing.state.locked = some .a ∧ (lockedA false).timing.aligned.isSome = true ∧
      ((lockedA false).timing.ref (otherRef .a)).notClosedBefore 140625 = true) ∧
    (((lockedA true).withTiming { (lockedA true).timing with refA := .good 100000 }).timing.alignPending = true ∧
      115625 ≤ ((lockedA true).withTiming { (lockedA true).timing with refA := .good 100000 }).timing.ownFrameTime) :=
  ⟨fun _ => ⟨idle_canonical, rfl⟩, by decide +kernel⟩

/-! ### Invariants -/

/-- Both banks describe the two pairs of record 7. -/
def described : State :=
  idle.withMaps
    { idle.maps with bankA := [(69, .pass 7 0 3), (73, .pass 7 0 4)], bankB := [(69, .pass 7 0 3), (73, .pass 7 0 4)] }

theorem described_reads (k : Nat) (h : Sparse.read Entry.idle described.maps.bankA k ≠ .idle) : k = 69 ∨ k = 73 := by
  simp only [described, State.withMaps, Sparse.read] at h
  split at h
  · exact Or.inl ‹_›
  · split at h
    · exact Or.inr ‹_›
    · exact absurd rfl h

/-- A circuit in use and a command waiting. -/
def inUse : State := (holds 7 (owned .active) described).withPending [.claim]

theorem inUse_circuit {id : Nat} {c : Circuit} (h : inUse.circuit id = some c) : id = 7 ∧ c = owned .active := by
  have hr : inUse.record id = if id = 7 then { generation := 1, circuit := some (owned .active) } else idle.record id :=
    State.setRecord_record described 7 { generation := 1, circuit := some (owned .active) } rfl id
  rw [State.circuit_eq, hr] at h
  split at h
  · exact ⟨‹id = 7›, (Option.some.inj h).symm⟩
  · cases h

/-- One bank of the state in use describes the pairs of record 7. -/
theorem inUse_describes (bank : Bank) (hb : bank = described.maps.bankA) (pairs : Circuit → List Pair)
    (treatment : Circuit → Treatment) (hp : pairs (owned .active) = (owned .active).live)
    (ht : treatment (owned .active) = .pass) : BankDescribes inUse bank pairs treatment := by
  subst hb
  refine ⟨fun id c h p hmem => ?_, fun k h => ?_⟩
  · obtain ⟨rfl, rfl⟩ := inUse_circuit h
    rw [hp] at hmem
    rw [ht]
    have : p ∈ [({ src := 3, dst := 5, retiring := false } : Pair), { src := 4, dst := 9, retiring := false }] := hmem
    simp only [List.mem_cons, List.not_mem_nil, or_false] at this
    rcases this with rfl | rfl <;> decide +kernel
  · rcases described_reads k h with rfl | rfl
    · exact ⟨7, owned .active, { src := 3, dst := 5, retiring := false }, by decide +kernel,
        hp ▸ List.mem_cons_self, rfl⟩
    · exact ⟨7, owned .active, { src := 4, dst := 9, retiring := false }, by decide +kernel,
        hp ▸ List.mem_cons_of_mem _ List.mem_cons_self, rfl⟩

/-- One state that is sound in every sense, from which a step answers. -/
theorem test_invariants_hypotheses : inUse.Canonical ∧ inUse.ListsDistinct ∧ inUse.ClosedAreHeard ∧
    inUse.DownLinksEmpty ∧ inUse.LeasesBounded ∧ inUse.StagedSlotsApart ∧ inUse.TimingSound ∧ inUse.RecordsFormed ∧
    inUse.QueuesOwned ∧ inUse.BanksDescribe ∧ step inUse = .next (holds 7 (owned .active) described) := by
  refine ⟨?_, ⟨List.nodup_nil, List.nodup_nil, List.nodup_nil, fun n => by cases n <;> decide +kernel⟩, ⟨?_, ?_⟩, ?_,
    ?_, ?_, ⟨fun r h => (by cases h), fun _ => rfl, by decide +kernel, by decide +kernel⟩, ⟨?_, ?_⟩,
    ⟨fun n id h => (by cases n <;> cases h), fun id h => (by cases h)⟩, ⟨?_, ?_, ?_, ?_⟩, rfl⟩
  · unfold State.Canonical
    decide +kernel
  · intro n _
    refine ⟨by cases n <;> rfl, fun id c h _ => ?_⟩
    rw [(inUse_circuit h).2]
    decide
  · intro _
    refine ⟨rfl, fun id c h _ => ?_⟩
    rw [(inUse_circuit h).2]
    decide
  · intro n
    cases n <;> exact ⟨fun _ => ⟨rfl, rfl, rfl, rfl, rfl, rfl, rfl⟩, by decide +kernel⟩
  · intro id c h
    rw [(inUse_circuit h).2]
    decide
  · intro i j ci cj hij hi hj
    exact absurd ((inUse_circuit hi).1.trans (inUse_circuit hj).1.symm) hij
  · intro id c h
    rw [(inUse_circuit h).2]
    exact ⟨by decide, by decide, by decide, by decide, by unfold ListFormed; decide, by unfold ListFormed; decide,
      by decide, ⟨rfl, rfl⟩, rfl, rfl, rfl, List.not_mem_nil⟩
  · exact fun id _ => List.not_mem_nil
  · exact inUse_describes _ rfl _ _ rfl rfl
  · intro i j ci cj hij hi hj
    exact absurd ((inUse_circuit hi).1.trans (inUse_circuit hj).1.symm) hij
  · exact fun _ => inUse_describes _ rfl _ _ rfl rfl
  · exact fun _ => rfl

end Sys2Proof.Machine.Test
end

section
/-! SUPPORT. The slot allocation family: a change of one record's staged form, and the DROP item. -/

namespace Sys2Proof.Machine

/-! ### A change of one record's staged form -/

/-- A circuit replaced, its edit batch taken and its id listed is a change of its staged form, with whatever the batch
makes of the staged entries (R28, R34). -/
theorem State.restage_restaged {s : State} {c : Circuit} {pairs : List Pair} {entry : Pair → Entry} {batch : EditBatch}
    (id : Nat) (c' : Circuit) (h : s.Canonical) (hbatch : StagedEntries c pairs entry s (s.editStaged batch)) :
    Restaged id c c' pairs entry s (((s.setCircuit id c').editStaged batch).enlist id) := by
  have hrecord : ∀ j, (((s.setCircuit id c').editStaged batch).enlist id).record j =
      if j = id then { generation := (s.record id).generation, circuit := some c' } else s.record j :=
    State.setCircuit_record s id c' h.1
  refine ⟨?_, fun j hj => ?_, hbatch, rfl, rfl, rfl, rfl, rfl, rfl, rfl, rfl, rfl, rfl, rfl, rfl⟩
  · rw [hrecord, if_pos rfl]
  · rw [hrecord, if_neg hj]

/-! ### The DROP item -/

/-- The three states in which a release has something to release. -/
theorem Circuit.isReleasable_iff (c : Circuit) :
    c.isReleasable = true ↔ c.state = .pending ∨ c.state = .active ∨ c.state = .suspended := by
  unfold Circuit.isReleasable
  cases c.state <;> simp

/-- A DROP item that the engine takes acts on the state without it (R75, R77). -/
theorem exec_drop {s : State} {id : Nat} (h : TakesFollowUp s .drop id) :
    exec .drop s = .next ((withoutHead s).dropMarked id) := by
  show Host.Outcome.next (s.whileRunning (State.followUpAdmission .drop State.dropMarked)) = _
  rw [State.next_released _ h.1, State.followUpAdmission_taken s .drop id _ h]

/-- A DROP item that still applies removes the marked pairs (R66, R77). -/
theorem State.dropMarked_restaged {s : State} {id : Nat} {c : Circuit} (h : s.Canonical) (hc : s.circuit id = some c)
    (hlive : c.isReleasable = true) (hdrop : c.pendingChange = some .reshapeDrop) :
    Restaged id c { c with staged := c.staged.filter fun p => !p.retiring } (c.staged.filter fun p => p.retiring)
      (fun _ => .idle) s (s.dropMarked id) := by
  unfold State.dropMarked
  rw [hc]
  dsimp only
  rw [if_pos ⟨hlive, hdrop⟩]
  exact State.restage_restaged id _ h (s.editStaged_clear c _ (State.stagedBank_wf h))

/-- A DROP item that no longer applies is discarded (R76). -/
theorem State.dropMarked_discards {s : State} {id : Nat}
    (h : ∀ c, s.circuit id = some c → c.isReleasable = true → c.pendingChange ≠ some .reshapeDrop) :
    s.dropMarked id = s := by
  unfold State.dropMarked
  cases hc : s.circuit id with
  | none => rfl
  | some c => exact if_neg fun hboth => h c hc hboth.1 hboth.2

/-- Settles O41: the DROP item is the change of its record's staged form that its batch makes, or nothing. -/
theorem dropItem : Obligations.DropItem := by
  intro s id hcanon htakes
  have hcanon' : (withoutHead s).Canonical := hcanon
  refine ⟨fun c hc hstate hdrop _ => ⟨_, exec_drop htakes, ?_⟩, fun hgone => ?_⟩
  · have hlive : c.isReleasable = true := by
      rw [Circuit.isReleasable_iff]
      obtain hactive | hsuspended | hpending := hstate
      · exact .inr (.inl hactive)
      · exact .inr (.inr hsuspended)
      · exact .inl hpending
    exact State.dropMarked_restaged hcanon' hc hlive hdrop
  · rw [exec_drop htakes, State.dropMarked_discards]
    intro c hc hlive
    rw [Circuit.isReleasable_iff] at hlive
    obtain hnone | ⟨d, hd, hover⟩ := hgone
    · exact absurd (hc.symm.trans hnone) (by simp)
    · cases hc.symm.trans hd
      rcases hover with hstate | hstate | hchange
      · simp [hstate] at hlive
      · simp [hstate] at hlive
      · exact hchange

end Sys2Proof.Machine
end

section
/-! SUPPORT. The slot allocation family: the placement procedures (R56 to R59). -/

namespace Sys2Proof.Machine

/-- The listed slots are all free, or one of them is not. -/
theorem all_contains_iff (free slots : List Nat) :
    (slots.all fun slot => free.contains slot) = true ↔ ∀ slot ∈ slots, slot ∈ free := by
  simp only [List.all_eq_true, List.contains_iff_mem]

/-- FIXED chooses the listed slots when every one is free (R56). -/
theorem chooseFixed_of_free {free listed : List Nat} (h : ∀ slot ∈ listed, slot ∈ free) :
    chooseFixed free listed = some listed :=
  if_pos ((all_contains_iff free listed).mpr h)

/-- FIXED finds no choice when a listed slot is not free (R56). -/
theorem chooseFixed_of_taken {free listed : List Nat} (h : ∃ slot ∈ listed, slot ∉ free) :
    chooseFixed free listed = none := by
  obtain ⟨slot, hmem, htaken⟩ := h
  exact if_neg fun hall => htaken ((all_contains_iff free listed).mp hall slot hmem)

/-- The first of a range of candidates is found at a start that passes after earlier ones that do not. -/
theorem find?_map_range_eq_some {candidate : Nat → List Nat} {test : List Nat → Bool} {count start : Nat}
    (hstart : start < count) (hpass : test (candidate start) = true)
    (hearlier : ∀ earlier, earlier < start → test (candidate earlier) = false) :
    ((List.range count).map candidate).find? test = some (candidate start) := by
  rw [List.find?_map, Option.map_eq_some_iff]
  refine ⟨start, List.find?_range_eq_some.mpr ⟨hpass, List.mem_range.mpr hstart, fun j hj => ?_⟩, rfl⟩
  simp [hearlier j hj]

/-- The search of a range of candidates for one whose slots are all free: the first such start (R57, R58). -/
theorem findFree_eq_some {free : List Nat} {slot : Nat → Nat → Nat} {count n start : Nat} (hstart : start < count)
    (hfree : ∀ k, k < n → slot start k ∈ free)
    (hearlier : ∀ earlier, earlier < start → ∃ k, k < n ∧ slot earlier k ∉ free) :
    (((List.range count).map fun s => (List.range n).map (slot s)).find? fun run =>
      run.all fun x => free.contains x) = some ((List.range n).map (slot start)) := by
  have hpass : ∀ s, (((List.range n).map (slot s)).all fun x => free.contains x) = true ↔
      ∀ k, k < n → slot s k ∈ free := by
    intro s
    simp
  refine find?_map_range_eq_some hstart ((hpass start).mpr hfree) fun earlier hlt => ?_
  obtain ⟨k, hk, htaken⟩ := hearlier earlier hlt
  exact Bool.eq_false_iff.mpr fun hall => htaken ((hpass earlier).mp hall k hk)

/-- The search of a range of candidates finds none when each has a slot that is not free (R57, R58). -/
theorem findFree_eq_none {free : List Nat} {slot : Nat → Nat → Nat} {count n : Nat}
    (h : ∀ start, start < count → ∃ k, k < n ∧ slot start k ∉ free) :
    (((List.range count).map fun s => (List.range n).map (slot s)).find? fun run =>
      run.all fun x => free.contains x) = none := by
  rw [List.find?_eq_none]
  intro run hrun hall
  obtain ⟨start, hstart, rfl⟩ := List.mem_map.mp hrun
  obtain ⟨k, hk, htaken⟩ := h start (List.mem_range.mp hstart)
  exact htaken ((all_contains_iff _ _).mp hall _ (List.mem_map.mpr ⟨k, List.mem_range.mpr hk, rfl⟩))

/-- ANY chooses as many slots as asked for, when there are that many (R59). -/
theorem length_chooseAny {free : List Nat} {n : Nat} (h : n ≤ free.length) : (chooseAny free n).length = n := by
  rw [chooseAny, List.length_take]
  omega

/-- ANY chooses slots below every free slot that it leaves (R59). -/
theorem chooseAny_lowest {free : List Nat} {n a b : Nat} (h : free.Pairwise (· < ·)) (ha : a ∈ chooseAny free n)
    (hb : b ∈ free) (hleft : b ∉ chooseAny free n) : a < b := by
  unfold chooseAny at ha hleft
  rw [← List.take_append_drop n free] at h hb
  have hdrop : b ∈ free.drop n := (List.mem_append.mp hb).resolve_left hleft
  exact (List.pairwise_append.mp h).2.2 a ha b hdrop

/-- The count test on one side (R55). -/
theorem chooseSlots_noRoom {free : List Nat} {n : Nat} (h : free.length < n) (placement : Placement)
    (listed : List Nat) : chooseSlots free n placement listed = .error .noRoom :=
  if_pos h

/-- The count test having passed, FIXED answers its choice or SLOT_TAKEN (R55, R56). -/
theorem chooseSlots_fixed {free : List Nat} {n : Nat} (h : n ≤ free.length) (listed : List Nat) :
    chooseSlots free n .fixed listed = (chooseFixed free listed).elim (.error .slotTaken) .ok := by
  unfold chooseSlots
  rw [if_neg (by omega)]
  cases chooseFixed free listed <;> rfl

/-- The count test having passed, CONTIGUOUS answers its choice or NO_FIT (R55, R57). -/
theorem chooseSlots_contiguous {free : List Nat} {n : Nat} (h : n ≤ free.length) (listed : List Nat) :
    chooseSlots free n .contiguous listed = (chooseContiguous free n).elim (.error .noFit) .ok := by
  unfold chooseSlots
  rw [if_neg (by omega)]
  cases chooseContiguous free n <;> rfl

/-- The count test having passed, SPREAD answers its choice or NO_FIT (R55, R58). -/
theorem chooseSlots_spread {free : List Nat} {n : Nat} (h : n ≤ free.length) (listed : List Nat) :
    chooseSlots free n .spread listed = (chooseSpread free n).elim (.error .noFit) .ok := by
  unfold chooseSlots
  rw [if_neg (by omega)]
  cases chooseSpread free n <;> rfl

/-- The count test having passed, ANY answers its choice (R55, R59). -/
theorem chooseSlots_any {free : List Nat} {n : Nat} (h : n ≤ free.length) (listed : List Nat) :
    chooseSlots free n .any listed = .ok (chooseAny free n) :=
  if_neg (by omega)

/-- Settles O30: CONTIGUOUS and SPREAD are searches of a range of starts, FIXED is a test, ANY takes the
lowest. -/
theorem placementProcedures : Obligations.PlacementProcedures := by
  intro free n _ _
  refine ⟨fun _ => chooseFixed_of_free, fun _ => chooseFixed_of_taken, fun start hstart => ?_, fun hnone => ?_,
    fun start hstart => ?_, fun hnone => ?_, fun hasc hcount => ?_⟩
  · exact findFree_eq_some (slot := fun s k => s + k) (show start < 64 - n + 1 by omega)
  · have hfind : chooseContiguous free n = none :=
      findFree_eq_none (slot := fun s k => s + k) fun start (hlt : start < 64 - n + 1) => hnone start (by omega)
    exact ⟨hfind, fun hcount listed => by rw [chooseSlots_contiguous hcount, hfind]; rfl⟩
  · exact findFree_eq_some (slot := fun s k => s + k * (64 / n)) hstart
  · have hfind : chooseSpread free n = none := findFree_eq_none (slot := fun s k => s + k * (64 / n)) hnone
    exact ⟨hfind, fun hcount listed => by rw [chooseSlots_spread hcount, hfind]; rfl⟩
  · exact ⟨length_chooseAny hcount, fun _ => List.mem_of_mem_take, fun a ha b hb hleft =>
      chooseAny_lowest hasc ha hb hleft⟩

end Sys2Proof.Machine
end

section
/-! SUPPORT. The slot allocation family: the free sets, the order of the checks, the slots of a RESHAPE and the sorted
pairing (R49, R55, R60, R63, R64). -/

namespace Sys2Proof.Machine

/-! ### The free sets (R49) -/

/-- In a canonical table the entries whose circuit has a property are the records whose circuit has it. -/
theorem State.exists_entry_iff (s : State) (property : Circuit → Prop) (h : Sparse.wf Record.initial s.table = true) :
    (∃ e ∈ s.table, ∃ c, e.2.circuit = some c ∧ property c) ↔ ∃ id c, s.circuit id = some c ∧ property c := by
  constructor
  · rintro ⟨⟨id, r⟩, hmem, c, hc, hp⟩
    have hread : s.record id = r := Sparse.read_of_mem _ _ h hmem
    exact ⟨id, c, by rw [State.circuit_eq, hread, hc], hp⟩
  · rintro ⟨id, c, hc, hp⟩
    have hne : s.record id ≠ Record.initial := by
      intro he
      rw [State.circuit_eq, he] at hc
      cases hc
    exact ⟨_, Sparse.mem_of_read _ _ hne, c, hc, hp⟩

/-- An output slot is used when it is the destination of a staged pair (R49). -/
theorem State.outputUsed_iff (s : State) (t slot : Nat) (h : Sparse.wf Record.initial s.table = true) :
    s.outputUsed t slot = true ↔
      ∃ id c, s.circuit id = some c ∧ c.dstTrunk = t ∧ ∃ p ∈ c.staged, p.dst = slot := by
  rw [← State.exists_entry_iff s (fun c => c.dstTrunk = t ∧ ∃ p ∈ c.staged, p.dst = slot) h, State.outputUsed,
    List.any_eq_true]
  refine exists_congr fun e => and_congr_right fun _ => ?_
  cases e.2.circuit <;> simp

/-- An input slot is used when it is the source of a staged pair of a TRUNK circuit (R49). -/
theorem State.inputUsed_iff (s : State) (t slot : Nat) (h : Sparse.wf Record.initial s.table = true) :
    s.inputUsed t slot = true ↔
      ∃ id c, s.circuit id = some c ∧ c.isTrunk = true ∧ c.srcTrunk = t ∧ ∃ p ∈ c.staged, p.src = slot := by
  rw [← State.exists_entry_iff s
    (fun c => c.isTrunk = true ∧ c.srcTrunk = t ∧ ∃ p ∈ c.staged, p.src = slot) h, State.inputUsed, List.any_eq_true]
  refine exists_congr fun e => and_congr_right fun _ => ?_
  cases e.2.circuit <;> simp [and_assoc]

/-- The output free set of a trunk: the slots that no staged pair has as its destination (R49). -/
theorem State.mem_freeOutputs (s : State) (t slot : Nat) (h : Sparse.wf Record.initial s.table = true) :
    slot ∈ s.freeOutputs t ↔ slot < 64 ∧
      ∀ id c, s.circuit id = some c → c.dstTrunk = t → ∀ p ∈ c.staged, p.dst ≠ slot := by
  have hused := s.outputUsed_iff t slot h
  simp only [State.freeOutputs, List.mem_filter, List.mem_range, Bool.not_eq_true', ← Bool.not_eq_true, hused]
  refine and_congr_right fun _ => ?_
  simp only [not_exists, not_and, ne_eq]

/-- The input free set of a trunk: the slots that no staged pair of a TRUNK circuit has as its source (R49). -/
theorem State.mem_freeInputs (s : State) (t slot : Nat) (h : Sparse.wf Record.initial s.table = true) :
    slot ∈ s.freeInputs t ↔ slot < 64 ∧
      ∀ id c, s.circuit id = some c → c.isTrunk = true → c.srcTrunk = t → ∀ p ∈ c.staged, p.src ≠ slot := by
  have hused := s.inputUsed_iff t slot h
  simp only [State.freeInputs, List.mem_filter, List.mem_range, Bool.not_eq_true', ← Bool.not_eq_true, hused]
  refine and_congr_right fun _ => ?_
  simp only [not_exists, not_and, ne_eq]

/-! ### The two sides (R55, R63, R64) -/

/-- The slots of a CLAIM, its source side having chosen: the destination side decides (R55). -/
theorem State.claimPairs_of_sources {s : State} {f : ClaimFields} {sources : List Nat}
    (h : chooseSlots (s.freeInputs f.srcTrunk) f.width f.srcPlacement f.fixed = .ok sources) :
    s.claimPairs f =
      (chooseSlots (s.freeOutputs f.dstTrunk) f.width f.dstPlacement []).map (pairSlots sources) := by
  unfold State.claimPairs
  rw [h]
  cases chooseSlots (s.freeOutputs f.dstTrunk) f.width f.dstPlacement [] <;> rfl

/-- The slots of a CLAIM, its source side having failed (R55). -/
theorem State.claimPairs_of_error {s : State} {f : ClaimFields} {code : ResultCode}
    (h : chooseSlots (s.freeInputs f.srcTrunk) f.width f.srcPlacement f.fixed = .error code) :
    s.claimPairs f = .error code := by
  unfold State.claimPairs
  rw [h]

/-- The slots of a RESHAPE, its source side having chosen: the destination side decides (R55, R64). -/
theorem State.reshapePairs_of_sources {s : State} {c : Circuit} {width : Nat} {sources : List Nat}
    (h : s.reshapeSources c width = .ok sources) (placement : Placement) :
    s.reshapePairs c width placement =
      (chooseSlots (s.freeOutputs c.dstTrunk) width placement []).map (pairSlots sources) := by
  unfold State.reshapePairs
  rw [h]
  cases chooseSlots (s.freeOutputs c.dstTrunk) width placement [] <;> rfl

/-- The slots of a RESHAPE, its source side having failed (R55). -/
theorem State.reshapePairs_of_error {s : State} {c : Circuit} {width : Nat} {code : ResultCode}
    (h : s.reshapeSources c width = .error code) (placement : Placement) :
    s.reshapePairs c width placement = .error code := by
  unfold State.reshapePairs
  rw [h]

/-- A RESHAPE to a lesser or the same width keeps the lowest source slots (R63). -/
theorem State.reshapeSources_kept (s : State) {c : Circuit} {width : Nat} (h : width ≤ c.width) :
    s.reshapeSources c width = .ok (c.sources.take width) :=
  if_pos h

/-- A RESHAPE to a greater width keeps the source slots and adds the missing ones by ANY (R63). -/
theorem State.reshapeSources_added (s : State) {c : Circuit} {width : Nat} (h : c.width < width) :
    s.reshapeSources c width =
      (chooseSlots (s.freeInputs c.srcTrunk) (width - c.width) .any []).map (c.sources ++ ·) := by
  unfold State.reshapeSources
  rw [if_neg (by omega)]
  cases chooseSlots (s.freeInputs c.srcTrunk) (width - c.width) .any [] <;> rfl

/-! ### Sorting and pairing (R60) -/

/-- Insertion adds one slot. -/
theorem insertSlot_perm (x : Nat) (l : List Nat) : (insertSlot x l).Perm (x :: l) := by
  induction l with
  | nil => exact .refl _
  | cons y rest ih =>
    unfold insertSlot
    split
    · exact .refl _
    · exact (ih.cons y).trans (.swap x y rest)

/-- Sorting rearranges. -/
theorem sortSlots_perm (l : List Nat) : (sortSlots l).Perm l := by
  induction l with
  | nil => exact .refl _
  | cons x rest ih => exact (insertSlot_perm x (sortSlots rest)).trans (ih.cons x)

/-- Insertion keeps an ascending order. -/
theorem insertSlot_sorted (x : Nat) {l : List Nat} (h : l.Pairwise (· ≤ ·)) : (insertSlot x l).Pairwise (· ≤ ·) := by
  induction l with
  | nil => simp [insertSlot]
  | cons y rest ih =>
    obtain ⟨hy, hrest⟩ := List.pairwise_cons.mp h
    unfold insertSlot
    split
    · rename_i hxy
      refine List.pairwise_cons.mpr ⟨fun a ha => ?_, h⟩
      rcases List.mem_cons.mp ha with rfl | ha
      · exact hxy
      · exact Nat.le_trans hxy (hy a ha)
    · refine List.pairwise_cons.mpr ⟨fun a ha => ?_, ih hrest⟩
      rcases (mem_insertSlot x a rest).mp ha with rfl | ha
      · omega
      · exact hy a ha

/-- Sorted slots stand in ascending order. -/
theorem sortSlots_sorted (l : List Nat) : (sortSlots l).Pairwise (· ≤ ·) := by
  induction l with
  | nil => exact .nil
  | cons x rest ih => exact insertSlot_sorted x ih

/-- The staged source slots of a circuit are those of its unmarked pairs. -/
theorem Circuit.sources_perm (c : Circuit) : c.sources.Perm ((marked false c.staged).map Pair.src) := by
  have hmarked : marked false c.staged = c.staged.filter fun p => !p.retiring := by
    simp [marked]
  rw [hmarked]
  exact sortSlots_perm _

/-- As many sources as destinations: every source slot is paired. -/
theorem mem_pairSlots_src {sources destinations : List Nat} (h : sources.length = destinations.length) (a : Nat) :
    a ∈ (pairSlots sources destinations).map Pair.src ↔ a ∈ sources := by
  rw [pairSlots_src, ← h, ← length_sortSlots sources, List.take_length, mem_sortSlots]

/-- As many sources as destinations: every destination slot is paired. -/
theorem mem_pairSlots_dst {sources destinations : List Nat} (h : sources.length = destinations.length) (a : Nat) :
    a ∈ (pairSlots sources destinations).map Pair.dst ↔ a ∈ destinations := by
  rw [pairSlots_dst, h, ← length_sortSlots destinations, List.take_length, mem_sortSlots]

/-- Settles O31: one lemma for each part, the two sides of an allocation taken in their order. -/
theorem allocationOrder : Obligations.AllocationOrder := by
  refine ⟨fun s h t slot => ⟨s.mem_freeOutputs t slot h.1, s.mem_freeInputs t slot h.1⟩,
    fun free n listed => ⟨fun hshort placement => chooseSlots_noRoom hshort placement listed, fun hcount => ?_⟩,
    fun s f code sources destinations => ⟨State.claimPairs_of_error, fun hsources => ?_⟩,
    fun s c width => ⟨s.reshapeSources_kept, fun hwide hshort => ?_, fun hwide hcount => ?_⟩,
    fun c => ⟨sortSlots_sorted _, c.sources_perm⟩,
    fun s c width placement code sources destinations =>
      ⟨fun herror => State.reshapePairs_of_error herror placement, fun hsources => ?_⟩,
    fun sources destinations hs hd hlen => ⟨pairSlots_src_ascending _ _ hs, pairSlots_dst_ascending _ _ hd,
      mem_pairSlots_src hlen, mem_pairSlots_dst hlen, pairSlots_unmarked _ _⟩⟩
  · rw [chooseSlots_fixed hcount, chooseSlots_contiguous hcount, chooseSlots_spread hcount]
    refine ⟨?_, ?_, ?_, ?_, ?_, ?_, chooseSlots_any hcount listed⟩ <;> intros <;> simp only [*, Option.elim]
  · rw [State.claimPairs_of_sources hsources]
    constructor <;> intro hside <;> rw [hside] <;> rfl
  · rw [s.reshapeSources_added hwide, chooseSlots_noRoom hshort]
    rfl
  · rw [s.reshapeSources_added hwide, chooseSlots_any hcount]
    rfl
  · rw [State.reshapePairs_of_sources hsources]
    constructor <;> intro hside <;> rw [hside] <;> rfl

end Sys2Proof.Machine
end

section
/-! SUPPORT. The slot allocation family: how the bodies of 12.3 are read (R54, R80, R187). -/

namespace Sys2Proof.Machine

/-! ### Words and codes -/

/-- The upper byte of a body word, from the word's number. -/
theorem bodyHi_eq (body : List Word) (i : Nat) : bodyHi body i = wordNat body i / 256 := by
  have := (bodyWord body i).isLt
  simp only [bodyHi, bodyWord, wordNat, Word.hi, BitVec.toNat_ofNat] at this ⊢
  omega

/-- The lower byte of a body word, from the word's number. -/
theorem bodyLo_eq (body : List Word) (i : Nat) : bodyLo body i = wordNat body i % 256 := by
  simp only [bodyLo, bodyWord, wordNat, Word.lo, BitVec.toNat_ofNat]

/-- A body word is a number made of two bytes exactly when its bytes are those. -/
theorem wordNat_eq_iff {body : List Word} {i hi lo : Nat} (hlo : lo < 256) :
    wordNat body i = hi * 256 + lo ↔ bodyHi body i = hi ∧ bodyLo body i = lo := by
  rw [bodyHi_eq, bodyLo_eq]
  generalize wordNat body i = word
  omega

/-- A word is the one that a number is of exactly when the number is its value. -/
theorem wordNat_eq_toNat {body : List Word} {i : Nat} {w : Word} : wordNat body i = w.toNat ↔ bodyWord body i = w :=
  BitVec.toNat_inj

/-- A lower byte is a byte exactly when the number of the one is that of the other. -/
theorem bodyLo_eq_toNat {body : List Word} {i : Nat} {b : Byte} : bodyLo body i = b.toNat ↔ (bodyWord body i).lo = b :=
  BitVec.toNat_inj

theorem bodyLo_lt (body : List Word) (i : Nat) : bodyLo body i < 256 := (bodyWord body i).lo.isLt

theorem bodyHi_lt (body : List Word) (i : Nat) : bodyHi body i < 256 := (bodyWord body i).hi.isLt

/-- A placement code is read as a placement exactly when it is that placement's code (12.2). -/
theorem placementOf_eq_some {code : Nat} {p : Placement} : placementOf code = some p ↔ code = placementCode p := by
  constructor
  · unfold placementOf
    split <;> rintro ⟨⟩ <;> rfl
  · rintro rfl
    cases p <;> rfl

/-- A placement code fits in four bits. -/
theorem placementCode_lt (p : Placement) : placementCode p < 4 := by
  cases p <;> decide

/-- An open flag code is read as a flag exactly when it is that flag's bit. -/
theorem openFlagOf_eq_some {code : Nat} {isOpen : Bool} : openFlagOf code = some isOpen ↔ code = bitNat isOpen := by
  constructor
  · unfold openFlagOf
    split <;> rintro ⟨⟩ <;> rfl
  · rintro rfl
    cases isOpen <;> rfl

/-- A link number is read as a link exactly when it is that link's. -/
theorem linkOf_eq_some {code : Nat} {n : Link} : linkOf code = some n ↔ code = linkNumber n := by
  constructor
  · unfold linkOf
    split <;> rintro ⟨⟩ <;> rfl
  · rintro rfl
    cases n <;> rfl

/-- An owner code is read as an owner exactly when it is that owner's (12.2). -/
theorem ownerOf_eq_some {code : Nat} {o : Owner} : ownerOf code = some o ↔ code = o.code := by
  unfold ownerOf
  split
  · cases o with
    | supervisor => simp [Owner.code]
    | link n => cases n <;> simp [Owner.code, linkNumber]
  · rename_i hne
    cases o with
    | supervisor => simpa [Owner.code] using hne
    | link n => simp [linkOf_eq_some, Owner.code]

/-- A destination placement is read exactly when its code is that of a placement other than FIXED (R54). -/
theorem destinationPlacement_eq_some {code : Nat} {p : Placement} :
    destinationPlacement code = some p ↔ code = placementCode p ∧ p ≠ .fixed := by
  unfold destinationPlacement
  split
  · rename_i hfixed
    rw [placementOf_eq_some] at hfixed
    subst hfixed
    cases p <;> simp [placementCode]
  · rename_i hne
    rw [placementOf_eq_some]
    constructor
    · rintro rfl
      exact ⟨rfl, fun hp => hne (placementOf_eq_some.mpr (by rw [hp]))⟩
    · exact And.left

/-- The end of a body after its plain words is read as an owner word, or none, exactly when it is one (R187). -/
theorem ownerWord_eq_some {who : Owner} {body : List Word} {plain : Nat} {owner : Option Owner} :
    ownerWord who body plain = some owner ↔ OwnerWord who owner body plain := by
  unfold ownerWord OwnerWord
  split
  · rename_i hplain
    cases owner with
    | none => simp [hplain]
    | some o => simp [hplain]
  · rename_i hplain
    split
    · rename_i hword
      cases owner with
      | none => simp [hplain]
      | some o => simp [hword, ownerOf_eq_some, bodyLo_eq]
    · rename_i hword
      cases owner with
      | none => simp [hplain]
      | some o =>
        simp only [reduceCtorEq, false_iff]
        exact fun h => hword ⟨h.1, h.2.1⟩

/-- The check of a FIXED list is that its slots stand in strictly ascending order. -/
theorem strictlyAscending_iff (l : List Nat) : strictlyAscending l = true ↔ l.Pairwise (· < ·) := by
  induction l with
  | nil => simp [strictlyAscending]
  | cons a rest ih => simp [strictlyAscending, ih]

/-! ### RESHAPE and BRANCH bodies -/

/-- A RESHAPE body is read exactly when it is one (12.3). -/
theorem parseReshape_eq_some {body : List Word} {width : Nat} {placement : Placement} :
    parseReshape body = some (width, placement) ↔ ReshapeBody body width placement := by
  have hcode := placementCode_lt placement
  unfold parseReshape ReshapeBody
  rw [wordNat_eq_iff (by omega)]
  split
  · rename_i hout
    constructor
    · rintro ⟨⟩
    · rintro ⟨hlength, h1, h16, -, rfl, -⟩
      omega
  · simp only [Option.map_eq_some_iff, destinationPlacement_eq_some, Prod.mk.injEq]
    constructor
    · rintro ⟨p, ⟨hp, hne⟩, rfl, rfl⟩
      exact ⟨by omega, by omega, by omega, hne, rfl, hp⟩
    · rintro ⟨-, -, -, hne, hwidth, hp⟩
      exact ⟨placement, ⟨hp, hne⟩, hwidth, rfl⟩

/-- A BRANCH body is read exactly when it is one (12.3). -/
theorem parseBranch_eq_some {who : Owner} {body : List Word} {f : BranchFields} :
    parseBranch who body = some f ↔ BranchBody who body f := by
  have hcode := placementCode_lt f.dstPlacement
  unfold BranchBody
  rw [wordNat_eq_iff f.generation.isLt, wordNat_eq_iff (by omega), ← bodyLo_eq, bodyLo_eq_toNat, bodyLo_eq_toNat,
    wordNat_eq_toNat, ← ownerWord_eq_some]
  constructor
  · intro h
    unfold parseBranch at h
    split at h
    · rename_i howner hplacement
      split at h
      · cases h
      · cases h
        obtain ⟨hp, hne⟩ := destinationPlacement_eq_some.mp hplacement
        exact ⟨bodyHi_lt body 1, by dsimp only; omega, hne, howner, ⟨rfl, rfl⟩, ⟨rfl, hp⟩, rfl, rfl⟩
    · cases h
  · rintro ⟨-, htrunk, hne, howner, ⟨hparent, hgeneration⟩, ⟨hdst, hp⟩, hfill, hlease⟩
    unfold parseBranch
    rw [howner, destinationPlacement_eq_some.mpr ⟨hp, hne⟩]
    dsimp only
    rw [if_neg (by omega), hparent, hgeneration, hdst, hfill, hlease]

/-! ### CLAIM bodies -/

/-- The two bytes of a word as numbers, the upper one first. -/
def wordBytes (w : Word) : List Nat := [w.hi.toNat, w.lo.toNat]

/-- Byte i of a run of words, two to a word, the upper one first. -/
def byteAt (words : List Word) (i : Nat) : Nat :=
  if i % 2 = 0 then (words.getD (i / 2) 0).toNat / 256 else (words.getD (i / 2) 0).toNat % 256

/-- The bytes of a run of words by their places. -/
theorem flatMap_wordBytes (words : List Word) :
    words.flatMap wordBytes = (List.range (2 * words.length)).map (byteAt words) := by
  induction words with
  | nil => rfl
  | cons w rest ih =>
    have hlt := w.isLt
    have hshift : ∀ i, byteAt (w :: rest) (i + 2) = byteAt rest i := by
      intro i
      simp [byteAt]
    have h0 : byteAt (w :: rest) 0 = w.hi.toNat := by
      simp only [byteAt, Word.hi, Nat.zero_mod, if_true, Nat.zero_div, List.getD_cons_zero, BitVec.toNat_ofNat]
      omega
    have h1 : byteAt (w :: rest) 1 = w.lo.toNat := by
      simp [byteAt, Word.lo]
    have hlength : 2 * (w :: rest).length = 2 * rest.length + 1 + 1 := by
      rw [List.length_cons]
      omega
    rw [List.flatMap_cons, ih, hlength, List.range_succ_eq_map, List.range_succ_eq_map]
    simp [wordBytes, h0, h1, hshift, Function.comp_def]

/-- A slot of the FIXED list is a byte of the words from word 5 (12.3). -/
theorem listedSlot_eq (body : List Word) (i : Nat) : listedSlot body i = byteAt (body.drop 4) i := by
  have hplace : 5 + i / 2 - 1 = 4 + i / 2 := by omega
  simp [listedSlot, byteAt, wordNat, hplace, List.getD_eq_getElem?_getD]

/-- The FIXED list of a body that is long enough holds the listed slots (12.3). -/
theorem fixedSlots_eq {body : List Word} {width : Nat} (h : 4 + (width + 1) / 2 ≤ body.length) :
    fixedSlots body width = (List.range width).map (listedSlot body) := by
  have hfixed : fixedSlots body width = ((body.drop 4).flatMap wordBytes).take width := rfl
  rw [hfixed, flatMap_wordBytes, ← List.map_take, List.take_range, List.length_drop, Nat.min_eq_left (by omega)]
  exact List.map_congr_left fun i _ => (listedSlot_eq body i).symm

/-- A body that ends with or without an owner word has its plain words. -/
theorem OwnerWord.length_ge {who : Owner} {owner : Option Owner} {body : List Word} {plain : Nat}
    (h : OwnerWord who owner body plain) : plain ≤ body.length := by
  unfold OwnerWord at h
  cases owner with
  | none => exact Nat.le_of_eq h.symm
  | some o =>
    obtain ⟨-, hlength, -⟩ := h
    omega

/-- The FIXED list words of a CLAIM are there exactly for a FIXED source placement (R187). -/
theorem fixedWords_eq (width : Nat) (p : Placement) :
    4 + fixedWords width (placementCode p) = if p = .fixed then 4 + (width + 1) / 2 else 4 := by
  cases p <;> simp [fixedWords, placementCode]

/-- The list that a CLAIM of a source placement reads from its body. -/
def readFixed (body : List Word) (width : Nat) (p : Placement) : List Nat :=
  if p = .fixed then fixedSlots body width else []

/-- The list read from a body is the FIXED list of 12.3 for FIXED, and empty for another placement. -/
theorem readFixed_iff {body : List Word} {width : Nat} {p : Placement} {slots : List Nat}
    (h : p = .fixed → 4 + (width + 1) / 2 ≤ body.length) :
    readFixed body width p = slots ∧ slots.Pairwise (· < ·) ∧ (∀ slot ∈ slots, slot ≤ 63) ↔
      (p ≠ .fixed → slots = []) ∧
        (p = .fixed → slots = (List.range width).map (listedSlot body) ∧ slots.Pairwise (· < ·) ∧
          ∀ slot ∈ slots, slot ≤ 63) := by
  unfold readFixed
  by_cases hp : p = .fixed
  · simp [hp, fixedSlots_eq (h hp), eq_comm]
  · simp only [hp, if_false, ne_eq, not_false_eq_true, forall_const, false_implies, and_true]
    constructor
    · exact fun hread => hread.1.symm
    · rintro rfl
      simp

/-- The checks that parseClaim makes on the list it has read. -/
theorem listCheck_iff (slots : List Nat) :
    ¬(slots.any (fun slot => 63 < slot) = true ∨ strictlyAscending slots = false) ↔
      slots.Pairwise (· < ·) ∧ ∀ slot ∈ slots, slot ≤ 63 := by
  rw [not_or, Bool.not_eq_false, strictlyAscending_iff, and_comm]
  simp

/-- The FIXED list words of a CLAIM stand in its body, whatever its owner word (R187). -/
theorem OwnerWord.length_fixed {who : Owner} {owner : Option Owner} {body : List Word} {width : Nat} {p : Placement}
    (h : OwnerWord who owner body (if p = .fixed then 4 + (width + 1) / 2 else 4)) (hp : p = .fixed) :
    4 + (width + 1) / 2 ≤ body.length := by
  rw [if_pos hp] at h
  exact h.length_ge

/-- The open flag stands in the upper byte of its word (12.3). -/
theorem openFlag_upper (isOpen : Bool) : (if isOpen = true then 256 else 0) = bitNat isOpen * 256 := by
  cases isOpen <;> rfl

/-- A CLAIM body that is read holds the fields read from it (12.3). -/
theorem claimBody_of_parseClaim {who : Owner} {body : List Word} {f : ClaimFields} (h : parseClaim who body = some f) :
    ClaimBody who body f := by
  unfold parseClaim at h
  dsimp only at h
  split at h
  · cases h
  · rename_i hwidth
    split at h
    · rename_i owner src dst isOpen howner hsrc hdst hopen
      generalize hread : (if src = .fixed then fixedSlots body (bodyHi body 2) else []) = slots at h
      split at h
      · cases h
      · rename_i hrange
        split at h
        · cases h
        · rename_i hlist
          cases h
          rw [placementOf_eq_some] at hsrc hdst
          rw [openFlagOf_eq_some] at hopen
          rw [hsrc, fixedWords_eq, ownerWord_eq_some] at howner
          have hlo := bodyLo_lt body 2
          have hfixed := (readFixed_iff howner.length_fixed).mp ⟨hread, (listCheck_iff slots).mp hlist⟩
          refine ⟨by dsimp only; omega, by dsimp only; omega, by dsimp only; omega, by dsimp only; omega,
            fun hd => hrange (.inr (.inr hd)), howner, (wordNat_eq_iff (bodyLo_lt body 1)).mpr ⟨rfl, rfl⟩, ?_, ?_, rfl,
            hfixed⟩
          · dsimp only
            rw [Nat.add_assoc, wordNat_eq_iff (by omega)]
            exact ⟨rfl, by omega⟩
          · dsimp only
            rw [openFlag_upper, wordNat_eq_iff (bodyWord body 3).lo.isLt]
            exact ⟨hopen, rfl⟩
    · cases h

/-- A CLAIM body that holds some fields is read as them (12.3). -/
theorem parseClaim_of_claimBody {who : Owner} {body : List Word} {f : ClaimFields} (h : ClaimBody who body f) :
    parseClaim who body = some f := by
  obtain ⟨hsrcTrunk, hdstTrunk, h1, h16, hne, howner, hword1, hword2, hword3, hlease, hlist⟩ := h
  have hsrcCode := placementCode_lt f.srcPlacement
  have hdstCode := placementCode_lt f.dstPlacement
  rw [Nat.add_assoc, wordNat_eq_iff (by omega)] at hword2
  rw [wordNat_eq_iff (by omega)] at hword1
  rw [openFlag_upper, wordNat_eq_iff f.fill.isLt, bodyLo_eq_toNat] at hword3
  rw [wordNat_eq_toNat] at hlease
  obtain ⟨hsrc, hdst⟩ := hword1
  obtain ⟨hwidth, hcodes⟩ := hword2
  obtain ⟨hopen, hfill⟩ := hword3
  obtain ⟨hread, hchecked⟩ := (readFixed_iff howner.length_fixed).mpr hlist
  have hlength : 2 ≤ body.length := by
    have := howner.length_ge
    split at this <;> omega
  have hsrcPlacement : bodyLo body 2 / 16 = placementCode f.srcPlacement := by omega
  have hdstPlacement : bodyLo body 2 % 16 = placementCode f.dstPlacement := by omega
  rw [← fixedWords_eq, ← ownerWord_eq_some] at howner
  unfold parseClaim
  dsimp only
  rw [if_neg (by omega), hsrcPlacement, hwidth, howner, placementOf_eq_some.mpr rfl,
    placementOf_eq_some.mpr hdstPlacement, openFlagOf_eq_some.mpr hopen]
  unfold readFixed at hread
  dsimp only
  rw [hread, if_neg (by simp only [not_or]; exact ⟨by omega, by omega, hne⟩), if_neg ((listCheck_iff _).mpr hchecked),
    hsrc, hdst, hfill, hlease]

/-- A CLAIM body is read as some fields exactly when it holds them (12.3). -/
theorem parseClaim_eq_some {who : Owner} {body : List Word} {f : ClaimFields} :
    parseClaim who body = some f ↔ ClaimBody who body f :=
  ⟨claimBody_of_parseClaim, parseClaim_of_claimBody⟩

/-! ### Bodies written from their fields -/

/-- An owner's code fits in a byte. -/
theorem Owner.code_lt (o : Owner) : o.code < 256 := by
  cases o with
  | supervisor => decide
  | link n => cases n <;> decide

/-- A body written with an owner word where there is an owner ends with it (R187). -/
theorem ownerWord_written {who : Owner} {owner : Option Owner} (front : List Word)
    (h : who ≠ .supervisor → owner = none) : OwnerWord who owner (front ++ ownerWords owner) front.length := by
  cases owner with
  | none => simp [OwnerWord, ownerWords]
  | some o =>
    have hwho : who = .supervisor := Decidable.byContradiction fun hlink => by cases h hlink
    have hcode := o.code_lt
    refine ⟨hwho, by simp [ownerWords], ?_⟩
    have hnat : wordNat (front ++ ownerWords (some o)) (front.length + 1) = o.code % 2 ^ 16 := by
      simp [wordNat, ownerWords]
    rw [hnat]
    omega

/-- Slots written two to a word take half as many words, rounded up (12.3). -/
theorem length_slotWords (slots : List Nat) : (slotWords slots).length = (slots.length + 1) / 2 := by
  induction slots using slotWords.induct with
  | case1 => rfl
  | case2 a => simp [slotWords]
  | case3 a b rest ih =>
    simp only [slotWords, List.length_cons, ih]
    omega

/-- Slots written two to a word are read back, whatever words follow (12.3). -/
theorem bytes_slotWords (slots : List Nat) (after : List Word) (h : ∀ slot ∈ slots, slot < 64) :
    ((slotWords slots ++ after).flatMap wordBytes).take slots.length = slots := by
  induction slots using slotWords.induct with
  | case1 => rfl
  | case2 a =>
    have ha : a < 64 := h a (by simp)
    have hhi : (Word.hi (BitVec.ofNat 16 (a * 256))).toNat = a := by
      simp only [Word.hi, BitVec.toNat_ofNat]
      omega
    simp [slotWords, wordBytes, hhi]
  | case3 a b rest ih =>
    have ha : a < 64 := h a (by simp)
    have hb : b < 64 := h b (by simp)
    have hrest := ih fun slot hs => h slot (by simp [hs])
    have hhi := Word.hi_ofNat (show a < 256 by omega) (show b < 256 by omega)
    have hlo := Word.lo_ofNat a (show b < 256 by omega)
    simpa [slotWords, wordBytes, hhi, hlo] using hrest

/-- A body written from the fields of a BRANCH holds them (12.3). -/
theorem branchBody_written {who : Owner} {f : BranchFields} (hparent : f.parent < 256) (htrunk : f.dstTrunk ≤ 7)
    (hne : f.dstPlacement ≠ .fixed) (howner : who ≠ .supervisor → f.owner = none) :
    BranchBody who
      ([ refWord f.parent f.generation, BitVec.ofNat 16 (f.dstTrunk * 256 + placementCode f.dstPlacement),
         BitVec.ofNat 16 f.fill.toNat, f.lease ] ++ ownerWords f.owner) f := by
  have hcode := placementCode_lt f.dstPlacement
  have hfill := f.fill.isLt
  have hgeneration := f.generation.isLt
  refine ⟨hparent, htrunk, hne, ownerWord_written _ howner, ?_, ?_, ?_, rfl⟩
  · show (refWord f.parent f.generation).toNat = _
    simp only [refWord, Word.ofBytes, BitVec.toNat_ofNat]
    omega
  · show (BitVec.ofNat 16 (f.dstTrunk * 256 + placementCode f.dstPlacement)).toNat = _
    simp only [BitVec.toNat_ofNat]
    omega
  · show (BitVec.ofNat 16 f.fill.toNat).toNat % 256 = _
    simp only [BitVec.toNat_ofNat]
    omega

/-- A body written from the fields of a CLAIM holds them (12.3). -/
theorem claimBody_written {who : Owner} {f : ClaimFields} (hsrc : f.srcTrunk ≤ 7) (hdst : f.dstTrunk ≤ 7)
    (h1 : 1 ≤ f.width) (h16 : f.width ≤ 16) (hne : f.dstPlacement ≠ .fixed)
    (hfixed : f.srcPlacement = .fixed →
      f.fixed.length = f.width ∧ f.fixed.Pairwise (· < ·) ∧ ∀ slot ∈ f.fixed, slot < 64)
    (hempty : f.srcPlacement ≠ .fixed → f.fixed = []) (howner : who ≠ .supervisor → f.owner = none) :
    ClaimBody who
      (claimWords f (placementCode f.srcPlacement) (placementCode f.dstPlacement) (slotWords f.fixed) ++
        ownerWords f.owner) f := by
  have hsrcCode := placementCode_lt f.srcPlacement
  have hdstCode := placementCode_lt f.dstPlacement
  have hfill := f.fill.isLt
  have hplain : (if f.srcPlacement = .fixed then 4 + (f.width + 1) / 2 else 4) =
      (claimWords f (placementCode f.srcPlacement) (placementCode f.dstPlacement) (slotWords f.fixed)).length := by
    simp only [claimWords, List.cons_append, List.nil_append, List.length_cons, length_slotWords]
    split
    · rename_i hp
      rw [(hfixed hp).1]
      omega
    · rename_i hp
      rw [hempty hp]
      rfl
  have hword := ownerWord_written
    (claimWords f (placementCode f.srcPlacement) (placementCode f.dstPlacement) (slotWords f.fixed)) howner
  rw [← hplain] at hword
  refine ⟨hsrc, hdst, h1, h16, hne, hword, ?_, ?_, ?_, rfl, hempty, fun hp => ?_⟩
  · show (BitVec.ofNat 16 (f.srcTrunk * 256 + f.dstTrunk)).toNat = _
    simp only [BitVec.toNat_ofNat]
    omega
  · show (BitVec.ofNat 16 (f.width * 256 + placementCode f.srcPlacement * 16 +
      placementCode f.dstPlacement)).toNat = _
    simp only [BitVec.toNat_ofNat]
    omega
  · show (Word.ofBytes (BitVec.ofNat 8 (bitNat f.isOpen)) f.fill).toNat = _
    rw [openFlag_upper]
    have hbit : bitNat f.isOpen ≤ 1 := by cases f.isOpen <;> decide
    simp only [Word.ofBytes, BitVec.toNat_ofNat]
    omega
  · obtain ⟨hlength, hascending, hslots⟩ := hfixed hp
    refine ⟨?_, hascending, fun slot hs => Nat.le_of_lt_succ (hslots slot hs)⟩
    have hread := bytes_slotWords f.fixed (ownerWords f.owner) hslots
    rw [← fixedSlots_eq (hword.length_fixed hp), ← hlength]
    exact hread.symm

/-- Settles O32: the bodies written hold their fields, and a body is read as some fields exactly when it holds
them. -/
theorem creatingBodiesAreRead : Obligations.CreatingBodiesAreRead := by
  refine ⟨fun who f hsrc hdst h1 h16 hne hfixed hempty howner => ?_, fun who f hparent htrunk hne howner => ?_,
    fun who body => ⟨fun f => parseClaim_eq_some, fun f => parseBranch_eq_some,
      fun width placement => parseReshape_eq_some⟩⟩
  · exact parseClaim_eq_some.mpr (claimBody_written hsrc hdst h1 h16 hne hfixed hempty howner)
  · exact parseBranch_eq_some.mpr (branchBody_written hparent htrunk hne howner)

end Sys2Proof.Machine
end

section
/-! SUPPORT. The slot allocation family: the one answer of a request, and the refusals with BAD_ARGUMENT (R79, R80,
R85). -/

namespace Sys2Proof.Machine

/-! ### The decision of each kind and its answer -/

/-- The decision on a request of a kind. -/
def decisionOf : RequestKind → Owner → List Word → State → Decision
  | .claim => decideClaim
  | .branch => decideBranch
  | .release => decideRelease
  | .reshape => decideReshape
  | .suspend => decideSuspend
  | .resume => decideResume
  | .renew => decideRenew
  | .ask => decideAsk
  | .readCircuit => decideReadCircuit
  | .readSlot => decideReadSlot
  | .readFree => decideReadFree
  | .takeReport => decideTakeReport
  | .commit => decideCommit
  | .resetLink => decideResetLink

/-- The command of a kind admits a request by the decision of that kind. -/
theorem exec_commandOf (kind : RequestKind) {s : State} (h : s.resetAsserted = false) :
    exec (commandOf kind) s = .next (s.admission (some kind) (decisionOf kind)) := by
  cases kind <;> exact State.next_released _ h

/-- The kinds that a link accepts (R132). -/
theorem linkKind_mem {k : Byte} {kind : RequestKind} (h : linkKind k = some kind) :
    kind ∈ [.claim, .branch, .release, .reshape, .suspend, .resume, .renew, .ask] := by
  unfold linkKind at h
  repeat' split at h
  all_goals cases h
  all_goals decide

/-- The decision on a kind that a link accepts does not read the queue of the request. -/
theorem decisionOf_untaken {kind : RequestKind}
    (h : kind ∈ [.claim, .branch, .release, .reshape, .suspend, .resume, .renew, .ask]) (n : Link) (who : Owner)
    (body : List Word) : Untaken n (decisionOf kind who body) := by
  cases kind with
  | claim => exact decideClaim_untaken n who body
  | branch => exact decideBranch_untaken n who body
  | release => exact decideRelease_untaken n who body
  | reshape => exact decideReshape_untaken n who body
  | suspend => exact decideSuspend_untaken n who body
  | resume => exact decideResume_untaken n who body
  | renew => exact decideRenew_untaken n who body
  | ask => exact decideAsk_untaken n who body
  | readCircuit | readSlot | readFree | takeReport | commit | resetLink => simp at h

/-- The decision on every kind but RESET_LINK leaves the links but for their report queues, and everything outside the
records. -/
theorem decisionOf_contained {kind : RequestKind} (h : kind ≠ .resetLink) (s : State) (who : Owner)
    (body : List Word) : Decides s (Contained s) (decisionOf kind who body s) := by
  cases kind with
  | claim => exact decideClaim_decides s who body
  | branch => exact decideBranch_decides s who body
  | release => exact decideRelease_decides s who body
  | reshape => exact decideReshape_decides s who body
  | suspend => exact decideSuspend_decides s who body
  | resume => exact decideResume_decides s who body
  | renew => exact decideRenew_decides s who body
  | ask => exact decideAsk_decides s who body
  | readCircuit => exact decideReadCircuit_decides s who body
  | readSlot => exact decideReadSlot_decides s who body
  | readFree => exact decideReadFree_decides s who body
  | takeReport => exact decideTakeReport_decides s who body
  | commit => exact decideCommit_decides s who body
  | resetLink => exact absurd rfl h

/-- Freed records leave the mailbox as it was. -/
theorem State.freeAll_mailbox (ids : List Nat) : ∀ s : State, (s.freeAll ids).mailbox = s.mailbox := by
  induction ids with
  | nil => exact fun s => rfl
  | cons id rest ih => exact fun s => ih (s.freeRecord id)

/-- A link reset leaves the mailbox as it was, in every state. -/
theorem State.resetLink_mailbox (s : State) (n : Link) : (s.resetLink n).mailbox = s.mailbox := by
  unfold State.resetLink
  split
  · rw [State.leaveUp, State.offerOrphans_eq]
    exact State.freeAll_mailbox _ _
  · rw [State.offerOrphans_eq]
    rfl
  · rfl

/-- The decision on a RESET_LINK leaves the mailbox. -/
theorem decideResetLink_decides (s : State) (who : Owner) (body : List Word) :
    Decides s (fun _ t => t.mailbox = s.mailbox) (decideResetLink who body s) := by
  unfold decideResetLink
  split
  · exact refuse_decides _ _ _ (by decide) (by decide)
  · split
    · exact refuse_decides _ _ _ (by decide) (by decide)
    · exact Or.inr ⟨rfl, s.resetLink_mailbox _⟩

/-- A refusal's one effect besides its answer is the NO_RECORD event (R15, R79). -/
theorem Decides.of_refused {s : State} {accepted : List Word → State → Prop} {d : Decision} (h : Decides s accepted d)
    (hcode : d.code ≠ .ok) : d.body = [] ∧ d.state = if d.code = .noRecord then s.raise .noRecord else s := by
  obtain ⟨-, hbody, hstate⟩ | ⟨hok, -⟩ := h
  · exact ⟨hbody, hstate⟩
  · exact absurd hok hcode

/-- A decision that leaves the mailbox when it accepts leaves it in every case. -/
theorem Decides.mailbox {s : State} {d : Decision} (h : Decides s (fun _ t => t.mailbox = s.mailbox) d) :
    d.state.mailbox = s.mailbox := by
  obtain ⟨-, -, hstate⟩ | ⟨-, hmailbox⟩ := h
  · rw [hstate]
    split <;> rfl
  · exact hmailbox

/-- A request that the engine takes receives one answer, that of the decision on its kind (R85). -/
theorem exec_answered {s : State} {who : Owner} {kind : RequestKind} {body : List Word}
    (h : Takes s who (some kind) body) :
    ∃ t, exec (commandOf kind) s = .next t ∧
      Answered who (decisionOf kind who body s).code (decisionOf kind who body s).body s
        (decisionOf kind who body s).state t := by
  refine ⟨_, exec_commandOf kind h.1, ?_⟩
  by_cases hreset : kind = .resetLink
  · subst hreset
    cases who with
    | supervisor => exact State.admission_mailbox s _ body _ h (decideResetLink_decides s .supervisor body).mailbox
    | link n =>
      obtain ⟨_, _, _, _, _, hkind, _⟩ := h
      exact absurd (linkKind_mem hkind) (by decide)
  · refine State.admission_answered s who _ body _ h (fun n hwho => ?_) (decisionOf_contained hreset s who body)
    subst hwho
    obtain ⟨_, _, _, _, _, hkind, _⟩ := h
    exact decisionOf_untaken (linkKind_mem hkind) n _ body

/-- A refused request changes nothing besides its answer and the NO_RECORD event (R79). -/
theorem decisionOf_refused {s : State} {who : Owner} {kind : RequestKind} {body : List Word}
    (h : (decisionOf kind who body s).code ≠ .ok) :
    (decisionOf kind who body s).body = [] ∧
      (decisionOf kind who body s).state =
        if (decisionOf kind who body s).code = .noRecord then s.raise .noRecord else s := by
  by_cases hreset : kind = .resetLink
  · subst hreset
    exact (decideResetLink_decides s who body).of_refused h
  · exact (decisionOf_contained hreset s who body).of_refused h

/-! ### The refusals with BAD_ARGUMENT -/

/-- A choice of slots is not refused with BAD_ARGUMENT. -/
theorem chooseSlots_ne_badArgument {free : List Nat} {n : Nat} {placement : Placement} {listed : List Nat}
    {code : ResultCode} (h : chooseSlots free n placement listed = .error code) : code ≠ .badArgument := by
  rintro rfl
  rcases Nat.lt_or_ge free.length n with hshort | hcount
  · rw [chooseSlots_noRoom hshort] at h
    cases h
  · cases placement with
    | fixed =>
      rw [chooseSlots_fixed hcount] at h
      cases hc : chooseFixed free listed <;> rw [hc] at h <;> cases h
    | contiguous =>
      rw [chooseSlots_contiguous hcount] at h
      cases hc : chooseContiguous free n <;> rw [hc] at h <;> cases h
    | spread =>
      rw [chooseSlots_spread hcount] at h
      cases hc : chooseSpread free n <;> rw [hc] at h <;> cases h
    | any =>
      rw [chooseSlots_any hcount] at h
      cases h

/-- What becomes of the slots chosen does not change a refusal. -/
theorem error_of_map_error {α β : Type} {f : α → β} {x : Except ResultCode α} {code : ResultCode}
    (h : x.map f = .error code) : x = .error code := by
  cases x with
  | error e => exact congrArg Except.error (Except.error.inj h)
  | ok a => cases h

/-- The slots of a CLAIM are not refused with BAD_ARGUMENT. -/
theorem State.claimPairs_ne_badArgument {s : State} {f : ClaimFields} {code : ResultCode}
    (h : s.claimPairs f = .error code) : code ≠ .badArgument := by
  cases hsources : chooseSlots (s.freeInputs f.srcTrunk) f.width f.srcPlacement f.fixed with
  | error e =>
    rw [State.claimPairs_of_error hsources] at h
    cases h
    exact chooseSlots_ne_badArgument hsources
  | ok sources =>
    rw [State.claimPairs_of_sources hsources] at h
    exact chooseSlots_ne_badArgument (error_of_map_error h)

/-- The slots of a RESHAPE are not refused with BAD_ARGUMENT. -/
theorem State.reshapePairs_ne_badArgument {s : State} {c : Circuit} {width : Nat} {placement : Placement}
    {code : ResultCode} (h : s.reshapePairs c width placement = .error code) : code ≠ .badArgument := by
  cases hsources : s.reshapeSources c width with
  | error e =>
    rw [State.reshapePairs_of_error hsources] at h
    cases h
    rcases Nat.lt_or_ge c.width width with hwide | hnarrow
    · rw [s.reshapeSources_added hwide] at hsources
      exact chooseSlots_ne_badArgument (error_of_map_error hsources)
    · rw [s.reshapeSources_kept hnarrow] at hsources
      cases hsources
  | ok sources =>
    rw [State.reshapePairs_of_sources hsources] at h
    exact chooseSlots_ne_badArgument (error_of_map_error h)

/-- The checks of a new record's owner do not refuse with BAD_ARGUMENT. -/
theorem ownerCheck_ne_badArgument {s : State} {who owner : Owner} {code : ResultCode}
    (h : s.ownerCheck who owner = some code) : code ≠ .badArgument := by
  rintro rfl
  unfold State.ownerCheck at h
  repeat' split at h
  all_goals cases h

/-- Step 5 of a BRANCH does not refuse with BAD_ARGUMENT. -/
theorem branchState_ne_badArgument {c : Circuit} {code : ResultCode} (h : branchState c = some code) :
    code ≠ .badArgument := by
  rintro rfl
  unfold branchState at h
  repeat' split at h
  all_goals cases h

/-- Step 5 of a RESHAPE does not refuse with BAD_ARGUMENT. -/
theorem reshapeState_ne_badArgument {c : Circuit} {code : ResultCode} (h : reshapeState c = some code) :
    code ≠ .badArgument := by
  rintro rfl
  unfold reshapeState at h
  repeat' split at h
  all_goals cases h

/-- Step 5 of a SUSPEND does not refuse with BAD_ARGUMENT. -/
theorem suspendState_ne_badArgument {c : Circuit} {code : ResultCode} (h : suspendState c = some code) :
    code ≠ .badArgument := by
  rintro rfl
  unfold suspendState at h
  repeat' split at h
  all_goals cases h

/-- Step 5 of a RESUME does not refuse with BAD_ARGUMENT. -/
theorem resumeState_ne_badArgument {c : Circuit} {code : ResultCode} (h : resumeState c = some code) :
    code ≠ .badArgument := by
  rintro rfl
  unfold resumeState at h
  repeat' split at h
  all_goals cases h

/-- Steps 3 and 4 of a request on a named record do not refuse with BAD_ARGUMENT. -/
theorem onCircuit_ne_badArgument {s : State} {who : Owner} {body : List Word} {go : Nat → Circuit → Decision}
    (hgo : ∀ id c, (go id c).code ≠ .badArgument) : (onCircuit who body s go).code ≠ .badArgument := by
  unfold onCircuit
  split
  · simp [refuse]
  · split
    · exact hgo _ _
    · simp [refuse]

/-- A request whose other outcomes are not refusals with BAD_ARGUMENT is refused with it exactly when its body is
refused. -/
theorem refusedBody_iff {P : Prop} [Decidable P] {s : State} {d : Decision} (hd : d.code ≠ .badArgument) :
    (if P then refuse .badArgument s else d).code = .badArgument ↔ P := by
  split
  · rename_i hp
    exact iff_of_true rfl hp
  · rename_i hp
    exact iff_of_false hd hp

/-- A CLAIM is refused with BAD_ARGUMENT exactly when its body is not read. -/
theorem decideClaim_badArgument_iff (s : State) (who : Owner) (body : List Word) :
    (decideClaim who body s).code = .badArgument ↔ parseClaim who body = none := by
  unfold decideClaim
  cases parseClaim who body with
  | none => simp [refuse]
  | some f =>
    simp only [reduceCtorEq, iff_false]
    split
    · rename_i hcode
      exact ownerCheck_ne_badArgument hcode
    · split
      · simp [refuseNoRecord, refuse]
      · split
        · rename_i hcode
          exact State.claimPairs_ne_badArgument hcode
        · simp

/-- A BRANCH is refused with BAD_ARGUMENT exactly when its body is not read. -/
theorem decideBranch_badArgument_iff (s : State) (who : Owner) (body : List Word) :
    (decideBranch who body s).code = .badArgument ↔ parseBranch who body = none := by
  unfold decideBranch
  cases parseBranch who body with
  | none => simp [refuse]
  | some f =>
    simp only [reduceCtorEq, iff_false]
    split
    · simp [refuse]
    · split
      · simp [refuse]
      · split
        · rename_i hcode
          exact branchState_ne_badArgument hcode
        · split
          · rename_i hcode
            exact ownerCheck_ne_badArgument hcode
          · split
            · simp [refuseNoRecord, refuse]
            · split
              · rename_i hcode
                exact chooseSlots_ne_badArgument hcode
              · simp

/-- A RESHAPE is refused with BAD_ARGUMENT exactly when its body is not read. -/
theorem decideReshape_badArgument_iff (s : State) (who : Owner) (body : List Word) :
    (decideReshape who body s).code = .badArgument ↔ parseReshape body = none := by
  unfold decideReshape
  cases parseReshape body with
  | none => simp [refuse]
  | some fields =>
    simp only [reduceCtorEq, iff_false]
    refine onCircuit_ne_badArgument fun id c => ?_
    split
    · rename_i hcode
      exact reshapeState_ne_badArgument hcode
    · split
      · rename_i hcode
        exact State.reshapePairs_ne_badArgument hcode
      · simp

/-- A link number above 3 names no link. -/
theorem linkOf_eq_none {code : Nat} : linkOf code = none ↔ 3 < code := by
  unfold linkOf
  split
  · decide
  · decide
  · decide
  · decide
  · rename_i h0 h1 h2 h3
    simp only [imp_false] at h0 h1 h2 h3
    exact iff_of_true rfl (by omega)

/-- A RESET_LINK is refused with BAD_ARGUMENT exactly when its body is not one word that names a link (R155). -/
theorem decideResetLink_badArgument_iff (s : State) (who : Owner) (body : List Word) :
    (decideResetLink who body s).code = .badArgument ↔ ¬(body.length = 1 ∧ wordNat body 1 % 256 ≤ 3) := by
  rw [← bodyLo_eq, Decidable.not_and_iff_not_or_not, Nat.not_le, ← linkOf_eq_none]
  unfold decideResetLink
  split
  · rename_i hlength
    exact iff_of_true rfl (.inl hlength)
  · rename_i hlength
    cases hlink : linkOf (bodyLo body 1) with
    | none => simp [refuse]
    | some n => simpa using hlength

/-- A body is not read exactly when it holds no fields. -/
theorem eq_none_iff_not_exists {α : Type} {x : Option α} {holds : α → Prop} (h : ∀ a, x = some a ↔ holds a) :
    x = none ↔ ¬∃ a, holds a := by
  simp only [← h, ← Option.isSome_iff_exists, Option.not_isSome_iff_eq_none]

/-- A request is refused with BAD_ARGUMENT exactly when its body is outside the lengths and ranges of its kind and
source (R54, R80, R155, R187). -/
theorem decisionOf_badArgument_iff (kind : RequestKind) (s : State) (who : Owner) (body : List Word) :
    (decisionOf kind who body s).code = .badArgument ↔ ¬BodyPermitted who kind body := by
  cases kind with
  | claim =>
    exact (decideClaim_badArgument_iff s who body).trans (eq_none_iff_not_exists fun _ => parseClaim_eq_some)
  | branch =>
    exact (decideBranch_badArgument_iff s who body).trans (eq_none_iff_not_exists fun _ => parseBranch_eq_some)
  | reshape =>
    refine (decideReshape_badArgument_iff s who body).trans ?_
    rw [eq_none_iff_not_exists (holds := fun fields => ReshapeBody body fields.1 fields.2)
      fun _ => parseReshape_eq_some, Prod.exists]
    rfl
  | release =>
    refine refusedBody_iff (onCircuit_ne_badArgument fun id c => ?_)
    split <;> simp [refuse]
  | suspend =>
    refine refusedBody_iff (onCircuit_ne_badArgument fun id c => ?_)
    split
    · rename_i hcode
      exact suspendState_ne_badArgument hcode
    · simp
  | resume =>
    refine refusedBody_iff (onCircuit_ne_badArgument fun id c => ?_)
    split
    · rename_i hcode
      exact resumeState_ne_badArgument hcode
    · simp
  | renew =>
    refine (refusedBody_iff (onCircuit_ne_badArgument fun id c => ?_)).trans not_or.symm
    split <;> simp [refuse]
  | ask => exact refusedBody_iff (onCircuit_ne_badArgument fun id c => by simp)
  | readCircuit =>
    refine (refusedBody_iff (by simp [answer])).trans ?_
    rw [bodyLo_eq]
    simp only [BodyPermitted]
    omega
  | readSlot =>
    refine (refusedBody_iff (by simp [answer])).trans ?_
    rw [bodyLo_eq, bodyHi_eq]
    simp only [BodyPermitted]
    omega
  | readFree =>
    refine (refusedBody_iff (by simp [answer])).trans ?_
    rw [bodyLo_eq, bodyHi_eq]
    simp only [BodyPermitted]
    omega
  | takeReport =>
    refine refusedBody_iff ?_
    split <;> simp [answer]
  | commit => exact refusedBody_iff (by simp)
  | resetLink => exact decideResetLink_badArgument_iff s who body

/-- Settles O27: the answer is that of the decision on the request's kind, whose refusals the lemmas above give. -/
theorem everyRequestIsAnswered : Obligations.EveryRequestIsAnswered := by
  refine ⟨fun s body htakes => ?_, fun s who kind body htakes => ?_⟩
  · exact ⟨_, State.next_released _ htakes.1, State.admission_mailbox s none body decideUnknownKind htakes rfl⟩
  · obtain ⟨t, hexec, hanswered⟩ := exec_answered htakes
    exact ⟨_, _, _, t, hexec, hanswered, decisionOf_refused, decisionOf_badArgument_iff kind s who body⟩

end Sys2Proof.Machine
end

section
/-! SUPPORT. The slot allocation family: the RESHAPE request (R63 to R65, R100). -/

namespace Sys2Proof.Machine

/-! ### The merge of the old and the new pairs (R65) -/

/-- An inserted pair joins the list. -/
theorem insertPair_perm (p : Pair) (l : List Pair) : (insertPair p l).Perm (p :: l) := by
  induction l with
  | nil => exact .refl _
  | cons q rest ih =>
    unfold insertPair
    split
    · exact .refl _
    · exact (ih.cons q).trans (.swap p q rest)

/-- A merged list holds the pairs of both lists. -/
theorem mergePairs_perm (a b : List Pair) : (mergePairs a b).Perm (a ++ b) := by
  induction a with
  | nil => exact .refl _
  | cons p rest ih => exact (insertPair_perm p (mergePairs rest b)).trans (ih.cons p)

/-- A pair is inserted where its destination slot is. -/
theorem map_dst_insertPair (p : Pair) (l : List Pair) :
    (insertPair p l).map Pair.dst = insertSlot p.dst (l.map Pair.dst) := by
  induction l with
  | nil => rfl
  | cons q rest ih =>
    simp only [insertPair, List.map_cons, insertSlot]
    split
    · rfl
    · rw [List.map_cons, ih]

/-- Pairs merged on distinct destination slots stand in ascending order of destination slot. -/
theorem mergePairs_ascending (a : List Pair) {b : List Pair} (ha : (a.map Pair.dst).Nodup)
    (hb : (b.map Pair.dst).Pairwise (· < ·)) (hapart : ∀ p ∈ a, p.dst ∉ b.map Pair.dst) :
    ((mergePairs a b).map Pair.dst).Pairwise (· < ·) := by
  induction a with
  | nil => exact hb
  | cons p rest ih =>
    obtain ⟨hp, hrest⟩ := List.nodup_cons.mp ha
    show ((insertPair p (mergePairs rest b)).map Pair.dst).Pairwise (· < ·)
    rw [map_dst_insertPair]
    refine insertSlot_ascending _ _ (ih hrest fun q hq => hapart q (List.mem_cons_of_mem _ hq)) fun hmem => ?_
    rw [((mergePairs_perm rest b).map Pair.dst).mem_iff, List.map_append, List.mem_append] at hmem
    exact hmem.elim hp (hapart p List.mem_cons_self)

/-- The retiring mark leaves the destination slots. -/
theorem Circuit.map_dst_retired (c : Circuit) : c.retired.map Pair.dst = c.staged.map Pair.dst := by
  simp [Circuit.retired, Function.comp_def]

/-! ### The new pairs -/

/-- The new pairs of a RESHAPE stand in ascending order of destination slot, on free output slots (R60, R64). -/
theorem State.reshapePairs_dst {s : State} {c : Circuit} {width : Nat} {placement : Placement} {pairs : List Pair}
    (hne : placement ≠ .fixed) (h : s.reshapePairs c width placement = .ok pairs) :
    (pairs.map Pair.dst).Pairwise (· < ·) ∧ ∀ p ∈ pairs, p.dst ∈ s.freeOutputs c.dstTrunk := by
  cases hsources : s.reshapeSources c width with
  | error code =>
    rw [State.reshapePairs_of_error hsources] at h
    cases h
  | ok sources =>
    rw [State.reshapePairs_of_sources hsources] at h
    cases hchosen : chooseSlots (s.freeOutputs c.dstTrunk) width placement [] with
    | error code =>
      rw [hchosen] at h
      cases h
    | ok destinations =>
      rw [hchosen] at h
      cases h
      obtain ⟨hnodup, -, hfree⟩ := chooseSlots_spec (s.freeOutputs_nodup _) hne hchosen
      refine ⟨pairSlots_dst_ascending _ _ hnodup, fun p hp => hfree _ ?_⟩
      have hdst := List.mem_map_of_mem (f := Pair.dst) hp
      rw [pairSlots_dst] at hdst
      exact (mem_sortSlots _ _).mp (List.mem_of_mem_take hdst)

/-- The staged pairs of a circuit in a reshape, its old pairs merged with new ones on free output slots, stand in
ascending order of destination slot. -/
theorem State.reshaped_ascending {s : State} {id : Nat} {c : Circuit} {pairs : List Pair}
    (hwf : Sparse.wf Record.initial s.table = true) (hc : s.circuit id = some c)
    (hold : (c.staged.map Pair.dst).Pairwise (· < ·)) (hnew : (pairs.map Pair.dst).Pairwise (· < ·))
    (hfree : ∀ p ∈ pairs, p.dst ∈ s.freeOutputs c.dstTrunk) :
    ((mergePairs c.retired pairs).map Pair.dst).Pairwise (· < ·) := by
  refine mergePairs_ascending _ ?_ hnew fun q hq hmem => ?_
  · rw [Circuit.map_dst_retired]
    exact hold.imp Nat.ne_of_lt
  · obtain ⟨p, hp, hpq⟩ := List.mem_map.mp hmem
    have hq' : q.dst ∈ c.staged.map Pair.dst := c.map_dst_retired ▸ List.mem_map_of_mem hq
    obtain ⟨old, hold', holdq⟩ := List.mem_map.mp hq'
    have hunused := ((s.mem_freeOutputs _ _ hwf).mp (hfree p hp)).2
    exact hunused id c hc rfl old hold' (holdq.trans hpq.symm)

/-! ### The decision -/

/-- A request on a record that its reference names, by a requester with authority over it, passes steps 3 and 4
(R81). -/
theorem onCircuit_passes {s : State} {who : Owner} {id : Nat} {c : Circuit} {rest : List Word}
    (go : Nat → Circuit → Decision) (hid : id < 256) (hc : s.circuit id = some c)
    (hwho : who = .supervisor ∨ c.owner = who) :
    onCircuit who (refWord id (s.record id).generation :: rest) s go = go id c := by
  have hhi : bodyHi (refWord id (s.record id).generation :: rest) 1 = id := refWord_id _ hid
  have hlo : (bodyWord (refWord id (s.record id).generation :: rest) 1).lo = (s.record id).generation :=
    refWord_generation _ _
  have hnamed : s.named id (s.record id).generation = some c := by
    rw [State.named, if_pos rfl, hc]
  have hauthority : authority who c = true := by
    rw [authority, Bool.or_eq_true, beq_iff_eq, beq_iff_eq]
    exact hwho.imp_right Eq.symm
  unfold onCircuit
  rw [hhi, hlo, hnamed]
  dsimp only
  rw [if_pos hauthority]

/-- A TRUNK record in ACTIVE with no pending change and no branches may be reshaped (R82). -/
theorem reshapeState_eq_none {c : Circuit} {isOpen : Bool} (hstate : c.state = .active)
    (hkind : c.kind = .trunk [] isOpen) (hpending : c.pendingChange = none) : reshapeState c = none := by
  simp [reshapeState, Circuit.isGoing, Circuit.isReleasable, Circuit.isTrunk, Circuit.branches, hstate, hkind, hpending]

/-- A RESHAPE body written from its fields holds them (12.3). -/
theorem reshapeBody_written (reference : Word) {width : Nat} {placement : Placement} (h1 : 1 ≤ width)
    (h16 : width ≤ 16) (hne : placement ≠ .fixed) :
    ReshapeBody [reference, BitVec.ofNat 16 (width * 256 + placementCode placement)] width placement := by
  refine ⟨rfl, h1, h16, hne, ?_⟩
  have hcode := placementCode_lt placement
  show (BitVec.ofNat 16 (width * 256 + placementCode placement)).toNat = _
  simp only [BitVec.toNat_ofNat]
  omega

/-- The decision on a RESHAPE of a record that may be reshaped is that of its slots (R100). -/
theorem decideReshape_slots {s : State} {who : Owner} {id : Nat} {c : Circuit} {width : Nat} {placement : Placement}
    {second : Word} (hid : id < 256) (hc : s.circuit id = some c) (hwho : who = .supervisor ∨ c.owner = who)
    (hmay : reshapeState c = none)
    (hbody : ReshapeBody [refWord id (s.record id).generation, second] width placement) :
    (∀ code, s.reshapePairs c width placement = .error code →
      decideReshape who [refWord id (s.record id).generation, second] s = refuse code s) ∧
    ∀ pairs, s.reshapePairs c width placement = .ok pairs →
      decideReshape who [refWord id (s.record id).generation, second] s =
        { code := .ok, body := pairsBody (s.refWordOf id) width pairs, state := s.reshapeTo id c width pairs } := by
  have hread := parseReshape_eq_some.mpr hbody
  have hpasses := fun go => onCircuit_passes (rest := [second]) go hid hc hwho
  constructor
  · intro code hslots
    simp only [decideReshape, hread, hpasses, hmay, hslots]
  · intro pairs hslots
    simp only [decideReshape, hread, hpasses, hmay, hslots]

/-- The body of an OK answer of CLAIM, BRANCH and RESHAPE (12.4). -/
theorem pairsBody_eq (reference : Word) (width : Nat) (pairs : List Pair) :
    pairsBody reference width pairs =
      reference :: BitVec.ofNat 16 (width * 256 + pairs.length) :: pairs.map pairWord := by
  rw [pairsBody, Word.field_add]
  simp

/-- Phase 1 of a RESHAPE changes the staged form of its record, the new pairs described as PASS (R65, R100). -/
theorem State.reshapeTo_restaged {s : State} {id : Nat} {c : Circuit} {width : Nat} {pairs : List Pair}
    (h : s.Canonical) (hpass : c.stagedTreatment = .pass) (hpairs : (pairs.map Pair.dst).Nodup) :
    Restaged id c
      { c with staged := mergePairs c.retired pairs, width := width, pendingChange := some .reshapeAdd } pairs
      (fun p => .pass id c.srcTrunk p.src) s (s.reshapeTo id c width pairs) := by
  have hbatch := s.editStaged_describe id c pairs (State.stagedBank_wf h) (.inl hpairs)
  rw [hpass] at hbatch
  exact State.restage_restaged id _ h hbatch

/-- Settles O36: the decision on the slots, and what phase 1 makes of the record and its staged list. -/
theorem reshapeRequest : Obligations.ReshapeRequest := by
  intro s who id c isOpen width placement hcanon hid hc hwho hstate hkind hpending h1 h16 hne htakes
  obtain ⟨t, hexec, hanswered⟩ := exec_answered htakes
  obtain ⟨hrefused, haccepted⟩ := decideReshape_slots hid hc hwho (reshapeState_eq_none hstate hkind hpending)
    (reshapeBody_written (refWord id (s.record id).generation) h1 h16 hne)
  refine ⟨fun code hslots => ⟨t, hexec, ?_⟩, fun pairs hpass hslots => ?_⟩
  · rw [decisionOf, hrefused code hslots] at hanswered
    exact hanswered
  · rw [decisionOf, haccepted pairs hslots, pairsBody_eq] at hanswered
    obtain ⟨hascending, hfree⟩ := State.reshapePairs_dst hne hslots
    have hperm := mergePairs_perm c.retired pairs
    refine ⟨_, t, mergePairs c.retired pairs, hexec,
      State.reshapeTo_restaged hcanon hpass (hascending.imp Nat.ne_of_lt), ?_, fun p => ?_, fun hold => ?_, hanswered⟩
    · rw [hperm.length_eq, List.length_append, Circuit.retired, List.length_map]
    · rw [hperm.mem_iff, List.mem_append, Circuit.retired, List.mem_map]
      exact or_congr_left (exists_congr fun q => and_congr_right fun _ => eq_comm)
    · exact State.reshaped_ascending hcanon.1 hc hold hascending hfree

end Sys2Proof.Machine
end

section
/-! SUPPORT. The admission engine family: no operation of the part touches the queue of the commands that wait
(log 1). -/

namespace Sys2Proof.Machine

/-- An operation applied for each entry of a list leaves the queue alone when it does so for one entry. -/
theorem foldl_pending {α : Type} {f : State → α → State} (h : ∀ s a, (f s a).pending = s.pending) (l : List α) :
    ∀ s : State, (l.foldl f s).pending = s.pending := by
  induction l with
  | nil => exact fun _ => rfl
  | cons a rest ih => exact fun s => (ih (f s a)).trans (h s a)

/-- A choice between two operations leaves the queue alone when each of them does. -/
theorem ite_pending {P : Prop} [Decidable P] {s t u : State} (ht : t.pending = s.pending) (hu : u.pending = s.pending) :
    (if P then t else u).pending = s.pending := by
  split
  · exact ht
  · exact hu

/-! ### Records and links -/

theorem State.freeAll_pending (ids : List Nat) (s : State) : (s.freeAll ids).pending = s.pending :=
  foldl_pending (fun s id => s.freeRecord_pending id) ids s

theorem State.deliver_pending (s : State) (id : Nat) : (s.deliver id).pending = s.pending :=
  (s.deliver_contained id).2.1

theorem State.offerOrphans_pending (s : State) (n : Link) : (s.offerOrphans n).pending = s.pending := by
  rw [State.offerOrphans_eq]
  rfl

theorem State.leaveUp_pending (s : State) (n : Link) (target : LinkState) (reason : DownReason) :
    (s.leaveUp n target reason).pending = s.pending :=
  (State.offerOrphans_pending _ n).trans (State.freeAll_pending _ _)

theorem State.resetLink_pending (s : State) (n : Link) : (s.resetLink n).pending = s.pending := by
  unfold State.resetLink
  split
  · exact s.leaveUp_pending n _ _
  · exact State.offerOrphans_pending _ n
  · rfl

/-! ### Admissions -/

/-- A decision that is a refusal, or accepts with effects that leave the queue alone, leaves the queue alone. -/
theorem Decides.pending {s : State} {accepted : List Word → State → Prop} {d : Decision} (h : Decides s accepted d)
    (haccepted : ∀ body t, accepted body t → t.pending = s.pending) : d.state.pending = s.pending := by
  obtain ⟨-, -, hstate⟩ | ⟨-, hstate⟩ := h
  · rw [hstate]
    exact ite_pending rfl rfl
  · exact haccepted _ _ hstate

/-- The decision on a request of each kind leaves the queue alone. -/
theorem decisionOf_pending (kind : RequestKind) (s : State) (who : Owner) (body : List Word) :
    (decisionOf kind who body s).state.pending = s.pending := by
  by_cases hreset : kind = .resetLink
  · subst hreset
    show (decideResetLink who body s).state.pending = s.pending
    unfold decideResetLink
    split
    · rfl
    · split
      · rfl
      · exact s.resetLink_pending _
  · refine (decisionOf_contained hreset s who body).pending fun _ t hcontained => ?_
    obtain ⟨-, hqueue, -⟩ := hcontained
    exact hqueue

/-- The admission of a request leaves the queue alone when the decision on it does. -/
theorem State.admission_pending (s : State) (kind : Option RequestKind)
    {decide : Owner → List Word → State → Decision}
    (h : ∀ s who body, (decide who body s).state.pending = s.pending) :
    (s.admission kind decide).pending = s.pending := by
  unfold State.admission
  split
  · exact ite_pending (h s _ _) rfl
  · split
    · exact ite_pending (h _ _ _) rfl
    · rfl
  · rfl
  · rfl

/-- The admission of a follow-up item leaves the queue alone when its action does. -/
theorem State.followUpAdmission_pending (s : State) (kind : FollowKind) {act : Nat → State → State}
    (h : ∀ s id, (act id s).pending = s.pending) : (s.followUpAdmission kind act).pending = s.pending := by
  unfold State.followUpAdmission
  split
  · exact ite_pending (h _ _) rfl
  · rfl
  · rfl
  · rfl

theorem State.dropMarked_pending (s : State) (id : Nat) : (s.dropMarked id).pending = s.pending := by
  unfold State.dropMarked
  split
  · rfl
  · exact ite_pending rfl rfl

theorem State.releaseItem_pending (reason : CloseReason) (s : State) (id : Nat) :
    (s.releaseItem reason id).pending = s.pending :=
  ite_pending (s.releaseAll_same reason id).1 rfl

/-! ### Register writes -/

theorem State.actOnSelection_pending (s : State) (old : Control) : (s.actOnSelection old).pending = s.pending := by
  unfold State.actOnSelection
  split
  · rfl
  · exact ite_pending rfl rfl

theorem State.writeControl_pending (s : State) (w : Word) : (s.writeControl w).pending = s.pending := by
  have hmoved : ((if s.control.reports = true ∧ (controlOf w).reports = false
      then (s.withControl (controlOf w)).clearReports else s.withControl (controlOf w)).actOnSelection
        s.control).pending = s.pending :=
    (State.actOnSelection_pending _ _).trans (ite_pending (State.freeAll_pending _ _) rfl)
  exact ite_pending hmoved hmoved

theorem State.writeEnable_pending (s : State) (n : Link) (enable : Bool) :
    (s.writeEnable n enable).pending = s.pending :=
  ite_pending rfl (ite_pending rfl (ite_pending (State.leaveUp_pending _ n _ _) rfl))

theorem State.writeLinkConfig_pending (s : State) (n : Link) (w : Word) :
    (s.writeLinkConfig n w).pending = s.pending :=
  ite_pending ((State.resetLink_pending _ n).trans (State.writeEnable_pending _ n _)) (State.writeEnable_pending _ n _)

theorem State.writeHeader_pending (s : State) (w : Word) : (s.writeHeader w).pending = s.pending := by
  unfold State.writeHeader
  split
  · rfl
  · rfl
  · exact ite_pending rfl (ite_pending rfl rfl)
  · exact ite_pending rfl (ite_pending rfl rfl)

theorem State.writeBody_pending (s : State) (position : Nat) (w : Word) :
    (s.writeBody position w).pending = s.pending := by
  unfold State.writeBody
  split
  · exact ite_pending rfl rfl
  · rfl
  · rfl
  · rfl

theorem State.writeWindow_pending (s : State) (position : Nat) (w : Word) :
    (s.writeWindow position w).pending = s.pending :=
  ite_pending (s.writeHeader_pending w) (ite_pending (s.writeBody_pending position w) rfl)

theorem State.writeMailboxControl_pending (s : State) (isAck isAbort : Bool) :
    (s.writeMailboxControl isAck isAbort).pending = s.pending :=
  ite_pending rfl rfl

theorem State.writeWord_pending (s : State) (address : BitVec 7) (w : Word) :
    (s.writeWord address w).pending = s.pending := by
  unfold State.writeWord
  cases registerAt address with
  | none => rfl
  | some register =>
    cases register with
    | control => exact s.writeControl_pending w
    | mboxCtl => exact s.writeMailboxControl_pending _ _
    | linkConfig n => exact s.writeLinkConfig_pending n w
    | command position => exact s.writeWindow_pending position w
    | _ => rfl

/-! ### Request links -/

theorem State.refuseAtLink_pending (s : State) (n : Link) (kind tag : Byte) (code : ResultCode) :
    (s.refuseAtLink n kind tag code).pending = s.pending :=
  ite_pending rfl rfl

theorem State.receiveRequest_pending (s : State) (n : Link) (r : Request) :
    (s.receiveRequest n r).pending = s.pending :=
  ite_pending (s.refuseAtLink_pending n _ _ _) (ite_pending (s.refuseAtLink_pending n _ _ _)
    (ite_pending (s.refuseAtLink_pending n _ _ _) rfl))

theorem State.receiveDamaged_pending (s : State) (n : Link) (reason : FaultReason) :
    (s.receiveDamaged n reason).pending = s.pending :=
  ite_pending (ite_pending (State.leaveUp_pending _ n _ _) rfl) rfl

theorem State.receiveGood_pending (s : State) (n : Link) (m : RxMessage) :
    (s.receiveGood n m).pending = s.pending := by
  unfold State.receiveGood
  split
  · rfl
  · exact ite_pending rfl rfl
  · exact ite_pending rfl (State.receiveRequest_pending _ n _)

theorem State.receive_pending (s : State) (n : Link) (m : RxMessage) : (s.receive n m).pending = s.pending := by
  refine ite_pending rfl (ite_pending rfl ?_)
  split
  · exact State.receiveDamaged_pending _ n _
  · exact State.receiveGood_pending _ n m

theorem State.loseClock_pending (s : State) (n : Link) : (s.loseClock n).pending = s.pending :=
  ite_pending (ite_pending (State.leaveUp_pending _ n _ _) rfl) rfl

theorem State.transmitterTake_pending (s : State) (n : Link) : (s.transmitterTake n).pending = s.pending := by
  refine ite_pending ?_ rfl
  split
  · rfl
  · refine ite_pending rfl ?_
    split
    · exact State.deliver_pending _ _
    · rfl

theorem State.transmissionComplete_pending (s : State) (n : Link) :
    (s.transmissionComplete n).pending = s.pending := by
  unfold State.transmissionComplete
  split <;> rfl

/-! ### Frame starts and references -/

theorem State.completeCopy_pending (s : State) : s.completeCopy.pending = s.pending := by
  unfold State.completeCopy
  split <;> rfl

theorem State.countSilence_pending (s : State) (n : Link) : (s.countSilence n).pending = s.pending :=
  ite_pending (s.leaveUp_pending n _ _) (ite_pending rfl rfl)

theorem State.takeBoundary_pending (s : State) (stepped : Bool) (o : BoundaryOrder) :
    (s.takeBoundary stepped o).pending = s.pending := by
  have hcount := foldl_pending State.countSilence_pending
  exact (hcount _ _).trans ((State.decideBoundary_same _ stepped).1.trans (hcount _ s))

theorem State.deliverFrame_pending (s : State) (kind : FrameKind) (o : BoundaryOrder) :
    (s.deliverFrame kind o).pending = s.pending := by
  cases kind with
  | ordinary => rfl
  | leaseTick => exact s.takeLeaseTick_same.1
  | boundary stepped => exact s.takeBoundary_pending stepped o

theorem State.startFrame_pending (s : State) (kind : FrameKind) (now : Nat) (received : TrunkBytes)
    (o : BoundaryOrder) : (s.startFrame kind now received o).pending = s.pending :=
  State.deliverFrame_pending _ kind o

theorem State.refAbsent_pending (s : State) (r : Ref) : (s.refAbsent r).pending = s.pending :=
  ite_pending (ite_pending rfl rfl) rfl

theorem State.becomeGood_pending (s : State) (r : Ref) : (s.becomeGood r).pending = s.pending := by
  unfold State.becomeGood
  split
  · rfl
  · exact ite_pending rfl rfl

theorem State.lockedPulse_pending (s : State) (now : Nat) (f : FrameInput) :
    (s.lockedPulse now f).pending = s.pending :=
  ite_pending (State.startFrame_pending _ _ _ _ _) (State.startFrame_pending _ _ _ _ _)

theorem State.pulse_pending (s : State) (r : Ref) (now : Nat) (f : FrameInput) :
    (s.pulse r now f).pending = s.pending := by
  unfold State.pulse
  dsimp only
  split
  · rfl
  · exact ite_pending (State.refAbsent_pending _ r) (ite_pending rfl (State.becomeGood_pending _ r))
  · exact ite_pending (State.refAbsent_pending _ r) (ite_pending (State.lockedPulse_pending _ now f) rfl)

theorem State.pulseAfter_pending (s : State) (r : Ref) (elapsed : Nat) (f : FrameInput) :
    (s.pulseAfter r elapsed f).pending = s.pending :=
  ite_pending (s.pulse_pending r _ f) rfl

theorem State.closeWindow_pending (s : State) (r : Ref) (now : Nat) (f : FrameInput) :
    (s.closeWindow r now f).pending = s.pending :=
  ite_pending ((State.startFrame_pending _ _ _ _ _).trans (State.refAbsent_pending _ r)) (State.refAbsent_pending _ r)

theorem State.windowCloses_pending (s : State) (r : Ref) (f : FrameInput) :
    (s.windowCloses r f).pending = s.pending := by
  unfold State.windowCloses
  split
  · rfl
  · exact ite_pending (s.closeWindow_pending r _ f) rfl

theorem State.frameDue_pending (s : State) (kind : FrameKind) (f : FrameInput) :
    (s.frameDue kind f).pending = s.pending := by
  refine ite_pending rfl ?_
  split
  · exact ite_pending (State.startFrame_pending _ _ _ _ _) rfl
  · split
    · rfl
    · exact ite_pending (s.pulse_pending _ _ f) rfl

/-! ### The commands -/

/-- A command of one operation that leaves the queue alone ends in a next state with the queue as it was, also while
RESETn is asserted. -/
theorem next_keepsQueue {f : State → State} {s : State} (h : (f s).pending = s.pending) :
    ∃ t, (Host.Outcome.next (s.whileRunning f) : Host.Outcome State Fault Refusal) = .next t ∧ t.pending = s.pending :=
  ⟨_, rfl, ite_pending rfl h⟩

/-- The command that admits a request of a kind. -/
theorem exec_commandOf_keepsQueue (kind : RequestKind) (s : State) :
    ∃ t, exec (commandOf kind) s = .next t ∧ t.pending = s.pending := by
  have hkeeps := next_keepsQueue (s.admission_pending (some kind) (decisionOf_pending kind))
  cases kind <;> exact hkeeps

/-- Settles O3: each command is one operation, and no operation touches the queue. -/
theorem everyCommandAnswersNext : Obligations.EveryCommandAnswersNext := by
  intro c s
  cases c with
  | powerOnReset => exact ⟨_, rfl, rfl⟩
  | resetnRelease => exact ⟨_, rfl, ite_pending rfl rfl⟩
  | softReset w => exact next_keepsQueue (s.writeControl_pending _)
  | cutoverMode w | supervisorReportsEnable w | primaryReference w | revertive w =>
    exact next_keepsQueue (s.writeControl_pending w)
  | linkEnable n w | linkReset n w => exact next_keepsQueue (s.writeLinkConfig_pending n _)
  | registerWrite address w => exact next_keepsQueue (s.writeWord_pending address w)
  | eventsClear w | enablesWrite w => exact next_keepsQueue rfl
  | mailboxHeaderWrite w => exact next_keepsQueue (s.writeHeader_pending w)
  | mailboxBodyWrite position w => exact next_keepsQueue (s.writeWindow_pending position w)
  | ack | abort withAck => exact next_keepsQueue (s.writeMailboxControl_pending _ _)
  | hello n m | requestReceived n m | damagedMessage n m | damageLimit n m =>
    exact next_keepsQueue (s.receive_pending n m)
  | clockLoss n => exact next_keepsQueue (s.loseClock_pending n)
  | clockReturn n => exact next_keepsQueue rfl
  | transmitterTake n => exact next_keepsQueue (s.transmitterTake_pending n)
  | transmissionComplete n => exact next_keepsQueue (s.transmissionComplete_pending n)
  | claim => exact exec_commandOf_keepsQueue .claim s
  | branch => exact exec_commandOf_keepsQueue .branch s
  | release => exact exec_commandOf_keepsQueue .release s
  | reshape => exact exec_commandOf_keepsQueue .reshape s
  | suspend => exact exec_commandOf_keepsQueue .suspend s
  | resume => exact exec_commandOf_keepsQueue .resume s
  | renew => exact exec_commandOf_keepsQueue .renew s
  | ask => exact exec_commandOf_keepsQueue .ask s
  | readCircuit => exact exec_commandOf_keepsQueue .readCircuit s
  | readSlot => exact exec_commandOf_keepsQueue .readSlot s
  | readFree => exact exec_commandOf_keepsQueue .readFree s
  | takeReport => exact exec_commandOf_keepsQueue .takeReport s
  | commit => exact exec_commandOf_keepsQueue .commit s
  | resetLink => exact exec_commandOf_keepsQueue .resetLink s
  | unknownKind => exact next_keepsQueue (s.admission_pending none fun _ _ _ => rfl)
  | drop => exact next_keepsQueue (s.followUpAdmission_pending .drop State.dropMarked_pending)
  | expire => exact next_keepsQueue (s.followUpAdmission_pending .expire (State.releaseItem_pending .expired))
  | orphan => exact next_keepsQueue (s.followUpAdmission_pending .orphan (State.releaseItem_pending .orphaned))
  | frameStart received | leaseTick received => exact next_keepsQueue (s.frameDue_pending _ _)
  | boundary f => exact next_keepsQueue (s.frameDue_pending _ f)
  | leaseRunOut id received | silenceLimit n f => exact next_keepsQueue (ite_pending (s.frameDue_pending _ _) rfl)
  | copyCompletion => exact next_keepsQueue s.completeCopy_pending
  | referencePulse r elapsed f | referenceGood r elapsed f => exact next_keepsQueue (s.pulseAfter_pending r elapsed f)
  | windowClose r f => exact next_keepsQueue (s.windowCloses_pending r f)

end Sys2Proof.Machine
end

section
/-! SUPPORT. The admission engine family: the arbiter (R68 to R70) and the merge rule of the follow-up queue (R74). -/

namespace Sys2Proof.Machine

/-! ### The arbiter -/

/-- While the bank is COPYING the engine takes nothing (R68). -/
theorem State.nextItem_copying {s : State} (h : s.maps.state = .copying) : s.nextItem = none := by
  rw [State.nextItem, h]

/-- The head of the follow-up queue comes first (R69). -/
theorem State.nextItem_followUp {s : State} {f : FollowUp} {rest : List FollowUp} (hsynced : s.maps.state = .synced)
    (hqueue : s.engine.followUps = f :: rest) : s.nextItem = some (.followUp f) := by
  rw [State.nextItem, hsynced]
  dsimp only
  rw [hqueue]

/-- Without follow-up items the mailbox comes first, and then the links from the round-robin pointer (R69). -/
theorem State.nextItem_empty {s : State} (hsynced : s.maps.state = .synced) (hqueue : s.engine.followUps = []) :
    s.nextItem =
      if s.mailbox.state = .queued then some .mailbox
      else ((linksFrom s.engine.pointer).find? fun n => !(s.link n).requests.isEmpty).map Item.link := by
  rw [State.nextItem, hsynced]
  dsimp only
  rw [hqueue]

/-- The first link from the pointer with a request is found behind links that have none (R69). -/
theorem State.find_requests {s : State} {before after : List Link} {n : Link} {links : List Link}
    (hlinks : links = before ++ n :: after) (hbefore : ∀ k ∈ before, (s.link k).requests = [])
    (hn : (s.link n).requests ≠ []) : (links.find? fun k => !(s.link k).requests.isEmpty) = some n := by
  rw [List.find?_eq_some_iff_append]
  exact ⟨by simpa using hn, before, after, hlinks, fun k hk => by simp [hbefore k hk]⟩

/-- Settles O25: the order of the sources, and of the links in a round. -/
theorem arbiterChoice : Obligations.ArbiterChoice := by
  refine ⟨⟨rfl, rfl, rfl, rfl, rfl, rfl, rfl, rfl⟩, fun s => ⟨State.nextItem_copying,
    fun f rest => State.nextItem_followUp, fun hsynced hqueue hmailbox => ?_,
    fun before n after hsynced hqueue hmailbox hlinks hbefore hn => ?_,
    fun hsynced hqueue hmailbox hnone => ?_⟩⟩
  · rw [State.nextItem_empty hsynced hqueue, if_pos hmailbox]
  · rw [State.nextItem_empty hsynced hqueue, if_neg hmailbox, State.find_requests hlinks hbefore hn]
    rfl
  · have hfind : ((linksFrom s.engine.pointer).find? fun k => !(s.link k).requests.isEmpty) = none :=
      List.find?_eq_none.mpr fun k _ => by simp [hnone k]
    rw [State.nextItem_empty hsynced hqueue, if_neg hmailbox, hfind]
    rfl

/-! ### The merge rule -/

/-- An item for an id that does not stand in the queue goes to its tail (R74). -/
theorem offerTo_absent {queue : List FollowUp} {item : FollowUp} (h : item.id ∉ queue.map FollowUp.id) :
    offerTo queue item = queue ++ [item] := by
  have hfind : queue.find? (fun f => f.id == item.id) = none := by
    rw [List.find?_eq_none]
    intro f hf
    rw [beq_iff_eq]
    exact fun hid => h (List.mem_map.mpr ⟨f, hf, hid⟩)
  rw [offerTo, hfind]

/-- An item for an id that stands in the queue, once (R73), replaces a DROP item in its place or is not queued
(R74). -/
theorem offerTo_standing {queue : List FollowUp} {item standing : FollowUp} (hnodup : (queue.map FollowUp.id).Nodup)
    (hmem : standing ∈ queue) (hid : standing.id = item.id) :
    offerTo queue item =
      if standing.kind = .drop ∧ item.kind ≠ .drop then queue.map (fun f => if f.id = item.id then item else f)
      else queue := by
  have hfind : queue.find? (fun f => f.id == item.id) = some standing := by
    cases hf : queue.find? (fun f => f.id == item.id) with
    | none => exact absurd (beq_iff_eq.mpr hid) (List.find?_eq_none.mp hf standing hmem)
    | some f =>
      have hfid : f.id = item.id := beq_iff_eq.mp (List.find?_some (p := fun f : FollowUp => f.id == item.id) hf)
      rw [eq_of_nodup_map hnodup (List.mem_of_find?_eq_some hf) hmem (hfid.trans hid.symm)]
  rw [offerTo, hfind]

/-- A replacement by id touches no list in which the id does not stand. -/
theorem map_replace_absent {queue : List FollowUp} {item : FollowUp} (h : item.id ∉ queue.map FollowUp.id) :
    queue.map (fun f => if f.id = item.id then item else f) = queue := by
  refine (List.map_congr_left fun f hf => ?_).trans (List.map_id queue)
  exact if_neg fun hid => h (List.mem_map.mpr ⟨f, hf, hid⟩)

/-- Settles O26: by whether the id stands in the queue, and with which kind of item. -/
theorem mergeRule : Obligations.MergeRule := by
  intro queue kind id hnodup
  refine ⟨offerTo_absent (item := { kind := kind, id := id }), fun before after hkind hqueue => ?_,
    fun standing hmem hid hkind => ?_⟩
  · subst hqueue
    rw [offerTo_standing hnodup (item := { kind := kind, id := id }) (List.mem_append_right _ List.mem_cons_self) rfl,
      if_pos ⟨rfl, hkind⟩]
    rw [List.map_append, List.map_cons] at hnodup
    obtain ⟨-, hafter, hbefore⟩ := List.nodup_append.mp hnodup
    rw [List.map_append, List.map_cons, if_pos rfl, map_replace_absent, map_replace_absent]
    · exact (List.nodup_cons.mp hafter).1
    · exact fun hid => hbefore id hid id List.mem_cons_self rfl
  · rw [offerTo_standing hnodup hmem hid, if_neg fun hdrop => hkind hdrop.1]

end Sys2Proof.Machine
end

section
/-! SUPPORT. The admission engine family: the EXPIRE and ORPHAN items (R76, R78, R117). -/

namespace Sys2Proof.Machine

/-- The two states in which a release has nothing to release. -/
theorem Circuit.isReleasable_eq_false_iff (c : Circuit) :
    c.isReleasable = false ↔ c.state = .releasing ∨ c.state = .closed := by
  unfold Circuit.isReleasable
  cases c.state <;> simp

/-- An EXPIRE item that the engine takes acts on the state without it (R75, R117). -/
theorem exec_expire {s : State} {id : Nat} (h : TakesFollowUp s .expire id) :
    exec .expire s = .next ((withoutHead s).releaseItem .expired id) := by
  show Host.Outcome.next (s.whileRunning (State.followUpAdmission .expire (State.releaseItem .expired))) = _
  rw [State.next_released _ h.1, State.followUpAdmission_taken s .expire id _ h]

/-- An ORPHAN item that the engine takes acts on the state without it (R75, R78). -/
theorem exec_orphan {s : State} {id : Nat} (h : TakesFollowUp s .orphan id) :
    exec .orphan s = .next ((withoutHead s).releaseItem .orphaned id) := by
  show Host.Outcome.next (s.whileRunning (State.followUpAdmission .orphan (State.releaseItem .orphaned))) = _
  rw [State.next_released _ h.1, State.followUpAdmission_taken s .orphan id _ h]

/-- An item that still applies releases its record with its cascade (R78, R117). -/
theorem State.releaseItem_released {s : State} {id : Nat} {c : Circuit} (reason : CloseReason) (h : s.Canonical)
    (hc : s.circuit id = some c) (hlive : c.isReleasable = true) :
    Released reason id c s (s.releaseItem reason id) := by
  have happlies : (s.circuit id).any Circuit.isReleasable = true := by rw [hc, Option.any_some, hlive]
  rw [State.releaseItem, if_pos happlies]
  exact s.releaseAll_released reason id c h hc

/-- An item that no longer applies is discarded (R76). -/
theorem State.releaseItem_discards {s : State} {id : Nat} (reason : CloseReason)
    (h : ∀ c, s.circuit id = some c → c.isReleasable = false) : s.releaseItem reason id = s := by
  rw [State.releaseItem, if_neg]
  rw [Option.any_eq_true]
  rintro ⟨c, hc, hlive⟩
  exact Bool.false_ne_true ((h c hc).symm.trans hlive)

/-- Settles O42: a release with its cascade, or nothing, on the state without the item. -/
theorem expireAndOrphanItems : Obligations.ExpireAndOrphanItems := by
  intro s id hcanon
  have hcanon' : (withoutHead s).Canonical := hcanon
  refine ⟨fun c hc hstate => ?_, fun hgone => ?_⟩
  · have hlive : c.isReleasable = true := c.isReleasable_iff.mpr hstate
    exact ⟨fun htakes => ⟨_, exec_expire htakes, State.releaseItem_released .expired hcanon' hc hlive⟩,
      fun htakes => ⟨_, exec_orphan htakes, State.releaseItem_released .orphaned hcanon' hc hlive⟩⟩
  · have hover : ∀ c, (withoutHead s).circuit id = some c → c.isReleasable = false := by
      intro c hc
      obtain hnone | ⟨d, hd, hstate⟩ := hgone
      · exact absurd (hc.symm.trans hnone) (by simp)
      · cases hc.symm.trans hd
        exact c.isReleasable_eq_false_iff.mpr hstate
    exact ⟨fun htakes => by rw [exec_expire htakes, State.releaseItem_discards _ hover],
      fun htakes => by rw [exec_orphan htakes, State.releaseItem_discards _ hover]⟩

end Sys2Proof.Machine
end

section
/-! SUPPORT. The admission engine family: steps 3 to 5 of the check order for the requests that name a record (R79, R81,
R82). -/

namespace Sys2Proof.Machine

/-! ### Steps 3 and 4 -/

/-- A reference to a FREE record, or with another generation than the record's, names no circuit (R1, R81). -/
theorem onCircuit_unknown {s : State} {who : Owner} {id : Nat} {generation : Byte} {rest : List Word}
    (go : Nat → Circuit → Decision) (hid : id < 256)
    (h : s.circuit id = none ∨ (s.record id).generation ≠ generation) :
    onCircuit who (refWord id generation :: rest) s go = refuse .unknownCircuit s := by
  have hhi : bodyHi (refWord id generation :: rest) 1 = id := refWord_id _ hid
  have hlo : (bodyWord (refWord id generation :: rest) 1).lo = generation := refWord_generation _ _
  have hnamed : s.named id generation = none := by
    rw [State.named, ite_eq_right_iff]
    exact fun hgeneration => h.resolve_right fun hne => hne hgeneration
  rw [onCircuit, hhi, hlo, hnamed]

/-- A link has no authority over a record that it does not own (R81). -/
theorem onCircuit_notOwner {s : State} {who : Owner} {id : Nat} {c : Circuit} {rest : List Word}
    (go : Nat → Circuit → Decision) (hid : id < 256) (hc : s.circuit id = some c) (hwho : who ≠ .supervisor)
    (howner : c.owner ≠ who) :
    onCircuit who (refWord id (s.record id).generation :: rest) s go = refuse .notOwner s := by
  have hhi : bodyHi (refWord id (s.record id).generation :: rest) 1 = id := refWord_id _ hid
  have hlo : (bodyWord (refWord id (s.record id).generation :: rest) 1).lo = (s.record id).generation :=
    refWord_generation _ _
  have hnamed : s.named id (s.record id).generation = some c := by rw [State.named, if_pos rfl, hc]
  have hauthority : authority who c = false := by simp [authority, hwho, Ne.symm howner]
  rw [onCircuit, hhi, hlo, hnamed]
  dsimp only
  rw [if_neg (by simp [hauthority])]

/-! ### Step 5 -/

/-- The check of the state of a named record, for each kind of request on it (R82). -/
def stateCheck : RequestKind → Circuit → Option ResultCode
  | .reshape => reshapeState
  | .suspend => suspendState
  | .resume => resumeState
  | .release | .renew => fun c => if c.isGoing then some .going else none
  | _ => fun _ => none

/-- The placement of a code of a RESHAPE body (12.2). -/
theorem exists_placementCode {code : Nat} (h1 : 1 ≤ code) (h3 : code ≤ 3) :
    ∃ placement, placement ≠ .fixed ∧ placementCode placement = code := by
  obtain rfl | rfl | rfl : code = 1 ∨ code = 2 ∨ code = 3 := by omega
  · exact ⟨.contiguous, by decide, rfl⟩
  · exact ⟨.spread, by decide, rfl⟩
  · exact ⟨.any, by decide, rfl⟩

/-- A permitted body of a request that names a record begins with its reference (12.3). -/
theorem bodyFor_reference {kind : RequestKind} {reference : Word} {body : List Word} (h : bodyFor kind reference body) :
    ∃ rest, body = reference :: rest := by
  cases kind with
  | reshape =>
    obtain ⟨width, code, -, -, -, -, rfl⟩ := h
    exact ⟨_, rfl⟩
  | renew =>
    obtain rfl | ⟨length, rfl⟩ := h
    · exact ⟨_, rfl⟩
    · exact ⟨_, rfl⟩
  | _ => exact ⟨[], h⟩

/-- A request that names a record passes its body check; steps 3 and 4 come next, and then the check of the record's
state (R79). -/
theorem decisionOf_named {kind : RequestKind} (s : State) (who : Owner) {reference : Word} {body : List Word}
    (hkind : namesRecord kind) (hbody : bodyFor kind reference body) :
    ∃ go, decisionOf kind who body s = onCircuit who body s go ∧
      ∀ id c code, stateCheck kind c = some code → go id c = refuse code s := by
  have hword : body = [reference] → ¬body.length ≠ 1 := fun h => by rw [h]; exact fun hne => hne rfl
  cases kind with
  | release =>
    refine ⟨_, if_neg (hword hbody), fun id c code hcode => ?_⟩
    obtain ⟨hgoing, ⟨⟩⟩ := Option.ite_none_right_eq_some.mp hcode
    exact if_pos hgoing
  | reshape =>
    obtain ⟨width, code, h1, h16, hcode1, hcode3, rfl⟩ := hbody
    obtain ⟨placement, hne, rfl⟩ := exists_placementCode hcode1 hcode3
    have hread := parseReshape_eq_some.mpr (reshapeBody_written reference h1 h16 hne)
    refine ⟨_, by rw [decisionOf, decideReshape, hread], fun id c code hcode => ?_⟩
    rw [stateCheck] at hcode
    rw [hcode]
  | suspend =>
    refine ⟨_, if_neg (hword hbody), fun id c code hcode => ?_⟩
    rw [stateCheck] at hcode
    rw [hcode]
  | resume =>
    refine ⟨_, if_neg (hword hbody), fun id c code hcode => ?_⟩
    rw [stateCheck] at hcode
    rw [hcode]
  | renew =>
    have hlength : ¬(body.length ≠ 1 ∧ body.length ≠ 2) := by
      obtain rfl | ⟨length, rfl⟩ := hbody <;> simp
    refine ⟨_, if_neg hlength, fun id c code hcode => ?_⟩
    obtain ⟨hgoing, ⟨⟩⟩ := Option.ite_none_right_eq_some.mp hcode
    exact if_pos hgoing
  | ask =>
    exact ⟨_, if_neg (hword hbody), fun id c code hcode => absurd hcode (by simp [stateCheck])⟩
  | claim | branch | readCircuit | readSlot | readFree | takeReport | commit | resetLink => simp [namesRecord] at hkind

/-- A request whose decision is a refusal is answered with its code and no body, and nothing else changes (R79). -/
theorem exec_refused {s : State} {who : Owner} {kind : RequestKind} {body : List Word} {code : ResultCode}
    (htakes : Takes s who (some kind) body) (hdecision : decisionOf kind who body s = refuse code s) :
    ∃ t, exec (commandOf kind) s = .next t ∧ Answered who code [] s s t := by
  obtain ⟨t, hexec, hanswered⟩ := exec_answered htakes
  rw [hdecision] at hanswered
  exact ⟨t, hexec, hanswered⟩

/-- A record that is RELEASING or CLOSED is refused with GOING, but to an ASK (R82). -/
theorem stateCheck_going {kind : RequestKind} {c : Circuit} (hkind : namesRecord kind) (hask : kind ≠ .ask)
    (h : c.state = .releasing ∨ c.state = .closed) : stateCheck kind c = some .going := by
  have hgoing : c.isGoing = true := by rw [Circuit.isGoing, c.isReleasable_eq_false_iff.mpr h, Bool.not_false]
  cases kind with
  | release | renew | reshape | suspend | resume => exact if_pos hgoing
  | ask => exact absurd rfl hask
  | claim | branch | readCircuit | readSlot | readFree | takeReport | commit | resetLink => simp [namesRecord] at hkind

/-- A record that is not RELEASING or CLOSED passes the check for it. -/
theorem Circuit.isGoing_eq_false {c : Circuit} (h : c.state = .pending ∨ c.state = .active ∨ c.state = .suspended) :
    c.isGoing = false := by
  rw [Circuit.isGoing, c.isReleasable_iff.mpr h, Bool.not_true]

/-- A SUSPEND of a record in PENDING or SUSPENDED is refused with WRONG_STATE (R82). -/
theorem suspendState_wrongState {c : Circuit} (h : c.state = .pending ∨ c.state = .suspended) :
    suspendState c = some .wrongState := by
  have hgoing := Circuit.isGoing_eq_false (h.imp_right .inr)
  obtain hstate | hstate := h <;> simp [suspendState, hgoing, hstate]

/-- A SUSPEND of a record with a pending change is refused with CHANGE_PENDING (R7, R82). -/
theorem suspendState_changePending {c : Circuit} (hstate : c.state = .active) (hchange : c.pendingChange ≠ none) :
    suspendState c = some .changePending := by
  have hgoing := Circuit.isGoing_eq_false (.inr (.inl hstate))
  simp [suspendState, hgoing, hstate, Option.isSome_iff_ne_none, hchange]

/-- A RESUME of a record in PENDING or ACTIVE is refused with WRONG_STATE (R82). -/
theorem resumeState_wrongState {c : Circuit} (h : c.state = .pending ∨ c.state = .active) :
    resumeState c = some .wrongState := by
  have hgoing := Circuit.isGoing_eq_false (h.imp_right .inl)
  obtain hstate | hstate := h <;> simp [resumeState, hgoing, hstate]

/-- A RESUME of a record with a pending change is refused with CHANGE_PENDING (R7, R82). -/
theorem resumeState_changePending {c : Circuit} (hstate : c.state = .suspended) (hchange : c.pendingChange ≠ none) :
    resumeState c = some .changePending := by
  have hgoing := Circuit.isGoing_eq_false (.inr (.inr hstate))
  simp [resumeState, hgoing, hstate, Option.isSome_iff_ne_none, hchange]

/-- A RESHAPE of a record that is not a TRUNK in ACTIVE is refused with WRONG_STATE (R82). -/
theorem reshapeState_wrongState {c : Circuit}
    (h : c.state = .pending ∨ c.state = .suspended ∨ (c.state = .active ∧ c.isTrunk = false)) :
    reshapeState c = some .wrongState := by
  have hgoing : c.isGoing = false := Circuit.isGoing_eq_false (h.imp_right fun h => h.symm.imp_left And.left)
  obtain hstate | hstate | ⟨-, hbranch⟩ := h
  · simp [reshapeState, hgoing, hstate]
  · simp [reshapeState, hgoing, hstate]
  · simp [reshapeState, hgoing, hbranch]

/-- A RESHAPE of a record with a pending change is refused with CHANGE_PENDING (R7, R82). -/
theorem reshapeState_changePending {c : Circuit} (hstate : c.state = .active) (htrunk : c.isTrunk = true)
    (hchange : c.pendingChange ≠ none) : reshapeState c = some .changePending := by
  have hgoing := Circuit.isGoing_eq_false (.inr (.inl hstate))
  simp [reshapeState, hgoing, hstate, htrunk, Option.isSome_iff_ne_none, hchange]

/-- A RESHAPE of a record with branches is refused with HAS_BRANCHES (R82). -/
theorem reshapeState_hasBranches {c : Circuit} (hstate : c.state = .active) (htrunk : c.isTrunk = true)
    (hchange : c.pendingChange = none) (hbranches : c.branches ≠ []) : reshapeState c = some .hasBranches := by
  have hgoing := Circuit.isGoing_eq_false (.inr (.inl hstate))
  simp [reshapeState, hgoing, hstate, htrunk, hchange, hbranches]

/-! ### The checks in their order -/

/-- Settles O28: the decision is that of steps 3 and 4 on the reference, and behind them that of the record's state. -/
theorem checksOfNamedRecords : Obligations.ChecksOfNamedRecords := by
  intro s who kind id generation body hkind hid hbody htakes
  obtain ⟨rest, hrest⟩ := bodyFor_reference hbody
  obtain ⟨go, hdecision, hstate⟩ := decisionOf_named s who hkind hbody
  rw [hrest] at hdecision htakes
  refine ⟨fun hunknown => exec_refused htakes (hdecision.trans (onCircuit_unknown go hid hunknown)),
    fun c hc hgeneration => ?_⟩
  subst hgeneration
  refine ⟨fun hwho howner => exec_refused htakes (hdecision.trans (onCircuit_notOwner go hid hc hwho howner)),
    fun hwho => ?_⟩
  have hrefused : ∀ code, stateCheck kind c = some code →
      ∃ t, exec (commandOf kind) s = .next t ∧ Answered who code [] s s t := fun code hcode =>
    exec_refused htakes ((hdecision.trans (onCircuit_passes go hid hc hwho)).trans (hstate id c code hcode))
  refine ⟨fun hask hgoing => hrefused _ (stateCheck_going hkind hask hgoing), ?_, ?_, ?_, ?_, ?_, ?_, ?_⟩
  · rintro rfl h
    exact hrefused _ (suspendState_wrongState h)
  · rintro rfl h
    exact hrefused _ (resumeState_wrongState h)
  · rintro rfl h
    exact hrefused _ (reshapeState_wrongState h)
  · rintro rfl hactive hchange
    exact hrefused _ (suspendState_changePending hactive hchange)
  · rintro rfl hsuspended hchange
    exact hrefused _ (resumeState_changePending hsuspended hchange)
  · rintro rfl hactive htrunk hchange
    exact hrefused _ (reshapeState_changePending hactive htrunk hchange)
  · rintro rfl hactive htrunk hchange hbranches
    exact hrefused _ (reshapeState_hasBranches hactive htrunk hchange hbranches)

end Sys2Proof.Machine
end

section
/-! SUPPORT. The requests family: RELEASE, SUSPEND, RESUME, RENEW and ASK when they pass the checks of steps 3 to 5 (R95
to R98, R105, R106, R108, R110). -/

namespace Sys2Proof.Machine

/-- A request that the engine takes is answered as its decision says. -/
theorem exec_decided {s : State} {who : Owner} {kind : RequestKind} {body : List Word} {d : Decision}
    (htakes : Takes s who (some kind) body) (hdecision : decisionOf kind who body s = d) :
    ∃ t, exec (commandOf kind) s = .next t ∧ Answered who d.code d.body s d.state t :=
  hdecision ▸ exec_answered htakes

/-- A request whose body is the reference alone passes steps 2 to 4, when the reference names a record that the
requester has authority over (R79 to R81). -/
theorem onReference_passes {s : State} {who : Owner} {id : Nat} {c : Circuit} (go : Nat → Circuit → Decision)
    (hid : id < 256) (hc : s.circuit id = some c) (hwho : who = .supervisor ∨ c.owner = who) :
    (if [refWord id (s.record id).generation].length ≠ 1 then refuse .badArgument s
      else onCircuit who [refWord id (s.record id).generation] s go) = go id c := by
  rw [if_neg (fun h => h rfl), onCircuit_passes go hid hc hwho]

/-! ### RELEASE -/

/-- A RELEASE of a record that is not RELEASING or CLOSED releases it with its cascade (R96, R97), and its answer holds
the state after it and the number of branches released (R98). -/
theorem decideRelease_accepted {s : State} {who : Owner} {id : Nat} {c : Circuit} (hid : id < 256)
    (hc : s.circuit id = some c) (hwho : who = .supervisor ∨ c.owner = who)
    (hstate : c.state = .pending ∨ c.state = .active ∨ c.state = .suspended) :
    decideRelease who [refWord id (s.record id).generation] s =
      { code := .ok,
        body := [refWord id (s.record id).generation,
          BitVec.ofNat 16 (stateCode ((s.releaseAll (releaseReason who c) id).circuit id) * 256 +
            (releasableBranches s c).length)],
        state := s.releaseAll (releaseReason who c) id } := by
  rw [decideRelease, onReference_passes _ hid hc hwho, if_neg (by simp [Circuit.isGoing_eq_false hstate]),
    s.cascadeOf_eq id c hc]
  dsimp only
  rw [Word.field_add]
  simp [bodyWord]

/-- Settles O35: the decision is the release with its cascade, which the laws of releases describe. -/
theorem releaseRequest : Obligations.ReleaseRequest := by
  intro s who id c hcanon hid hc hwho hstate htakes
  obtain ⟨t, hexec, hanswered⟩ := exec_decided htakes (decideRelease_accepted hid hc hwho hstate)
  exact ⟨_, t, hexec, s.releaseAll_released (releaseReason who c) id c hcanon hc, hanswered⟩

/-! ### SUSPEND and RESUME -/

/-- A record in ACTIVE with no pending change may be suspended (R82). -/
theorem suspendState_eq_none {c : Circuit} (hstate : c.state = .active) (hchange : c.pendingChange = none) :
    suspendState c = none := by
  have hgoing := Circuit.isGoing_eq_false (.inr (.inl hstate))
  simp [suspendState, hgoing, hstate, hchange]

/-- A record in SUSPENDED with no pending change may be resumed (R82). -/
theorem resumeState_eq_none {c : Circuit} (hstate : c.state = .suspended) (hchange : c.pendingChange = none) :
    resumeState c = none := by
  have hgoing := Circuit.isGoing_eq_false (.inr (.inr hstate))
  simp [resumeState, hgoing, hstate, hchange]

/-- A change of the staged treatment rewrites the staged entries of the unchanged staged pairs and lists the record
(R105, R106); pairs under FILL are all described alike, so only PASS needs them on distinct destinations. -/
theorem State.treat_restaged {s : State} (id : Nat) (c : Circuit) (treatment : Treatment) (change : PendingChange)
    (h : s.Canonical) (hdistinct : (c.staged.map Pair.dst).Nodup ∨ treatment = .fill) :
    Restaged id c { c with stagedTreatment := treatment, pendingChange := some change } c.staged
      (c.entry id treatment) s (s.treat id c treatment change) :=
  State.restage_restaged id _ h
    (s.editStaged_describe id { c with stagedTreatment := treatment, pendingChange := some change } c.staged
      (State.stagedBank_wf h) hdistinct)

/-- A SUSPEND of a record that may be suspended stages FILL (R105). -/
theorem decideSuspend_accepted {s : State} {who : Owner} {id : Nat} {c : Circuit} (hid : id < 256)
    (hc : s.circuit id = some c) (hwho : who = .supervisor ∨ c.owner = who) (hmay : suspendState c = none) :
    decideSuspend who [refWord id (s.record id).generation] s =
      { code := .ok, body := [refWord id (s.record id).generation], state := s.treat id c .fill .suspend } := by
  rw [decideSuspend, onReference_passes _ hid hc hwho, hmay]
  rfl

/-- A RESUME of a record that may be resumed stages PASS (R106). -/
theorem decideResume_accepted {s : State} {who : Owner} {id : Nat} {c : Circuit} (hid : id < 256)
    (hc : s.circuit id = some c) (hwho : who = .supervisor ∨ c.owner = who) (hmay : resumeState c = none) :
    decideResume who [refWord id (s.record id).generation] s =
      { code := .ok, body := [refWord id (s.record id).generation], state := s.treat id c .pass .resume } := by
  rw [decideResume, onReference_passes _ hid hc hwho, hmay]
  rfl

/-- Settles O37: each decision is a change of the staged treatment. -/
theorem suspendAndResume : Obligations.SuspendAndResume := by
  intro s who id c hcanon hid hc hwho hchange
  refine ⟨fun hactive htakes => ?_, fun hsuspended hdistinct htakes => ?_⟩
  · obtain ⟨t, hexec, hanswered⟩ :=
      exec_decided htakes (decideSuspend_accepted hid hc hwho (suspendState_eq_none hactive hchange))
    exact ⟨_, t, hexec, State.treat_restaged id c .fill .suspend hcanon (.inr rfl), hanswered⟩
  · obtain ⟨t, hexec, hanswered⟩ :=
      exec_decided htakes (decideResume_accepted hid hc hwho (resumeState_eq_none hsuspended hchange))
    exact ⟨_, t, hexec, State.treat_restaged id c .pass .resume hcanon (.inl hdistinct), hanswered⟩

/-! ### RENEW and ASK -/

/-- A RENEW keeps the lease length when its body is the reference alone, and takes the length that a second word gives
(R108). -/
theorem renewedLength_eq {reference length : Word} {body : List Word} {c : Circuit}
    (hbody : body = [reference] ∧ length = c.leaseLength ∨ body = [reference, length]) :
    renewedLength body c = length := by
  obtain ⟨rfl, rfl⟩ | rfl := hbody
  · exact if_neg (by simp)
  · exact if_pos rfl

/-- A RENEW of a record that is not RELEASING or CLOSED sets the lease length and reloads lease left (R108). -/
theorem decideRenew_accepted {s : State} {who : Owner} {id : Nat} {c : Circuit} {length : Word} {body : List Word}
    (hid : id < 256) (hc : s.circuit id = some c) (hwho : who = .supervisor ∨ c.owner = who)
    (hstate : c.state = .pending ∨ c.state = .active ∨ c.state = .suspended)
    (hbody : body = [refWord id (s.record id).generation] ∧ length = c.leaseLength ∨
      body = [refWord id (s.record id).generation, length]) :
    decideRenew who body s =
      { code := .ok, body := [refWord id (s.record id).generation, length, length],
        state := s.setCircuit id { c with leaseLength := length, leaseLeft := length } } := by
  have hlength : ¬(body.length ≠ 1 ∧ body.length ≠ 2) := by
    obtain ⟨rfl, -⟩ | rfl := hbody <;> simp
  have hpasses : ∀ go, onCircuit who body s go = go id c := fun go => by
    obtain ⟨rfl, -⟩ | rfl := hbody <;> exact onCircuit_passes go hid hc hwho
  rw [decideRenew, if_neg hlength, hpasses, if_neg (by simp [Circuit.isGoing_eq_false hstate]), renewedLength_eq hbody]
  rfl

/-- An ASK is answered with the summary of its record, whatever its state, and has no effect (R110). -/
theorem decideAsk_accepted {s : State} {who : Owner} {id : Nat} {c : Circuit} (hid : id < 256)
    (hc : s.circuit id = some c) (hwho : who = .supervisor ∨ c.owner = who) :
    decideAsk who [refWord id (s.record id).generation] s = { code := .ok, body := s.summary id, state := s } := by
  rw [decideAsk, onReference_passes _ hid hc hwho]

/-- Settles O38: a RENEW replaces one circuit, and an ASK only answers. -/
theorem renewAndAsk : Obligations.RenewAndAsk := by
  intro s who id c hcanon hid hc hwho reference
  refine ⟨fun body length hstate hbody htakes => ?_, fun htakes => ?_⟩
  · obtain ⟨t, hexec, hanswered⟩ := exec_decided htakes (decideRenew_accepted hid hc hwho hstate hbody)
    have hrecord := State.setCircuit_record s id { c with leaseLength := length, leaseLeft := length } hcanon.1
    exact ⟨_, t, hexec, rfl, (hrecord id).trans (if_pos rfl), fun j hj => (hrecord j).trans (if_neg hj), hanswered⟩
  · obtain ⟨t, hexec, hanswered⟩ := exec_decided htakes (decideAsk_accepted hid hc hwho)
    exact ⟨t, hexec, hanswered⟩

end Sys2Proof.Machine
end

section
/-! SUPPORT. The leases family: lease left stays at or below lease length (R111). The invariant is carried as a law of
the entries of the Circuit Table, so that an operation that leaves the table alone keeps it by definition, and one that
writes a record owes the law of the circuit it writes. -/

namespace Sys2Proof.Machine

/-! ### The law of one circuit and of the table's entries -/

/-- Lease left is at or below lease length (R111). -/
def Circuit.LeaseBounded (c : Circuit) : Prop := c.leaseLeft.toNat ≤ c.leaseLength.toNat

/-- Every circuit that an entry of the Circuit Table holds has its lease left at or below its lease length. -/
def State.EntriesBounded (s : State) : Prop := ∀ e ∈ s.table, ∀ c, e.2.circuit = some c → c.LeaseBounded

/-- The circuit of an id obeys the law of the entries. -/
theorem State.EntriesBounded.circuit {s : State} (h : s.EntriesBounded) {id : Nat} {c : Circuit}
    (hc : s.circuit id = some c) : c.LeaseBounded := by
  have hlisted : Sparse.read Record.initial s.table id ≠ Record.initial := fun hfree =>
    absurd (hc.symm.trans (congrArg Record.circuit hfree)) (Option.some_ne_none c)
  exact h _ (Sparse.mem_of_read _ _ hlisted) c hc

/-- In a canonical table the law of the entries is the law of the records. -/
theorem State.entriesBounded_iff {s : State} (h : s.Canonical) : s.EntriesBounded ↔ s.LeasesBounded := by
  refine ⟨fun hentries id c hc => hentries.circuit hc, fun hrecords e he c hc => hrecords e.1 c ?_⟩
  rw [State.circuit_eq, State.record, Sparse.read_of_mem _ _ h.1 he, hc]

/-- An entry of a buffer after a write is the one written or stood there before. -/
theorem Sparse.mem_write {α : Type} [DecidableEq α] {dflt : α} {l : Sparse α} {k : Nat} {v : α} {e : Nat × α}
    (h : e ∈ Sparse.write dflt l k v) : e = (k, v) ∨ e ∈ l := by
  induction l with
  | nil =>
    rw [Sparse.write] at h
    split at h
    · exact .inr h
    · exact .inl (List.mem_singleton.mp h)
  | cons entry rest ih =>
    rw [Sparse.write] at h
    split at h
    · split at h
      · exact .inr h
      · exact List.mem_cons.mp h
    · split at h
      · split at h
        · exact .inr (List.mem_cons_of_mem _ h)
        · exact (List.mem_cons.mp h).imp_right (List.mem_cons_of_mem _)
      · obtain rfl | hrest := List.mem_cons.mp h
        · exact .inr List.mem_cons_self
        · exact (ih hrest).imp_right (List.mem_cons_of_mem _)

/-! ### Operations that keep the law -/

/-- An operation keeps the law of the entries. -/
def KeepsLeases (f : State → State) : Prop := ∀ s : State, s.EntriesBounded → (f s).EntriesBounded

theorem State.EntriesBounded.ite {P : Prop} [Decidable P] {t u : State} (ht : t.EntriesBounded)
    (hu : u.EntriesBounded) : (if P then t else u).EntriesBounded := by
  split
  · exact ht
  · exact hu

/-- An operation applied for each entry of a list keeps the law when it does so for one entry. -/
theorem KeepsLeases.foldl {α : Type} {f : State → α → State} (h : ∀ a, KeepsLeases fun s => f s a) (l : List α) :
    KeepsLeases fun s => l.foldl f s := by
  induction l with
  | nil => exact fun _ hs => hs
  | cons a rest ih => exact fun s hs => ih (f s a) (h a s hs)

/-- An operation that is held while RESETn is asserted keeps the law when it does so in a running part. -/
theorem KeepsLeases.whileRunning {f : State → State} (h : KeepsLeases f) : KeepsLeases fun s => s.whileRunning f :=
  fun s hs => .ite hs (h s hs)

/-! ### Records -/

theorem State.EntriesBounded.setRecord {s : State} (h : s.EntriesBounded) (id : Nat) {r : Record}
    (hr : ∀ c, r.circuit = some c → c.LeaseBounded) : (s.setRecord id r).EntriesBounded := by
  intro e he
  obtain rfl | hmem := Sparse.mem_write he
  · exact hr
  · exact h e hmem

theorem State.EntriesBounded.setCircuit {s : State} (h : s.EntriesBounded) (id : Nat) {c : Circuit}
    (hc : c.LeaseBounded) : (s.setCircuit id c).EntriesBounded :=
  h.setRecord id fun _ hsome => Option.some.inj hsome ▸ hc

theorem State.EntriesBounded.queueReport {s : State} (h : s.EntriesBounded) (o : Owner) (id : Nat) :
    (s.queueReport o id).EntriesBounded := by
  rw [State.EntriesBounded, State.queueReport_table]
  exact h

theorem freeRecord_keepsLeases (id : Nat) : KeepsLeases (State.freeRecord id) :=
  fun _ h => h.setRecord id fun _ hfree => nomatch hfree

theorem freeAll_keepsLeases (ids : List Nat) : KeepsLeases (State.freeAll ids) :=
  .foldl freeRecord_keepsLeases ids

theorem deliver_keepsLeases (id : Nat) : KeepsLeases (State.deliver id) :=
  fun s h => .ite (freeRecord_keepsLeases id s h) h

/-- A new circuit starts with its whole lease left (R16, R111). -/
theorem newCircuit_leaseBounded (owner : Owner) (kind : CircuitKind) (srcTrunk dstTrunk width : Nat)
    (pairs : List Pair) (fill : Byte) (lease : Word) :
    (newCircuit owner kind srcTrunk dstTrunk width pairs fill lease).LeaseBounded :=
  Nat.le_refl _

theorem State.EntriesBounded.takeRecord {s : State} (h : s.EntriesBounded) (id : Nat) {c : Circuit}
    (hc : c.LeaseBounded) : (s.takeRecord id c).EntriesBounded :=
  h.setRecord id fun _ hsome => Option.some.inj hsome ▸ hc

theorem updateBranches_keepsLeases (parent : Nat) (f : List Nat → List Nat) :
    KeepsLeases (State.updateBranches parent f) := by
  intro s h
  unfold State.updateBranches
  split
  · rename_i c hc
    have hbound : c.LeaseBounded := h.circuit hc
    split
    · exact h.setCircuit parent hbound
    · exact h
  · exact h

theorem leaveParent_keepsLeases (id : Nat) (c : Circuit) : KeepsLeases (State.leaveParent id c) := by
  intro s h
  unfold State.leaveParent
  split
  · exact updateBranches_keepsLeases _ _ s h
  · exact h

/-- The owner test writes the circuit that it is given, CLOSED, or frees the record (R17). -/
theorem ownerTest_keepsLeases (id : Nat) {c : Circuit} (hc : c.LeaseBounded) :
    KeepsLeases (State.ownerTest id c) := by
  intro s h
  have hclosed : (s.setCircuit id { c with state := .closed }).EntriesBounded := h.setCircuit id hc
  exact .ite (hclosed.queueReport c.owner id) (freeRecord_keepsLeases id s h)

/-! ### Releases -/

theorem releasePending_keepsLeases (reason : CloseReason) (id : Nat) {c : Circuit} (hc : c.LeaseBounded) :
    KeepsLeases (State.releasePending reason id c) := by
  intro s h
  have hleft := leaveParent_keepsLeases id c (((s.editStaged (c.clearBatch c.staged)).unlist id).removeFollowUp id) h
  exact ownerTest_keepsLeases id (c := { c with staged := [], pendingChange := none, closeReason := some reason }) hc
    _ hleft

theorem releaseLive_keepsLeases (reason : CloseReason) (id : Nat) {c : Circuit} (hc : c.LeaseBounded) :
    KeepsLeases (State.releaseLive reason id c) := by
  intro s h
  refine State.EntriesBounded.queueReport ?_ c.owner id
  exact State.EntriesBounded.setCircuit (s := (s.editStaged (c.clearBatch c.staged)).removeFollowUp id) h id hc

theorem releaseRecord_keepsLeases (reason : CloseReason) (id : Nat) : KeepsLeases (State.releaseRecord reason id) := by
  intro s h
  unfold State.releaseRecord
  split
  · exact h
  · rename_i c hc
    have hbound : c.LeaseBounded := h.circuit hc
    split
    · exact releasePending_keepsLeases reason id hbound s h
    · exact releaseLive_keepsLeases reason id hbound s h
    · exact releaseLive_keepsLeases reason id hbound s h
    · exact h
    · exact h

theorem releaseAll_keepsLeases (reason : CloseReason) (id : Nat) : KeepsLeases (State.releaseAll reason id) :=
  fun s h => KeepsLeases.foldl (releaseRecord_keepsLeases .parentGone) (s.cascadeOf id) _
    (releaseRecord_keepsLeases reason id s h)

theorem releaseItem_keepsLeases (reason : CloseReason) (id : Nat) : KeepsLeases (State.releaseItem reason id) :=
  fun s h => .ite (releaseAll_keepsLeases reason id s h) h

theorem dropMarked_keepsLeases (id : Nat) : KeepsLeases (State.dropMarked id) := by
  intro s h
  unfold State.dropMarked
  split
  · exact h
  · rename_i c hc
    have hbound : c.LeaseBounded := h.circuit hc
    exact .ite (h.setCircuit id (c := { c with staged := c.staged.filter fun p => !p.retiring }) hbound) h

/-! ### Link states -/

theorem offerOrphans_keepsLeases (n : Link) : KeepsLeases (State.offerOrphans n) := by
  intro s h
  rw [State.offerOrphans_eq]
  exact h

theorem leaveUp_keepsLeases (n : Link) (target : LinkState) (reason : DownReason) :
    KeepsLeases (State.leaveUp n target reason) :=
  fun s h => offerOrphans_keepsLeases n _ (freeAll_keepsLeases (s.closedOf (.link n)) _ h)

theorem resetLink_keepsLeases (n : Link) : KeepsLeases (State.resetLink n) := by
  intro s h
  unfold State.resetLink
  split
  · exact leaveUp_keepsLeases n _ _ s h
  · exact offerOrphans_keepsLeases n _ h
  · exact h

/-! ### Admissions -/

/-- A decision keeps the law, whoever requests and whatever the body. -/
def DecisionKeepsLeases (decide : Owner → List Word → State → Decision) : Prop :=
  ∀ who body (s : State), s.EntriesBounded → (decide who body s).state.EntriesBounded

/-- A request on a named record keeps the law when what follows steps 3 and 4 does so with the record's circuit. -/
theorem onCircuit_keepsLeases {s : State} (h : s.EntriesBounded) (who : Owner) (body : List Word)
    {go : Nat → Circuit → Decision}
    (hgo : ∀ id c, c.LeaseBounded → (go id c).state.EntriesBounded) :
    (onCircuit who body s go).state.EntriesBounded := by
  unfold onCircuit
  split
  · exact h
  · rename_i c hnamed
    obtain ⟨-, hc⟩ := Option.ite_none_right_eq_some.mp hnamed
    split
    · exact hgo _ c (h.circuit hc)
    · exact h

/-- A CLAIM meets four checks, each with a refusal, before it takes a record for a new circuit (R89). -/
theorem decideClaim_keepsLeases : DecisionKeepsLeases decideClaim := by
  intro who body s h
  unfold decideClaim
  iterate 4
    split
    · exact h
  exact h.takeRecord _ (newCircuit_leaseBounded _ _ _ _ _ _ _ _)

/-- A BRANCH meets seven checks, each with a refusal, before it takes a record and joins its parent (R92). -/
theorem decideBranch_keepsLeases : DecisionKeepsLeases decideBranch := by
  intro who body s h
  unfold decideBranch
  iterate 7
    split
    · exact h
  exact updateBranches_keepsLeases _ _ _ (h.takeRecord _ (newCircuit_leaseBounded _ _ _ _ _ _ _ _))

theorem decideRelease_keepsLeases : DecisionKeepsLeases decideRelease := by
  intro who body s h
  unfold decideRelease
  split
  · exact h
  refine onCircuit_keepsLeases h who body fun id _ _ => ?_
  split
  · exact h
  · exact releaseAll_keepsLeases _ id s h

theorem decideReshape_keepsLeases : DecisionKeepsLeases decideReshape := by
  intro who body s h
  unfold decideReshape
  split
  · exact h
  refine onCircuit_keepsLeases h who body fun id c hbound => ?_
  split
  · exact h
  split
  · exact h
  · exact State.EntriesBounded.setCircuit h id hbound

theorem decideSuspend_keepsLeases : DecisionKeepsLeases decideSuspend := by
  intro who body s h
  unfold decideSuspend
  split
  · exact h
  refine onCircuit_keepsLeases h who body fun id c hbound => ?_
  split
  · exact h
  · exact State.EntriesBounded.setCircuit h id hbound

theorem decideResume_keepsLeases : DecisionKeepsLeases decideResume := by
  intro who body s h
  unfold decideResume
  split
  · exact h
  refine onCircuit_keepsLeases h who body fun id c hbound => ?_
  split
  · exact h
  · exact State.EntriesBounded.setCircuit h id hbound

/-- A RENEW reloads lease left with the very length that it stores (R108). -/
theorem decideRenew_keepsLeases : DecisionKeepsLeases decideRenew := by
  intro who body s h
  unfold decideRenew
  split
  · exact h
  refine onCircuit_keepsLeases h who body fun id c _ => ?_
  split
  · exact h
  · exact State.EntriesBounded.setCircuit h id (Nat.le_refl _)

/-- A TAKE_REPORT delivers a report, which frees a CLOSED record (R18, R159). -/
theorem decideTakeReport_keepsLeases : DecisionKeepsLeases decideTakeReport := by
  intro who body s h
  unfold decideTakeReport
  split
  · exact h
  split
  · exact h
  · exact deliver_keepsLeases _ _ h

theorem decideResetLink_keepsLeases : DecisionKeepsLeases decideResetLink := by
  intro who body s h
  unfold decideResetLink
  split
  · exact h
  split
  · exact h
  · exact resetLink_keepsLeases _ s h

/-- The decision on a request of each kind keeps the law: a new circuit starts with its whole lease, a RENEW reloads it,
and no other request touches a lease. -/
theorem decisionOf_keepsLeases (kind : RequestKind) : DecisionKeepsLeases (decisionOf kind) := by
  cases kind with
  | claim => exact decideClaim_keepsLeases
  | branch => exact decideBranch_keepsLeases
  | release => exact decideRelease_keepsLeases
  | reshape => exact decideReshape_keepsLeases
  | suspend => exact decideSuspend_keepsLeases
  | resume => exact decideResume_keepsLeases
  | renew => exact decideRenew_keepsLeases
  | takeReport => exact decideTakeReport_keepsLeases
  | resetLink => exact decideResetLink_keepsLeases
  | ask =>
    intro who body s h
    show (decideAsk who body s).state.EntriesBounded
    unfold decideAsk
    split
    · exact h
    · exact onCircuit_keepsLeases h who body fun _ _ _ => h
  | readCircuit | readSlot | readFree | commit =>
    intro who body s h
    show (ite _ _ _ : Decision).state.EntriesBounded
    split
    · exact h
    · exact h

/-- The admission of a request keeps the law when the decision on it does. -/
theorem admission_keepsLeases (kind : Option RequestKind) {decide : Owner → List Word → State → Decision}
    (hdecide : DecisionKeepsLeases decide) : KeepsLeases (State.admission kind decide) := by
  intro s h
  unfold State.admission
  split
  · exact .ite (hdecide .supervisor _ s h) h
  · split
    · exact .ite (hdecide (.link _) _ (s.takeRequest _) h) h
    · exact h
  · exact h
  · exact h

/-- The admission of a follow-up item keeps the law when its action does. -/
theorem followUpAdmission_keepsLeases (kind : FollowKind) {act : Nat → State → State}
    (hact : ∀ id, KeepsLeases (act id)) : KeepsLeases (State.followUpAdmission kind act) := by
  intro s h
  unfold State.followUpAdmission
  split
  · exact .ite (hact _ _ h) h
  · exact h
  · exact h
  · exact h

end Sys2Proof.Machine
end

section
/-! SUPPORT. The leases family: every command, and so every step, keeps lease left at or below lease length (R111). -/

namespace Sys2Proof.Machine

/-! ### Register writes -/

theorem actOnSelection_keepsLeases (old : Control) : KeepsLeases (State.actOnSelection old) := by
  intro s h
  unfold State.actOnSelection
  split
  · exact h
  · exact .ite h h

/-- A write to CONTROL frees records, or empties the table in a soft reset (R20, R163). -/
theorem writeControl_keepsLeases (w : Word) : KeepsLeases (State.writeControl w) := by
  intro s h
  have hcleared : (s.withControl (controlOf w)).clearReports.EntriesBounded := freeAll_keepsLeases _ _ h
  have hmoved := actOnSelection_keepsLeases s.control _ (State.EntriesBounded.ite
    (P := s.control.reports = true ∧ (controlOf w).reports = false) hcleared (u := s.withControl (controlOf w)) h)
  exact .ite (fun _ hnone => nomatch hnone) hmoved

theorem writeEnable_keepsLeases (n : Link) (enable : Bool) : KeepsLeases (State.writeEnable n enable) :=
  fun _ h => .ite h (.ite h (.ite (leaveUp_keepsLeases n _ _ _ h) h))

theorem writeLinkConfig_keepsLeases (n : Link) (w : Word) : KeepsLeases (State.writeLinkConfig n w) := by
  intro s h
  have henabled := writeEnable_keepsLeases n (bitOf w 0) (s.modifyLink n fun c =>
    { c with quota := heldQuota (w.hi.toNat % 128), policy := if bitOf w 2 then .release else .keep }) h
  exact .ite (resetLink_keepsLeases n _ henabled) henabled

theorem writeHeader_keepsLeases (w : Word) : KeepsLeases (State.writeHeader w) := by
  intro s h
  unfold State.writeHeader
  split
  · exact h
  · exact h
  · exact .ite h (.ite h h)
  · exact .ite h (.ite h h)

theorem writeBody_keepsLeases (position : Nat) (w : Word) : KeepsLeases (State.writeBody position w) := by
  intro s h
  unfold State.writeBody
  split
  · exact .ite h h
  · exact h
  · exact h
  · exact h

theorem writeWindow_keepsLeases (position : Nat) (w : Word) : KeepsLeases (State.writeWindow position w) :=
  fun s h => .ite (writeHeader_keepsLeases w s h) (.ite (writeBody_keepsLeases position w s h) h)

theorem writeMailboxControl_keepsLeases (isAck isAbort : Bool) :
    KeepsLeases (State.writeMailboxControl isAck isAbort) :=
  fun _ h => .ite h h

theorem writeWord_keepsLeases (address : BitVec 7) (w : Word) : KeepsLeases (State.writeWord address w) := by
  intro s h
  unfold State.writeWord
  cases registerAt address with
  | none => exact h
  | some register =>
    cases register with
    | control => exact writeControl_keepsLeases w s h
    | mboxCtl => exact writeMailboxControl_keepsLeases _ _ s h
    | linkConfig n => exact writeLinkConfig_keepsLeases n w s h
    | command position => exact writeWindow_keepsLeases position w s h
    | _ => exact h

/-! ### Request links -/

theorem refuseAtLink_keepsLeases (n : Link) (kind tag : Byte) (code : ResultCode) :
    KeepsLeases (State.refuseAtLink n kind tag code) :=
  fun _ h => .ite h h

theorem receiveRequest_keepsLeases (n : Link) (r : Request) : KeepsLeases (State.receiveRequest n r) := by
  intro s h
  have hrefused := fun code => refuseAtLink_keepsLeases n r.kind r.tag code s h
  exact .ite (hrefused _) (.ite (hrefused _) (.ite (hrefused _) h))

theorem receiveDamaged_keepsLeases (n : Link) (reason : FaultReason) :
    KeepsLeases (State.receiveDamaged n reason) :=
  fun _ h => .ite (.ite (leaveUp_keepsLeases n _ _ _ h) h) h

theorem receiveGood_keepsLeases (n : Link) (m : RxMessage) : KeepsLeases (State.receiveGood n m) := by
  intro s h
  unfold State.receiveGood
  split
  · exact h
  · exact .ite h h
  · exact .ite h (receiveRequest_keepsLeases n _ _ h)

theorem receive_keepsLeases (n : Link) (m : RxMessage) : KeepsLeases (State.receive n m) := by
  intro s h
  refine .ite h (.ite h ?_)
  split
  · exact receiveDamaged_keepsLeases n _ _ h
  · exact receiveGood_keepsLeases n m _ h

theorem loseClock_keepsLeases (n : Link) : KeepsLeases (State.loseClock n) :=
  fun _ h => .ite (.ite (leaveUp_keepsLeases n _ _ _ h) h) h

theorem transmitterTake_keepsLeases (n : Link) : KeepsLeases (State.transmitterTake n) := by
  intro s h
  refine .ite ?_ h
  split
  · exact h
  · refine .ite h ?_
    split
    · exact deliver_keepsLeases _ _ h
    · exact h

theorem transmissionComplete_keepsLeases (n : Link) : KeepsLeases (State.transmissionComplete n) := by
  intro s h
  unfold State.transmissionComplete
  split
  · exact h
  · exact h

/-! ### The cutover and the boundary -/

/-- A cutover loads the whole lease of a PENDING circuit, and touches no other lease (R40, R41). -/
theorem Circuit.LeaseBounded.cutOver {c : Circuit} (h : c.LeaseBounded) (cycle : Word) :
    (c.cutOver cycle).LeaseBounded := by
  unfold Circuit.cutOver
  dsimp only
  split
  · exact Nat.le_refl _
  all_goals exact h

theorem Circuit.LeaseBounded.leaveTree {c : Circuit} (h : c.LeaseBounded) : c.leaveTree.LeaseBounded := by
  unfold Circuit.leaveTree
  split
  · exact h
  · exact h

theorem applyRecord_keepsLeases (id : Nat) : KeepsLeases (State.applyRecord id) := by
  intro s h
  unfold State.applyRecord
  split
  · exact h
  · rename_i c hc
    have hcut := (h.circuit hc).cutOver s.timing.cycle
    have hlive := (h.setCircuit id hcut).queueReport c.owner id
    exact .ite (ownerTest_keepsLeases id hcut.leaveTree _ (leaveParent_keepsLeases id c s h)) (.ite hlive hlive)

theorem cutOver_keepsLeases : KeepsLeases State.cutOver :=
  fun s h => KeepsLeases.foldl applyRecord_keepsLeases s.cutover.changeList s h

theorem decideBoundary_keepsLeases (stepped : Bool) : KeepsLeases (State.decideBoundary stepped) :=
  fun s h => .ite (.ite h h) (.ite (.ite h h) (.ite (cutOver_keepsLeases s h) (.ite h h)))

theorem countSilence_keepsLeases (n : Link) : KeepsLeases (State.countSilence n) :=
  fun s h => .ite (leaveUp_keepsLeases n _ _ s h) (.ite h h)

theorem takeBoundary_keepsLeases (stepped : Bool) (o : BoundaryOrder) :
    KeepsLeases (State.takeBoundary stepped o) := by
  intro s h
  have hbefore := KeepsLeases.foldl countSilence_keepsLeases (linksBefore o) s h
  exact KeepsLeases.foldl countSilence_keepsLeases (linksAfter o) _ (decideBoundary_keepsLeases stepped _ hbefore)

theorem completeCopy_keepsLeases : KeepsLeases State.completeCopy := by
  intro s h
  unfold State.completeCopy
  split
  · exact h
  · exact h

/-! ### The lease tick -/

/-- The countdown takes one from a lease left that is not 0, and so stays within the length (R113). -/
theorem Circuit.LeaseBounded.countLease {c : Circuit} (h : c.LeaseBounded) : c.countLease.LeaseBounded := by
  unfold Circuit.countLease
  split
  · rename_i hrunning
    obtain ⟨-, hleft⟩ := hrunning
    have hdown : (c.leaseLeft - 1).toNat ≤ c.leaseLeft.toNat := by bv_omega
    exact Nat.le_trans hdown h
  · exact h

/-- A table with every running lease counted down obeys the law. -/
theorem State.EntriesBounded.countLeases {s : State} (h : s.EntriesBounded) :
    (s.withTable (Machine.countLeases s.table)).EntriesBounded := by
  intro e he c hc
  obtain ⟨old, hold, rfl⟩ := List.mem_map.mp he
  obtain ⟨d, hd, rfl⟩ := Option.map_eq_some_iff.mp hc
  exact (h old hold d hd).countLease

theorem takeLeaseTick_keepsLeases : KeepsLeases State.takeLeaseTick := by
  intro s h
  unfold State.takeLeaseTick
  split
  · exact h.countLeases
  · exact KeepsLeases.foldl (f := fun s id => s.offer .expire id) (fun _ _ hs => hs) _ _ h.countLeases

/-! ### Frame starts and references -/

theorem startFrame_keepsLeases (kind : FrameKind) (now : Nat) (received : TrunkBytes) (o : BoundaryOrder) :
    KeepsLeases (State.startFrame kind now received o) := by
  intro s h
  cases kind with
  | ordinary => exact h
  | leaseTick => exact takeLeaseTick_keepsLeases _ h
  | boundary stepped => exact takeBoundary_keepsLeases stepped o _ h

theorem refAbsent_keepsLeases (r : Ref) : KeepsLeases (State.refAbsent r) :=
  fun _ h => .ite (.ite h h) h

theorem becomeGood_keepsLeases (r : Ref) : KeepsLeases (State.becomeGood r) := by
  intro s h
  unfold State.becomeGood
  split
  · exact h
  · exact .ite h h

theorem lockedPulse_keepsLeases (now : Nat) (f : FrameInput) : KeepsLeases (State.lockedPulse now f) :=
  fun _ h => .ite (startFrame_keepsLeases _ now _ _ _ h) (startFrame_keepsLeases _ now _ _ _ h)

theorem pulse_keepsLeases (r : Ref) (now : Nat) (f : FrameInput) : KeepsLeases (State.pulse r now f) := by
  intro s h
  unfold State.pulse
  dsimp only
  split
  · exact h
  · exact .ite (refAbsent_keepsLeases r _ h) (.ite h (becomeGood_keepsLeases r _ h))
  · exact .ite (refAbsent_keepsLeases r _ h) (.ite (lockedPulse_keepsLeases now f _ h) h)

theorem pulseAfter_keepsLeases (r : Ref) (elapsed : Nat) (f : FrameInput) :
    KeepsLeases (State.pulseAfter r elapsed f) :=
  fun s h => .ite (pulse_keepsLeases r _ f s h) h

theorem closeWindow_keepsLeases (r : Ref) (now : Nat) (f : FrameInput) : KeepsLeases (State.closeWindow r now f) := by
  intro s h
  have habsent := refAbsent_keepsLeases r (s.withTiming { s.timing with time := now }) h
  exact .ite (startFrame_keepsLeases _ now _ _ _ habsent) habsent

theorem windowCloses_keepsLeases (r : Ref) (f : FrameInput) : KeepsLeases (State.windowCloses r f) := by
  intro s h
  unfold State.windowCloses
  split
  · exact h
  · exact .ite (closeWindow_keepsLeases r _ f s h) h

theorem frameDue_keepsLeases (kind : FrameKind) (f : FrameInput) : KeepsLeases (State.frameDue kind f) := by
  intro s h
  refine .ite h ?_
  split
  · exact .ite (startFrame_keepsLeases kind _ _ _ _ h) h
  · split
    · exact h
    · exact .ite (pulse_keepsLeases _ _ f s h) h

/-! ### The commands -/

/-- A command keeps the law: the state that it ends in obeys it. -/
def CommandKeepsLeases (i : Instr) : Prop :=
  ∀ s t : State, s.EntriesBounded → exec i s = .next t → t.EntriesBounded

/-- A command of one operation that keeps the law keeps it, also while RESETn is asserted. -/
theorem KeepsLeases.command {i : Instr} {f : State → State} (h : KeepsLeases f)
    (hexec : ∀ s, exec i s = .next (s.whileRunning f)) : CommandKeepsLeases i := by
  intro s t hs hnext
  cases (hexec s).symm.trans hnext
  exact h.whileRunning s hs

/-- The command that admits a request of a kind. -/
theorem commandOf_keepsLeases (kind : RequestKind) : CommandKeepsLeases (commandOf kind) := by
  have hadmits := admission_keepsLeases (some kind) (decisionOf_keepsLeases kind)
  cases kind <;> exact hadmits.command fun _ => rfl

theorem exec_keepsLeases (i : Instr) : CommandKeepsLeases i := by
  cases i with
  | powerOnReset =>
    intro s t _ hnext
    cases hnext
    exact fun _ hnone => nomatch hnone
  | resetnRelease =>
    intro s t h hnext
    cases hnext
    exact .ite h h
  | softReset w => exact (writeControl_keepsLeases (w ||| 0x8000)).command fun _ => rfl
  | cutoverMode w | supervisorReportsEnable w | primaryReference w | revertive w =>
    exact (writeControl_keepsLeases w).command fun _ => rfl
  | linkEnable n w => exact (writeLinkConfig_keepsLeases n w).command fun _ => rfl
  | linkReset n w => exact (writeLinkConfig_keepsLeases n (w ||| 2)).command fun _ => rfl
  | registerWrite address w => exact (writeWord_keepsLeases address w).command fun _ => rfl
  | eventsClear w => exact KeepsLeases.command (f := State.clearEvents w) (fun _ h => h) fun _ => rfl
  | enablesWrite w => exact KeepsLeases.command (f := State.storeEnables w) (fun _ h => h) fun _ => rfl
  | mailboxHeaderWrite w => exact (writeHeader_keepsLeases w).command fun _ => rfl
  | mailboxBodyWrite position w => exact (writeWindow_keepsLeases position w).command fun _ => rfl
  | ack => exact (writeMailboxControl_keepsLeases true false).command fun _ => rfl
  | abort withAck => exact (writeMailboxControl_keepsLeases withAck true).command fun _ => rfl
  | hello n m | requestReceived n m | damagedMessage n m | damageLimit n m =>
    exact (receive_keepsLeases n m).command fun _ => rfl
  | clockLoss n => exact (loseClock_keepsLeases n).command fun _ => rfl
  | clockReturn n =>
    exact KeepsLeases.command (f := State.modifyLink n fun c => { c with clockArmed := true }) (fun _ h => h)
      fun _ => rfl
  | transmitterTake n => exact (transmitterTake_keepsLeases n).command fun _ => rfl
  | transmissionComplete n => exact (transmissionComplete_keepsLeases n).command fun _ => rfl
  | claim => exact commandOf_keepsLeases .claim
  | branch => exact commandOf_keepsLeases .branch
  | release => exact commandOf_keepsLeases .release
  | reshape => exact commandOf_keepsLeases .reshape
  | suspend => exact commandOf_keepsLeases .suspend
  | resume => exact commandOf_keepsLeases .resume
  | renew => exact commandOf_keepsLeases .renew
  | ask => exact commandOf_keepsLeases .ask
  | readCircuit => exact commandOf_keepsLeases .readCircuit
  | readSlot => exact commandOf_keepsLeases .readSlot
  | readFree => exact commandOf_keepsLeases .readFree
  | takeReport => exact commandOf_keepsLeases .takeReport
  | commit => exact commandOf_keepsLeases .commit
  | resetLink => exact commandOf_keepsLeases .resetLink
  | unknownKind =>
    exact (admission_keepsLeases none (decide := decideUnknownKind) fun _ _ _ h => h).command fun _ => rfl
  | drop => exact (followUpAdmission_keepsLeases .drop dropMarked_keepsLeases).command fun _ => rfl
  | expire => exact (followUpAdmission_keepsLeases .expire (releaseItem_keepsLeases .expired)).command fun _ => rfl
  | orphan => exact (followUpAdmission_keepsLeases .orphan (releaseItem_keepsLeases .orphaned)).command fun _ => rfl
  | frameStart received | leaseTick received => exact (frameDue_keepsLeases _ _).command fun _ => rfl
  | boundary f => exact (frameDue_keepsLeases _ f).command fun _ => rfl
  | leaseRunOut id received | silenceLimit n f =>
    exact KeepsLeases.command (fun s h => .ite (frameDue_keepsLeases _ _ s h) h) fun _ => rfl
  | copyCompletion => exact completeCopy_keepsLeases.command fun _ => rfl
  | referencePulse r elapsed f | referenceGood r elapsed f =>
    exact (pulseAfter_keepsLeases r elapsed f).command fun _ => rfl
  | windowClose r f => exact (windowCloses_keepsLeases r f).command fun _ => rfl

/-- A step is one command, or none on an empty queue (log 1). -/
theorem step_keepsLeases {s t : State} (h : s.EntriesBounded) (hstep : step s = .next t) : t.EntriesBounded := by
  unfold step at hstep
  split at hstep
  · cases hstep
    exact h
  · rename_i command rest _
    exact exec_keepsLeases command (s.withPending rest) t h hstep

/-- Settles O55: in a canonical state the law of the records is that of the entries, which every command keeps. -/
theorem stepsKeepLeasesBounded : Obligations.StepsKeepLeasesBounded := by
  intro s t hcanon hleases hstep id c hc
  exact (step_keepsLeases ((State.entriesBounded_iff hcanon).mpr hleases) hstep).circuit hc

end Sys2Proof.Machine
end

section
/-! SUPPORT. The leases family: the lease tick at which a lease runs out (R113, R114). -/

namespace Sys2Proof.Machine

/-! ### The follow-up queue at a lease tick -/

/-- An item that releases the record of an id, an EXPIRE or an ORPHAN, stands in the follow-up queue. -/
def ReleaseStands (queue : List FollowUp) (id : Nat) : Prop := ∃ item ∈ queue, item.id = id ∧ item.kind ≠ .drop

/-- An offered item that releases its record stands in the queue after the offer, or another one that does (R74). -/
theorem releaseStands_offered (queue : List FollowUp) {item : FollowUp} (hkind : item.kind ≠ .drop) :
    ReleaseStands (offerTo queue item) item.id := by
  unfold offerTo
  split
  · exact ⟨item, by simp, rfl, hkind⟩
  · rename_i standing hfind
    have hmem : standing ∈ queue := List.mem_of_find?_eq_some hfind
    have hid : standing.id = item.id := by simpa using List.find?_some hfind
    split
    · exact ⟨item, List.mem_map.mpr ⟨standing, hmem, if_pos hid⟩, rfl, hkind⟩
    · rename_i hstays
      exact ⟨standing, hmem, hid, fun hdrop => hstays ⟨hdrop, hkind⟩⟩

/-- An offer of an item that releases its record takes no such item out of the queue (R74). -/
theorem ReleaseStands.offered {queue : List FollowUp} {id : Nat} (h : ReleaseStands queue id) {item : FollowUp}
    (hkind : item.kind ≠ .drop) : ReleaseStands (offerTo queue item) id := by
  by_cases hsame : id = item.id
  · exact hsame ▸ releaseStands_offered queue hkind
  · obtain ⟨f, hf, rfl, hreleases⟩ := h
    unfold offerTo
    split
    · exact ⟨f, List.mem_append_left _ hf, rfl, hreleases⟩
    · split
      · exact ⟨f, List.mem_map.mpr ⟨f, hf, if_neg hsame⟩, rfl, hreleases⟩
      · exact ⟨f, hf, rfl, hreleases⟩

/-- After an EXPIRE item has been offered for each id of a list, an item that releases its record stands in the queue
for each of them, and for each for which one stood before. -/
theorem releaseStands_expireOffers {id : Nat} (ids : List Nat) : ∀ queue : List FollowUp,
    ReleaseStands queue id ∨ id ∈ ids →
      ReleaseStands (ids.foldl (fun q i => offerTo q { kind := .expire, id := i }) queue) id := by
  have hexpire : FollowKind.expire ≠ .drop := by decide
  induction ids with
  | nil => exact fun queue h => h.resolve_right List.not_mem_nil
  | cons i rest ih =>
    intro queue h
    refine ih _ ?_
    obtain hstands | hmem := h
    · exact .inl (hstands.offered hexpire)
    · obtain rfl | hrest := List.mem_cons.mp hmem
      · exact .inl (releaseStands_offered queue (item := { kind := .expire, id := id }) hexpire)
      · exact .inr hrest

/-! ### The lease tick as a frame start -/

/-- The lease of the circuit is running and runs out at a tick taken now (R112, R113). -/
theorem Circuit.runsOut_iff (c : Circuit) :
    c.runsOut = true ↔ (c.state = .active ∨ c.state = .suspended) ∧ c.leaseLength ≠ 0 ∧ c.leaseLeft = 1 := by
  simp only [Circuit.runsOut, Circuit.leaseRuns, Bool.and_eq_true, Bool.or_eq_true, beq_iff_eq, bne_iff_ne, ne_eq,
    and_assoc]

/-- A lease that runs out at a tick is counted down to 0 (R113). -/
theorem counted_of_runsOut {c : Circuit} (h : c.runsOut = true) : counted c = { c with leaseLeft := 0 } := by
  obtain ⟨hstate, hlength, hleft⟩ := c.runsOut_iff.mp h
  have hone : c.leaseLeft ≠ 0 := by rw [hleft]; decide
  rw [counted, if_pos ⟨hstate, hlength, hone⟩, hleft]
  rfl

/-- A frame start of the Timing Unit's own timing that is due is made, of the kind that is due (R170, R175). -/
theorem State.frameDue_own {s : State} {kind : FrameKind} (f : FrameInput) (h : OwnFrameDue s)
    (hkind : s.timing.dueKind = kind) : s.frameDue kind f = s.ownFrame kind f := by
  obtain ⟨-, haligned, hmay⟩ := h
  rw [State.frameDue, if_neg (not_not_intro hkind), haligned]
  exact if_pos hmay

/-- The frame start after frame 7 of a cycle is the lease tick (R175). -/
theorem TimingUnit.dueKind_leaseTick {u : TimingUnit} (h : u.frame = 7) : u.dueKind = .leaseTick := by
  simp [TimingUnit.dueKind, h]

/-- LEASE_TICK in frame 7 takes the lease tick (R113, R175). -/
theorem exec_leaseTick {s : State} (received : TrunkBytes) (h : OwnFrameDue s) (hframe : s.timing.frame = 7) :
    exec (.leaseTick received) s = .next (s.ownFrame .leaseTick { received := received, order := unusedOrder }) :=
  (State.next_released _ h.1).trans
    (congrArg _ (State.frameDue_own _ h (TimingUnit.dueKind_leaseTick hframe)))

/-- LEASE_RUN_OUT is LEASE_TICK when the lease of its record runs out at that tick (R114, log 3). -/
theorem exec_leaseRunOut {s : State} {id : Nat} {c : Circuit} (received : TrunkBytes)
    (hrunning : s.resetAsserted = false) (hc : s.circuit id = some c) (hout : c.runsOut = true) :
    exec (.leaseRunOut id received) s = exec (.leaseTick received) s := by
  have hdue : (s.circuit id).any Circuit.runsOut = true := by rw [hc, Option.any_some, hout]
  refine (State.next_released _ hrunning).trans (Eq.trans ?_ (State.next_released _ hrunning).symm)
  rw [if_pos hdue]

/-- What a lease tick does for a record whose lease runs out (R113, R114): lease left becomes 0, EXPIRY is raised, and
an item that releases the record stands in the follow-up queue. -/
theorem LeasesTicked.runsOut {s t : State} {id : Nat} {c : Circuit} (h : LeasesTicked s t) (hcanon : s.Canonical)
    (hc : s.circuit id = some c) (hout : c.runsOut = true) :
    t.circuit id = some { c with leaseLeft := 0 } ∧ t.events.isSet .expiry = true ∧
      ReleaseStands t.engine.followUps id := by
  obtain ⟨hrecord, hengine, hevents, -⟩ := h
  have hmem : id ∈ runningOut s := (s.mem_idsWhere Circuit.runsOut hcanon.1 id).mpr ⟨c, hc, hout⟩
  refine ⟨?_, ?_, ?_⟩
  · rw [State.circuit_eq, hrecord id, hc]
    exact congrArg some (counted_of_runsOut hout)
  · rw [hevents, if_neg (List.ne_nil_of_mem hmem)]
    exact (EventUnit.isSet_raise s .expiry .expiry).trans (by simp)
  · rw [hengine]
    exact releaseStands_expireOffers _ _ (.inr hmem)

/-- Settles O44: both rows take the same lease tick, and the lease of the record runs out at it. -/
theorem leaseRunsOut : Obligations.LeaseRunsOut := by
  intro s received id c hdue hcanon hframe hc hstate hlength hleft
  have hout : c.runsOut = true := c.runsOut_iff.mpr ⟨hstate, hlength, hleft⟩
  have htick := exec_leaseTick received hdue hframe
  obtain ⟨-, hticked, -⟩ := State.startFrame_leaseTick
    (s.withTiming { s.timing with ownStart := s.timing.ownFrameTime }) s.timing.ownFrameTime
    { received := received, order := unusedOrder } hcanon
  exact ⟨_, (exec_leaseRunOut received hdue.1 hc hout).trans htick, htick, hticked.runsOut hcanon hc hout⟩

end Sys2Proof.Machine
end

section
/-! SUPPORT. The request links family: the writes to the words of LINKCFGn (R126, R142, R144, R189) and the register
writes without a behaviour of their own (R147, R166). -/

namespace Sys2Proof.Machine

/-! ### The first word of LINKCFGn -/

/-- The quota held for the field that a LINKCFGn write gives (R126). -/
theorem heldQuota_eq (q : Nat) : heldQuota q = if q = 0 then 1 else if 64 < q then 64 else q := by
  unfold heldQuota
  by_cases hzero : q = 0
  · rw [if_pos hzero, if_pos hzero]
  · rw [if_neg hzero, if_neg hzero]
    by_cases hlarge : 64 < q
    · rw [if_pos hlarge, Nat.min_eq_right (Nat.le_of_lt hlarge)]
    · rw [if_neg hlarge, Nat.min_eq_left (Nat.not_lt.mp hlarge)]

/-- The quota field of LINKCFGn, from the number of the word (12.7). -/
theorem quotaField_eq (w : Word) : w.hi.toNat % 128 = w.toNat / 256 % 128 := by
  have := w.isLt
  simp only [Word.hi, BitVec.toNat_ofNat]
  omega

/-- What a write to the first word of LINKCFGn does without its reset field: the quota and the policy are stored, and
then the enable acts (R189). -/
def State.configureLink (n : Link) (w : Word) (s : State) : State :=
  (s.withLink n (configured w (s.link n))).writeEnable n (w.getLsbD 0)

/-- A write to the first word of LINKCFGn: its reset field acts on the link state that the rest of it has left
(R189). -/
theorem State.writeLinkConfig_eq (s : State) (n : Link) (w : Word) :
    s.writeLinkConfig n w = if w.getLsbD 1 then (s.configureLink n w).resetLink n else s.configureLink n w := by
  have hstored : (s.modifyLink n fun c =>
      { c with quota := heldQuota (w.hi.toNat % 128), policy := if bitOf w 2 then .release else .keep }) =
      s.withLink n (configured w (s.link n)) := by
    rw [State.modifyLink_eq, heldQuota_eq, quotaField_eq]
    rfl
  unfold State.writeLinkConfig
  rw [hstored]
  rfl

/-- A write of the enable bit held stores the quota and the policy and does nothing else (R144). -/
theorem State.configureLink_held {s : State} {n : Link} {w : Word} (h : w.getLsbD 0 = (s.link n).enable) :
    s.configureLink n w = s.withLink n (configured w (s.link n)) := by
  refine if_pos ?_
  rw [State.withLink_link_same]
  exact h.symm

/-- Enabling a DISABLED link brings it DOWN (R144). -/
theorem State.configureLink_enables {s : State} {n : Link} {w : Word} (hw : w.getLsbD 0 = true)
    (h : (s.link n).enable = false) :
    s.configureLink n w = (s.withLink n
      { configured w (s.link n) with enable := true, state := .down, rxVoid := true }).raise (.linkState n) := by
  have hchanged : (configured w (s.link n)).enable ≠ true := by simp [configured, h]
  rw [State.configureLink, hw]
  simp [State.writeEnable, State.modifyLink_eq, hchanged]

/-- Disabling a link that is not UP makes it DISABLED (R144). -/
theorem State.configureLink_disables {s : State} {n : Link} {w : Word} (hw : w.getLsbD 0 = false)
    (h : (s.link n).enable = true) (hstate : (s.link n).state ≠ .up) :
    s.configureLink n w = (s.withLink n
      { configured w (s.link n) with
        enable := false, state := .disabled, downReason := .disabled, rxVoid := true }).raise (.linkState n) := by
  have hchanged : (configured w (s.link n)).enable ≠ false := by simp [configured, h]
  have hnotUp : (configured w (s.link n)).state ≠ .up := hstate
  rw [State.configureLink, hw]
  simp [State.writeEnable, State.modifyLink_eq, hchanged, hnotUp]

/-- Disabling a link in UP takes it out of UP (R142, R144). -/
theorem State.configureLink_leavesUp {s : State} {n : Link} {w : Word} (hw : w.getLsbD 0 = false)
    (h : (s.link n).enable = true) (hstate : (s.link n).state = .up) :
    s.configureLink n w = (s.withLink n
      { configured w (s.link n) with enable := false, rxVoid := true }).leaveUp n .disabled .disabled := by
  have hchanged : (configured w (s.link n)).enable ≠ false := by simp [configured, h]
  have hup : (configured w (s.link n)).state = .up := hstate
  rw [State.configureLink, hw]
  simp [State.writeEnable, State.modifyLink_eq, hchanged, hup]

/-- The write of an enable bit keeps every buffer canonical. -/
theorem State.Canonical.configureLink {s : State} (h : s.Canonical) (n : Link) (w : Word) :
    (s.configureLink n w).Canonical := by
  have hstored : (s.withLink n (configured w (s.link n))).Canonical := h
  unfold State.configureLink State.writeEnable
  split
  · exact hstored
  · dsimp only
    split
    · exact h
    · split
      · exact State.Canonical.leaveUp (s := (s.withLink n (configured w (s.link n))).modifyLink n _) h n _ _
      · exact h

/-- LINK_ENABLE with the reset field 0, while RESETn is released (log 19). -/
theorem exec_linkEnable {s : State} (n : Link) {w : Word} (hrunning : s.resetAsserted = false)
    (hreset : w.getLsbD 1 = false) : exec (.linkEnable n w) s = .next (s.configureLink n w) := by
  refine (State.next_released (State.writeLinkConfig n w) hrunning).trans ?_
  rw [State.writeLinkConfig_eq, hreset]
  rfl

/-- Settles O11: the write without its reset field, by what its enable bit does. -/
theorem linkEnableWrite : Obligations.LinkEnableWrite := by
  intro s n w hrunning hcanon hreset
  rw [exec_linkEnable n hrunning hreset]
  refine ⟨fun hheld => ?_, fun hw henable => ?_, fun hw henable hstate => ?_, fun hw henable hstate => ?_⟩
  · rw [State.configureLink_held hheld]
  · rw [State.configureLink_enables hw henable]
  · rw [State.configureLink_disables hw henable hstate]
  · rw [State.configureLink_leavesUp hw henable hstate]
    exact ⟨_, rfl, State.leaveUp_leaves _ n _ _ hcanon⟩

/-! ### The reset field -/

/-- Two words with the same quota field, policy bit and enable bit configure a link alike. -/
theorem State.configureLink_congr (s : State) (n : Link) {v w : Word} (hquota : v.toNat / 256 = w.toNat / 256)
    (hpolicy : v.getLsbD 2 = w.getLsbD 2) (henable : v.getLsbD 0 = w.getLsbD 0) :
    s.configureLink n v = s.configureLink n w := by
  unfold State.configureLink configured
  rw [hquota, hpolicy, henable]

/-- The upper byte of a word with its reset field written 0. -/
theorem upper_clearReset (w : Word) : (w &&& 0xFFFD).toNat / 256 = w.toNat / 256 := by
  have hlt : w.toNat / 2 ^ 8 < 2 ^ 8 := by have := w.isLt; omega
  calc (w &&& 0xFFFD).toNat / 2 ^ 8 = w.toNat / 2 ^ 8 &&& (2 ^ 8 - 1) := Nat.and_div_two_pow
    _ = w.toNat / 2 ^ 8 := by rw [Nat.and_two_pow_sub_one_eq_mod, Nat.mod_eq_of_lt hlt]

/-- The upper byte of a word with its reset field written 1. -/
theorem upper_setReset (w : Word) : (w ||| 2).toNat / 256 = w.toNat / 256 := by
  calc (w ||| 2).toNat / 2 ^ 8 = w.toNat / 2 ^ 8 ||| 0 := Nat.or_div_two_pow
    _ = w.toNat / 2 ^ 8 := Nat.or_zero _

/-- A link reset in DOWN (R144, R143). -/
theorem State.resetLink_down {s : State} {n : Link} (h : (s.link n).state = .down) :
    s.resetLink n = ((s.withLink n { s.link n with downReason := .reset }).withEngine
      { s.engine with followUps := afterPolicy s n s.engine.followUps }).raise (.linkState n) := by
  have hpolicy : afterPolicy (s.withLink n { s.link n with downReason := .reset }) n = afterPolicy s n := by
    funext queue
    unfold afterPolicy
    rw [State.withLink_link_same]
    rfl
  unfold State.resetLink
  rw [h]
  dsimp only
  rw [State.offerOrphans_eq, State.modifyLink_eq, hpolicy]
  rfl

/-- Settles O12: a LINK_RESET is the write with its reset field 0 and then a link reset. -/
theorem linkResetWrite : Obligations.LinkResetWrite := by
  intro s n w hrunning hcanon
  have hclear : s.configureLink n (w &&& 0xFFFD) = s.configureLink n w :=
    s.configureLink_congr n (upper_clearReset w) (by simp) (by simp)
  have hset : s.configureLink n (w ||| 2) = s.configureLink n w :=
    s.configureLink_congr n (upper_setReset w) (by simp) (by simp)
  refine ⟨s.configureLink n w, (s.configureLink n w).resetLink n, ?_, ?_, fun hup => ?_, State.resetLink_down,
    fun hdisabled => ?_⟩
  · rw [exec_linkEnable n hrunning (by simp), hclear]
  · refine (State.next_released (State.writeLinkConfig n (w ||| 2)) hrunning).trans ?_
    rw [State.writeLinkConfig_eq, if_pos (by simp), hset]
  · rw [State.resetLink, hup]
    exact State.leaveUp_leaves _ n _ _ (hcanon.configureLink n w)
  · rw [State.resetLink, hdisabled]

/-! ### The other register writes -/

/-- A word that only a read shows (R147). -/
def Register.isReadOnly : Register → Bool
  | .status | .cycle | .inUse | .linkStatus _ | .linkOwned _ | .result _ => true
  | _ => false

/-- A write at an address of a read-only word, or of no word, is not taken (R147). -/
theorem State.writeWord_readOnly (s : State) {a : BitVec 7} (w : Word)
    (h : (registerAt a).all Register.isReadOnly = true) : s.writeWord a w = s := by
  unfold State.writeWord
  cases hr : registerAt a with
  | none => rfl
  | some r =>
    rw [hr, Option.all_some] at h
    cases r with
    | status | cycle | inUse | linkStatus | linkOwned | result => rfl
    | control | events | enables | mboxCtl | linkConfig | linkLimit | idle01 | idle23 | idle45 | idle67 | command =>
      exact absurd h Bool.false_ne_true

/-- The addresses at which 12.7 has a read-only word or none. -/
theorem registerAt_readOnly : ∀ a : BitVec 7,
    a.toNat ∈ [0x01, 0x02, 0x03, 0x07] ∨ (0x10 ≤ a.toNat ∧ a.toNat < 0x18) ∨ (0x1C ≤ a.toNat ∧ a.toNat < 0x20) ∨
      0x35 ≤ a.toNat → (registerAt a).all Register.isReadOnly = true := by decide

/-- The second word of LINKCFGn stands at 09H + 2n (12.7). -/
theorem registerAt_linkLimit (n : Link) :
    registerAt (BitVec.ofNat 7 (0x09 + 2 * linkNumber n)) = some (.linkLimit n) := by
  cases n <;> rfl

/-- The silence limit held is the one written, and 4 for a lower one (R126). -/
theorem heldSilenceLimit_eq (w : Word) :
    heldSilenceLimit w.lo.toNat = if w.toNat % 256 < 4 then 4 else w.toNat % 256 := by
  have hlow : w.lo.toNat = w.toNat % 256 := BitVec.toNat_ofNat w.toNat 8
  rw [heldSilenceLimit, hlow]
  by_cases hshort : w.toNat % 256 < 4
  · rw [if_pos hshort, Nat.max_eq_right (Nat.le_of_lt hshort)]
  · rw [if_neg hshort, Nat.max_eq_left (Nat.not_lt.mp hshort)]

/-- Settles O13: each address by the word that it names. -/
theorem otherRegisterWrites : Obligations.OtherRegisterWrites := by
  intro s w hrunning
  have hwrite : ∀ a, exec (.registerWrite a w) s = .next (s.writeWord a w) :=
    fun a => State.next_released (State.writeWord a w) hrunning
  refine ⟨hwrite _, hwrite _, hwrite _, hwrite _, fun n => ?_, fun a ha => ?_⟩
  · rw [hwrite, State.writeWord, registerAt_linkLimit, ← heldSilenceLimit_eq]
    rfl
  · rw [hwrite, State.writeWord_readOnly s w (registerAt_readOnly a ha)]

end Sys2Proof.Machine
end

section
/-! SUPPORT. The request links family: the check word and the classes of received messages (R122, R123), and what a
link does with a received message (R124, R127 to R139). -/

namespace Sys2Proof.Machine

/-! ### The check word and the classes -/

/-- The check word, as one run over the bits of the words (R122). -/
theorem crc16_eq (words : List Word) : crc16 words = (words.flatMap wordBits).foldl crcBit 0xFFFF := by
  rw [crc16, List.foldl_flatMap]

/-- The count of words, a partial word counted as a word (R123). -/
theorem messageCount_eq (m : RxMessage) :
    messageCount m = m.words.length + (if m.partialBits = [] then 0 else 1) := by
  cases hbits : m.partialBits <;> simp [messageCount, bitNat, hbits]

/-- The declared body length, from the number of word 0 (R122). -/
theorem declaredLength_eq (m : RxMessage) : declaredLength m = (m.words.getD 0 0).toNat % 256 := by
  simp only [declaredLength, Word.lo, BitVec.toNat_ofNat]

/-- Settles O16: the classes in the order of R123's table. -/
theorem messageChecks : Obligations.MessageChecks := by
  refine ⟨crc16_eq, fun m count length hcount hlength => ?_⟩
  rw [← messageCount_eq] at hcount
  rw [← declaredLength_eq] at hlength
  unfold classify Config.maxBody
  rw [← hcount, ← hlength]
  refine ⟨fun hshort => ?_, fun htwo hlong => ?_, fun htwo hbody hshort => ?_, fun htwo hbody hlong => ?_,
    fun htwo hbody hexact hpartial => ?_, fun htwo hbody hexact hwhole hcheck => ?_,
    fun htwo hbody hexact hwhole hcheck => ?_⟩
  · rw [if_pos hshort]
  · rw [if_neg (Nat.not_lt.mpr htwo), if_pos hlong]
  · rw [if_neg (Nat.not_lt.mpr htwo), if_neg (Nat.not_lt.mpr hbody), if_pos hshort]
  · rw [if_neg (Nat.not_lt.mpr htwo), if_neg (Nat.not_lt.mpr hbody), if_neg (by omega), if_pos hlong]
  all_goals
    rw [if_neg (Nat.not_lt.mpr htwo), if_neg (Nat.not_lt.mpr hbody), if_neg (by omega), if_neg (by omega)]
  · rw [if_pos hpartial]
  · rw [if_neg (not_not_intro hwhole), if_pos hcheck]
  · rw [if_neg (not_not_intro hwhole), if_neg (not_not_intro hcheck)]

/-! ### Reception -/

/-- Every row of a message takes it alike, while RESETn is released (log 4). -/
theorem exec_message {s : State} (n : Link) (m : RxMessage) (hrunning : s.resetAsserted = false) :
    exec (.damagedMessage n m) s = .next (s.receive n m) := State.next_released (State.receive n m) hrunning

/-- A message in DISABLED is ignored (R123). -/
theorem State.receive_disabled {s : State} {n : Link} (m : RxMessage) (h : (s.link n).state = .disabled) :
    s.receive n m = s := if_pos h

/-- The message in reception at a discarding event is not checked (R121, R144, R146). -/
theorem State.receive_discarded {s : State} {n : Link} {m : RxMessage} (hstate : (s.link n).state ≠ .disabled)
    (hvoid : (s.link n).rxVoid = true) (hspans : m.spansDiscard = true) :
    s.receive n m = s.withLink n (heard (s.link n)) := by
  unfold State.receive
  rw [if_neg hstate]
  exact if_pos ⟨hvoid, hspans⟩

/-- A message taken as a good one (R123). -/
theorem State.receive_good {s : State} {n : Link} {m : RxMessage} (h : TakesGood s n m) :
    s.receive n m = (s.withLink n (heard (s.link n))).receiveGood n m := by
  obtain ⟨-, hstate, hwhole, hclass⟩ := h
  have hchecked : ¬((s.link n).rxVoid = true ∧ m.spansDiscard = true) :=
    fun hboth => absurd (hwhole hboth.1) (by simp [hboth.2])
  unfold State.receive
  rw [if_neg hstate, if_neg hchecked, hclass]
  rfl

/-- A message taken as a damaged one (R123). -/
theorem State.receive_damaged {s : State} {n : Link} {m : RxMessage} {reason : FaultReason}
    (h : TakesDamaged s n m reason) :
    s.receive n m = (s.withLink n (heard (s.link n))).receiveDamaged n reason := by
  obtain ⟨-, hstate, hwhole, hclass⟩ := h
  have hchecked : ¬((s.link n).rxVoid = true ∧ m.spansDiscard = true) :=
    fun hboth => absurd (hwhole hboth.1) (by simp [hboth.2])
  unfold State.receive
  rw [if_neg hstate, if_neg hchecked, hclass]
  rfl

/-- A fault of a link, on a state whose link controller is given (R124, R127, R137). -/
theorem State.linkFault_withLink (s : State) (n : Link) (c : LinkController) (reason : FaultReason) :
    (s.withLink n c).linkFault n reason = (s.withLink n { c with lastFault := reason }).raise (.linkFault n) := by
  rw [State.linkFault, State.modifyLink_eq, State.withLink_link_same, State.withLink_withLink]

/-! ### Damaged messages -/

/-- A damaged message in a state other than UP (R124). -/
theorem State.receiveDamaged_notUp {s : State} {n : Link} {c : LinkController} (reason : FaultReason)
    (h : c.state ≠ .up) :
    (s.withLink n c).receiveDamaged n reason =
      (s.withLink n { c with lastFault := reason }).raise (.linkFault n) := by
  unfold State.receiveDamaged
  rw [State.withLink_link_same, if_neg h, State.linkFault_withLink]

/-- A damaged message in UP counts (R124). -/
theorem State.receiveDamaged_counts {s : State} {n : Link} {c : LinkController} (reason : FaultReason)
    (h : c.state = .up) (hdamage : c.damage + 1 < 8) :
    (s.withLink n c).receiveDamaged n reason =
      (s.withLink n { c with lastFault := reason, damage := c.damage + 1 }).raise (.linkFault n) := by
  unfold State.receiveDamaged Config.damageLimit
  rw [State.withLink_link_same, if_pos h, if_neg (Nat.not_le.mpr hdamage), State.linkFault_withLink,
    State.modifyLink_eq, State.raise_link, State.withLink_link_same]
  exact congrArg (State.raise _) (State.withLink_withLink s n _ _)

/-- The eighth damaged message in a row takes the link out of UP (R124, R142). -/
theorem State.receiveDamaged_limit {s : State} {n : Link} {c : LinkController} (reason : FaultReason)
    (h : c.state = .up) (hdamage : 8 ≤ c.damage + 1) :
    (s.withLink n c).receiveDamaged n reason =
      ((s.withLink n { c with lastFault := reason }).raise (.linkFault n)).leaveUp n .down .damage := by
  unfold State.receiveDamaged Config.damageLimit
  rw [State.withLink_link_same, if_pos h, if_pos hdamage, State.linkFault_withLink]

/-- Settles O19: a damaged message by the link state and the damage count. -/
theorem damagedMessages : Obligations.DamagedMessages := by
  refine ⟨fun s n m reason hcanon htakes => ?_, fun s n m hrunning => ⟨fun hstate => ?_, fun hstate hvoid hspans => ?_⟩,
    fun s n m => ⟨rfl, rfl, rfl⟩⟩
  · have hdamaged : exec (.damagedMessage n m) s =
        .next ((s.withLink n (heard (s.link n))).receiveDamaged n reason) := by
      rw [exec_message n m htakes.1, State.receive_damaged htakes]
    refine ⟨fun hdown => ?_, fun hup hdamage => ?_, fun hup hdamage => ?_⟩
    · have hnotUp : (heard (s.link n)).state ≠ .up := by simp [heard, hdown]
      rw [hdamaged, State.receiveDamaged_notUp reason hnotUp]
    · rw [hdamaged, State.receiveDamaged_counts reason (c := heard (s.link n)) hup hdamage]
      rfl
    · refine ⟨_, hdamaged, ?_⟩
      rw [State.receiveDamaged_limit reason (c := heard (s.link n)) hup hdamage]
      exact State.leaveUp_leaves _ n _ _ hcanon
  · rw [exec_message n m hrunning, State.receive_disabled m hstate]
  · rw [exec_message n m hrunning, State.receive_discarded hstate hvoid hspans]

/-! ### Good messages by the link state -/

/-- A good message in DOWN: a HELLO brings the link UP, any other is a NOT_UP fault (R127, R128). -/
theorem State.receiveGood_down {s : State} {n : Link} {c : LinkController} (m : RxMessage) (h : c.state = .down) :
    (s.withLink n c).receiveGood n m =
      if messageKind m = helloKind then (s.withLink n { c with damage := 0 }).comeUp n
      else (s.withLink n { c with damage := 0 }).linkFault n .notUp := by
  have hstate : ((s.withLink n c).link n).state = .down := by rw [State.withLink_link_same, h]
  unfold State.receiveGood
  rw [hstate, State.modifyLink_eq, State.withLink_link_same, State.withLink_withLink]

/-- A good message in UP: a HELLO owes a reply, any other is a request (R129, R132). -/
theorem State.receiveGood_up {s : State} {n : Link} {c : LinkController} (m : RxMessage) (h : c.state = .up) :
    (s.withLink n c).receiveGood n m =
      if messageKind m = helloKind then s.withLink n { c with damage := 0, silence := 0, helloOwed := true }
      else (s.withLink n { c with damage := 0, silence := 0 }).receiveRequest n
        { kind := messageKind m, tag := messageTag m, body := messageBody m } := by
  have hstate : ((s.withLink n c).link n).state = .up := by rw [State.withLink_link_same, h]
  have hheard : (s.withLink n c).modifyLink n (fun d => { d with damage := 0, silence := 0 }) =
      s.withLink n { c with damage := 0, silence := 0 } := by
    rw [State.modifyLink_eq, State.withLink_link_same, State.withLink_withLink]
  unfold State.receiveGood
  rw [hstate]
  dsimp only
  rw [hheard, State.modifyLink_eq, State.withLink_link_same, State.withLink_withLink]

/-- The link comes UP with its inventory (R128, R139). -/
theorem State.comeUp_withLink (s : State) (n : Link) (c : LinkController) :
    (s.withLink n c).comeUp n = (s.withLink n
      { c with state := .up, helloOwed := true, silence := 0, damage := 0,
               reports := s.idsWhere fun k => k.owner == .link n }).raise (.linkState n) := by
  rw [State.comeUp, State.modifyLink_eq, State.withLink_link_same, State.withLink_withLink]
  rfl

/-- Settles O17: a good HELLO by the link state. -/
theorem helloReceived : Obligations.HelloReceived := by
  intro s n m htakes hkind
  have hgood : exec (.hello n m) s = .next ((s.withLink n (heard (s.link n))).receiveGood n m) := by
    rw [← State.receive_good htakes]
    exact exec_message n m htakes.1
  have hhello : messageKind m = helloKind := hkind
  refine ⟨fun hdown => ?_, fun hup => ?_⟩
  · rw [hgood, State.receiveGood_down (c := heard (s.link n)) m hdown, if_pos hhello, State.comeUp_withLink]
  · rw [hgood, State.receiveGood_up (c := heard (s.link n)) m hup, if_pos hhello]

/-! ### Requests -/

/-- The kinds that a link accepts as requests, by their values (R132, 12.1). -/
theorem linkKind_eq_none_iff (k : Byte) : linkKind k = none ↔ ¬(0x10 ≤ k.toNat ∧ k.toNat ≤ 0x17) := by
  revert k
  decide

/-- A refusal by the Link Controller: in an unreserved entry when one is free, else a FLOOD (R136, R137). -/
theorem State.refuseAtLink_next (s : State) (n : Link) (c : LinkController) (kind tag : Byte) (code : ResultCode) :
    ((c.answers.filter fun a => !a.reserved).length < 8 →
      (.next ((s.withLink n c).refuseAtLink n kind tag code) : Host.Outcome State Fault Refusal) =
        .next (s.withLink n { c with answers :=
          c.answers ++ [{ kind := kind, tag := tag, code := code, body := [], reserved := false }] })) ∧
    (8 ≤ (c.answers.filter fun a => !a.reserved).length →
      (.next ((s.withLink n c).refuseAtLink n kind tag code) : Host.Outcome State Fault Refusal) =
        .next ((s.withLink n { c with lastFault := .flood }).raise (.linkFault n))) := by
  unfold State.refuseAtLink LinkController.unreservedTaken Config.unreservedAnswers
  rw [State.withLink_link_same]
  refine ⟨fun hfree => ?_, fun hnone => ?_⟩
  · rw [if_pos hfree, State.modifyLink_eq, State.withLink_link_same, State.withLink_withLink]
  · rw [if_neg (Nat.not_lt.mpr hnone), State.linkFault_withLink]

/-- The tests of a request in their order: BAD_KIND, BUSY, DUP_TAG, and acceptance (R134). -/
theorem State.receiveRequest_tests (s : State) (n : Link) (c : LinkController) (r : Request) :
    (linkKind r.kind = none →
      (s.withLink n c).receiveRequest n r = (s.withLink n c).refuseAtLink n r.kind r.tag .badKind) ∧
    (linkKind r.kind ≠ none → 8 ≤ c.tags.length →
      (s.withLink n c).receiveRequest n r = (s.withLink n c).refuseAtLink n r.kind r.tag .busy) ∧
    (linkKind r.kind ≠ none → c.tags.length < 8 → r.tag ∈ c.tags →
      (s.withLink n c).receiveRequest n r = (s.withLink n c).refuseAtLink n r.kind r.tag .dupTag) ∧
    (linkKind r.kind ≠ none → c.tags.length < 8 → r.tag ∉ c.tags →
      (s.withLink n c).receiveRequest n r =
        s.withLink n { c with tags := c.tags ++ [r.tag], requests := c.requests ++ [r] }) := by
  unfold State.receiveRequest Config.windowSize
  rw [State.withLink_link_same]
  refine ⟨fun hkind => ?_, fun hkind hfull => ?_, fun hkind hroom htag => ?_, fun hkind hroom htag => ?_⟩
  · rw [if_pos hkind]
  · rw [if_neg hkind, if_pos hfull]
  · rw [if_neg hkind, if_neg (Nat.not_le.mpr hroom), if_pos htag]
  · rw [if_neg hkind, if_neg (Nat.not_le.mpr hroom), if_neg htag, State.acceptRequest, State.modifyLink_eq,
      State.withLink_link_same, State.withLink_withLink]

/-- Settles O18: the tests of R134 on the link as the reception has left it. -/
theorem requestReceived : Obligations.RequestReceived := by
  rintro s n m _ _ htakes rfl hkind rfl
  have hgood : exec (.requestReceived n m) s = .next ((s.withLink n (heard (s.link n))).receiveGood n m) := by
    rw [← State.receive_good htakes]
    exact exec_message n m htakes.1
  obtain ⟨hbadKind, hbusy, hdupTag, haccepted⟩ := State.receiveRequest_tests s n
    { heard (s.link n) with damage := 0, silence := 0 }
    { kind := messageKind m, tag := messageTag m, body := messageBody m }
  have hother : messageKind m ≠ helloKind := hkind
  have hup : (s.link n).state = .up → exec (.requestReceived n m) s =
      .next ((s.withLink n { heard (s.link n) with damage := 0, silence := 0 }).receiveRequest n
        { kind := messageKind m, tag := messageTag m, body := messageBody m }) := by
    intro h
    rw [hgood, State.receiveGood_up (c := heard (s.link n)) m h, if_neg hother]
  have hrefused := State.refuseAtLink_next s n { heard (s.link n) with damage := 0, silence := 0 } (messageKind m)
    (messageTag m)
  have hknown : (0x10 ≤ (messageKind m).toNat ∧ (messageKind m).toNat ≤ 0x17) → linkKind (messageKind m) ≠ none :=
    fun h hnone => (linkKind_eq_none_iff _).mp hnone h
  refine ⟨fun h hunknown => ?_, fun h hk hfull => ?_, fun h hk hroom htag => ?_, fun h hk hroom htag => ?_,
    fun h => ?_⟩
  · rw [hup h, hbadKind ((linkKind_eq_none_iff _).mpr hunknown)]
    exact hrefused _
  · rw [hup h, hbusy (hknown hk) hfull]
    exact hrefused _
  · rw [hup h, hdupTag (hknown hk) hroom htag]
    exact hrefused _
  · rw [hup h, haccepted (hknown hk) hroom htag]
  · rw [hgood, State.receiveGood_down (c := heard (s.link n)) m h, if_neg hother, State.linkFault_withLink]

end Sys2Proof.Machine
end

section
/-! SUPPORT. The request links family: the clock-loss detector (R121, R131) and the transmitter (R140, R141, R18). -/

namespace Sys2Proof.Machine

/-! ### The clock -/

/-- A clock loss that the armed detector signals in UP takes the link out of UP (R131, R142). -/
theorem State.loseClock_up {s : State} {n : Link} (harmed : (s.link n).clockArmed = true)
    (hup : (s.link n).state = .up) :
    s.loseClock n = (s.withLink n { s.link n with clockArmed := false, rxVoid := true }).leaveUp n .down .noClock := by
  unfold State.loseClock
  rw [if_pos harmed]
  exact if_pos hup

/-- A clock loss that the armed detector signals in another state leaves the link where it is (R131). -/
theorem State.loseClock_notUp {s : State} {n : Link} (harmed : (s.link n).clockArmed = true)
    (hstate : (s.link n).state ≠ .up) :
    s.loseClock n = s.withLink n { s.link n with clockArmed := false, rxVoid := true } := by
  unfold State.loseClock
  rw [if_pos harmed]
  exact if_neg hstate

/-- A clock loss is signalled once (R131). -/
theorem State.loseClock_signalled {s : State} {n : Link} (h : (s.link n).clockArmed = false) : s.loseClock n = s :=
  if_neg (by simp [h])

/-- Settles O20: the clock loss by the detector and the link state, and the clock return. -/
theorem clockLossAndReturn : Obligations.ClockLossAndReturn := by
  intro s n hrunning hcanon
  have hloss : exec (.clockLoss n) s = .next (s.loseClock n) := State.next_released (State.loseClock n) hrunning
  refine ⟨fun harmed hup => ⟨_, hloss, ?_⟩, fun harmed hstate => ?_, fun hsignalled => ?_,
    State.next_released (State.modifyLink n _) hrunning⟩
  · rw [State.loseClock_up harmed hup]
    exact State.leaveUp_leaves _ n _ _ hcanon
  · rw [hloss, State.loseClock_notUp harmed hstate]
  · rw [hloss, State.loseClock_signalled hsignalled]

/-! ### The transmitter -/

/-- The message that the part builds is the one of R122 and R186, for a body whose length a byte can hold. -/
theorem buildMessage_eq (kind tag result : Byte) {body : List Word} (h : body.length ≤ 255) :
    buildMessage kind tag result body = wireWords kind tag result body := by
  have hlength : (BitVec.ofNat 8 body.length).toNat = body.length := by
    rw [BitVec.toNat_ofNat, Nat.mod_eq_of_lt (by omega)]
  unfold buildMessage wireWords Word.ofBytes
  rw [hlength]

/-- A report body has four words (12.4). -/
theorem State.length_reportBody (s : State) (id : Nat) : (s.reportBody id).length = 4 := by
  unfold State.reportBody
  split <;> rfl

/-- The transmitter takes nothing outside UP or while its line is busy (R140). -/
theorem State.transmitterTake_blocked {s : State} {n : Link}
    (h : (s.link n).state ≠ .up ∨ (s.link n).line ≠ none) : s.transmitterTake n = s :=
  if_neg fun ⟨hup, hidle⟩ => h.elim (· hup) (· hidle)

/-- The transmitter takes the head answer first (R140, R141). -/
theorem State.transmitterTake_answer {s : State} {n : Link} {a : Answer} {rest : List Answer}
    (hup : (s.link n).state = .up) (hidle : (s.link n).line = none) (hanswers : (s.link n).answers = a :: rest) :
    s.transmitterTake n = s.withLink n
      { s.link n with
        answers := rest, line := some { words := a.message, frees := if a.reserved then some a.tag else none } } := by
  unfold State.transmitterTake
  dsimp only
  rw [if_pos ⟨hup, hidle⟩, hanswers]

/-- The transmitter takes the HELLO reply when no answer waits (R140, R129). -/
theorem State.transmitterTake_hello {s : State} {n : Link} (hup : (s.link n).state = .up)
    (hidle : (s.link n).line = none) (hanswers : (s.link n).answers = []) (howed : (s.link n).helloOwed = true) :
    s.transmitterTake n = s.withLink n
      { s.link n with
        helloOwed := false, line := some { words := wireWords 0x01 0 0 (s.helloBody n), frees := none } } := by
  have hlength : (s.helloBody n).length ≤ 255 := (by decide : 3 ≤ 255)
  unfold State.transmitterTake
  dsimp only
  rw [if_pos ⟨hup, hidle⟩, hanswers]
  dsimp only
  rw [if_pos howed, buildMessage_eq _ _ _ hlength]
  rfl

/-- The link controller once its transmitter has taken the report of an id (R140, R141). -/
def reportTaken (s : State) (n : Link) (id : Nat) (rest : List Nat) : LinkController :=
  { s.link n with
    reports := rest, line := some { words := wireWords 0x40 0 0 (s.reportBody id), frees := none } }

/-- The transmitter takes the head report last, and delivers it (R140, R18). -/
theorem State.transmitterTake_report {s : State} {n : Link} {id : Nat} {rest : List Nat}
    (hup : (s.link n).state = .up) (hidle : (s.link n).line = none) (hanswers : (s.link n).answers = [])
    (howed : (s.link n).helloOwed = false) (hreports : (s.link n).reports = id :: rest) :
    s.transmitterTake n = (s.withLink n (reportTaken s n id rest)).deliver id := by
  have hlength : (s.reportBody id).length ≤ 255 := by rw [State.length_reportBody]; decide
  have hnotOwed : ¬(s.link n).helloOwed = true := by simp [howed]
  unfold State.transmitterTake
  dsimp only
  rw [if_pos ⟨hup, hidle⟩, hanswers]
  dsimp only
  rw [if_neg hnotOwed, hreports]
  dsimp only
  rw [buildMessage_eq _ _ _ hlength, reportTaken, hanswers]
  rfl

/-- The transmitter takes nothing when nothing waits (R140). -/
theorem State.transmitterTake_nothing {s : State} {n : Link} (hanswers : (s.link n).answers = [])
    (howed : (s.link n).helloOwed = false) (hreports : (s.link n).reports = []) : s.transmitterTake n = s := by
  have hnotOwed : ¬(s.link n).helloOwed = true := by simp [howed]
  unfold State.transmitterTake
  dsimp only
  rw [hanswers]
  dsimp only
  rw [if_neg hnotOwed, hreports]
  exact ite_self s

/-- Settles O21: the take by what waits, in the order of R140. -/
theorem transmitterTakes : Obligations.TransmitterTakes := by
  intro s n hrunning hcanon
  have htake : exec (.transmitterTake n) s = .next (s.transmitterTake n) :=
    State.next_released (State.transmitterTake n) hrunning
  refine ⟨fun hblocked => ?_, fun hup hidle => ⟨fun a rest hanswers hlength => ?_, fun hanswers howed => ?_,
    fun id rest hanswers howed hreports => ?_, fun hanswers howed hreports => ?_⟩⟩
  · rw [htake, State.transmitterTake_blocked hblocked]
  · rw [htake, State.transmitterTake_answer hup hidle hanswers, Answer.message, buildMessage_eq _ _ _ hlength]
    rfl
  · rw [htake, State.transmitterTake_hello hup hidle hanswers howed]
  · refine ⟨_, htake, ?_⟩
    rw [State.transmitterTake_report hup hidle hanswers howed hreports]
    refine ⟨fun hopen => ?_, fun hclosed => ?_⟩
    · rw [State.deliver, State.withLink_circuit, if_neg (by rw [hopen]; exact Bool.false_ne_true)]
      rfl
    · rw [State.deliver, State.withLink_circuit, if_pos hclosed]
      exact State.freeRecord_frees _ id hcanon.1
  · rw [htake, State.transmitterTake_nothing hanswers howed hreports]

/-! ### The completion of a transmission -/

/-- The message on the line has been sent: the tag that it answers leaves the window (R141, R133). -/
theorem State.transmissionComplete_sent {s : State} {n : Link} {m : Sending} (h : (s.link n).line = some m) :
    s.transmissionComplete n = s.withLink n
      { s.link n with
        line := none, tags := m.frees.elim (s.link n).tags fun tag => (s.link n).tags.filter (· ≠ tag) } := by
  unfold State.transmissionComplete
  rw [h]
  dsimp only
  rw [State.modifyLink_eq]
  cases m.frees <;> rfl

/-- Settles O22: the completion by the message on the line. -/
theorem transmissionCompletes : Obligations.TransmissionCompletes := by
  intro s n hrunning
  have hcomplete : exec (.transmissionComplete n) s = .next (s.transmissionComplete n) :=
    State.next_released (State.transmissionComplete n) hrunning
  refine ⟨fun hidle => ?_, fun words hsent => ?_, fun words tag hsent => ?_⟩
  · rw [hcomplete, State.transmissionComplete, hidle]
  · rw [hcomplete, State.transmissionComplete_sent hsent]
    rfl
  · rw [hcomplete, State.transmissionComplete_sent hsent]
    rfl

end Sys2Proof.Machine
end

section
/-! SUPPORT. The request links family: what the other parts of a boundary leave of a link and of its records (R36 to
R44, R130, R142). -/

namespace Sys2Proof.Machine

/-! ### The fields outside the records -/

/-- The application of one record touches nothing outside the records. -/
theorem Applied.same {id : Nat} {s t : State} (h : Applied id s t) : SameOutsideRecords s t := by
  unfold Applied at h
  cases hc : s.circuit id with
  | none =>
    rw [hc] at h
    cases h
    exact SameOutsideRecords.refl s
  | some c =>
    rw [hc] at h
    exact h.2.1

/-- The application of a list of records touches nothing outside the records. -/
theorem AppliedAll.same : ∀ {ids : List Nat} {s t : State}, AppliedAll ids s t → SameOutsideRecords s t
  | [], _, _, h => h ▸ SameOutsideRecords.refl _
  | _ :: _, _, _, ⟨_, hone, hrest⟩ => hone.same.trans hrest.same

/-- A boundary is decided without a cutover, or it is not stepped and makes one (R36). -/
theorem decision_cases (stepped : Bool) (s : State) :
    (stepped = true ∨ ¬CutsOver s) ∨ (stepped = false ∧ CutsOver s) := by
  cases stepped with
  | true => exact .inl (.inl rfl)
  | false => exact (Classical.em (CutsOver s)).elim (fun h => .inr ⟨rfl, h⟩) fun h => .inl (.inr h)

/-- The decision of the Cutover Controller touches nothing outside the records. -/
theorem Decided.same {stepped : Bool} {s t : State} (h : Decided stepped s t) : SameOutsideRecords s t := by
  obtain ⟨hdeferred, hcuts⟩ := h
  obtain hcase | ⟨hstepped, hcutsOver⟩ := decision_cases stepped s
  · rw [hdeferred hcase]
    exact SameOutsideRecords.refl s
  · obtain ⟨u, happlied, rfl⟩ := hcuts hstepped hcutsOver
    exact happlied.same

/-- A boundary touches nothing outside the records. -/
theorem BoundaryTaken.same {stepped : Bool} {order : BoundaryOrder} {s t : State}
    (h : BoundaryTaken stepped order s t) : SameOutsideRecords s t := by
  obtain ⟨u, v, hbefore, hdecided, hafter⟩ := h
  exact (hbefore.same.trans hdecided.same).trans hafter.same

/-! ### An id whose record a part of an event passes over -/

/-- What a part of an event that is not the link's own leaves of the circuit of an id, a before it and b after it: no
new circuit and no new owner; a circuit of the link that is not RELEASING stands, CLOSED exactly if it was; and while
the link does not listen none of its circuits becomes CLOSED. -/
structure CircuitPasses (n : Link) (listens : Prop) (a b : Option Circuit) : Prop where
  stands : ∀ c, a = some c → c.owner = .link n → c.state ≠ .releasing →
    ∃ d, b = some d ∧ d.owner = .link n ∧ d.state ≠ .releasing ∧ (d.state = .closed ↔ c.state = .closed)
  comesFrom : ∀ d, b = some d → ∃ c, a = some c ∧ c.owner = d.owner ∧
    (¬listens → d.owner = .link n → d.state = .closed → c.state = .closed)

/-- A circuit that stands as it was. -/
theorem CircuitPasses.refl (n : Link) (listens : Prop) (a : Option Circuit) : CircuitPasses n listens a a :=
  ⟨fun c hc howner hstate => ⟨c, hc, howner, hstate, Iff.rfl⟩, fun d hd => ⟨d, hd, rfl, fun _ _ h => h⟩⟩

/-- One part of an event after another. -/
theorem CircuitPasses.trans {n : Link} {listens : Prop} {a b c : Option Circuit} (h1 : CircuitPasses n listens a b)
    (h2 : CircuitPasses n listens b c) : CircuitPasses n listens a c := by
  refine ⟨fun x hx howner hstate => ?_, fun z hz => ?_⟩
  · obtain ⟨y, hy, yowner, ystate, yclosed⟩ := h1.stands x hx howner hstate
    obtain ⟨z, hz, zowner, zstate, zclosed⟩ := h2.stands y hy yowner ystate
    exact ⟨z, hz, zowner, zstate, zclosed.trans yclosed⟩
  · obtain ⟨y, hy, yowner, yclosed⟩ := h2.comesFrom z hz
    obtain ⟨x, hx, xowner, xclosed⟩ := h1.comesFrom y hy
    exact ⟨x, hx, xowner.trans yowner,
      fun hdeaf howner hclosed => xclosed hdeaf (yowner.trans howner) (yclosed hdeaf howner hclosed)⟩

/-- A circuit that keeps its owner and its place among RELEASING, CLOSED and the other states. -/
theorem CircuitPasses.of_some {n : Link} {listens : Prop} {c d : Circuit} (howner : d.owner = c.owner)
    (hreleasing : d.state = .releasing → c.state = .releasing) (hclosed : d.state = .closed ↔ c.state = .closed) :
    CircuitPasses n listens (some c) (some d) := by
  refine ⟨fun x hx hx' hstate => ?_, fun y hy => ?_⟩
  · cases hx
    exact ⟨d, rfl, howner.trans hx', fun h => hstate (hreleasing h), hclosed⟩
  · cases hy
    exact ⟨c, rfl, howner.symm, fun _ _ h => hclosed.mp h⟩

/-- A circuit that becomes FREE, when it is RELEASING or another owner's. -/
theorem CircuitPasses.to_none {n : Link} {listens : Prop} {c : Circuit}
    (h : c.owner = .link n → c.state = .releasing) : CircuitPasses n listens (some c) none := by
  refine ⟨fun x hx howner hstate => ?_, fun y hy => absurd hy (by simp)⟩
  cases hx
  exact absurd (h howner) hstate

/-! ### A link that a part of an event passes over -/

/-- What a part of a boundary that is not the link's own leaves of the link and of its records: its link controller but
for reports, of which one that is not UP receives none; its LINK_STATE latch; its circuits; and the items that release
its records. -/
structure Passes (n : Link) (s t : State) : Prop where
  link    : t.link n = { s.link n with reports := (t.link n).reports }
  reports : (s.link n).state ≠ .up → (s.link n).reports = [] → (t.link n).reports = []
  latch   : s.events.isSet (.linkState n) = true → t.events.isSet (.linkState n) = true
  circuit : ∀ id, CircuitPasses n ((s.link n).state = .up) (s.circuit id) (t.circuit id)
  items   : ∀ id c, s.circuit id = some c → c.owner = .link n → c.isReleasable = true →
    ReleaseStands s.engine.followUps id → ReleaseStands t.engine.followUps id

/-- The link state stands. -/
theorem Passes.state {n : Link} {s t : State} (h : Passes n s t) : (t.link n).state = (s.link n).state := by
  rw [h.link]

/-- A release has something to release exactly in a state other than RELEASING and CLOSED. -/
theorem Circuit.isReleasable_iff_ne (c : Circuit) :
    c.isReleasable = true ↔ c.state ≠ .releasing ∧ c.state ≠ .closed := by
  unfold Circuit.isReleasable
  cases c.state <;> simp

/-- A record of the link that has something to release still has. -/
theorem Passes.releasable {n : Link} {s t : State} (h : Passes n s t) {id : Nat} {c : Circuit}
    (hc : s.circuit id = some c) (howner : c.owner = .link n) (hlive : c.isReleasable = true) :
    ∃ d, t.circuit id = some d ∧ d.owner = .link n ∧ d.isReleasable = true := by
  obtain ⟨hreleasing, hclosed⟩ := c.isReleasable_iff_ne.mp hlive
  obtain ⟨d, hd, downer, dstate, dclosed⟩ := (h.circuit id).stands c hc howner hreleasing
  exact ⟨d, hd, downer, d.isReleasable_iff_ne.mpr ⟨dstate, fun hd => hclosed (dclosed.mp hd)⟩⟩

/-- A part of an event that does nothing. -/
theorem Passes.refl (n : Link) (s : State) : Passes n s s :=
  ⟨rfl, fun _ h => h, fun h => h, fun _ => CircuitPasses.refl _ _ _, fun _ _ _ _ _ h => h⟩

/-- One part of an event after another. -/
theorem Passes.trans {n : Link} {s t u : State} (h1 : Passes n s t) (h2 : Passes n t u) : Passes n s u where
  link := by rw [h2.link, h1.link]
  reports hstate hempty := h2.reports (by rwa [h1.state]) (h1.reports hstate hempty)
  latch h := h2.latch (h1.latch h)
  circuit id := (h1.circuit id).trans (by rw [← h1.state]; exact h2.circuit id)
  items id c hc howner hlive hstands := by
    obtain ⟨d, hd, downer, dlive⟩ := h1.releasable hc howner hlive
    exact h2.items id d hd downer dlive (h1.items id c hc howner hlive hstands)

/-- A change of no record, of no link and of no item passes over every link, when it takes no latch back. -/
theorem Passes.of_latches {n : Link} {s t : State} (htable : t.table = s.table) (hlinks : t.links = s.links)
    (hengine : t.engine = s.engine)
    (hlatch : s.events.isSet (.linkState n) = true → t.events.isSet (.linkState n) = true) : Passes n s t where
  link := by rw [State.link, hlinks]; rfl
  reports _ hempty := by rwa [State.link, hlinks]
  latch := hlatch
  circuit id := by
    have hsame : t.circuit id = s.circuit id := by simp only [State.circuit, State.record, htable]
    exact hsame ▸ CircuitPasses.refl _ _ _
  items id c _ _ _ hstands := by rwa [hengine]

/-- An event raised takes no latch back (R178). -/
theorem Passes.raise (n : Link) (s : State) (e : Event) : Passes n s (s.raise e) :=
  Passes.of_latches rfl rfl rfl fun h => by rw [EventUnit.isSet_raise, h, Bool.true_or]

/-! ### The cutover passes over a link -/

/-- A report queued for an owner touches no link but its own (R138). -/
theorem Reported.link {o : Owner} {id : Nat} {s t : State} (h : Reported o id s t) (n : Link) :
    t.link n = { s.link n with reports := (t.link n).reports } ∧
      ((s.link n).state ≠ .up → (t.link n).reports = (s.link n).reports) := by
  obtain ⟨hlinks, -, -⟩ := h
  rw [show t.link n = (s.withLinks (reportedLinks s o id)).link n by rw [State.link, hlinks]; rfl]
  cases o with
  | supervisor => exact ⟨rfl, fun _ => rfl⟩
  | link m =>
    by_cases hup : (s.link m).state = .up
    · have hset : s.withLinks (reportedLinks s (.link m) id) =
          s.withLink m { s.link m with reports := appendOnce (s.link m).reports id } := by
        rw [reportedLinks, if_pos hup]
        rfl
      rw [hset]
      by_cases hsame : n = m
      · subst hsame
        rw [State.withLink_link_same]
        exact ⟨rfl, fun hnotUp => absurd hup hnotUp⟩
      · rw [State.withLink_link_other _ _ hsame]
        exact ⟨rfl, fun _ => rfl⟩
    · have hnone : reportedLinks s (.link m) id = s.links := by rw [reportedLinks, if_neg hup]
      rw [hnone]
      exact ⟨rfl, fun _ => rfl⟩

/-- A report queued for an owner takes no latch back (R161, R178). -/
theorem Reported.latch {o : Owner} {id : Nat} {s t : State} (h : Reported o id s t) {e : Event}
    (hset : s.events.isSet e = true) : t.events.isSet e = true := by
  obtain ⟨-, -, hevents⟩ := h
  have hraised : (s.raise .supReport).events.isSet e = true := by rw [EventUnit.isSet_raise, hset, Bool.true_or]
  rw [hevents]
  cases o with
  | link _ => exact hset
  | supervisor =>
    unfold reportedEvents
    dsimp only
    split
    · exact hraised
    · exact hset

/-- A record after its branch has left it keeps its state and its owner (R11). -/
theorem withoutBranch_passes (n : Link) (listens : Prop) (id : Nat) (c : Circuit) (s : State) (j : Nat) :
    CircuitPasses n listens (s.record j).circuit (withoutBranch id c s j).circuit := by
  unfold withoutBranch
  split
  · rename_i parent p _ hp
    split
    · split
      · rw [hp]
        exact CircuitPasses.of_some rfl (fun h => h) Iff.rfl
      · exact CircuitPasses.refl _ _ _
    · exact CircuitPasses.refl _ _ _
  · exact CircuitPasses.refl _ _ _

/-- A circuit that a cutover applies keeps its owner, and is CLOSED or RELEASING only if it was (R41). -/
theorem applied_passes (n : Link) (listens : Prop) (cycle : Word) (c : Circuit) :
    CircuitPasses n listens (some c) (some (applied cycle c)) := by
  unfold applied
  dsimp only
  by_cases hpending : c.state = .pending
  · rw [if_pos hpending]
    exact CircuitPasses.of_some rfl (by simp) (by simp [hpending])
  rw [if_neg hpending]
  by_cases hsuspend : c.state = .active ∧ c.pendingChange = some .suspend
  · rw [if_pos hsuspend]
    exact CircuitPasses.of_some rfl (by simp) (by simp [hsuspend])
  rw [if_neg hsuspend]
  by_cases hresume : c.state = .suspended ∧ c.pendingChange = some .resume
  · rw [if_pos hresume]
    exact CircuitPasses.of_some rfl (by simp) (by simp [hresume])
  rw [if_neg hresume]
  -- What is left of a reshape changes neither the state nor the owner.
  split
  · exact CircuitPasses.of_some rfl (fun h => h) Iff.rfl
  · split
    · exact CircuitPasses.of_some rfl (fun h => h) Iff.rfl
    · exact CircuitPasses.of_some rfl (fun h => h) Iff.rfl

/-! ### The items that release records -/

/-- An offer of a DROP item takes no item out of the queue that releases a record (R74). -/
theorem ReleaseStands.offeredDrop {queue : List FollowUp} {id : Nat} (h : ReleaseStands queue id) (dropped : Nat) :
    ReleaseStands (offerTo queue { kind := .drop, id := dropped }) id := by
  unfold offerTo
  split
  · obtain ⟨item, hmem, hitem⟩ := h
    exact ⟨item, List.mem_append_left _ hmem, hitem⟩
  · rw [if_neg fun hboth => hboth.2 rfl]
    exact h

/-- After an item that releases its record has been offered for each id of a list, one stands for each of them, and for
each for which one stood before. -/
theorem releaseStands_offers {kind : FollowKind} (hkind : kind ≠ .drop) {id : Nat} (ids : List Nat) :
    ∀ queue : List FollowUp, ReleaseStands queue id ∨ id ∈ ids →
      ReleaseStands (ids.foldl (fun q i => offerTo q { kind := kind, id := i }) queue) id := by
  induction ids with
  | nil => exact fun queue h => h.resolve_right List.not_mem_nil
  | cons i rest ih =>
    intro queue h
    refine ih _ ?_
    obtain hstands | hmem := h
    · exact .inl (hstands.offered hkind)
    · obtain rfl | hrest := List.mem_cons.mp hmem
      · exact .inl (releaseStands_offered queue (item := { kind := kind, id := id }) hkind)
      · exact .inr hrest

/-- The removal of the items of other records leaves the items of a record. -/
theorem ReleaseStands.filtered {queue : List FollowUp} {id : Nat} (h : ReleaseStands queue id) {keep : Nat → Bool}
    (hkeep : keep id = true) : ReleaseStands (queue.filter fun f => keep f.id) id := by
  obtain ⟨item, hmem, rfl, hkind⟩ := h
  exact ⟨item, List.mem_filter.mpr ⟨hmem, hkeep⟩, rfl, hkind⟩

/-- The policy of a link takes no item out of the queue that releases a record (R143, R74). -/
theorem ReleaseStands.afterPolicy {queue : List FollowUp} {id : Nat} (h : ReleaseStands queue id) (s : State)
    (n : Link) : ReleaseStands (afterPolicy s n queue) id := by
  unfold Machine.afterPolicy
  split
  · exact h
  · exact releaseStands_offers (by decide) _ queue (.inl h)

/-- A circuit that meets a test is among those that do, whether or not the Circuit Table is canonical. -/
theorem State.mem_idsWhere_of_circuit {s : State} {test : Circuit → Bool} {id : Nat} {c : Circuit}
    (hc : s.circuit id = some c) (htest : test c = true) : id ∈ s.idsWhere test := by
  have hlisted : s.record id ≠ Record.initial := by
    intro hinitial
    rw [State.circuit, hinitial] at hc
    exact absurd hc (by simp [Record.initial])
  refine List.mem_filterMap.mpr ⟨_, Sparse.mem_of_read Record.initial s.table hlisted, ?_⟩
  show (match s.circuit id with | some c => if test c then some id else none | none => none) = some id
  rw [hc]
  exact if_pos htest

/-- Under policy RELEASE an item stands that releases each record of the link that has something to release (R143). -/
theorem releaseStands_afterPolicy {s : State} {n : Link} {id : Nat} {c : Circuit} (queue : List FollowUp)
    (hpolicy : (s.link n).policy = .release) (hc : s.circuit id = some c) (howner : c.owner = .link n)
    (hlive : c.isReleasable = true) : ReleaseStands (afterPolicy s n queue) id := by
  unfold afterPolicy
  rw [hpolicy]
  refine releaseStands_offers (by decide) _ queue (.inr ?_)
  exact State.mem_idsWhere_of_circuit hc (by rw [howner, hlive, beq_self_eq_true]; rfl)

/-! ### The cutover and the other links pass over a link -/

/-- The application of a record that is not RELEASING passes over every link (R40 to R42). -/
theorem Applied.passes_live {id : Nat} {c : Circuit} {s t : State} (n : Link) (hc : s.circuit id = some c)
    (hstate : c.state ≠ .releasing) (h : Applied id s t) : Passes n s t := by
  unfold Applied at h
  rw [hc] at h
  obtain ⟨-, -, hlive, -⟩ := h
  obtain ⟨hrecord, hothers, hreported, -, hengine⟩ := hlive hstate
  obtain ⟨hlink, hreports⟩ := hreported.link n
  refine ⟨hlink, fun hdeaf hempty => (hreports hdeaf).trans hempty, hreported.latch, fun j => ?_,
    fun j d _ _ _ hstands => ?_⟩
  · by_cases hj : j = id
    · subst hj
      rw [hc, t.circuit_eq, hrecord]
      exact applied_passes n _ _ c
    · rw [t.circuit_eq, hothers j hj]
      exact CircuitPasses.refl _ _ _
  · rw [hengine]
    split
    · exact hstands.offeredDrop id
    · exact hstands

/-- The application of a RELEASING record passes over every link (R11, R17, R40, R41). -/
theorem Applied.passes_releasing {id : Nat} {c : Circuit} {s t : State} (n : Link) (hc : s.circuit id = some c)
    (hstate : c.state = .releasing) (h : Applied id s t) : Passes n s t := by
  unfold Applied at h
  rw [hc] at h
  obtain ⟨-, -, -, hreleasing⟩ := h
  obtain ⟨hothers, hheard, hunheard⟩ := hreleasing hstate
  have hpass : CircuitPasses n ((s.link n).state = .up) (s.circuit id) (t.circuit id) →
      ∀ j, CircuitPasses n ((s.link n).state = .up) (s.circuit j) (t.circuit j) := by
    intro hown j
    by_cases hj : j = id
    · exact hj ▸ hown
    · rw [t.circuit_eq, hothers j hj]
      exact withoutBranch_passes n _ id c s j
  by_cases hlistens : OwnerListens s c.owner
  · obtain ⟨hrecord, hreported, -, hengine⟩ := hheard hlistens
    obtain ⟨hlink, hreports⟩ := hreported.link n
    refine ⟨hlink, fun hdeaf hempty => (hreports hdeaf).trans hempty, hreported.latch, hpass ?_,
      fun j d _ _ _ hstands => hengine ▸ hstands⟩
    rw [hc, t.circuit_eq, hrecord]
    refine ⟨fun x hx _ hx' => absurd ((Option.some.inj hx) ▸ hstate) hx', fun d hd => ⟨c, rfl, ?_⟩⟩
    cases hd
    refine ⟨rfl, fun hdeaf howner _ => absurd ?_ hdeaf⟩
    have howner : c.owner = .link n := howner
    rwa [howner] at hlistens
  · obtain ⟨hrecord, hlinks, -, hevents, hengine, -⟩ := hunheard hlistens
    refine ⟨by rw [hlinks n], fun _ hempty => by rw [hlinks n, hempty]; rfl, fun hset => by rwa [hevents], hpass ?_,
      fun j d hd _ hlive hstands => ?_⟩
    · rw [hc, t.circuit_eq, hrecord]
      exact CircuitPasses.to_none fun _ => hstate
    · have hother : j ≠ id := by
        rintro rfl
        cases hc.symm.trans hd
        exact (c.isReleasable_iff_ne.mp hlive).1 hstate
      rw [hengine]
      exact hstands.filtered (keep := fun i => i ≠ id) (by simpa using hother)

/-- The application of a record passes over every link (R39). -/
theorem Applied.passes {id : Nat} {s t : State} (n : Link) (h : Applied id s t) : Passes n s t := by
  cases hc : s.circuit id with
  | none =>
    unfold Applied at h
    rw [hc] at h
    exact h ▸ Passes.refl n s
  | some c =>
    by_cases hstate : c.state = .releasing
    · exact h.passes_releasing n hc hstate
    · exact h.passes_live n hc hstate

/-- The application of a list of records passes over every link (R39). -/
theorem AppliedAll.passes (n : Link) : ∀ {ids : List Nat} {s t : State}, AppliedAll ids s t → Passes n s t
  | [], _, _, h => h ▸ Passes.refl n _
  | _ :: _, _, _, ⟨_, hone, hrest⟩ => (hone.passes n).trans (hrest.passes n)

/-- The decision of the Cutover Controller passes over every link (R36 to R38). -/
theorem Decided.passes {stepped : Bool} {s t : State} (n : Link) (h : Decided stepped s t) : Passes n s t := by
  obtain ⟨hdeferred, hcuts⟩ := h
  obtain hcase | ⟨hstepped, hcutsOver⟩ := decision_cases stepped s
  · rw [hdeferred hcase]
    refine Passes.of_latches rfl rfl rfl fun hset => ?_
    show (deferredEvents s).isSet _ = true
    unfold deferredEvents
    split
    · exact hset
    · exact (Passes.raise n s .deferred).latch hset
  · obtain ⟨u, happlied, rfl⟩ := hcuts hstepped hcutsOver
    exact (happlied.passes n).trans
      (Passes.of_latches rfl rfl rfl fun hset => (Passes.raise n u .cutover).latch hset)

/-- Records of other owners that become FREE pass over a link (R21). -/
theorem Frees.passes {freed : Nat → Bool} {n : Link} {s t : State} (h : Frees freed s t)
    (hkept : ∀ id c, s.circuit id = some c → c.owner = .link n → freed id = false) : Passes n s t := by
  obtain ⟨hrecords, hlinks, -, hengine, -, -, hevents, -⟩ := h
  refine ⟨by rw [hlinks n], fun _ hempty => by rw [hlinks n, hempty]; rfl, fun hset => by rwa [hevents], fun id => ?_,
    fun id c hc howner _ hstands => ?_⟩
  · rw [t.circuit_eq, hrecords id]
    cases hfreed : freed id with
    | false => exact CircuitPasses.refl _ _ _
    | true =>
      cases hc : s.circuit id with
      | none => exact CircuitPasses.refl _ _ _
      | some c => exact CircuitPasses.to_none fun howner => absurd (hkept id c hc howner) (by simp [hfreed])
  · rw [hengine]
    exact hstands.filtered (keep := fun i => !freed i) (by rw [hkept id c hc howner]; rfl)

/-- A change of another link controller passes over a link. -/
theorem Passes.withLink {m n : Link} (hother : n ≠ m) (s : State) (c : LinkController) :
    Passes n s (s.withLink m c) := by
  have hlink := State.withLink_link_other s c hother
  exact ⟨by rw [hlink], fun _ hempty => by rwa [hlink], fun h => h, fun _ => CircuitPasses.refl _ _ _,
    fun _ _ _ _ _ h => h⟩

/-- The policy of a link passes over every link (R143). -/
theorem Passes.afterPolicy (n m : Link) (s u : State) :
    Passes n u (u.withEngine { u.engine with followUps := afterPolicy s m u.engine.followUps }) :=
  ⟨rfl, fun _ h => h, fun h => h, fun _ => CircuitPasses.refl _ _ _, fun _ _ _ _ _ h => h.afterPolicy s m⟩

/-- The departure of another link from UP passes over a link (R142). -/
theorem LeavesUp.passes {m n : Link} {target : LinkState} {reason : DownReason} {s t : State} (hother : n ≠ m)
    (h : LeavesUp m target reason s t) : Passes n s t := by
  obtain ⟨u, hfrees, rfl⟩ := h
  have hne : Owner.link n ≠ .link m := fun h => hother (Owner.link.inj h)
  have hkept : ∀ id c, s.circuit id = some c → c.owner = .link n → isClosedOf s (.link m) id = false := by
    intro id c hc howner
    rw [isClosedOf, hc, Option.any_some, howner, beq_false_of_ne hne, Bool.false_and]
  exact (((hfrees.passes hkept).trans (Passes.withLink hother u _)).trans
    (Passes.afterPolicy n m s (u.withLink m _))).trans (Passes.raise n _ _)

/-- A boundary taken by another link passes over a link (R130). -/
theorem CountsSilence.passes {m n : Link} {s t : State} (hother : n ≠ m) (h : CountsSilence m s t) : Passes n s t := by
  by_cases hlimit : LimitReached s m
  · exact (h.1 hlimit).passes hother
  · rw [h.2 hlimit]
    exact Passes.withLink hother s _

/-- A boundary taken by other links passes over a link (R130). -/
theorem LinksCount.passes {n : Link} : ∀ {ls : List Link} {s t : State}, n ∉ ls → LinksCount ls s t → Passes n s t
  | [], _, _, _, h => h ▸ Passes.refl n _
  | m :: _, _, _, hn, ⟨_, hone, hrest⟩ => by
    obtain ⟨hm, hls⟩ := not_or.mp (mt List.mem_cons.mpr hn)
    exact (hone.passes hm).trans (hrest.passes hls)

/-- A boundary taken by links in turn is taken by each one between those before it and those after it. -/
theorem linksCount_append (before after : List Link) : ∀ {s t : State}, LinksCount (before ++ after) s t ↔
    ∃ u, LinksCount before s u ∧ LinksCount after u t := by
  induction before with
  | nil => exact fun {s t} => ⟨fun h => ⟨s, rfl, h⟩, fun ⟨_, hu, h⟩ => hu ▸ h⟩
  | cons m rest ih =>
    refine fun {s t} => ⟨fun ⟨v, hone, h⟩ => ?_, fun ⟨u, ⟨v, hone, hrest⟩, h⟩ => ⟨v, hone, ih.mpr ⟨u, hrest, h⟩⟩⟩
    obtain ⟨u, hrest, hafter⟩ := ih.mp h
    exact ⟨u, ⟨v, hone, hrest⟩, hafter⟩

end Sys2Proof.Machine
end

section
/-! SUPPORT. The request links family: the boundary at which a silence limit is reached (R130, R142, R143). -/

namespace Sys2Proof.Machine

/-! ### The link that is silent -/

/-- What the departure of a link from UP for its silence leaves of the link and of its records (R142, R19, R143). -/
structure LeftSilent (n : Link) (s t : State) : Prop where
  link     : t.link n = (s.link n).leave .down .silent
  latch    : t.events.isSet (.linkState n) = true
  freed    : ∀ id c, s.circuit id = some c → c.owner = .link n → c.state = .closed → t.circuit id = none
  unclosed : ∀ id d, t.circuit id = some d → d.owner = .link n → d.state ≠ .closed
  items    : (s.link n).policy = .release → ∀ id c, s.circuit id = some c → c.owner = .link n →
    c.isReleasable = true → t.circuit id = some c ∧ ReleaseStands t.engine.followUps id

/-- The CLOSED records of a link are those of its owner in CLOSED. -/
theorem isClosedOf_iff {s : State} {o : Owner} {id : Nat} {c : Circuit} (hc : s.circuit id = some c) :
    isClosedOf s o id = true ↔ c.owner = o ∧ c.state = .closed := by
  rw [isClosedOf, hc, Option.any_some, Bool.and_eq_true, beq_iff_eq, beq_iff_eq]

/-- The departure from UP for silence (R130, R142). -/
theorem LeavesUp.leftSilent {n : Link} {s t : State} (h : LeavesUp n .down .silent s t) : LeftSilent n s t := by
  obtain ⟨u, ⟨hrecords, -⟩, rfl⟩ := h
  have hcircuit : ∀ id, u.circuit id = if isClosedOf s (.link n) id then none else s.circuit id := by
    intro id
    rw [u.circuit_eq, hrecords id]
    split <;> rfl
  refine ⟨State.withLink_link_same u n _, ?_, fun id c hc howner hclosed => ?_, fun id d hd howner hclosed => ?_,
    fun hpolicy id c hc howner hlive => ⟨?_, releaseStands_afterPolicy _ hpolicy hc howner hlive⟩⟩
  · rw [EventUnit.isSet_raise, decide_eq_true rfl, Bool.or_true]
  · exact (hcircuit id).trans (if_pos ((isClosedOf_iff hc).mpr ⟨howner, hclosed⟩))
  · have hd : u.circuit id = some d := hd
    rw [hcircuit id] at hd
    split at hd
    · exact absurd hd (by simp)
    · rename_i hother
      exact hother ((isClosedOf_iff hd).mpr ⟨howner, hclosed⟩)
  · refine (hcircuit id).trans ((if_neg fun hclosed => ?_).trans hc)
    exact (c.isReleasable_iff_ne.mp hlive).2 ((isClosedOf_iff hc).mp hclosed).2

/-- A limit that is reached stays reached while the other parts of the boundary pass over the link. -/
theorem Passes.limitReached {n : Link} {s t : State} (h : Passes n s t) (hlimit : LimitReached s n) :
    LimitReached t n := by
  unfold LimitReached
  rw [h.link]
  exact hlimit

/-- A link that leaves UP for its silence, between parts of the boundary that pass over it (R130, R142). -/
theorem LeftSilent.silenced {n : Link} {s u v t : State} (hbefore : Passes n s u) (hleft : LeftSilent n u v)
    (hafter : Passes n v t) : Silenced n s t := by
  have hdown : (v.link n).state ≠ .up := by rw [hleft.link]; exact (by decide : LinkState.down ≠ .up)
  have hreports : (t.link n).reports = [] := hafter.reports hdown (by rw [hleft.link]; rfl)
  have hlink : t.link n = { (u.link n).leave .down .silent with reports := [] } := by
    rw [hafter.link, hreports, hleft.link]
  have hpolicy : (u.link n).policy = (s.link n).policy := by rw [hbefore.link]
  unfold Silenced
  rw [hlink]
  refine ⟨rfl, rfl, rfl, rfl, rfl, rfl, rfl, rfl, rfl, hafter.latch hleft.latch, fun id c hc howner hclosed => ?_,
    fun id d hd howner hclosed => ?_, fun hrelease id c hc howner hstate => ?_⟩
  · obtain ⟨d, hd, downer, -, dclosed⟩ :=
      (hbefore.circuit id).stands c hc howner (by rw [hclosed]; decide)
    have hnone := hleft.freed id d hd downer (dclosed.mpr hclosed)
    refine Option.eq_none_iff_forall_not_mem.mpr fun e he => ?_
    obtain ⟨x, hx, -⟩ := (hafter.circuit id).comesFrom e he
    exact absurd (hnone.symm.trans hx) (by simp)
  · obtain ⟨c, hc, cowner, cclosed⟩ := (hafter.circuit id).comesFrom d hd
    exact hleft.unclosed id c hc (cowner.trans howner) (cclosed hdown howner hclosed)
  · obtain ⟨d, hd, downer, dlive⟩ := hbefore.releasable hc howner (c.isReleasable_iff.mpr hstate)
    obtain ⟨hstands, hitem⟩ := hleft.items (hpolicy.trans hrelease) id d hd downer dlive
    exact hafter.items id d hstands downer dlive hitem

/-! ### The links in turn -/

/-- A link that stands once in a list of links leaves UP at its turn in it (R130). -/
theorem LinksCount.turn {n : Link} {ls : List Link} (hmem : n ∈ ls) (hnodup : ls.Nodup) {s t : State}
    (h : LinksCount ls s t) (hlimit : LimitReached s n) :
    ∃ u v, Passes n s u ∧ LeftSilent n u v ∧ Passes n v t := by
  obtain ⟨before, after, rfl⟩ := List.append_of_mem hmem
  obtain ⟨-, hrest, hapart⟩ := List.nodup_append.mp hnodup
  have hbefore : n ∉ before := fun h => hapart n h n (List.mem_cons_self ..) rfl
  have hafter : n ∉ after := (List.nodup_cons.mp hrest).1
  obtain ⟨u, hcount, v, hturn, hlast⟩ := (linksCount_append before (n :: after)).mp h
  have hpass : Passes n s u := hcount.passes hbefore
  exact ⟨u, v, hpass, (hturn.1 (hpass.limitReached hlimit)).leftSilent, hlast.passes hafter⟩

/-- The boundary at which the silence limit of a link is reached (R130, R142). -/
theorem BoundaryTaken.silenced {stepped : Bool} {order : BoundaryOrder} {n : Link} {s t : State}
    (h : BoundaryTaken stepped order s t) (hlimit : LimitReached s n) : Silenced n s t := by
  obtain ⟨hnodupBefore, hnodupAfter, hmem⟩ := linksAround order
  obtain ⟨u, v, hbefore, hdecided, hafter⟩ := h
  have hdecision : Passes n u v := hdecided.passes n
  by_cases hfirst : n ∈ linksBefore order
  · have hlast : Passes n v t := hafter.passes fun h => (hmem n).mp h hfirst
    obtain ⟨x, y, hx, hleft, hy⟩ := hbefore.turn hfirst hnodupBefore hlimit
    exact hleft.silenced hx (hy.trans (hdecision.trans hlast))
  · have hpass : Passes n s v := (hbefore.passes hfirst).trans hdecision
    obtain ⟨x, y, hx, hleft, hy⟩ := hafter.turn ((hmem n).mpr hfirst) hnodupAfter (hpass.limitReached hlimit)
    exact hleft.silenced (hpass.trans hx) hy

/-- The frame start that is the boundary at which the silence limit of a link is reached (R130, R175). -/
theorem FrameStarts.silenced {stepped : Bool} {now : Nat} {f : FrameInput} {n : Link} {s t : State}
    (h : FrameStarts (.boundary stepped) now f s t) (hlimit : LimitReached s n) : Silenced n s t := by
  obtain ⟨-, switch, u, htaken, hstate⟩ := h
  have hsilenced : Silenced n s u := htaken.silenced hlimit
  rw [hstate]
  exact hsilenced

/-! ### The order of a boundary (log 10) -/

/-- A list of links without repeats is taken as it stands. -/
theorem dedupLinks_of_nodup {ls : List Link} (h : ls.Nodup) : dedupLinks ls = ls := by
  induction ls with
  | nil => rfl
  | cons m rest ih =>
    obtain ⟨hm, hrest⟩ := List.nodup_cons.mp h
    rw [dedupLinks, ih hrest, List.filter_eq_self.mpr]
    exact fun k hk => decide_eq_true fun hkm => hm (hkm ▸ hk)

/-- Of two lists of links after one another, the second adds the links that the first does not name. -/
theorem dedupLinks_append (a b : List Link) :
    dedupLinks (a ++ b) = dedupLinks a ++ (dedupLinks b).filter (· ∉ a) := by
  induction a with
  | nil => exact (List.filter_eq_self.mpr fun _ _ => decide_eq_true List.not_mem_nil).symm
  | cons m rest ih =>
    rw [List.cons_append, dedupLinks, dedupLinks, ih, List.filter_append, List.filter_filter, List.cons_append]
    congr 3
    funext k
    simp [not_or]

/-- An order that names each link once is taken as it stands (log 10). -/
theorem linksAround_of_wf {o : BoundaryOrder} (h : o.wf = true) :
    linksBefore o = o.before ∧ linksAfter o = o.after := by
  have hcount : ∀ n, (o.before ++ o.after).count n = 1 := by
    simp only [BoundaryOrder.wf, List.all_cons, List.all_nil, Bool.and_true, Bool.and_eq_true, decide_eq_true_eq] at h
    obtain ⟨h0, h1, h2, h3⟩ := h
    intro n
    cases n <;> assumption
  have hnodup : (o.before ++ o.after).Nodup := List.nodup_iff_count.mpr fun n => Nat.le_of_eq (hcount n)
  have hmem : ∀ n, n ∈ o.before ++ o.after := fun n => List.count_pos_iff.mp (by rw [hcount n]; decide)
  obtain ⟨hbefore, hafter, hapart⟩ := List.nodup_append.mp hnodup
  have hfirst : linksBefore o = o.before := dedupLinks_of_nodup hbefore
  refine ⟨hfirst, ?_⟩
  unfold linksAfter
  rw [hfirst, dedupLinks_append, dedupLinks_of_nodup hafter, List.filter_append, List.filter_filter,
    List.filter_eq_self.mpr, List.filter_eq_nil_iff.mpr, List.append_nil]
  · intro n _ hrest
    simp only [Bool.and_eq_true, Bool.not_eq_true', List.contains_eq_mem, decide_eq_false_iff_not,
      decide_eq_true_eq] at hrest
    exact (List.mem_append.mp (hmem n)).elim hrest.1 hrest.2
  · intro n hn
    simp only [Bool.not_eq_true', List.contains_eq_mem, decide_eq_false_iff_not]
    exact fun hb => hapart n hb n hn rfl

/-! ### The rows -/

/-- SILENCE_LIMIT is BOUNDARY where the limit of its link is reached (R130). -/
theorem exec_silenceLimit {s : State} {n : Link} (f : FrameInput) (hrunning : s.resetAsserted = false)
    (hlimit : LimitReached s n) : exec (.silenceLimit n f) s = exec (.boundary f) s := by
  refine (State.next_released _ hrunning).trans (Eq.trans ?_ (State.next_released _ hrunning).symm)
  rw [if_pos ((s.silenceDue_iff n).mpr hlimit)]

/-- SILENCE_LIMIT does nothing where the limit of its link is not reached (log 3). -/
theorem exec_silenceLimit_unreached {s : State} {n : Link} (f : FrameInput) (hrunning : s.resetAsserted = false)
    (hlimit : ¬LimitReached s n) : exec (.silenceLimit n f) s = .next s := by
  refine (State.next_released _ hrunning).trans ?_
  rw [if_neg fun hdue => hlimit ((s.silenceDue_iff n).mp hdue)]

/-- BOUNDARY after frame 15 takes the boundary of the part's own timing (R170, R175). -/
theorem exec_boundary {s : State} (f : FrameInput) (h : OwnFrameDue s) (hframe : 15 ≤ s.timing.frame) :
    exec (.boundary f) s = .next (s.ownFrame (.boundary false) f) :=
  (State.next_released _ h.1).trans (congrArg _ (State.frameDue_own f h (if_pos hframe)))

/-- The counts of the Timing Unit after a boundary (R175). -/
theorem FrameStarts.boundary_timing {stepped : Bool} {now : Nat} {f : FrameInput} {s t : State}
    (h : FrameStarts (.boundary stepped) now f s t) :
    t.timing = { s.timing with frame := 0, cycle := s.timing.cycle + 1, time := now, frameStart := now } := by
  obtain ⟨-, switch, u, htaken, hstate⟩ := h
  obtain ⟨-, -, -, -, -, -, htiming⟩ := htaken.same
  rw [hstate]
  exact htiming

/-- Settles O24: the link leaves UP at its turn in the boundary, and the other parts of the boundary pass over it. -/
theorem silenceTakesLinkDown : Obligations.SilenceTakesLinkDown := by
  refine ⟨fun s n f hrunning => ⟨exec_silenceLimit f hrunning, exec_silenceLimit_unreached f hrunning⟩, fun o => ?_,
    fun s t n stepped now f _ hstarts hlimit => hstarts.silenced hlimit, fun s n f hdue hcanon hframe hlimit => ?_⟩
  · obtain ⟨hbefore, hafter, hmem⟩ := linksAround o
    refine ⟨List.nodup_append.mpr ⟨hbefore, hafter, fun a ha b hb hab => (hmem b).mp hb (hab ▸ ha)⟩, fun n => ?_,
      linksAround_of_wf⟩
    rw [List.mem_append, hmem n]
    exact Classical.em _
  · have hstarts := State.startFrame_boundary (s.withTiming { s.timing with ownStart := s.timing.ownFrameTime }) false
      s.timing.ownFrameTime f hcanon
    have hboundary := exec_boundary f hdue hframe
    exact ⟨_, (exec_silenceLimit f hdue.1 hlimit).trans hboundary, hboundary, hstarts.silenced hlimit,
      hstarts.boundary_timing⟩

end Sys2Proof.Machine
end

section
/-! SUPPORT. The request links family: the bytes on the trunks in a frame (R164 to R166) and the output pins FSO, TCK,
LnOCK, LnODT and LnODL (R121, R176). -/

namespace Sys2Proof.Machine

/-! ### The bytes on the trunks -/

/-- The frame start after a frame other than 7 and 15 of a cycle is an ordinary one (R175). -/
theorem TimingUnit.dueKind_ordinary {u : TimingUnit} (hlast : u.frame < 15) (htick : u.frame ≠ 7) :
    u.dueKind = .ordinary := by
  rw [TimingUnit.dueKind, if_neg (Nat.not_le.mpr hlast), if_neg htick]

/-- FRAME_START in such a frame makes the frame start of the part's own timing (R170, R175). -/
theorem exec_frameStart {s : State} (received : TrunkBytes) (h : OwnFrameDue s) (hlast : s.timing.frame < 15)
    (htick : s.timing.frame ≠ 7) :
    exec (.frameStart received) s =
      .next (s.ownFrame .ordinary { received := received, order := unusedOrder }) :=
  (State.next_released _ h.1).trans (congrArg _ (State.frameDue_own _ h (TimingUnit.dueKind_ordinary hlast htick)))

/-- A source slot of the eight trunks is reached in a whole frame (R164). -/
theorem slotReached_whole {trunk slot : Nat} (htrunk : trunk ≤ 7) (hslot : slot ≤ 63) :
    slotReached 64 (64 * trunk + slot) = true := by
  simp only [slotReached, Bool.and_eq_true, decide_eq_true_eq]
  simp only [Config.positions, Config.slots]
  omega

/-- The key of an output slot, as the statements write it. -/
theorem slotKey_eq (trunk slot : Nat) : slotKey trunk slot = 64 * trunk + slot := by
  rw [slotKey, Config.slots, Nat.mul_comm]

/-- An IDLE entry drives the idle byte of the trunk (R165, R166). -/
theorem SwitchCore.drives_idle {c : SwitchCore} {trunk slot : Nat}
    (h : Sparse.read Entry.idle c.selection.entries (64 * trunk + slot) = .idle) :
    c.drives trunk slot = c.selection.idle.byte trunk := by
  rw [SwitchCore.drives, slotKey_eq, h]

/-- A FILL entry drives its fill byte (R165). -/
theorem SwitchCore.drives_fill {c : SwitchCore} {trunk slot id : Nat} {byte : Byte}
    (h : Sparse.read Entry.idle c.selection.entries (64 * trunk + slot) = .fill id byte) :
    c.drives trunk slot = byte := by
  rw [SwitchCore.drives, slotKey_eq, h]

/-- A PASS entry drives the byte of its source slot in the read half (R164, R165). -/
theorem SwitchCore.drives_pass {c : SwitchCore} {trunk slot id srcTrunk srcSlot : Nat}
    (h : Sparse.read Entry.idle c.selection.entries (64 * trunk + slot) = .pass id srcTrunk srcSlot) :
    c.drives trunk slot = Memory.read c.readHalf (64 * srcTrunk + srcSlot) := by
  rw [SwitchCore.drives, slotKey_eq, h, ← slotKey_eq]

/-- The bytes on the trunks after a frame start, by the entries of the live bank that it selects (R164 to R166). -/
theorem FrameSwitched.trunkOutput {received : TrunkBytes} {live : Bank} {s t : State}
    (h : FrameSwitched received 64 live s t) (hrunning : t.resetAsserted = false) (trunk slot : Nat) :
    (Sparse.read Entry.idle live (64 * trunk + slot) = .idle →
      t.trunkOutput trunk slot = some (s.idle.byte trunk)) ∧
    (∀ id byte, Sparse.read Entry.idle live (64 * trunk + slot) = .fill id byte →
      t.trunkOutput trunk slot = some byte) ∧
    ∀ id srcTrunk srcSlot, srcTrunk ≤ 7 → srcSlot ≤ 63 →
      Sparse.read Entry.idle live (64 * trunk + slot) = .pass id srcTrunk srcSlot →
      t.trunkOutput trunk slot = some (Sparse.read 0xFF received (64 * srcTrunk + srcSlot)) := by
  obtain ⟨-, -, hbytes, hselection⟩ := h
  have hentries : t.switch.selection.entries = live := by rw [hselection]
  have hdriven : t.trunkOutput trunk slot = some (t.switch.drives trunk slot) := if_neg (by simp [hrunning])
  rw [hdriven, ← hentries]
  refine ⟨fun hentry => ?_, fun id byte hentry => ?_, fun id srcTrunk srcSlot htrunk hslot hentry => ?_⟩
  · rw [SwitchCore.drives_idle hentry, hselection]
  · rw [SwitchCore.drives_fill hentry]
  · rw [SwitchCore.drives_pass hentry, hbytes, if_pos (slotReached_whole htrunk hslot)]

/-! ### FSO and TCK -/

/-- FSO, by the time in the frame (R176). -/
theorem State.fso_iff (s : State) : s.fso = true ↔
    s.resetAsserted = false ∧ (s.timing.time - s.timing.frameStart) * 512 < 125000 := by
  simp only [State.fso, Bool.and_eq_true, Bool.not_eq_true', decide_eq_true_eq]
  rfl

/-- TCK runs while RESETn is released (R176). -/
theorem State.tckRuns_iff (s : State) : s.tckRuns = true ↔ s.resetAsserted = false := by
  simp [State.tckRuns]

/-- A frame start leaves RESETn released and makes its own time the time of the frame start (R175). -/
theorem FrameStarts.starts {kind : FrameKind} {now : Nat} {f : FrameInput} {s t : State}
    (h : FrameStarts kind now f s t) :
    t.resetAsserted = s.resetAsserted ∧ t.timing.time = now ∧ t.timing.frameStart = now := by
  cases kind with
  | ordinary =>
    obtain ⟨-, hstate⟩ := h
    rw [hstate]
    exact ⟨rfl, rfl, rfl⟩
  | leaseTick =>
    obtain ⟨-, -, htiming, -, hreset, -⟩ := h
    rw [htiming]
    exact ⟨hreset, rfl, rfl⟩
  | boundary stepped =>
    have htiming := h.boundary_timing
    obtain ⟨-, switch, u, htaken, hstate⟩ := h
    obtain ⟨-, hreset, -⟩ := htaken.same
    rw [htiming]
    refine ⟨?_, rfl, rfl⟩
    rw [hstate]
    exact hreset

/-- FSO is asserted and TCK runs at every frame start (R176). -/
theorem FrameStarts.pins {kind : FrameKind} {now : Nat} {f : FrameInput} {s t : State}
    (h : FrameStarts kind now f s t) (hrunning : s.resetAsserted = false) : t.fso = true ∧ t.tckRuns = true := by
  obtain ⟨hreset, htime, hstart⟩ := h.starts
  have hreleased : t.resetAsserted = false := hreset.trans hrunning
  refine ⟨t.fso_iff.mpr ⟨hreleased, ?_⟩, t.tckRuns_iff.mpr hreleased⟩
  rw [htime, hstart, Nat.sub_self]
  decide

/-- RESETn and the times that FSO and TCK read are as they were (R176). -/
def SameTimes (s t : State) : Prop :=
  t.resetAsserted = s.resetAsserted ∧ t.timing.time = s.timing.time ∧ t.timing.frameStart = s.timing.frameStart

/-- The pins FSO and TCK read RESETn and the times of the Timing Unit, and nothing else (R176). -/
theorem SameTimes.pins {s t : State} (h : SameTimes s t) : t.fso = s.fso ∧ t.tckRuns = s.tckRuns := by
  obtain ⟨hreset, htime, hstart⟩ := h
  unfold State.fso State.tckRuns
  rw [hreset, htime, hstart]
  exact ⟨rfl, rfl⟩

/-- What each of two branches leaves as it was, a choice between them does. -/
theorem SameTimes.ite {P : Prop} [Decidable P] {s t u : State} (ht : SameTimes s t) (hu : SameTimes s u) :
    SameTimes s (if P then t else u) := by
  by_cases h : P
  · rwa [if_pos h]
  · rwa [if_neg h]

/-- A change of the records leaves RESETn and the times. -/
theorem SameOutsideRecords.times {s t : State} (h : SameOutsideRecords s t) : SameTimes s t := by
  obtain ⟨-, hreset, -, -, -, -, htiming⟩ := h
  exact ⟨hreset, by rw [htiming], by rw [htiming]⟩

/-- Freeing a list of records touches nothing outside the records. -/
theorem State.freeAll_same (ids : List Nat) : ∀ s : State, SameOutsideRecords s (s.freeAll ids) := by
  induction ids with
  | nil => exact SameOutsideRecords.refl
  | cons id rest ih => exact fun s => (s.freeRecord_confined id).outside.trans (ih _)

/-- The clearing of the supervisor-reports enable leaves RESETn and the times (R20). -/
theorem State.clearReports_times (s : State) : SameTimes s s.clearReports :=
  (State.freeAll_same _ (s.withSupQueue [])).times

/-- A change of the reference selection leaves RESETn and the times (R174). -/
theorem State.actOnSelection_times {s t : State} (old : Control) (h : SameTimes s t) :
    SameTimes s (t.actOnSelection old) := by
  unfold State.actOnSelection
  split
  · exact h
  · exact SameTimes.ite (t := t.lockTo t.control.primary) h h

/-- A write to CONTROL, a soft reset included, leaves RESETn and the times (R163). -/
theorem State.writeControl_times (s : State) (w : Word) : SameTimes s (s.writeControl w) := by
  have hstored : SameTimes s (s.withControl (controlOf w)) := ⟨rfl, rfl, rfl⟩
  have hcleared : SameTimes s (s.withControl (controlOf w)).clearReports :=
    (s.withControl (controlOf w)).clearReports_times
  have hreset : ∀ u : State, SameTimes s u → SameTimes s u.softReset := fun _ h => h
  have hmoved := State.actOnSelection_times s.control (SameTimes.ite
    (P := s.control.reports = true ∧ (s.withControl (controlOf w)).control.reports = false) hcleared hstored)
  exact SameTimes.ite (hreset _ hmoved) hmoved

/-! ### The pins of a link -/

/-- The completion of a transmission on a DISABLED link stops its LnOCK and LnODL (R121). -/
theorem State.transmissionComplete_disabled {s : State} {n : Link} (h : (s.link n).state = .disabled) :
    (s.transmissionComplete n).lnockRuns n = false ∧ (s.transmissionComplete n).lnodl n = false := by
  have hafter : ((s.transmissionComplete n).link n).state = .disabled ∧
      ((s.transmissionComplete n).link n).line = none := by
    cases hline : (s.link n).line with
    | none =>
      rw [State.transmissionComplete, hline]
      exact ⟨h, hline⟩
    | some m =>
      rw [State.transmissionComplete_sent hline, State.withLink_link_same]
      exact ⟨h, rfl⟩
  unfold State.lnockRuns State.lnodl
  rw [hafter.1, hafter.2]
  exact ⟨Bool.and_false _, rfl⟩

/-- LnOCK is driven outside DISABLED, and in DISABLED while a message is on the line (R121). -/
theorem State.lnockRuns_iff (s : State) (n : Link) : s.lnockRuns n = true ↔
    s.resetAsserted = false ∧ ((s.link n).state ≠ .disabled ∨ (s.link n).line ≠ none) := by
  simp [State.lnockRuns, Option.isSome_iff_ne_none]

/-- LnODL is asserted while a message is on the line (R121). -/
theorem State.lnodl_iff (s : State) (n : Link) : s.lnodl n = true ↔ (s.link n).line ≠ none :=
  Option.isSome_iff_ne_none

/-- The bits of LnODT are those of the message being sent, and are read back as its words (R121). -/
theorem State.lnodt_readBack {s : State} {n : Link} {m : Sending} (h : (s.link n).line = some m) {bits : List Bool}
    (hbits : ∀ i, s.lnodt n i = bits[i]?) :
    messageOfBits bits = { words := m.words, partialBits := [], spansDiscard := false } := by
  have hsent : bits = m.bits := List.ext_getElem? fun i => by rw [← hbits i, State.lnodt, h]; rfl
  rw [hsent, messageOfBits_sent]

/-- Settles O47: the trunks by the selection of the frame start, and each pin by what it reads. -/
theorem trunksCarryTheFrameBefore : Obligations.TrunksCarryTheFrameBefore := by
  refine ⟨fun s f trunk slot hdue hcanon hlast htick => ?_, fun s t kind now f hrunning hstarts =>
    hstarts.pins hrunning, fun s w => ?_, fun s n hrunning hdisabled => ?_, fun s => ⟨s.fso_iff, s.tckRuns_iff,
    fun n => ⟨s.lnockRuns_iff n, s.lnodl_iff n, State.lnodt_idle, fun m hm =>
      ⟨State.lnodt_sending hm, fun bits => State.lnodt_readBack hm⟩⟩⟩⟩
  · have hstarts := State.startFrame_starts (s.withTiming { s.timing with ownStart := s.timing.ownFrameTime }) .ordinary
      s.timing.ownFrameTime { received := f.received, order := unusedOrder } hcanon
    have hreset : (s.ownFrame .ordinary { received := f.received, order := unusedOrder }).resetAsserted = false :=
      hstarts.starts.1.trans hdue.1
    exact ⟨_, exec_frameStart f.received hdue hlast htick, (hstarts.pins hdue.1).1,
      hstarts.1.trunkOutput hreset trunk slot⟩
  · refine ⟨_, rfl, ?_⟩
    unfold State.whileRunning
    split
    · exact ⟨rfl, rfl⟩
    · exact (s.writeControl_times (w ||| 0x8000)).pins
  · exact ⟨_, State.next_released (State.transmissionComplete n) hrunning,
      State.transmissionComplete_disabled hdisabled⟩

end Sys2Proof.Machine
end

section
/-! SUPPORT. The supervisor port family: the rows that are register writes (12.7, R147; log 19), and the soft reset
(R146, R163). -/

namespace Sys2Proof.Machine

/-! ### The words at their addresses -/

/-- A register write is the operation of the word at its address, while RESETn is released (R147). -/
theorem exec_registerWrite (a : BitVec 7) (w : Word) (s : State) :
    exec (.registerWrite a w) s = .next (s.whileRunning (State.writeWord a w)) := rfl

/-- The first word of LINKCFGn stands at 08H + 2n (12.7). -/
theorem registerAt_linkConfig (n : Link) :
    registerAt (BitVec.ofNat 7 (0x08 + 2 * linkNumber n)) = some (.linkConfig n) := by
  cases n <;> rfl

/-- Position p of the command window stands at 20H + p (12.7). -/
theorem registerAt_command {p : Nat} (h : p ≤ 20) : registerAt (BitVec.ofNat 7 (0x20 + p)) = some (.command p) := by
  have hall : ∀ q : Fin 21, registerAt (BitVec.ofNat 7 (0x20 + q.val)) = some (.command q.val) := by decide
  exact hall ⟨p, Nat.lt_succ_of_le h⟩

/-- A write at 08H + 2n is a write to the first word of LINKCFGn. -/
theorem State.writeWord_linkConfig (n : Link) (w : Word) :
    State.writeWord (BitVec.ofNat 7 (0x08 + 2 * linkNumber n)) w = State.writeLinkConfig n w := by
  funext s
  rw [State.writeWord, registerAt_linkConfig]

/-- A write at 20H + p is a write to position p of the command window. -/
theorem State.writeWord_command {p : Nat} (h : p ≤ 20) (w : Word) :
    State.writeWord (BitVec.ofNat 7 (0x20 + p)) w = State.writeWindow p w := by
  funext s
  rw [State.writeWord, registerAt_command h]

/-- Settles O7: a row and the write at the address of its word are one operation. The rows at a fixed address are so by
evaluation of the register map; LINKCFGn and the command window by the map's laws above. -/
theorem rowsAreRegisterWrites : Obligations.RowsAreRegisterWrites := by
  intro s w
  refine ⟨rfl, rfl, rfl, rfl, rfl, rfl, rfl, rfl, rfl, rfl, fun n => ?_, fun n => ?_, rfl, fun p _ hp => ?_⟩
  · rw [exec_registerWrite, State.writeWord_linkConfig]
    rfl
  · rw [exec_registerWrite, State.writeWord_linkConfig]
    rfl
  · rw [exec_registerWrite, State.writeWord_command hp]
    rfl

/-! ### A write to CONTROL before its soft reset field -/

/-- What a write to CONTROL does before its soft reset field: the fields are stored, and each changed field acts
(R148). -/
def State.applyControl (w : Word) (s : State) : State :=
  (if s.control.reports = true ∧ (controlOf w).reports = false then (s.withControl (controlOf w)).clearReports
    else s.withControl (controlOf w)).actOnSelection s.control

/-- A write to CONTROL makes its soft reset after everything else (R148, R163). -/
theorem State.writeControl_eq (s : State) (w : Word) :
    s.writeControl w = if w.getLsbD 15 then (s.applyControl w).softReset else s.applyControl w := rfl

/-- The soft reset field is none of the fields stored (R148). -/
theorem controlOf_softResetField (w : Word) :
    controlOf (w &&& 0x7FFF) = controlOf w ∧ controlOf (w ||| 0x8000) = controlOf w := by
  simp [controlOf, bitOf]

/-- Two words with the same fields act alike before the soft reset field. -/
theorem State.applyControl_congr {v w : Word} (h : controlOf v = controlOf w) (s : State) :
    s.applyControl v = s.applyControl w := by
  unfold State.applyControl
  rw [h]

/-- A write of CONTROL with the soft reset field 0. -/
theorem State.writeControl_withoutReset (s : State) (w : Word) : s.writeControl (w &&& 0x7FFF) = s.applyControl w := by
  rw [State.writeControl_eq, if_neg (by simp), s.applyControl_congr (controlOf_softResetField w).1]

/-- A write of CONTROL with the soft reset field 1. -/
theorem State.writeControl_withReset (s : State) (w : Word) :
    s.writeControl (w ||| 0x8000) = (s.applyControl w).softReset := by
  rw [State.writeControl_eq, if_pos (by simp), s.applyControl_congr (controlOf_softResetField w).2]

/-- What a write to CONTROL leaves of the state that a soft reset keeps: the links but for their report queues, the idle
bytes, the Switch Core, RESETn and the enables. -/
structure KeepsConfiguration (s t : State) : Prop where
  links         : ReportsAlone s t
  idle          : t.idle = s.idle
  switch        : t.switch = s.switch
  resetAsserted : t.resetAsserted = s.resetAsserted
  enables       : t.events.enables = s.events.enables

/-- One operation after another. -/
theorem KeepsConfiguration.trans {s t u : State} (h1 : KeepsConfiguration s t) (h2 : KeepsConfiguration t u) :
    KeepsConfiguration s u :=
  ⟨h1.links.trans h2.links, h2.idle.trans h1.idle, h2.switch.trans h1.switch,
    h2.resetAsserted.trans h1.resetAsserted, h2.enables.trans h1.enables⟩

/-- What each of two operations keeps, a choice between them keeps. -/
theorem KeepsConfiguration.ite {P : Prop} [Decidable P] {s t u : State} (ht : KeepsConfiguration s t)
    (hu : KeepsConfiguration s u) : KeepsConfiguration s (if P then t else u) := by
  by_cases h : P
  · rwa [if_pos h]
  · rwa [if_neg h]

/-- Freed records leave what a soft reset keeps (R21). -/
theorem State.freeAll_keepsConfiguration (ids : List Nat) : ∀ s : State, KeepsConfiguration s (s.freeAll ids) := by
  induction ids with
  | nil => exact fun s => ⟨ReportsAlone.refl s, rfl, rfl, rfl, rfl⟩
  | cons id rest ih =>
    exact fun s => KeepsConfiguration.trans ⟨s.freeRecord_reportsAlone id, rfl, rfl, rfl, rfl⟩ (ih _)

/-- A change of the reference selection touches the Timing Unit and the latches alone (R174). -/
theorem State.actOnSelection_keepsConfiguration (s : State) (old : Control) :
    KeepsConfiguration s (s.actOnSelection old) := by
  have hrefl : KeepsConfiguration s s := ⟨ReportsAlone.refl s, rfl, rfl, rfl, rfl⟩
  unfold State.actOnSelection
  split
  · exact hrefl
  · exact .ite (t := s.lockTo s.control.primary) ⟨ReportsAlone.of_links rfl, rfl, rfl, rfl, rfl⟩ hrefl

/-- The fields of a CONTROL word, stored and acting, leave what a soft reset keeps (R148). -/
theorem State.applyControl_keepsConfiguration (s : State) (w : Word) : KeepsConfiguration s (s.applyControl w) := by
  refine KeepsConfiguration.trans ?_ (State.actOnSelection_keepsConfiguration _ s.control)
  have hstored : KeepsConfiguration s (s.withControl (controlOf w)) := ⟨ReportsAlone.of_links rfl, rfl, rfl, rfl, rfl⟩
  have hemptied : KeepsConfiguration s ((s.withControl (controlOf w)).withSupQueue []) :=
    ⟨ReportsAlone.of_links rfl, rfl, rfl, rfl, rfl⟩
  exact .ite (hemptied.trans (State.freeAll_keepsConfiguration _ _)) hstored

/-! ### The soft reset -/

/-- The soft reset of each Link Controller (R146). -/
theorem State.softReset_link (s : State) (n : Link) : s.softReset.link n = (s.link n).softReset := by
  cases n <;> rfl

/-- The soft reset of a Link Controller does not read its report queue. -/
theorem LinkController.softReset_reports (c : LinkController) (reports : List Nat) :
    LinkController.softReset { c with reports := reports } = c.softReset := rfl

/-- Settles O6: the fields of the word act first and keep what the soft reset keeps; the soft reset then sets the
rest. -/
theorem softResetValues : Obligations.SoftResetValues := by
  intro s w hrunning
  obtain ⟨hlinks, hidle, hswitch, hreset, henables⟩ := s.applyControl_keepsConfiguration w
  refine ⟨s.applyControl w, (s.applyControl w).softReset, ?_, ?_, fun _ => rfl, fun _ => ⟨rfl, rfl⟩, rfl, rfl, rfl, rfl,
    fun n => ?_, rfl, rfl, rfl, fun _ => ⟨rfl, rfl⟩, rfl, congrArg (EventUnit.mk 0) henables, rfl, hidle, hswitch, rfl,
    hreset.trans hrunning⟩
  · rw [exec_registerWrite, State.next_released _ hrunning, ← s.writeControl_withoutReset w]
    rfl
  · rw [← s.writeControl_withReset w]
    exact State.next_released _ hrunning
  · rw [State.softReset_link, hlinks n, LinkController.softReset_reports]
    rfl

end Sys2Proof.Machine
end

section
/-! SUPPORT. The supervisor port family: the writes to the mailbox (R150 to R154). -/

namespace Sys2Proof.Machine

/-! ### The command window -/

/-- A position of the command window after a word is stored at one (R149). -/
theorem Mailbox.store_read {m : Mailbox} (h : Sparse.wf (0 : Word) m.command = true) (p : Nat) (w : Word) (q : Nat) :
    Sparse.read 0 (m.store p w).command q = if q = p then w else Sparse.read 0 m.command q := by
  unfold Mailbox.store
  by_cases hq : q = p
  · rw [if_pos hq, hq, Sparse.read_write_same _ _ _ _ h]
  · rw [if_neg hq, Sparse.read_write_other _ _ _ hq]

/-- The mark of a body position is the one bit added to the written-mask (R151). -/
theorem markedMask_getLsbD (mask : BitVec 20) {p : Nat} (hp : 1 ≤ p) (hmax : p ≤ 20) (i : Nat) :
    (mask ||| BitVec.ofNat 20 (2 ^ (p - 1))).getLsbD i = (mask.getLsbD i || i == p - 1) := by
  rw [BitVec.getLsbD_or, BitVec.getLsbD_ofNat, Nat.testBit_two_pow]
  congr 1
  rw [Bool.eq_iff_iff, Bool.and_eq_true, decide_eq_true_eq, decide_eq_true_eq, beq_iff_eq]
  omega

/-- The written-mask is complete when every position up to the length is marked (R151). -/
theorem allMarked_iff (mask : BitVec 20) (length : Nat) :
    allMarked mask length = true ↔ ∀ i, i < length → mask.getLsbD i = true := by
  simp only [allMarked, List.all_eq_true, List.mem_range]

/-! ### The header -/

/-- The mailbox after a header that it takes (R150): a length above 20 ends the command with BAD_ARGUMENT. -/
def Mailbox.headed (w : Word) (m : Mailbox) : Mailbox :=
  { m.store 0 w with
    declared := w.toNat % 256
    mask := 0
    state := if w.toNat % 256 = 0 then .queued else if w.toNat % 256 ≤ 20 then .filling else .done
    result := if w.toNat % 256 ≤ 20 then m.result else resultWindow w.hi .badArgument [] }

/-- The declared length is the lower byte of the header (R150, R188). -/
theorem Word.lo_toNat (w : Word) : w.lo.toNat = w.toNat % 256 := BitVec.toNat_ofNat w.toNat 8

/-- A header in IDLE or FILLING is taken (R150). -/
theorem State.writeHeader_taken {s : State} (h : s.mailbox.state = .idle ∨ s.mailbox.state = .filling) (w : Word) :
    s.writeHeader w =
      if 20 < w.toNat % 256 then (s.withMailbox (s.mailbox.headed w)).raise .mboxDone
      else s.withMailbox (s.mailbox.headed w) := by
  have htaken : s.writeHeader w =
      let m := { s.mailbox.store 0 w with declared := w.toNat % 256, mask := 0 }
      if w.toNat % 256 = 0 then s.withMailbox { m with state := .queued }
      else if w.toNat % 256 ≤ 20 then s.withMailbox { m with state := .filling }
      else (s.withMailbox { m with state := .done, result := resultWindow w.hi .badArgument [] }).raise .mboxDone := by
    rw [← Word.lo_toNat]
    obtain h | h := h <;> (rw [State.writeHeader, h]; rfl)
  rw [htaken]
  unfold Mailbox.headed
  by_cases hzero : w.toNat % 256 = 0
  · simp [hzero, Mailbox.store]
  · by_cases hshort : w.toNat % 256 ≤ 20
    · simp [hzero, hshort, Nat.not_lt.mpr hshort, Mailbox.store]
    · simp [hzero, hshort, Nat.not_le.mp hshort]

/-- A header in QUEUED or DONE is refused (R152). -/
theorem State.writeHeader_refused {s : State} (h : s.mailbox.state = .queued ∨ s.mailbox.state = .done) (w : Word) :
    s.writeHeader w = s.raise .mboxRefused := by
  obtain h | h := h <;> (rw [State.writeHeader, h]; rfl)

/-- A header with a length above 20 leaves BAD_ARGUMENT in the result window (R150, R153). -/
theorem Mailbox.headed_result_read {w : Word} (h : 20 < w.toNat % 256) (m : Mailbox) (p : Nat) :
    Sparse.read 0 (m.headed w).result p = if p = 0 then Word.ofBytes w.hi 0x02 else 0 := by
  have hresult : (m.headed w).result = resultWindow w.hi .badArgument [] := if_neg (Nat.not_le.mpr h)
  rw [hresult, resultWindow_read]
  by_cases hp : p = 0
  · rw [if_pos hp, if_pos hp]
    rfl
  · rw [if_neg hp, if_neg hp, if_neg (by simpa using hp)]

/-! ### The body -/

/-- The mailbox after a body word that it takes (R151). -/
def Mailbox.filled (p : Nat) (w : Word) (m : Mailbox) : Mailbox :=
  { m.store p w with
    mask := m.mask ||| BitVec.ofNat 20 (2 ^ (p - 1))
    state := if allMarked (m.mask ||| BitVec.ofNat 20 (2 ^ (p - 1))) m.declared then .queued else .filling }

/-- MAILBOX_BODY_WRITE writes a body position, while RESETn is released. -/
theorem exec_mailboxBodyWrite {s : State} (h : s.resetAsserted = false) {p : Nat} (hp : 1 ≤ p) (hmax : p ≤ 20)
    (w : Word) : exec (.mailboxBodyWrite p w) s = .next (s.writeBody p w) := by
  have hbody : s.writeWindow p w = s.writeBody p w := by
    rw [State.writeWindow, if_neg (Nat.ne_of_gt hp), if_pos (show p ≤ Config.maxBody from hmax)]
  rw [← hbody]
  exact State.next_released _ h

/-- A body position up to the declared length in FILLING is taken (R151). -/
theorem State.writeBody_taken {s : State} (h : s.mailbox.state = .filling) {p : Nat} (hp : p ≤ s.mailbox.declared)
    (w : Word) : s.writeBody p w = s.withMailbox (s.mailbox.filled p w) := by
  rw [State.writeBody, h]
  exact if_pos hp

/-- Every other body write is refused (R152). -/
theorem State.writeBody_refused {s : State} {p : Nat} (h : s.mailbox.state ≠ .filling ∨ s.mailbox.declared < p)
    (w : Word) : s.writeBody p w = s.raise .mboxRefused := by
  unfold State.writeBody
  split
  · rename_i hfilling
    exact if_neg (Nat.not_le.mpr (h.resolve_left (not_not_intro hfilling)))
  · rfl
  · rfl
  · rfl

/-! ### The writes -/

/-- Settles O15: MBOXCTL by its two fields, the header by the mailbox state, and a body position by the mailbox state
and the declared length. -/
theorem mailboxWrites : Obligations.MailboxWrites := by
  refine ⟨fun s hrunning => ⟨?_, fun withAck => ?_⟩, fun s w hrunning hcanon => ?_⟩
  · refine (State.next_released _ hrunning).trans (congrArg _ ?_)
    simp [State.writeMailboxControl]
  · refine (State.next_released _ hrunning).trans (congrArg _ ?_)
    exact if_pos (.inl rfl)
  have hcommand : Sparse.wf (0 : Word) s.mailbox.command = true := by
    obtain ⟨-, -, -, -, -, -, hcommand, -⟩ := hcanon
    exact hcommand
  have hheader : exec (.mailboxHeaderWrite w) s = .next (s.writeHeader w) := State.next_released _ hrunning
  refine ⟨fun hstate => ?_, fun hstate => ?_, fun p hp hmax => ⟨fun hstate hlength => ?_, fun hrefused => ?_⟩⟩
  · exact ⟨s.mailbox.headed w, by rw [hheader, State.writeHeader_taken hstate], rfl, rfl, rfl,
      s.mailbox.store_read hcommand 0 w, fun hshort => if_pos hshort, fun hlong => Mailbox.headed_result_read hlong _⟩
  · rw [hheader, State.writeHeader_refused hstate]
  · refine ⟨s.mailbox.filled p w, by rw [exec_mailboxBodyWrite hrunning hp hmax, State.writeBody_taken hstate hlength],
      rfl, rfl, markedMask_getLsbD _ hp hmax, Mailbox.store_read hcommand p w, fun hall => ?_, fun hnot => ?_⟩
    · exact if_pos ((allMarked_iff _ _).mpr hall)
    · exact if_neg (mt (allMarked_iff _ _).mp hnot)
  · rw [exec_mailboxBodyWrite hrunning hp hmax, State.writeBody_refused hrefused]

end Sys2Proof.Machine
end

section
/-! SUPPORT. The supervisor port family: the reading commands (R155 to R158). -/

namespace Sys2Proof.Machine

/-! ### The free map -/

/-- A word made of bits in reverse order has them from its lowest bit up. -/
theorem bitsWord_reverse_getLsbD (bits : List Bool) :
    ∀ i, i < 16 → (bitsWord bits.reverse).getLsbD i = bits.getD i false := by
  induction bits with
  | nil => exact fun i _ => BitVec.getLsbD_zero
  | cons b bits ih =>
    intro i hi
    have hpush : bitsWord (b :: bits).reverse = bitsWord bits.reverse <<< 1 ||| BitVec.ofNat 16 (bitNat b) := by
      rw [bitsWord, List.reverse_cons, List.foldl_append]
      rfl
    rw [hpush, bitsWord_push _ _ _ hi]
    cases i with
    | zero => rfl
    | succ i => exact ih i (Nat.lt_of_succ_lt hi)

/-- A word made of sixteen bits has them, most significant first. -/
theorem bitsWord_getMsbD {bits : List Bool} (h : bits.length = 16) {i : Nat} (hi : i < 16) :
    (bitsWord bits).getMsbD i = bits.getD i false := by
  have hlowest := bitsWord_reverse_getLsbD bits.reverse (15 - i) (by omega)
  rw [List.reverse_reverse] at hlowest
  rw [BitVec.getMsbD, decide_eq_true hi, Bool.true_and, show 16 - 1 - i = 15 - i from rfl, hlowest,
    List.getD_eq_getElem?_getD, List.getD_eq_getElem?_getD, List.getElem?_reverse (by omega), h,
    show 16 - 1 - (15 - i) = i by omega]

/-- The free map marks the slots of its free set, slot 0 in bit 15 of its first word (R158). -/
theorem freeMap_marks (free : List Nat) {slot : Nat} (h : slot < 64) :
    ((freeMap free).getD (slot / 16) 0).getMsbD (slot % 16) = true ↔ slot ∈ free := by
  have hword : (freeMap free).getD (slot / 16) 0 =
      bitsWord ((List.range 16).map fun j => free.contains (16 * (slot / 16) + j)) := by
    rw [freeMap, List.getD_eq_getElem?_getD, List.getElem?_map, List.getElem?_range (by omega)]
    rfl
  have hbit : slot % 16 < 16 := Nat.mod_lt _ (by decide)
  rw [hword, bitsWord_getMsbD (by simp) hbit, List.getD_eq_getElem?_getD, List.getElem?_map,
    List.getElem?_range hbit]
  simp [Nat.div_add_mod]

/-! ### The decisions -/

/-- The two bytes of a body of one word. -/
theorem body_bytes {a b : Nat} (ha : a < 256) (hb : b < 256) :
    bodyHi [BitVec.ofNat 16 (a * 256 + b)] 1 = a ∧ bodyLo [BitVec.ofNat 16 (a * 256 + b)] 1 = b :=
  ⟨Word.hi_ofNat ha hb, Word.lo_ofNat a hb⟩

/-- The check of a body of one word is the check of that word's fields (R155). -/
theorem oneWord_check (w : Word) (outside : Prop) : ([w].length ≠ 1 ∨ outside) = outside :=
  propext ⟨fun h => h.resolve_left fun hlength => hlength rfl, .inr⟩

/-- The list that a READ_CIRCUIT names; a FREE record has none (R156). -/
def State.namedPairs (s : State) (id list : Nat) : List Pair :=
  match s.circuit id with
  | none => []
  | some c => c.listOf list

/-- The decision on a READ_CIRCUIT, by the bytes of its body (R155, R156). -/
theorem decideReadCircuit_eq (s : State) {a b : Nat} (ha : a < 256) (hb : b < 256) :
    decideReadCircuit .supervisor [BitVec.ofNat 16 (a * 256 + b)] s =
      if 1 < b then refuse .badArgument s
      else answer (s.summary a ++ BitVec.ofNat 16 (s.namedPairs a b).length :: (s.namedPairs a b).map pairWord) s := by
  obtain ⟨hhi, hlo⟩ := body_bytes ha hb
  have hcount : Word.field (s.namedPairs a b).length 0 = BitVec.ofNat 16 (s.namedPairs a b).length :=
    congrArg (BitVec.ofNat 16) (Nat.mul_one _)
  rw [decideReadCircuit, hhi, hlo]
  refine ite_congr (oneWord_check _ _) (fun _ => rfl) fun _ => ?_
  rw [← hcount]
  rfl

/-- The decision on a READ_SLOT, by the bytes of its body (R155, R157). -/
theorem decideReadSlot_eq (s : State) {a b : Nat} (ha : a < 256) (hb : b < 256) :
    decideReadSlot .supervisor [BitVec.ofNat 16 (a * 256 + b)] s =
      if 7 < a ∨ 63 < b then refuse .badArgument s
      else answer ((if s.maps.live = .a then 0 else 1) ::
        (Entry.words (Sparse.read .idle s.maps.bankA (64 * a + b)) ++
          Entry.words (Sparse.read .idle s.maps.bankB (64 * a + b)))) s := by
  obtain ⟨hhi, hlo⟩ := body_bytes ha hb
  have hkey : slotKey a b = 64 * a + b := congrArg (· + b) (Nat.mul_comm a 64)
  have hlive : Word.field s.maps.live.code 0 = if s.maps.live = .a then 0 else 1 := by
    cases s.maps.live <;> rfl
  rw [decideReadSlot, hhi, hlo, hkey, hlive]
  exact ite_congr (oneWord_check _ _) (fun _ => rfl) fun _ => rfl

/-- The decision on a READ_FREE, by the bytes of its body (R155, R158). -/
theorem decideReadFree_eq (s : State) {a b : Nat} (ha : a < 256) (hb : b < 256) :
    decideReadFree .supervisor [BitVec.ofNat 16 (a * 256 + b)] s =
      if 7 < a ∨ 1 < b then refuse .badArgument s
      else answer (freeMap (if b = 0 then s.freeInputs a else s.freeOutputs a)) s := by
  obtain ⟨hhi, hlo⟩ := body_bytes ha hb
  rw [decideReadFree, hhi, hlo]
  exact ite_congr (oneWord_check _ _) (fun _ => rfl) fun _ => rfl

/-- Settles O39: each decision is a refusal or an answer, and both leave the state. -/
theorem supervisorReads : Obligations.SupervisorReads := by
  intro s a b ha hb word answered
  refine ⟨fun htakes => ?_, fun htakes => ?_, fun htakes => ?_⟩
  · have hdecision := decideReadCircuit_eq s ha hb
    refine ⟨fun hout => exec_decided htakes (hdecision.trans (if_pos hout)), fun hin => ?_⟩
    have hanswer := exec_decided htakes (hdecision.trans (if_neg (Nat.not_lt.mpr hin)))
    refine ⟨fun hfree => ?_, fun c hc => ?_⟩
    · rw [State.namedPairs, hfree] at hanswer
      exact hanswer
    · rw [State.namedPairs, hc] at hanswer
      exact hanswer
  · have hdecision := decideReadSlot_eq s ha hb
    refine ⟨fun hout => exec_decided htakes (hdecision.trans (if_pos hout)), fun htrunk hslot => ?_⟩
    have hin : ¬(7 < a ∨ 63 < b) := not_or.mpr ⟨Nat.not_lt.mpr htrunk, Nat.not_lt.mpr hslot⟩
    exact (exec_decided htakes (hdecision.trans (if_neg hin)) :)
  · have hdecision := decideReadFree_eq s ha hb
    refine ⟨fun hout => exec_decided htakes (hdecision.trans (if_pos hout)), fun htrunk hside => ?_⟩
    have hin : ¬(7 < a ∨ 1 < b) := not_or.mpr ⟨Nat.not_lt.mpr htrunk, Nat.not_lt.mpr hside⟩
    have hanswer := exec_decided htakes (hdecision.trans (if_neg hin))
    exact ⟨_, hanswer, rfl, fun slot => freeMap_marks _⟩

end Sys2Proof.Machine
end

section
/-! SUPPORT. The switching and frame timing family: the idle queue, the part held in reset (logs 1 and 5), and the
release of RESETn with the register window after it (R177, 12.7). -/

namespace Sys2Proof.Machine

/-! ### The empty queue and RESETn asserted -/

/-- A command of one operation leaves the part as it is while RESETn is asserted (log 5). -/
theorem State.next_held {s : State} (f : State → State) (h : s.resetAsserted = true) :
    (Host.Outcome.next (s.whileRunning f) : Host.Outcome State Fault Refusal) = .next s :=
  congrArg Host.Outcome.next (if_pos h)

/-- On an empty queue a step leaves the part as it is (log 1). -/
theorem step_idle {s : State} (h : s.pending = []) : step s = .next s := by
  rw [step, h]

/-- Settles O2: every command but the two of RESETn is one operation that acts while RESETn is released. -/
theorem idleQueueAndHeldReset : Obligations.IdleQueueAndHeldReset := by
  refine ⟨fun s => step_idle, fun c s hheld hpower hrelease => ?_⟩
  cases c with
  | powerOnReset => exact absurd rfl hpower
  | resetnRelease => exact absurd rfl hrelease
  | _ => exact State.next_held _ hheld

/-! ### The register window after reset -/

/-- The reset value of each word of the register window (12.7). -/
def Register.resetValue : Register → Word
  | .linkConfig _ => 0x4001
  | .linkLimit _ => 0x0020
  | .linkStatus _ => 0x0001
  | .idle01 | .idle23 | .idle45 | .idle67 => 0xFFFF
  | .control | .status | .cycle | .inUse | .events | .enables | .mboxCtl | .linkOwned _ | .command _ | .result _ => 0

/-- After reset every word of the register window reads as its reset value. -/
theorem State.reset_readRegister (r : Register) : State.reset.readRegister r = r.resetValue := by
  cases r with
  | linkConfig n | linkLimit n | linkStatus n | linkOwned n => cases n <;> rfl
  | control | status | cycle | inUse | events | enables | mboxCtl => rfl
  | idle01 | idle23 | idle45 | idle67 | command | result => rfl

/-- A read gives the word at the address, and 0000H where there is none (R147). -/
theorem State.readWord_eq (s : State) (a : BitVec 7) : s.readWord a = (registerAt a).elim 0 s.readRegister := by
  unfold State.readWord
  cases registerAt a <;> rfl

/-- The addresses of the words whose reset value is not 0000H (12.7). -/
theorem registerAt_resetValue : ∀ a : BitVec 7, (registerAt a).elim 0 Register.resetValue =
    if a = 0x08 ∨ a = 0x0A ∨ a = 0x0C ∨ a = 0x0E then 0x4001
    else if a = 0x09 ∨ a = 0x0B ∨ a = 0x0D ∨ a = 0x0F then 0x0020
    else if a = 0x10 ∨ a = 0x12 ∨ a = 0x14 ∨ a = 0x16 then 0x0001
    else if a = 0x18 ∨ a = 0x19 ∨ a = 0x1A ∨ a = 0x1B then 0xFFFF
    else 0 := by decide

/-- Settles O5: a release with RESETn asserted fixes the selection and nothing else; after a power-on reset that gives
the state of State.reset, which is read word by word. -/
theorem resetReleaseStartsFrameZero : Obligations.ResetReleaseStartsFrameZero := by
  refine ⟨fun s t hpower => ?_, fun s hasserted => ?_, fun s hreleased => ?_, fun a => ?_⟩
  · cases hpower
    rfl
  · exact congrArg Host.Outcome.next (if_pos hasserted)
  · exact congrArg Host.Outcome.next (if_neg (Bool.eq_false_iff.mp hreleased))
  · rw [State.readWord_eq, funext State.reset_readRegister]
    exact registerAt_resetValue a

end Sys2Proof.Machine
end

section
/-! SUPPORT. The switching and frame timing family: the references and the timing states (R169 to R174), and the writes
to CONTROL that select a reference (R148, R174). -/

namespace Sys2Proof.Machine

/-! ### The fields of the Timing Unit -/

/-- There are two references: one that is not the given one is the other (R169). -/
theorem ref_ne_iff {q r : Ref} : q ≠ r ↔ q = otherRef r := by
  cases q <;> cases r <;> decide

/-- The Timing Unit after a timing event at a moment that gives a reference a state (R169). -/
def TimingUnit.atEvent (u : TimingUnit) (r : Ref) (x : RefState) (now : Nat) : TimingUnit :=
  { u.setRef r x with time := now }

@[simp] theorem TimingUnit.ref_timed (u : TimingUnit) (r : Ref) (now : Nat) :
    TimingUnit.ref { u with time := now } r = u.ref r := by
  cases r <;> rfl

/-- The moment may be noted before the state of the reference. -/
theorem TimingUnit.setRef_timed (u : TimingUnit) (r : Ref) (x : RefState) (now : Nat) :
    TimingUnit.setRef { u with time := now } r x = u.atEvent r x now := by
  cases r <;> rfl

@[simp] theorem TimingUnit.atEvent_state (u : TimingUnit) (r : Ref) (x : RefState) (now : Nat) :
    (u.atEvent r x now).state = u.state := by
  cases r <;> rfl

@[simp] theorem TimingUnit.atEvent_alignPending (u : TimingUnit) (r : Ref) (x : RefState) (now : Nat) :
    (u.atEvent r x now).alignPending = u.alignPending := by
  cases r <;> rfl

@[simp] theorem TimingUnit.atEvent_dueKind (u : TimingUnit) (r : Ref) (x : RefState) (now : Nat) :
    (u.atEvent r x now).dueKind = u.dueKind := by
  cases r <;> rfl

/-- The Timing Unit is aligned to a reference when it is locked to it with the align-pending flag clear (R173). -/
theorem TimingUnit.aligned_iff (u : TimingUnit) (r : Ref) :
    u.aligned = some r ↔ u.alignPending = false ∧ u.state.locked = some r := by
  cases h : u.alignPending <;> simp [TimingUnit.aligned, h]

/-- The pulse that a frame start already made leaves out: an aligning pulse at the moment of the last frame start of the
own timing (log 6). -/
theorem TimingUnit.replacesFrameStart_iff (u : TimingUnit) (r : Ref) (now : Nat) :
    u.replacesFrameStart r now = true ↔ u.alignPending = true ∧ u.state.locked = some r ∧ now = u.ownStart ∧
      ∃ expected, u.ref r = .good expected ∧ expected ≤ now + Config.windowReach := by
  unfold TimingUnit.replacesFrameStart
  cases href : u.ref r with
  | absent | qualifying count expected => simp
  | good expected => simp [and_assoc]

/-- With the align-pending flag clear no pulse replaces a frame start (log 6). -/
theorem TimingUnit.replacesFrameStart_clear {u : TimingUnit} (h : u.alignPending = false) (r : Ref) (now : Nat) :
    ¬u.replacesFrameStart r now = true := by
  rw [TimingUnit.replacesFrameStart_iff]
  rintro ⟨hpending, -⟩
  exact Bool.eq_false_iff.mp h hpending

/-- A pulse of a reference that is not locked replaces no frame start (log 6). -/
theorem TimingUnit.replacesFrameStart_unlocked {u : TimingUnit} {r : Ref} (h : u.state.locked ≠ some r) (now : Nat) :
    ¬u.replacesFrameStart r now = true := by
  rw [TimingUnit.replacesFrameStart_iff]
  rintro ⟨-, hlocked, -⟩
  exact h hlocked

/-- A pulse at another moment than the last frame start of the own timing replaces no frame start (log 6). -/
theorem TimingUnit.replacesFrameStart_apart {u : TimingUnit} {now : Nat} (h : now ≠ u.ownStart) (r : Ref) :
    ¬u.replacesFrameStart r now = true := by
  rw [TimingUnit.replacesFrameStart_iff]
  rintro ⟨-, -, hown, -⟩
  exact h hown

/-- An early pulse replaces no frame start (log 6). -/
theorem TimingUnit.replacesFrameStart_early {u : TimingUnit} {r : Ref} {now expected : Nat}
    (h : u.ref r = .good expected) (hearly : now + 15625 < expected) : ¬u.replacesFrameStart r now = true := by
  rw [TimingUnit.replacesFrameStart_iff]
  rintro ⟨-, -, -, e, hgood, hinside⟩
  cases h.symm.trans hgood
  exact Nat.not_lt.mpr hinside hearly

/-! ### Lock and loss -/

/-- The loss of the locked reference, as the statements name it (R172). -/
theorem State.loseLock_eq (s : State) (r : Ref) : s.loseLock r = (s.withTiming (lost r s.timing)).raise .timing := by
  unfold State.loseLock lost
  split <;> rfl

/-- A reference that is not the locked one becomes ABSENT in a timing event (R169). -/
theorem State.refAbsent_unlocked {s : State} {r : Ref} (now : Nat) (h : s.timing.state.locked ≠ some r) :
    (s.withTiming { s.timing with time := now }).refAbsent r = s.withTiming (s.timing.atEvent r .absent now) := by
  rw [← TimingUnit.setRef_timed]
  exact if_neg h

/-- The locked reference becomes ABSENT in a timing event, and is lost (R169, R172). -/
theorem State.refAbsent_locked {s : State} {r : Ref} (now : Nat) (h : s.timing.state.locked = some r) :
    (s.withTiming { s.timing with time := now }).refAbsent r =
      (s.withTiming (lost r (s.timing.atEvent r .absent now))).raise .timing := by
  rw [← TimingUnit.setRef_timed]
  exact (if_pos h).trans (State.loseLock_eq _ r)

/-- In FREE_RUN and HOLDOVER a reference that becomes GOOD is locked to (R171). -/
theorem State.becomeGood_unlocked {s : State} {r : Ref} (h : s.timing.state.locked = none) :
    s.becomeGood r = s.lockTo r := by
  rw [State.becomeGood, h]

/-- While the other reference is locked, a reference that becomes GOOD takes the lock when it is the primary and the
align-pending flag is set or revertive is 1 (R171, R174). -/
theorem State.becomeGood_other {s : State} {r : Ref} (h : s.timing.state.locked = some (otherRef r)) :
    s.becomeGood r =
      if s.control.primary = r ∧ (s.timing.alignPending = true ∨ s.control.revertive = true) then s.lockTo r
      else s := by
  rw [State.becomeGood, h]
  exact ite_congr (propext (and_iff_right (ref_ne_iff.mpr rfl))) (fun _ => rfl) fun _ => rfl

/-! ### A pulse -/

section
variable {s : State} {r : Ref} {now : Nat} (f : FrameInput)

/-- The first pulse of an ABSENT reference (R169). -/
theorem State.pulse_absent (h : s.timing.ref r = .absent) :
    s.pulse r now f = s.withTiming (s.timing.atEvent r (.qualifying 0 (now + 125000)) now) := by
  simp only [State.pulse, State.withTiming_timing, TimingUnit.ref_timed, h]
  exact congrArg s.withTiming (s.timing.setRef_timed r _ now)

/-- A pulse before the window of its reference (R169). -/
theorem State.pulse_early {expected : Nat} (h : (s.timing.ref r).expected? = some expected)
    (hearly : now + 15625 < expected) :
    s.pulse r now f = (s.withTiming { s.timing with time := now }).refAbsent r := by
  simp only [State.pulse, State.withTiming_timing, TimingUnit.ref_timed]
  cases href : s.timing.ref r with
  | absent => simp [href, RefState.expected?] at h
  | qualifying count e | good e =>
    obtain rfl : e = expected := by simpa [href, RefState.expected?] using h
    exact if_pos hearly

/-- A pulse inside the window of a QUALIFYING reference with the qualification count not yet full (R169). -/
theorem State.pulse_counts {count expected : Nat} (h : s.timing.ref r = .qualifying count expected)
    (hinside : expected ≤ now + 15625) (hcount : count < 15) :
    s.pulse r now f = s.withTiming (s.timing.atEvent r (.qualifying (count + 1) (now + 125000)) now) := by
  simp only [State.pulse, State.withTiming_timing, TimingUnit.ref_timed, h]
  exact ((if_neg (Nat.not_lt.mpr hinside)).trans (if_pos hcount)).trans
    (congrArg s.withTiming (s.timing.setRef_timed r _ now))

/-- A pulse inside the window of a QUALIFYING reference with the qualification count full makes it GOOD (R169). -/
theorem State.pulse_qualifies {expected : Nat} (h : s.timing.ref r = .qualifying 15 expected)
    (hinside : expected ≤ now + 15625) :
    s.pulse r now f = (s.withTiming (s.timing.atEvent r (.good (now + 125000)) now)).becomeGood r := by
  simp only [State.pulse, State.withTiming_timing, TimingUnit.ref_timed, h]
  exact ((if_neg (Nat.not_lt.mpr hinside)).trans (if_neg (Nat.lt_irrefl 15))).trans
    (congrArg (fun u => (s.withTiming u).becomeGood r) (s.timing.setRef_timed r _ now))

/-- A pulse inside the window of a GOOD reference sets its expected time, and is a pulse of the frame timing when the
reference is the locked one (R169). -/
theorem State.pulse_good {expected : Nat} (h : s.timing.ref r = .good expected) (hinside : expected ≤ now + 15625) :
    s.pulse r now f =
      if s.timing.state.locked = some r then
        (s.withTiming (s.timing.atEvent r (.good (now + 125000)) now)).lockedPulse now f
      else s.withTiming (s.timing.atEvent r (.good (now + 125000)) now) := by
  simp only [State.pulse, State.withTiming_timing, TimingUnit.ref_timed, h, ← TimingUnit.setRef_timed]
  exact if_neg (Nat.not_lt.mpr hinside)

/-- A pulse inside the window of the locked reference with the align-pending flag set makes a stepped boundary and
clears the flag (R171). -/
theorem State.pulse_aligning {expected : Nat} (hlocked : s.timing.state.locked = some r)
    (h : s.timing.ref r = .good expected) (hinside : expected ≤ now + 15625) (hpending : s.timing.alignPending = true) :
    s.pulse r now f =
      (s.withTiming { s.timing.atEvent r (.good (now + 125000)) now with alignPending := false }).startFrame
        (.boundary true) now f.received f.order := by
  rw [State.pulse_good f h hinside, if_pos hlocked]
  exact if_pos ((s.timing.atEvent_alignPending r _ now).trans hpending)

/-- A pulse inside the window of the reference that the Timing Unit is aligned to makes the frame start that is due
(R173). -/
theorem State.pulse_aligned {expected : Nat} (haligned : s.timing.aligned = some r)
    (h : s.timing.ref r = .good expected) (hinside : expected ≤ now + 15625) :
    s.pulse r now f =
      (s.withTiming (s.timing.atEvent r (.good (now + 125000)) now)).startFrame s.timing.dueKind now f.received
        f.order := by
  obtain ⟨hclear, hlocked⟩ := (s.timing.aligned_iff r).mp haligned
  rw [State.pulse_good f h hinside, if_pos hlocked, State.lockedPulse, State.withTiming_timing,
    TimingUnit.atEvent_dueKind, TimingUnit.atEvent_alignPending, hclear]
  exact if_neg Bool.false_ne_true

end

/-! ### The pulse rows -/

section
variable {s : State} {r : Ref} {elapsed now : Nat} (f : FrameInput)

/-- Both pulse rows take whatever pulse comes (log 4). -/
theorem exec_referenceGood : exec (.referenceGood r elapsed f) s = exec (.referencePulse r elapsed f) s := rfl

/-- A pulse that may fall is taken, unless it would replace a frame start made already (log 6). -/
theorem exec_referencePulse (hrunning : s.resetAsserted = false) (hnow : now = s.timing.time + elapsed)
    (hmay : s.timing.mayFall now = true) (hreplaces : ¬s.timing.replacesFrameStart r now = true) :
    exec (.referencePulse r elapsed f) s = .next (s.pulse r now f) := by
  subst hnow
  refine (State.next_released (State.pulseAfter r elapsed f) hrunning).trans (congrArg _ (if_pos ?_))
  rw [hmay, Bool.eq_false_iff.mpr hreplaces]
  rfl

/-- An aligning pulse at the moment of a frame start of the own timing that has been made does not fall there
(log 6). -/
theorem exec_referencePulse_replaced (hrunning : s.resetAsserted = false) (hnow : now = s.timing.time + elapsed)
    (hreplaces : s.timing.replacesFrameStart r now = true) : exec (.referencePulse r elapsed f) s = .next s := by
  subst hnow
  refine (State.next_released (State.pulseAfter r elapsed f) hrunning).trans (congrArg _ (if_neg ?_))
  rw [hreplaces, Bool.not_true, Bool.and_false]
  exact Bool.false_ne_true

end

/-- Settles O48: the pulse by the state of its reference, and the event in which it becomes GOOD by the lock. -/
theorem pulsesOfAnUnlockedReference : Obligations.PulsesOfAnUnlockedReference := by
  intro s r elapsed now f hrunning hnow hmay hlocked taken
  have hpulse : exec (.referencePulse r elapsed f) s = .next (s.pulse r now f) :=
    exec_referencePulse f hrunning hnow hmay (TimingUnit.replacesFrameStart_unlocked hlocked now)
  have hearly : ∀ expected, (s.timing.ref r).expected? = some expected → now + 15625 < expected →
      exec (.referencePulse r elapsed f) s = .next (taken .absent) := fun expected href hbefore => by
    rw [hpulse, State.pulse_early f href hbefore, State.refAbsent_unlocked now hlocked]
    rfl
  refine ⟨fun href => ?_, fun count expected href => hearly expected (by rw [href]; rfl),
    fun count expected href hinside hcount => ?_, fun expected href => hearly expected (by rw [href]; rfl),
    fun expected href hinside => ?_, fun expected href hinside => ?_⟩
  · rw [hpulse, State.pulse_absent f href]
    rfl
  · rw [hpulse, State.pulse_counts f href hinside hcount]
    rfl
  · rw [hpulse, State.pulse_good f href hinside, if_neg hlocked]
    rfl
  · intro good moved
    have hgood : exec (.referenceGood r elapsed f) s = .next ((s.withTiming good).becomeGood r) := by
      rw [exec_referenceGood, hpulse, State.pulse_qualifies f href hinside]
      rfl
    have hstate : good.state = s.timing.state := s.timing.atEvent_state r _ now
    have hpending : good.alignPending = s.timing.alignPending := s.timing.atEvent_alignPending r _ now
    refine ⟨fun hfree => ?_, fun hother => ?_⟩
    · rw [hgood, State.becomeGood_unlocked (s := s.withTiming good) (by rw [State.withTiming_timing, hstate, hfree])]
      rfl
    · have htaken := State.becomeGood_other (s := s.withTiming good)
        (by rw [State.withTiming_timing, hstate, hother])
      rw [State.withTiming_timing, hpending] at htaken
      rw [hgood, htaken]
      refine ⟨fun hprimary hmoves => ?_, fun hstays => ?_⟩
      · exact congrArg Host.Outcome.next (if_pos ⟨hprimary, hmoves⟩)
      · refine congrArg Host.Outcome.next (if_neg ?_)
        rintro ⟨hprimary, hmoves⟩
        obtain hsecondary | ⟨hclear, hnot⟩ := hstays
        · exact hsecondary hprimary
        · exact hmoves.elim (Bool.eq_false_iff.mp hclear) (Bool.eq_false_iff.mp hnot)

/-! ### The frame-start rows while aligned -/

/-- A frame-start row of a kind that is not due does nothing (log 3). -/
theorem State.frameDue_undue {s : State} {kind : FrameKind} (f : FrameInput) (h : s.timing.dueKind ≠ kind) :
    s.frameDue kind f = s :=
  if_pos h

/-- A row that makes its frame start under a condition of its own does nothing either when its kind is not due
(log 3). -/
theorem State.frameDue_undueIf {P : Prop} [Decidable P] {s : State} {kind : FrameKind} (f : FrameInput)
    (h : s.timing.dueKind ≠ kind) : (if P then s.frameDue kind f else s) = s := by
  rw [State.frameDue_undue f h, ite_self]

/-- While aligned, the frame-start row of the kind that is due is the pulse of the locked reference at its expected time
(R173, log 11). -/
theorem State.frameDue_aligned {s : State} {kind : FrameKind} {r : Ref} {now expected : Nat} (f : FrameInput)
    (hkind : s.timing.dueKind = kind) (haligned : s.timing.aligned = some r) (href : s.timing.ref r = .good expected)
    (hnow : now = max s.timing.time expected) (hmay : s.timing.mayFall now = true) :
    s.frameDue kind f =
      (s.withTiming (s.timing.atEvent r (.good (now + 125000)) now)).startFrame kind now f.received f.order := by
  have hinside : expected ≤ now + 15625 := by omega
  simp only [State.frameDue, haligned, href, RefState.expected?, ← hnow, hmay]
  rw [if_neg (not_not_intro hkind), if_pos trivial, State.pulse_aligned f haligned href hinside, hkind]

/-- A frame-start row of a kind that is not due leaves the part as it is, whichever of the rows names that kind
(log 3). -/
theorem exec_frameRows_undue {s : State} (f : FrameInput) (id : Nat) (n : Link) (hrunning : s.resetAsserted = false) :
    (s.timing.dueKind ≠ .ordinary → exec (.frameStart f.received) s = .next s) ∧
    (s.timing.dueKind ≠ .leaseTick →
      exec (.leaseTick f.received) s = .next s ∧ exec (.leaseRunOut id f.received) s = .next s) ∧
    (s.timing.dueKind ≠ .boundary false →
      exec (.boundary f) s = .next s ∧ exec (.silenceLimit n f) s = .next s) := by
  refine ⟨fun h => ?_, fun h => ⟨?_, ?_⟩, fun h => ⟨?_, ?_⟩⟩
  · exact (State.next_released _ hrunning).trans (congrArg _ (State.frameDue_undue _ h))
  · exact (State.next_released _ hrunning).trans (congrArg _ (State.frameDue_undue _ h))
  · exact (State.next_released _ hrunning).trans (congrArg _ (State.frameDue_undueIf _ h))
  · exact (State.next_released _ hrunning).trans (congrArg _ (State.frameDue_undue _ h))
  · exact (State.next_released _ hrunning).trans (congrArg _ (State.frameDue_undueIf _ h))

/-- While aligned, each frame-start row makes the frame start of the pulse of the locked reference at its expected time,
when its kind is the one that is due (R173, log 11); the order that the row brings is read at a boundary alone. -/
theorem exec_frameRows_aligned {s t : State} {r : Ref} {now expected : Nat} (f : FrameInput)
    (hrunning : s.resetAsserted = false) (haligned : s.timing.aligned = some r)
    (href : s.timing.ref r = .good expected) (hnow : now = max s.timing.time expected)
    (hmay : s.timing.mayFall now = true)
    (ht : t = (s.withTiming (s.timing.atEvent r (.good (now + 125000)) now)).startFrame s.timing.dueKind now f.received
      f.order) :
    (s.timing.dueKind = .ordinary → exec (.frameStart f.received) s = .next t) ∧
    (s.timing.dueKind = .leaseTick → exec (.leaseTick f.received) s = .next t) ∧
    (s.timing.dueKind = .boundary false → exec (.boundary f) s = .next t) := by
  have hrow : ∀ {kind} (g : FrameInput), s.timing.dueKind = kind →
      Host.Outcome.next (s.whileRunning (State.frameDue kind g)) = .next
        ((s.withTiming (s.timing.atEvent r (.good (now + 125000)) now)).startFrame kind now g.received g.order) :=
    fun g hkind => (State.next_released _ hrunning).trans
      (congrArg _ (State.frameDue_aligned g hkind haligned href hnow hmay))
  subst ht
  refine ⟨fun hkind => ?_, fun hkind => ?_, fun hkind => ?_⟩
  · rw [hkind]
    exact hrow _ hkind
  · rw [hkind]
    exact hrow _ hkind
  · rw [hkind]
    exact hrow f hkind

/-- Settles O49: the pulse of the locked reference by its window and the align-pending flag, and the frame-start rows as
that pulse. -/
theorem pulsesOfTheLockedReference : Obligations.PulsesOfTheLockedReference := by
  refine ⟨?_, fun s f id n hrunning => exec_frameRows_undue f id n hrunning, ?_⟩
  · intro s r elapsed now expected f hrunning hcanon hnow hmay hlocked href taken
    refine ⟨fun hearly => ?_, fun hinside hpending => ⟨fun hown => ?_, fun hapart => ⟨?_, fun _ _ => rfl⟩⟩,
      fun hinside hclear => ?_⟩
    · have hpulse := exec_referencePulse f hrunning hnow hmay (TimingUnit.replacesFrameStart_early href hearly)
      rw [hpulse, State.pulse_early f (by rw [href]; rfl) hearly, State.refAbsent_locked now hlocked]
      rfl
    · exact exec_referencePulse_replaced f hrunning hnow
        ((s.timing.replacesFrameStart_iff r now).mpr ⟨hpending, hlocked, hown, expected, href, hinside⟩)
    · have hpulse := exec_referencePulse f hrunning hnow hmay (TimingUnit.replacesFrameStart_apart hapart r)
      rw [State.pulse_aligning f hlocked href hinside hpending] at hpulse
      exact ⟨_, hpulse, State.startFrame_starts _ _ now f hcanon⟩
    · have hpulse := exec_referencePulse f hrunning hnow hmay (TimingUnit.replacesFrameStart_clear hclear r now)
      rw [State.pulse_aligned f ((s.timing.aligned_iff r).mpr ⟨hclear, hlocked⟩) href hinside] at hpulse
      exact ⟨_, hpulse, State.startFrame_starts _ _ now f hcanon⟩
  · intro s r now expected f hrunning hcanon haligned href hnow hmay
    obtain ⟨hclear, -⟩ := (s.timing.aligned_iff r).mp haligned
    have helapsed : now = s.timing.time + (now - s.timing.time) := by omega
    have hpulse := exec_referencePulse f hrunning helapsed hmay (TimingUnit.replacesFrameStart_clear hclear r now)
    rw [State.pulse_aligned f haligned href (by omega)] at hpulse
    obtain ⟨hordinary, htick, hboundary⟩ := exec_frameRows_aligned f hrunning haligned href hnow hmay rfl
    refine ⟨_, hpulse, State.startFrame_starts _ _ now f hcanon, hordinary, fun hkind => ⟨htick hkind,
      fun id c hc hstate hlength hleft => ?_⟩, fun hkind => ⟨hboundary hkind, fun n hlimit => ?_⟩⟩
    · exact (exec_leaseRunOut f.received hrunning hc (c.runsOut_iff.mpr ⟨hstate, hlength, hleft⟩)).trans (htick hkind)
    · exact (exec_silenceLimit f hrunning hlimit).trans (hboundary hkind)

/-! ### The close of a window -/

/-- WINDOW_CLOSE takes the close of a window that no other timing event comes before (log 6). -/
theorem exec_windowClose {s : State} {r : Ref} {now expected : Nat} (f : FrameInput)
    (hrunning : s.resetAsserted = false) (href : (s.timing.ref r).expected? = some expected)
    (hnow : now = max s.timing.time (expected + 15625))
    (hother : (s.timing.ref (otherRef r)).notClosedBefore now = true)
    (hfirst : s.timing.aligned.isSome = true ∨ now ≤ s.timing.ownFrameTime) :
    exec (.windowClose r f) s = .next (s.closeWindow r now f) := by
  subst hnow
  refine (State.next_released (State.windowCloses r f) hrunning).trans (congrArg _ ?_)
  rw [State.windowCloses, href]
  exact if_pos ⟨hother, hfirst⟩

/-- The close of the window of a reference that the Timing Unit is not aligned to makes no frame start (R172). -/
theorem State.closeWindow_unaligned {s : State} {r : Ref} (now : Nat) (f : FrameInput)
    (h : ¬s.timing.aligned = some r) :
    s.closeWindow r now f = (s.withTiming { s.timing with time := now }).refAbsent r :=
  if_neg h

/-- The close of the window of the reference that the Timing Unit is aligned to makes the frame start that was due
(R172). -/
theorem State.closeWindow_aligned {s : State} {r : Ref} (now : Nat) (f : FrameInput)
    (h : s.timing.aligned = some r) :
    s.closeWindow r now f =
      ((s.withTiming { s.timing with time := now }).refAbsent r).startFrame s.timing.dueKind now f.received f.order :=
  if_pos h

/-- Settles O50: the reference becomes ABSENT, and the lock and the frame start follow the alignment. -/
theorem windowCloses : Obligations.WindowCloses := by
  intro s r now expected f hrunning hcanon href hnow hother hfirst absent
  have hclose := exec_windowClose f hrunning href hnow hother hfirst
  refine ⟨fun hunlocked => ?_, fun hlocked hpending => ?_, fun hlocked hclear => ?_⟩
  · have hunaligned : ¬s.timing.aligned = some r := fun h => hunlocked ((s.timing.aligned_iff r).mp h).2
    rw [hclose, State.closeWindow_unaligned now f hunaligned, State.refAbsent_unlocked now hunlocked]
    rfl
  · have hunaligned : ¬s.timing.aligned = some r := fun h =>
      Bool.eq_false_iff.mp ((s.timing.aligned_iff r).mp h).1 hpending
    rw [hclose, State.closeWindow_unaligned now f hunaligned, State.refAbsent_locked now hlocked]
    rfl
  · have haligned := (s.timing.aligned_iff r).mpr ⟨hclear, hlocked⟩
    rw [State.closeWindow_aligned now f haligned, State.refAbsent_locked now hlocked] at hclose
    exact ⟨_, hclose, State.startFrame_starts _ _ now f hcanon⟩

/-! ### The reference selection -/

/-- The fields of a CONTROL word, with the reference that its primary field names (12.7). -/
theorem controlOf_eq (w : Word) : controlOf w =
    { mode := if w.getLsbD 0 then .held else .auto, reports := w.getLsbD 1, primary := if w.getLsbD 2 then .b else .a,
      revertive := w.getLsbD 3 } := rfl

/-- The cases in which a CONTROL write moves the lock to the primary (R174, log 21). -/
theorem State.actOnSelection_eq (s : State) (old : Control) : s.actOnSelection old =
    if s.timing.state.locked = some (otherRef s.control.primary) ∧ (s.timing.ref s.control.primary).isGood = true ∧
        ((s.timing.alignPending = true ∧ s.control.primary ≠ old.primary) ∨
          (s.timing.alignPending = false ∧ s.control.revertive = true ∧
            (s.control.primary ≠ old.primary ∨ old.revertive = false))) then
      s.lockTo s.control.primary
    else s := by
  unfold State.actOnSelection
  cases hlocked : s.timing.state.locked with
  | none => simp
  | some q =>
    refine ite_congr (propext (and_congr ?_ (and_congr_right fun _ => ?_))) (fun _ => rfl) fun _ => rfl
    · rw [ref_ne_iff, Option.some_inj]
    · cases s.timing.alignPending <;> cases s.control.revertive <;> simp [eq_comm (a := old.primary)]

/-- A CONTROL write that leaves the supervisor-reports enable and makes no soft reset is the change of the reference
selection on the fields stored (R148). -/
theorem State.writeControl_selection {s : State} {w : Word} (hreset : w.getLsbD 15 = false)
    (hreports : w.getLsbD 1 = s.control.reports) :
    s.writeControl w = (s.withControl (controlOf w)).actOnSelection s.control := by
  have hkept : ¬(s.control.reports = true ∧ (controlOf w).reports = false) := by
    rintro ⟨hset, hclear⟩
    exact Bool.eq_false_iff.mp hclear (hreports.trans hset)
  rw [State.writeControl_eq, hreset, if_neg Bool.false_ne_true, State.applyControl, if_neg hkept]

/-- Settles O10: both rows are the write of CONTROL, which moves the lock in the cases of `actOnSelection_eq`. -/
theorem referenceSelectionWrite : Obligations.ReferenceSelectionWrite := by
  intro s w p hrunning hreset hreports hp
  refine ⟨rfl, (State.next_released (State.writeControl w) hrunning).trans ?_⟩
  rw [State.writeControl_selection hreset hreports, State.actOnSelection_eq, controlOf_eq, hreports, ← hp]
  exact apply_ite Host.Outcome.next _ _ _

end Sys2Proof.Machine
end

section
/-! SUPPORT. The events and interrupt family: the writes to EVENTS and ENABLES (R179, R181), and when IRQ is asserted
(R182). -/

namespace Sys2Proof.Machine

/-- A word in the layout of EVENTS is not 0 exactly when the bit of some latch in it is 1 (12.7). -/
theorem eventWord_ne_zero_iff (u : BitVec 16) : u ≠ 0 ↔ ∃ e, u.getLsbD (eventBit e) = true := by
  constructor
  · intro hne
    have hbit := BitVec.getLsbD_true_ctz_of_ne_zero hne
    obtain ⟨e, he⟩ := eventBit_surj (BitVec.lt_of_getLsbD hbit)
    exact ⟨e, he ▸ hbit⟩
  · rintro ⟨e, hbit⟩ rfl
    exact Bool.false_ne_true (BitVec.getLsbD_zero.symm.trans hbit)

/-- IRQ is asserted exactly while RESETn is released and a latch is SET with its enable 1 (R182). -/
theorem State.irq_iff (s : State) : s.irq = true ↔
    s.resetAsserted = false ∧ ∃ e, s.events.isSet e = true ∧ s.events.enables.getLsbD (eventBit e) = true := by
  rw [State.irq, Bool.and_eq_true, Bool.not_eq_true', bne_iff_ne, eventWord_ne_zero_iff]
  simp only [BitVec.getLsbD_and, Bool.and_eq_true, EventUnit.isSet]

/-- A write to EVENTS changes the latches and no other part of the state (R179). -/
theorem State.clearEvents_frame (s : State) (w : Word) :
    s.clearEvents w = s.withEvents (s.clearEvents w).events ∧ (s.clearEvents w).events.enables = s.events.enables :=
  ⟨rfl, rfl⟩

/-- The EVENTS word reads as the latches stand (R147, 12.7). -/
theorem State.readWord_events (s : State) : s.readWord 0x04 = s.events.latches := rfl

/-- The ENABLES word reads as the enables stand (R147, 12.7). -/
theorem State.readWord_enables (s : State) : s.readWord 0x05 = s.events.enables := rfl

/-- EVENTS_CLEAR, while RESETn is released (R179). -/
theorem exec_eventsClear {s : State} (w : Word) (hrunning : s.resetAsserted = false) :
    exec (.eventsClear w) s = .next (s.clearEvents w) :=
  State.next_released (State.clearEvents w) hrunning

/-- ENABLES_WRITE, while RESETn is released (R181). -/
theorem exec_enablesWrite {s : State} (w : Word) (hrunning : s.resetAsserted = false) :
    exec (.enablesWrite w) s = .next (s.storeEnables w) :=
  State.next_released (State.storeEnables w) hrunning

/-- Settles O14: IRQ latch by latch, and each of the two writes with its frame and the word that reads back. -/
theorem eventsAndEnables : Obligations.EventsAndEnables := by
  refine ⟨State.irq_iff, fun s w hrunning => ⟨?_, ?_⟩⟩
  · obtain ⟨hframe, henables⟩ := s.clearEvents_frame w
    exact ⟨s.clearEvents w, exec_eventsClear w hrunning, hframe, henables, EventUnit.isSet_clear s w,
      State.readWord_events _, State.readWord_events s⟩
  · exact ⟨s.storeEnables w, exec_enablesWrite w hrunning, rfl, State.readWord_enables _⟩

end Sys2Proof.Machine
end

section
/-! SUPPORT. The queue of commands (log 1): a step on a queue that is not empty. The empty queue stands at step_idle. -/

namespace Sys2Proof.Machine

/-- Settles O1: of the two cases of a step, the queue with a command at its front. -/
theorem stepRunsTheFrontCommand : Obligations.StepRunsTheFrontCommand := by
  intro c rest s hqueue
  rw [step, hqueue]

end Sys2Proof.Machine
end

section
/-! SUPPORT. The invariant family: the conditions of a record (R4, R6, R7) one by one, and the law of the change list
that follows from them (R33). -/

namespace Sys2Proof.Machine

/-! ### The conditions of a record -/

/-- What R4 and R6 ask of a circuit in every condition. -/
structure Circuit.Sized (c : Circuit) : Prop where
  width    : 1 ≤ c.width ∧ c.width ≤ 16
  trunks   : c.srcTrunk ≤ 7 ∧ c.dstTrunk ≤ 7
  staged   : ListFormed c.staged
  live     : ListFormed c.live
  reason   : c.closeReason = none ↔ c.state = .pending ∨ c.state = .active ∨ c.state = .suspended

/-- The conditions that R6 and R7 allow: a constructor for each state with its pending change, a pending DROP before
and after the DROP item apart. -/
inductive Circuit.Condition (listed : Prop) (c : Circuit) : Prop
  | pending (hstate : c.state = .pending) (hchange : c.pendingChange = none) (hwhole : Whole c) (hlive : c.live = [])
      (hstaged : c.stagedTreatment = .pass) (htreated : c.liveTreatment = .pass) (hcycle : c.cutoverCycle = none)
      (hlisted : listed)
  | active (hstate : c.state = .active) (hchange : c.pendingChange = none) (hwhole : Whole c)
      (hlive : c.live = c.staged) (hstaged : c.stagedTreatment = .pass) (htreated : c.liveTreatment = .pass)
      (hunlisted : ¬listed)
  | suspending (hstate : c.state = .active) (hchange : c.pendingChange = some .suspend) (hwhole : Whole c)
      (hlive : c.live = c.staged) (hstaged : c.stagedTreatment = .fill) (htreated : c.liveTreatment = .pass)
      (hlisted : listed)
  | adding (hstate : c.state = .active) (hchange : c.pendingChange = some .reshapeAdd) (hdoubled : Doubled c)
      (hlive : c.live = (marked true c.staged).map unmark) (hstaged : c.stagedTreatment = .pass)
      (htreated : c.liveTreatment = .pass) (hlisted : listed)
  | added (hstate : c.state = .active) (hchange : c.pendingChange = some .reshapeDrop) (hdoubled : Doubled c)
      (hlive : c.live = c.staged) (hstaged : c.stagedTreatment = .pass) (htreated : c.liveTreatment = .pass)
      (hunlisted : ¬listed)
  | dropping (hstate : c.state = .active) (hchange : c.pendingChange = some .reshapeDrop) (hwhole : Whole c)
      (hlive : marked false c.live = c.staged) (hold : 1 ≤ (marked true c.live).length)
      (hmost : (marked true c.live).length ≤ 16) (hstaged : c.stagedTreatment = .pass)
      (htreated : c.liveTreatment = .pass) (hlisted : listed)
  | suspended (hstate : c.state = .suspended) (hchange : c.pendingChange = none) (hwhole : Whole c)
      (hlive : c.live = c.staged) (hstaged : c.stagedTreatment = .fill) (htreated : c.liveTreatment = .fill)
      (hunlisted : ¬listed)
  | resuming (hstate : c.state = .suspended) (hchange : c.pendingChange = some .resume) (hwhole : Whole c)
      (hlive : c.live = c.staged) (hstaged : c.stagedTreatment = .pass) (htreated : c.liveTreatment = .fill)
      (hlisted : listed)
  | releasing (hstate : c.state = .releasing) (hchange : c.pendingChange = none) (hempty : c.staged = [])
      (hlive : c.live ≠ []) (hlisted : listed)
  | closed (hstate : c.state = .closed) (hchange : c.pendingChange = none) (hempty : c.staged = [])
      (hlive : c.live = []) (htreated : c.stagedTreatment = c.liveTreatment) (hunlisted : ¬listed)

/-- A formed record is a sized one in one of the conditions. -/
theorem Circuit.formed_iff {listed : Prop} {c : Circuit} : c.Formed listed ↔ c.Sized ∧ c.Condition listed := by
  constructor
  · rintro ⟨hleast, hmost, hsrc, hdst, hstaged, hlive, hreason, hcondition⟩
    refine ⟨⟨⟨hleast, hmost⟩, ⟨hsrc, hdst⟩, hstaged, hlive, hreason⟩, ?_⟩
    split at hcondition
    next hs hp =>
      obtain ⟨h1, h2, h3, h4, h5, h6⟩ := hcondition
      exact .pending hs hp h1 h2 h3 h4 h5 h6
    next hs hp =>
      obtain ⟨h1, h2, h3, h4, h5⟩ := hcondition
      exact .active hs hp h1 h2 h3 h4 h5
    next hs hp =>
      obtain ⟨h1, h2, h3, h4, h5⟩ := hcondition
      exact .suspending hs hp h1 h2 h3 h4 h5
    next hs hp =>
      obtain ⟨h1, h2, h3, h4, h5⟩ := hcondition
      exact .adding hs hp h1 h2 h3 h4 h5
    next hs hp =>
      obtain ⟨h1, h2, ⟨h3, h4, h5⟩ | ⟨h3, h4, h5, h6, h7⟩⟩ := hcondition
      · exact .added hs hp h3 h4 h1 h2 h5
      · exact .dropping hs hp h3 h4 h5 h6 h1 h2 h7
    next hs hp =>
      obtain ⟨h1, h2, h3, h4, h5⟩ := hcondition
      exact .suspended hs hp h1 h2 h3 h4 h5
    next hs hp =>
      obtain ⟨h1, h2, h3, h4, h5⟩ := hcondition
      exact .resuming hs hp h1 h2 h3 h4 h5
    next hs hp =>
      obtain ⟨h1, h2, h3⟩ := hcondition
      exact .releasing hs hp h1 h2 h3
    next hs hp =>
      obtain ⟨h1, h2, h3, h4⟩ := hcondition
      exact .closed hs hp h1 h2 h3 h4
    next => exact hcondition.elim
  · rintro ⟨⟨⟨hleast, hmost⟩, ⟨hsrc, hdst⟩, hstaged, hlive, hreason⟩, hcondition⟩
    refine ⟨hleast, hmost, hsrc, hdst, hstaged, hlive, hreason, ?_⟩
    cases hcondition with
    | pending hs hp h1 h2 h3 h4 h5 h6 => rw [hs, hp]; exact ⟨h1, h2, h3, h4, h5, h6⟩
    | active hs hp h1 h2 h3 h4 h5 => rw [hs, hp]; exact ⟨h1, h2, h3, h4, h5⟩
    | suspending hs hp h1 h2 h3 h4 h5 => rw [hs, hp]; exact ⟨h1, h2, h3, h4, h5⟩
    | adding hs hp h1 h2 h3 h4 h5 => rw [hs, hp]; exact ⟨h1, h2, h3, h4, h5⟩
    | added hs hp h1 h2 h3 h4 h5 => rw [hs, hp]; exact ⟨h3, h4, .inl ⟨h1, h2, h5⟩⟩
    | dropping hs hp h1 h2 h3 h4 h5 h6 h7 => rw [hs, hp]; exact ⟨h5, h6, .inr ⟨h1, h2, h3, h4, h7⟩⟩
    | suspended hs hp h1 h2 h3 h4 h5 => rw [hs, hp]; exact ⟨h1, h2, h3, h4, h5⟩
    | resuming hs hp h1 h2 h3 h4 h5 => rw [hs, hp]; exact ⟨h1, h2, h3, h4, h5⟩
    | releasing hs hp h1 h2 h3 => rw [hs, hp]; exact ⟨h1, h2, h3⟩
    | closed hs hp h1 h2 h3 h4 => rw [hs, hp]; exact ⟨h1, h2, h3, h4⟩

/-- A staged list without marked pairs, as many as the width, is not empty. -/
theorem Whole.ne_nil {c : Circuit} (h : Whole c) (hwidth : 1 ≤ c.width) : c.staged ≠ [] := by
  rintro hempty
  obtain ⟨hlength, -⟩ := h
  rw [hempty] at hlength
  exact absurd hlength (Nat.ne_of_lt hwidth)

/-- Some pair of a list carries the mark, when the marked pairs are at least one. -/
theorem exists_marked {pairs : List Pair} (h : 1 ≤ (marked true pairs).length) : ∃ p ∈ pairs, p.retiring = true := by
  obtain ⟨p, hp⟩ := List.exists_mem_of_length_pos h
  obtain ⟨hmem, hmark⟩ := List.mem_filter.mp hp
  exact ⟨p, hmem, eq_of_beq hmark⟩

/-- A whole staged list has no marked pair. -/
theorem Whole.unmarked {c : Circuit} (h : Whole c) {p : Pair} (hp : p ∈ c.staged) : p.retiring = false := by
  obtain ⟨-, hnone⟩ := h
  refine Bool.eq_false_iff.mpr fun hmark => ?_
  have hmem : p ∈ marked true c.staged := List.mem_filter.mpr ⟨hp, by rw [hmark]; rfl⟩
  rw [hnone] at hmem
  exact List.not_mem_nil hmem

/-- A formed record is listed exactly when its staged form differs from its live form (R33). -/
theorem Circuit.Formed.listed_iff {listed : Prop} {c : Circuit} (h : c.Formed listed) :
    listed ↔ c.staged ≠ c.live ∨ c.stagedTreatment ≠ c.liveTreatment := by
  obtain ⟨hsized, hcondition⟩ := Circuit.formed_iff.mp h
  cases hcondition with
  | pending _ _ hwhole hlive _ _ _ hlisted =>
    exact iff_of_true hlisted (.inl (hlive ▸ hwhole.ne_nil hsized.width.1))
  | active _ _ _ hlive hstaged htreated hunlisted =>
    exact iff_of_false hunlisted (by simp [hlive, hstaged, htreated])
  | suspending _ _ _ _ hstaged htreated hlisted => exact iff_of_true hlisted (by simp [hstaged, htreated])
  | adding _ _ hdoubled hlive _ _ hlisted =>
    refine iff_of_true hlisted (.inl fun heq => ?_)
    obtain ⟨p, hp, hmark⟩ := exists_marked hdoubled.2.1
    rw [heq, hlive] at hp
    obtain ⟨q, -, rfl⟩ := List.mem_map.mp hp
    exact Bool.false_ne_true hmark
  | added _ _ _ hlive hstaged htreated hunlisted =>
    exact iff_of_false hunlisted (by simp [hlive, hstaged, htreated])
  | dropping _ _ hwhole _ hold _ _ _ hlisted =>
    refine iff_of_true hlisted (.inl fun heq => ?_)
    obtain ⟨p, hp, hmark⟩ := exists_marked hold
    exact Bool.false_ne_true ((hwhole.unmarked (heq ▸ hp)).symm.trans hmark)
  | suspended _ _ _ hlive hstaged htreated hunlisted =>
    exact iff_of_false hunlisted (by simp [hlive, hstaged, htreated])
  | resuming _ _ _ _ hstaged htreated hlisted => exact iff_of_true hlisted (by simp [hstaged, htreated])
  | releasing _ _ hempty hlive hlisted => exact iff_of_true hlisted (.inl (hempty ▸ hlive.symm))
  | closed _ _ hempty hlive htreated hunlisted =>
    exact iff_of_false hunlisted (by simp [hempty, hlive, htreated])

/-- Settles O59: a FREE record is not listed, and a circuit is by its condition. -/
theorem changeListLaw : Obligations.ChangeListLaw := by
  intro s ⟨hcircuits, hfree⟩ id
  cases hc : s.circuit id with
  | none => simp [hfree id hc]
  | some c => simp [(hcircuits id c hc).listed_iff]

end Sys2Proof.Machine
end

section
/-! SUPPORT. The reset family: the values of power-on reset (R24, R47, R72, R146, R148, R149, R164, R177, R183), and the
laws that the state after reset meets. -/

namespace Sys2Proof.Machine

/-- Power-on reset is the state after reset, with RESETn asserted. -/
theorem exec_powerOnReset (s : State) :
    exec .powerOnReset s = .next { State.reset with pending := s.pending, resetAsserted := true } := rfl

/-- Every link after power-on reset has its initial values. -/
theorem State.reset_link (n : Link) : State.reset.link n = LinkController.initial := by
  cases n <;> rfl

/-- The idle byte of every trunk after power-on reset (R166). -/
theorem IdleWords.initial_byte (trunk : Nat) : IdleWords.initial.byte trunk = 0xFF := by
  unfold IdleWords.byte
  split <;> rfl

/-- No record is in use after reset. -/
theorem State.reset_circuit (id : Nat) : State.reset.circuit id = none := rfl

/-- No record is in use in a state whose circuits are all none, so a statement about its circuits holds. -/
theorem State.reset_no_circuit {id : Nat} {c : Circuit} (h : State.reset.circuit id = some c) : False := by
  rw [State.reset_circuit] at h
  exact Option.some_ne_none c h.symm

/-- Settles O4: each value by the initial value of its block. -/
theorem powerOnResetValues : Obligations.PowerOnResetValues := by
  intro s
  refine ⟨_, exec_powerOnReset s, rfl, rfl, fun _ => rfl, fun _ => ⟨rfl, rfl⟩, rfl, rfl, rfl, rfl, fun n => ?_, rfl,
    IdleWords.initial_byte, rfl, rfl, rfl, fun _ => ⟨rfl, rfl⟩, rfl, fun _ => ⟨rfl, rfl⟩, rfl, rfl, rfl, rfl, rfl, rfl,
    rfl, rfl, rfl, fun _ _ => rfl⟩
  have hlink : State.link { State.reset with pending := s.pending, resetAsserted := true } n =
      LinkController.initial := State.reset_link n
  rw [hlink]
  exact ⟨rfl, rfl, rfl, rfl, rfl, rfl, rfl, rfl, rfl, rfl, rfl, rfl, rfl, rfl, rfl⟩

/-- The banks after reset hold no entry, and there is no pair to describe. -/
theorem BankDescribes.reset (pairs : Circuit → List Pair) (treatment : Circuit → Treatment) :
    BankDescribes State.reset [] pairs treatment :=
  ⟨fun _ _ hc => (State.reset_no_circuit hc).elim, fun _ hk => absurd rfl hk⟩

/-- Settles O51: the lists and buffers of reset are empty, and there is no circuit. -/
theorem resetIsSound : Obligations.ResetIsSound := by
  refine ⟨⟨rfl, rfl, rfl, rfl, rfl, rfl, rfl, rfl⟩, ⟨List.nodup_nil, List.nodup_nil, List.nodup_nil, fun n => ?_⟩,
    ⟨fun n id hid => ?_, fun id hid => absurd hid List.not_mem_nil⟩, ⟨fun n _ => ⟨?_, ?_⟩, fun _ => ⟨rfl, ?_⟩⟩,
    fun n => ?_, ?_, ?_, ⟨(fun _ hr => nomatch hr), fun _ => rfl, Nat.zero_le 15, Nat.zero_le 2⟩,
    ⟨?_, fun id _ => List.not_mem_nil⟩, BankDescribes.reset _ _, ?_, fun _ => BankDescribes.reset _ _, fun _ => rfl⟩
  · rw [State.reset_link]
    exact ⟨List.nodup_nil, List.nodup_nil, Nat.zero_le 8⟩
  · rw [State.reset_link] at hid
    exact absurd hid List.not_mem_nil
  · rw [State.reset_link]
    rfl
  · exact fun _ _ hc => (State.reset_no_circuit hc).elim
  · exact fun _ _ hc => (State.reset_no_circuit hc).elim
  · rw [State.reset_link]
    exact ⟨fun _ => ⟨rfl, rfl, rfl, rfl, rfl, rfl, rfl⟩, by decide⟩
  · exact fun _ _ hc => (State.reset_no_circuit hc).elim
  · exact fun _ _ _ _ _ hc => (State.reset_no_circuit hc).elim
  · exact fun _ _ hc => (State.reset_no_circuit hc).elim
  · exact fun _ _ _ _ _ hc => (State.reset_no_circuit hc).elim

end Sys2Proof.Machine
end

section
/-! SUPPORT. The register family: the CONTROL writes that leave the reference selection (R45, R20, R162). -/

namespace Sys2Proof.Machine

/-- A write that leaves the primary field and the revertive field at the values they held moves no lock (R174). -/
theorem State.actOnSelection_held {s : State} {old : Control} (hprimary : s.control.primary = old.primary)
    (hrevertive : s.control.revertive = old.revertive) : s.actOnSelection old = s := by
  rw [State.actOnSelection_eq, if_neg]
  rintro ⟨-, -, ⟨-, hchanged⟩ | ⟨-, hset, hchanged | hclear⟩⟩
  · exact hchanged hprimary
  · exact hchanged hprimary
  · exact Bool.false_ne_true ((hrevertive.trans hclear).symm.trans hset)

/-- The fields that a CONTROL word stores, when its reference fields are those held. -/
theorem controlOf_held {s : State} {w : Word} (hprimary : w.getLsbD 2 = true ↔ s.control.primary = .b)
    (hrevertive : w.getLsbD 3 = s.control.revertive) :
    controlOf w =
      { s.control with mode := if w.getLsbD 0 then .held else .auto, reports := w.getLsbD 1 } := by
  have hfield : (if w.getLsbD 2 then Ref.b else .a) = s.control.primary := by
    cases hp : s.control.primary with
    | a => exact if_neg fun h => Ref.noConfusion (hp.symm.trans (hprimary.mp h))
    | b => exact if_pos (hprimary.mpr hp)
  rw [controlOf_eq, hfield, hrevertive]

/-- A CONTROL write that leaves the reference fields stores its fields, and clears the reports when it clears their
enable (R148, R20). -/
theorem State.writeControl_held {s : State} {w : Word} (hreset : w.getLsbD 15 = false)
    (hprimary : w.getLsbD 2 = true ↔ s.control.primary = .b) (hrevertive : w.getLsbD 3 = s.control.revertive) :
    s.writeControl w =
      if s.control.reports = true ∧ w.getLsbD 1 = false then (s.withControl (controlOf w)).clearReports
      else s.withControl (controlOf w) := by
  have hcontrol := controlOf_held hprimary hrevertive
  have hkept : ∀ u : State, u.control = controlOf w → u.actOnSelection s.control = u := fun u hu =>
    State.actOnSelection_held (by rw [hu, hcontrol]) (by rw [hu, hcontrol])
  have hcleared : ((s.withControl (controlOf w)).clearReports).control = controlOf w := by
    obtain ⟨-, -, hsame, -⟩ := State.freeAll_same ((s.withControl (controlOf w)).closedOf .supervisor)
      ((s.withControl (controlOf w)).withSupQueue [])
    exact hsame
  rw [State.writeControl_eq, hreset, if_neg Bool.false_ne_true, State.applyControl]
  refine hkept _ ?_
  split
  · exact hcleared
  · rfl

/-- Settles O8: the write stores its fields, of which only the mode differs from those held. -/
theorem cutoverModeWrite : Obligations.CutoverModeWrite := by
  intro s w hrunning hreset hreports hprimary hrevertive
  have hkept : ¬(s.control.reports = true ∧ w.getLsbD 1 = false) := fun ⟨hset, hclear⟩ =>
    Bool.false_ne_true (hclear.symm.trans (hreports.trans hset))
  refine (State.next_released (State.writeControl w) hrunning).trans ?_
  rw [State.writeControl_held hreset hprimary hrevertive, if_neg hkept, controlOf_held hprimary hrevertive, hreports]

/-- Settles O9: setting the enable stores it; clearing it empties the queue and frees the CLOSED records. -/
theorem supervisorReportsWrite : Obligations.SupervisorReportsWrite := by
  intro s w hrunning hcanonical hreset hprimary hrevertive
  have hwrite : exec (.supervisorReportsEnable w) s = .next (s.writeControl w) :=
    State.next_released (State.writeControl w) hrunning
  rw [hwrite, State.writeControl_held hreset hprimary hrevertive, controlOf_held hprimary hrevertive]
  refine ⟨fun hset => congrArg _ (if_neg ?_), fun hclear hreports => ⟨_, congrArg _ (if_pos ⟨hreports, hclear⟩), ?_⟩⟩
  · rintro ⟨hreports, hclear⟩
    exact hset.elim (fun h => Bool.false_ne_true (hclear.symm.trans h))
      fun h => Bool.false_ne_true (h.symm.trans hreports)
  · rw [hclear]
    exact State.freeClosed_frees _ .supervisor hcanonical.1

end Sys2Proof.Machine
end

section
/-! SUPPORT. The map store family: the copy completion (R31), and the frame starts of the part's own timing (R164, R165,
R175). -/

namespace Sys2Proof.Machine

/-- Settles O43: each row makes the frame start that is due, and a frame start does what its law gives. -/
theorem ownFrameStarts : Obligations.OwnFrameStarts := by
  intro s f hdue hcanonical now noted
  have hnoted : noted.Canonical := hcanonical
  refine ⟨fun hlast htick => ⟨_, exec_frameStart f.received hdue hlast htick, ?_⟩,
    fun htick => ⟨_, exec_leaseTick f.received hdue htick, ?_⟩,
    fun hlast => ⟨_, exec_boundary f hdue hlast, ?_⟩⟩
  · exact State.startFrame_starts noted .ordinary now ⟨f.received, _⟩ hnoted
  · exact State.startFrame_starts noted .leaseTick now ⟨f.received, _⟩ hnoted
  · exact State.startFrame_starts noted (.boundary false) now f hnoted

/-- A copy in progress completes (R31). -/
theorem State.completeCopy_copying {s : State} (h : s.maps.state = .copying) :
    s.completeCopy = s.withMaps { s.maps.setStaged s.maps.liveBank with state := .synced } := by
  rw [State.completeCopy, h]

/-- With no copy in progress none completes (log 3). -/
theorem State.completeCopy_synced {s : State} (h : s.maps.state = .synced) : s.completeCopy = s := by
  rw [State.completeCopy, h]

/-- Settles O46: the copy by the state of the bank. -/
theorem copyCompletion : Obligations.CopyCompletion := by
  intro s hrunning
  have hexec : exec .copyCompletion s = .next s.completeCopy := State.next_released State.completeCopy hrunning
  refine ⟨fun hcopying => ?_, fun hsynced => by rw [hexec, State.completeCopy_synced hsynced]⟩
  rw [hexec, State.completeCopy_copying hcopying]
  exact ⟨_, rfl, rfl, rfl, s.maps.setStaged_live _, s.maps.setStaged_liveBank _, s.maps.setStaged_stagedBank _⟩

end Sys2Proof.Machine
end

section
/-! SUPPORT. The layouts of chapter 12: words as sums of fields, the codes by their numbers, and the bodies the part
builds (12.1, 12.2, 12.4, 12.5). -/

namespace Sys2Proof.Machine

/-! ### Words as numbers -/

/-- A one-bit field in its place, as the number it adds to its word. -/
theorem bitNat_mul (b : Bool) (k : Nat) : bitNat b * k = if b then k else 0 := by
  cases b
  · exact Nat.zero_mul k
  · exact Nat.one_mul k

/-- A field in the lowest place is the number itself. -/
theorem Word.field_zero (a : Nat) : Word.field a 0 = BitVec.ofNat 16 a := congrArg _ (Nat.mul_one a)

/-- The treatment code in its place, as the number it adds to its word (12.2). -/
theorem Treatment.code_mul (t : Treatment) (k : Nat) : t.code * k = if t = .fill then k else 0 := by
  cases t
  · exact Nat.zero_mul k
  · exact Nat.one_mul k

/-! ### Kinds and small words -/

/-- The kinds of a link by their values (12.1). -/
theorem linkKind_values : ∀ k : Byte,
    (linkKind k = some .claim ↔ k = 0x10) ∧ (linkKind k = some .branch ↔ k = 0x11) ∧
    (linkKind k = some .release ↔ k = 0x12) ∧ (linkKind k = some .reshape ↔ k = 0x13) ∧
    (linkKind k = some .suspend ↔ k = 0x14) ∧ (linkKind k = some .resume ↔ k = 0x15) ∧
    (linkKind k = some .renew ↔ k = 0x16) ∧ (linkKind k = some .ask ↔ k = 0x17) ∧
    (linkKind k = none ↔ k.toNat < 0x10 ∨ 0x17 < k.toNat) := by decide

/-- The supervisor-only kinds by their values; every other value is read as a link's (12.1). -/
theorem mailboxKind_values : ∀ k : Byte,
    (mailboxKind k = some .readCircuit ↔ k = 0x20) ∧ (mailboxKind k = some .readSlot ↔ k = 0x21) ∧
    (mailboxKind k = some .readFree ↔ k = 0x22) ∧ (mailboxKind k = some .takeReport ↔ k = 0x23) ∧
    (mailboxKind k = some .commit ↔ k = 0x24) ∧ (mailboxKind k = some .resetLink ↔ k = 0x25) ∧
    (k.toNat < 0x20 ∨ 0x25 < k.toNat → mailboxKind k = linkKind k) := by decide

/-- The codes by their values (12.1, 12.2, 12.5). -/
theorem fieldCodes_hold : fieldCodes := by
  refine ⟨⟨rfl, fun _ => rfl, rfl, rfl, rfl, rfl, rfl⟩, ⟨rfl, rfl, rfl, rfl, rfl⟩, ⟨rfl, rfl, rfl, rfl, rfl, rfl⟩,
    ⟨rfl, rfl, rfl, rfl, fun _ => rfl, rfl⟩, ⟨rfl, rfl, rfl, rfl⟩, ⟨rfl, rfl, rfl⟩, ⟨rfl, rfl, rfl, rfl, rfl, rfl⟩,
    ⟨rfl, rfl, rfl, rfl, rfl, rfl⟩, ⟨rfl, rfl, rfl, rfl⟩, ⟨rfl, rfl, rfl, rfl⟩,
    ⟨rfl, rfl, rfl, rfl, rfl, rfl, rfl, rfl, rfl, rfl, rfl, rfl, rfl, rfl, rfl, rfl, rfl, rfl⟩, fun k => ?_⟩
  obtain ⟨h1, h2, h3, h4, h5, h6, h7, h8, hnone⟩ := linkKind_values k
  exact ⟨h1, h2, h3, h4, h5, h6, h7, h8, hnone, mailboxKind_values k⟩

/-- The words of a reference, a pair and a bank entry as numbers (12.2, 12.4). -/
theorem smallWords_hold : smallWords := by
  refine ⟨fun id generation hid => ?_, fun p => ?_, rfl, fun id srcTrunk srcSlot => ?_, fun id byte => ?_⟩
  · rw [refWord, Word.ofBytes, BitVec.toNat_ofNat, Nat.mod_eq_of_lt hid]
  · rw [pairWord, Word.field_add, Word.add_field, bitNat_mul, Nat.pow_zero, Nat.mul_one]
    rfl
  · rw [Entry.words, Word.field_add, Word.field_add, Nat.pow_zero, Nat.mul_one, Nat.mul_one]
    rfl
  · rw [Entry.words, Word.field_add, Word.field_zero, Nat.pow_zero, Nat.mul_one]
    rfl

/-! ### Bodies -/

/-- Report owed, by the queue of the owner (1.8). -/
theorem State.reportOwed_iff (s : State) (o : Owner) (id : Nat) : s.reportOwed o id = true ↔
    match o with
    | .link n => id ∈ (s.link n).reports
    | .supervisor => id ∈ s.supQueue := by
  cases o <;> exact List.contains_iff_mem

/-- A membership test as the number it adds to its word. -/
theorem bitNat_of_iff {b : Bool} {P : Prop} [Decidable P] (h : b = true ↔ P) (k : Nat) :
    bitNat b * k = if P then k else 0 := by
  rw [bitNat_mul]
  exact if_congr h rfl rfl

/-- The second word of a summary (12.4). -/
theorem State.summary_circuit {s : State} {id : Nat} {c : Circuit} (hc : s.circuit id = some c) :
    s.summary id =
      [ refWord id (s.record id).generation,
        BitVec.ofNat 16 (c.state.code * 8192 + pendingCode c.pendingChange * 1024 +
          (if c.isTrunk then 0 else 512) + c.owner.code * 64 + reasonCode c.closeReason * 8 +
          (if id ∈ s.cutover.changeList then 4 else 0) +
          (if id ∈ s.engine.followUps.map FollowUp.id then 2 else 0) +
          (if s.reportOwed c.owner id then 1 else 0)),
        BitVec.ofNat 16 (c.width * 2048 + c.live.length * 32 + (if c.liveTreatment = .fill then 16 else 0) +
          (if c.stagedTreatment = .fill then 8 else 0)),
        c.leaseLeft ] := by
  have hbranch : bitNat (!c.isTrunk) * 2 ^ 9 = if c.isTrunk then 0 else 512 := by
    cases c.isTrunk <;> rfl
  have hitem : (s.engine.followUps.any fun f => f.id == id) = true ↔ id ∈ s.engine.followUps.map FollowUp.id := by
    simp [List.any_eq_true, List.mem_map]
  rw [State.summary, hc]
  simp only [Word.field_add, Word.add_field, hbranch, bitNat_of_iff List.contains_iff_mem, bitNat_of_iff hitem,
    bitNat_mul (s.reportOwed c.owner id), Treatment.code_mul]
  rfl

/-- The report body of a record in use (12.4). -/
theorem State.reportBody_circuit {s : State} {id : Nat} {c : Circuit} (hc : s.circuit id = some c) :
    s.reportBody id =
      [ refWord id (s.record id).generation,
        BitVec.ofNat 16 (c.state.code * 8192 + pendingCode c.pendingChange * 1024 +
          reasonCode c.closeReason * 128 + (if c.cutoverCycle = none then 0 else 64)),
        BitVec.ofNat 16 (c.width * 2048 + c.live.length * 32),
        c.cutoverCycle.getD 0 ] := by
  have hcycle : bitNat c.cutoverCycle.isSome * 2 ^ 6 = if c.cutoverCycle = none then 0 else 64 := by
    cases c.cutoverCycle <;> rfl
  rw [State.reportBody, hc]
  simp only [Word.field_add, Word.add_field, hcycle]
  rfl

/-- The HELLO reply body (R129, 12.4). -/
theorem State.helloBody_eq (s : State) (n : Link) : s.helloBody n =
    [ BitVec.ofNat 16 (linkNumber n), s.timing.cycle, BitVec.ofNat 16 ((s.link n).quota * 256 + s.ownedCount n) ] := by
  rw [State.helloBody, Word.field_zero, Word.field_add, Nat.pow_zero, Nat.mul_one]
  rfl

/-- Settles O23: the codes, the small words, and each body by its words. -/
theorem bodyLayouts : Obligations.BodyLayouts := by
  refine ⟨fieldCodes_hold, smallWords_hold,
    fun s id c hc => ⟨State.summary_circuit hc, State.reportOwed_iff s c.owner id, State.reportBody_circuit hc⟩,
    fun s id hc => ?_, State.helloBody_eq⟩
  rw [State.summary, hc]

end Sys2Proof.Machine
end

section
/-! SUPPORT. The requests family: the owner of a new record and the record it takes (R13, R14, R15, R83, R88). -/

namespace Sys2Proof.Machine

/-- LINK_DOWN, then QUOTA, when the supervisor names a link (R83). -/
theorem State.ownerCheck_named (s : State) (n : Link) : s.ownerCheck .supervisor (.link n) =
    if (s.link n).state ≠ .up then some .linkDown
    else if (s.link n).quota ≤ s.ownedCount n then some .quota else none := by
  simp [State.ownerCheck]

/-- QUOTA alone, when a link asks for itself (R83). -/
theorem State.ownerCheck_own (s : State) (n : Link) : s.ownerCheck (.link n) (.link n) =
    if (s.link n).quota ≤ s.ownedCount n then some .quota else none := by
  simp [State.ownerCheck]

/-- The record taken is the lowest-numbered FREE one (R15). -/
theorem State.lowestFree_eq_some {s : State} {id : Nat} :
    s.lowestFree = some id ↔ id < 256 ∧ s.circuit id = none ∧ ∀ j, j < id → s.circuit j ≠ none := by
  rw [State.lowestFree, List.find?_range_eq_some, Option.isNone_iff_eq_none]
  simp only [List.mem_range, Bool.not_eq_true', Config.records, ← Option.not_isSome, Bool.not_eq_false',
    Option.isSome_iff_ne_none]
  tauto

/-- No record is taken exactly when none is FREE (R15). -/
theorem State.lowestFree_eq_none {s : State} : s.lowestFree = none ↔ ∀ id, id < 256 → s.circuit id ≠ none := by
  rw [State.lowestFree, List.find?_eq_none]
  simp only [List.mem_range, Option.isNone_iff_eq_none, Config.records, ne_eq]

/-- Settles O29: the owner by the requester, the two checks by the link, and the search of the records. -/
theorem ownerChecksAndRecordChoice : Obligations.OwnerChecksAndRecordChoice := by
  refine ⟨⟨fun _ _ => rfl, fun _ => rfl, rfl⟩, fun s n => ?_,
    fun s => ⟨fun id => State.lowestFree_eq_some, State.lowestFree_eq_none⟩⟩
  rw [State.ownerCheck_named, State.ownerCheck_own]
  refine ⟨fun hdown => if_pos hdown, fun hup hfull => ?_, fun hup hroom => ?_, fun hfull => if_pos hfull,
    fun hroom => if_neg (Nat.not_le.mpr hroom), rfl⟩
  · rw [if_neg (not_not_intro hup), if_pos hfull]
  · rw [if_neg (not_not_intro hup), if_neg (Nat.not_le.mpr hroom)]

end Sys2Proof.Machine
end

section
/-! SUPPORT. The requests family: CLAIM and BRANCH (R89, R92), the checks in their order and the record taken (R16). -/

namespace Sys2Proof.Machine

/-! ### The record taken -/

/-- The records after a FREE record is taken. -/
theorem State.takeRecord_record {s : State} (h : s.Canonical) (id : Nat) (c : Circuit) (j : Nat) :
    (s.takeRecord id c).record j =
      if j = id then { generation := (s.record id).generation + 1, circuit := some c } else s.record j :=
  s.setRecord_record id _ h.1 j

/-- The entries of a new record's pairs describe them as PASS (R16, R28). -/
theorem State.takeRecord_entries {s : State} (h : s.Canonical) (id : Nat) {c : Circuit}
    (hpass : c.stagedTreatment = .pass) (hdst : (c.staged.map Pair.dst).Nodup) :
    StagedEntries c c.staged (fun p => .pass id c.srcTrunk p.src) s (s.takeRecord id c) := by
  have hbatch := s.editStaged_describe id c c.staged (State.stagedBank_wf h) (.inl hdst)
  rw [hpass] at hbatch
  exact hbatch

/-- The taking of a FREE record (R16). -/
theorem State.takeRecord_taken {s : State} (h : s.Canonical) (id : Nat) {c : Circuit}
    (hpass : c.stagedTreatment = .pass) (hdst : (c.staged.map Pair.dst).Nodup) :
    RecordTaken id c s.record s (s.takeRecord id c) := by
  refine ⟨?_, fun j hj => ?_, State.takeRecord_entries h id hpass hdst, rfl, rfl, rfl, rfl, rfl, rfl, rfl, rfl, rfl,
    rfl, rfl, rfl⟩
  · rw [State.takeRecord_record h, if_pos rfl]
  · rw [State.takeRecord_record h, if_neg hj]

/-- The taking of a FREE record for a branch, whose parent's branch list takes its id (R11, R16). -/
theorem State.takeBranch_taken {s : State} (h : s.Canonical) {id parent : Nat} {c p : Circuit} {branches : List Nat}
    {isOpen : Bool} (hpass : c.stagedTreatment = .pass) (hdst : (c.staged.map Pair.dst).Nodup)
    (hp : s.circuit parent = some p) (hkind : p.kind = .trunk branches isOpen) (hfree : s.circuit id = none) :
    RecordTaken id c (withBranch parent p branches isOpen id s) s
      ((s.takeRecord id c).updateBranches parent fun branches => branches ++ [id]) := by
  have hne : id ≠ parent := fun heq => Option.some_ne_none p ((heq ▸ hp).symm.trans hfree)
  have hwf : Sparse.wf Record.initial (s.takeRecord id c).table = true := s.setRecord_wf id _ h.1
  have hrecord := State.updateBranches_record (s.takeRecord id c) parent (fun branches => branches ++ [id]) hwf
  have hframe := State.updateBranches_eq (s.takeRecord id c) parent fun branches => branches ++ [id]
  refine ⟨?_, fun j hj => ?_, (State.takeRecord_entries h id hpass hdst).congr ?_, ?_⟩
  · rw [hrecord, State.takeRecord_record h, if_pos rfl]
    dsimp only
    split
    · rw [if_neg hne]
    · rfl
  · rw [hrecord, State.takeRecord_record h, if_neg hj, withBranch]
    by_cases hparent : j = parent
    · rw [hparent, ← State.circuit_eq, hp]
      dsimp only
      rw [hkind]
    · simp only [if_neg hparent]
      split
      · split <;> rfl
      · rfl
  · rw [hframe]
    rfl
  · rw [hframe]
    exact ⟨rfl, rfl, rfl, rfl, rfl, rfl, rfl, rfl, rfl, rfl, rfl, rfl⟩

/-- The reference of a record just taken names its new generation (R2). -/
theorem RecordTaken.refWordOf {id : Nat} {c : Circuit} {others : Nat → Record} {s t : State}
    (h : RecordTaken id c others s t) : t.refWordOf id = refWord id ((s.record id).generation + 1) := by
  obtain ⟨hrecord, -⟩ := h
  rw [State.refWordOf, hrecord]

/-! ### CLAIM -/

/-- The destination slots of the pairs of a CLAIM are distinct (R60). -/
theorem State.claimPairs_dst {s : State} {f : ClaimFields} {pairs : List Pair} (hne : f.dstPlacement ≠ .fixed)
    (h : s.claimPairs f = .ok pairs) : (pairs.map Pair.dst).Nodup := by
  unfold State.claimPairs at h
  split at h
  · exact nomatch h
  · split at h
    · exact nomatch h
    next destinations hdestinations =>
      obtain ⟨hnodup, -⟩ := chooseSlots_spec (s.freeOutputs_nodup f.dstTrunk) hne hdestinations
      cases h
      exact (pairSlots_dst_ascending _ destinations hnodup).imp Nat.ne_of_lt

/-- Settles O33: the checks in their order, and the record taken when all pass. -/
theorem claimCreatesCircuit : Obligations.ClaimCreatesCircuit := by
  intro s who body hcanonical htakes refused
  have hrefused : ∀ code, decideClaim who body s = refuse code s → refused code := fun code hdecision =>
    exec_refused htakes hdecision
  refine ⟨fun hparse => hrefused _ ?_, fun f hparse => ⟨fun code howner => hrefused _ ?_, fun howner =>
    ⟨fun hfull => ?_, fun id hid => ⟨fun code hslots => hrefused _ ?_, fun pairs hslots => ?_⟩⟩⟩⟩
  · simp only [decideClaim, hparse]
  · simp only [decideClaim, hparse, howner]
  · have hdecision : decideClaim who body s = refuseNoRecord s := by simp only [decideClaim, hparse, howner, hfull]
    exact (exec_decided htakes hdecision :)
  · simp only [decideClaim, hparse, howner, hid, hslots]
  · obtain ⟨-, -, -, -, hne⟩ := parseClaim_fields hparse
    have htaken := State.takeRecord_taken hcanonical id (c := newCircuit (newOwner who f.owner) (.trunk [] f.isOpen)
      f.srcTrunk f.dstTrunk f.width pairs f.fill f.lease) rfl (State.claimPairs_dst hne hslots)
    obtain ⟨t, hexec, hanswered⟩ := exec_decided htakes (d := decideClaim who body s) rfl
    simp only [decideClaim, hparse, howner, hid, hslots, pairsBody_eq, htaken.refWordOf] at hanswered
    exact ⟨_, t, hexec, htaken, hanswered⟩

/-! ### BRANCH -/

/-- The circuit that a reference names (R1). -/
theorem State.named_eq_some {s : State} {id : Nat} {generation : Byte} {c : Circuit} (hc : s.circuit id = some c)
    (hgeneration : (s.record id).generation = generation) : s.named id generation = some c := by
  rw [State.named, if_pos hgeneration, hc]

/-- A reference to a FREE record or to another generation names none (R1). -/
theorem State.named_eq_none {s : State} {id : Nat} {generation : Byte}
    (h : s.circuit id = none ∨ (s.record id).generation ≠ generation) : s.named id generation = none := by
  rw [State.named]
  split
  next hgeneration => exact h.resolve_right fun hne => hne hgeneration
  next => rfl

/-- Who may branch a parent: the supervisor, its owner, and anyone when its open flag is SET (R12). -/
theorem mayBranch_iff {who : Owner} {p : Circuit} : mayBranch who p = true ↔
    who = .supervisor ∨ p.owner = who ∨ ∃ branches, p.kind = .trunk branches true := by
  rw [mayBranch, authority, Bool.or_eq_true, Bool.or_eq_true, beq_iff_eq, beq_iff_eq, or_assoc,
    eq_comm (a := who) (b := p.owner)]
  refine or_congr_right (or_congr_right ?_)
  split
  next branches isOpen hkind => simp [hkind]
  next parent hkind => simp [hkind]

/-- The condition of a parent that is going (R82). -/
theorem branchState_going {p : Circuit} (h : p.state = .releasing ∨ p.state = .closed) :
    branchState p = some .going := by
  rw [branchState, Circuit.isGoing, (Circuit.isReleasable_eq_false_iff p).mpr h, Bool.not_false, if_pos rfl]

/-- A PENDING parent, and one that is itself a branch, is in the wrong state (R82, R94). -/
theorem branchState_wrongState {p : Circuit}
    (h : p.state = .pending ∨ ((p.state = .active ∨ p.state = .suspended) ∧ p.isTrunk = false)) :
    branchState p = some .wrongState := by
  have hlive : p.state = .pending ∨ p.state = .active ∨ p.state = .suspended := h.imp_right And.left
  rw [branchState, Circuit.isGoing_eq_false hlive, if_neg Bool.false_ne_true, if_pos (h.imp_right And.right)]

/-- What remains of the check of a live TRUNK parent (R82). -/
theorem branchState_trunk {p : Circuit} {branches : List Nat} {isOpen : Bool} (hkind : p.kind = .trunk branches isOpen)
    (hstate : p.state = .active ∨ p.state = .suspended) : branchState p =
      if p.pendingChange = some .reshapeAdd ∨ p.pendingChange = some .reshapeDrop then some .changePending
      else if 3 ≤ branches.length then some .branchLimit else none := by
  have hright : ¬(p.state = .pending ∨ p.isTrunk = false) := by
    rcases hstate with h | h <;> simp [h, Circuit.isTrunk, hkind]
  have hbranches : p.branches = branches := by rw [Circuit.branches, hkind]
  rw [branchState, Circuit.isGoing_eq_false (.inr hstate), if_neg Bool.false_ne_true, if_neg hright, hbranches]
  rfl

/-- Settles O34: the checks in their order, and the record taken when all pass. -/
theorem branchCreatesCircuit : Obligations.BranchCreatesCircuit := by
  intro s who body hcanonical htakes refused
  have hrefused : ∀ code, decideBranch who body s = refuse code s → refused code := fun code hdecision =>
    exec_refused htakes hdecision
  refine ⟨fun hparse => hrefused _ ?_, fun f hparse => ⟨fun hunknown => hrefused _ ?_, fun p hp hgeneration => ?_⟩⟩
  · simp only [decideBranch, hparse]
  · simp only [decideBranch, hparse, State.named_eq_none hunknown]
  have hnamed := State.named_eq_some hp hgeneration
  intro admitted
  have hmay : admitted → ¬mayBranch who p = false := fun h => by
    rw [mayBranch_iff.mpr h]
    exact Bool.noConfusion
  have hcondition : admitted → ∀ code, branchState p = some code → refused code := fun h code hcode => hrefused _ <| by
    simp only [decideBranch, hparse, hnamed, if_neg (hmay h), hcode]
  refine ⟨fun h => hrefused _ ?_, fun h hgoing => hcondition h _ (branchState_going hgoing),
    fun h hpending => hcondition h _ (branchState_wrongState (.inl hpending)),
    fun h hlive ⟨parent, hkind⟩ => hcondition h _ (branchState_wrongState (.inr ⟨hlive, ?_⟩)),
    fun branches isOpen hkind h hlive => ?_⟩
  · have hnot : mayBranch who p = false := Bool.eq_false_iff.mpr fun hyes => h (mayBranch_iff.mp hyes)
    simp only [decideBranch, hparse, hnamed, if_pos hnot]
  · rw [Circuit.isTrunk, hkind]
  have hstate := branchState_trunk hkind hlive
  refine ⟨fun hchange => hcondition h _ (hstate.trans (if_pos hchange)), fun hadd hdrop => ?_⟩
  rw [if_neg (not_or.mpr ⟨hadd, hdrop⟩)] at hstate
  refine ⟨fun hlimit => hcondition h _ (hstate.trans (if_pos hlimit)), fun hroom => ?_⟩
  rw [if_neg (Nat.not_le.mpr hroom)] at hstate
  refine ⟨fun code howner => hrefused _ ?_, fun howner => ⟨fun hfull => ?_, fun id hid =>
    ⟨fun code hslots => hrefused _ ?_, fun destinations hslots => ?_⟩⟩⟩
  · simp only [decideBranch, hparse, hnamed, if_neg (hmay h), hstate, howner]
  · have hdecision : decideBranch who body s = refuseNoRecord s := by
      simp only [decideBranch, hparse, hnamed, if_neg (hmay h), hstate, howner, hfull]
    exact (exec_decided htakes hdecision :)
  · simp only [decideBranch, hparse, hnamed, if_neg (hmay h), hstate, howner, hid, hslots]
  · obtain ⟨-, hne⟩ := parseBranch_fields hparse
    obtain ⟨hnodup, -⟩ := chooseSlots_spec (s.freeOutputs_nodup f.dstTrunk) hne hslots
    obtain ⟨-, hfree, -⟩ := State.lowestFree_eq_some.mp hid
    have htaken := State.takeBranch_taken hcanonical (c := newCircuit (newOwner who f.owner) (.branch f.parent)
      p.srcTrunk f.dstTrunk p.width (pairSlots p.sources destinations) f.fill f.lease) rfl
      ((pairSlots_dst_ascending p.sources destinations hnodup).imp Nat.ne_of_lt) hp hkind hfree
    obtain ⟨t, hexec, hanswered⟩ := exec_decided htakes (d := decideBranch who body s) rfl
    simp only [decideBranch, hparse, hnamed, if_neg (hmay h), hstate, howner, hid, hslots, pairsBody_eq,
      htaken.refWordOf] at hanswered
    exact ⟨_, t, hexec, htaken, hanswered⟩

end Sys2Proof.Machine
end

section
/-! SUPPORT. The supervisor family: TAKE_REPORT, COMMIT and RESET_LINK (R159, R160, R46, R144). -/

namespace Sys2Proof.Machine

/-- The delivery of a report of a CLOSED record frees it (R18). -/
theorem State.deliver_closed {s : State} {id : Nat} (h : ((s.circuit id).any fun c => c.state == .closed) = true) :
    s.deliver id = s.freeRecord id := if_pos h

/-- The delivery of a report of any other record changes nothing (R18). -/
theorem State.deliver_other {s : State} {id : Nat} (h : ((s.circuit id).any fun c => c.state == .closed) = false) :
    s.deliver id = s := if_neg (ne_of_eq_of_ne h Bool.false_ne_true)

/-- The decision on a RESET_LINK of a link by its number (R160). -/
theorem decideResetLink_numbered (s : State) (n : Link) :
    decideResetLink .supervisor [BitVec.ofNat 16 (linkNumber n)] s =
      { code := .ok,
        body :=
          [BitVec.ofNat 16 (((s.resetLink n).link n).state.code * 256 + ((s.resetLink n).link n).downReason.code)],
        state := s.resetLink n } := by
  have hlink : linkOf (bodyLo [BitVec.ofNat 16 (linkNumber n)] 1) = some n := by cases n <;> rfl
  have hword : ∀ a b, Word.field a 8 + Word.field b 0 = BitVec.ofNat 16 (a * 256 + b) := fun a b => by
    rw [Word.field_add, Nat.pow_zero, Nat.mul_one]
    rfl
  simp only [decideResetLink, hlink, hword]
  rfl

/-- Settles O40: each decision in its cases. -/
theorem supervisorActs : Obligations.SupervisorActs := by
  intro s hcanonical
  refine ⟨fun htakes => ⟨fun hempty => ?_, fun id rest hqueue => ?_⟩, fun htakes => (exec_decided htakes rfl :),
    fun n htakes => ?_⟩
  · have hdecision : decideTakeReport .supervisor [] s = answer [0x8000] s := by
      simp only [decideTakeReport, hempty]
      rfl
    exact (exec_decided htakes hdecision :)
  · have hdecision : decideTakeReport .supervisor [] s =
        { code := .ok, body := BitVec.ofNat 16 rest.length :: s.reportBody id,
          state := (s.withSupQueue rest).deliver id } := by
      simp only [decideTakeReport, hqueue, Word.field_zero]
      rfl
    obtain ⟨t, hexec, hanswered⟩ := exec_decided htakes hdecision
    refine ⟨_, t, hexec, hanswered, State.deliver_other (s := s.withSupQueue rest), fun hclosed => ?_⟩
    rw [State.deliver_closed (s := s.withSupQueue rest) hclosed]
    exact State.freeRecord_frees (s.withSupQueue rest) id hcanonical.1
  · obtain ⟨t, hexec, hanswered⟩ := exec_decided htakes (decideResetLink_numbered s n)
    refine ⟨_, t, hexec, fun hup => ?_, State.resetLink_down, fun hdisabled => ?_, hanswered⟩
    · rw [State.resetLink, hup]
      exact State.leaveUp_leaves s n _ _ hcanonical
    · rw [State.resetLink, hdisabled]

end Sys2Proof.Machine
end

section
/-! SUPPORT. The register family: the words of the register window as they read (R147, R148, R185, 12.7). -/

namespace Sys2Proof.Machine

/-! ### The words that are sums of fields -/

/-- The CONTROL word, by its fields (R148). -/
theorem Control.word_eq (c : Control) : c.word = BitVec.ofNat 16 ((if c.revertive then 8 else 0) +
    (if c.primary = .b then 4 else 0) + (if c.reports then 2 else 0) + (if c.mode = .held then 1 else 0)) := by
  rw [Control.word, Word.field_add, Word.add_field, Word.add_field, bitNat_mul c.revertive,
    bitNat_mul c.reports, bitNat_of_iff (beq_iff_eq (a := c.primary) (b := .b)),
    bitNat_of_iff (beq_iff_eq (a := c.mode) (b := .held))]
  rfl

/-- The STATUS word, by its fields (R148). -/
theorem State.statusWord_eq (s : State) : s.statusWord = BitVec.ofNat 16 (s.mailbox.state.code * 64 +
    (if s.cutover.armed then 32 else 0) + s.cutover.settle * 8 + s.timing.state.code * 2 +
    (if s.maps.state = .copying then 1 else 0)) := by
  rw [State.statusWord, Word.field_add, Word.add_field, Word.add_field, Word.add_field, bitNat_mul,
    bitNat_of_iff (beq_iff_eq (a := s.maps.state) (b := .copying))]
  rfl

/-- The first word of LINKCFGn, by its fields (R126). -/
theorem LinkController.configWord_eq (c : LinkController) : c.configWord = BitVec.ofNat 16 (c.quota * 256 +
    (if c.policy = .release then 4 else 0) + (if c.enable then 1 else 0)) := by
  rw [LinkController.configWord, Word.field_add, Word.add_field, bitNat_mul c.enable,
    bitNat_of_iff (beq_iff_eq (a := c.policy) (b := .release))]
  rfl

/-- The first word of LINKSTATn, by its fields (12.7). -/
theorem LinkController.statusWord_eq (c : LinkController) : c.statusWord = BitVec.ofNat 16 (c.tags.length * 4096 +
    c.lastFault.code * 256 + c.downReason.code * 16 + c.state.code) := by
  rw [LinkController.statusWord, Word.field_add, Word.add_field, Word.add_field, Nat.pow_zero, Nat.mul_one]
  rfl

/-- The ids in use that meet a test, each once (R23). -/
theorem State.idsWhere_listsRecords {s : State} (h : s.Canonical) {test : Circuit → Bool} {property : Circuit → Prop}
    (htest : ∀ c, test c = true ↔ property c) : listsRecords s property (s.idsWhere test) := by
  refine ⟨State.idsWhere_nodup s test h.1, fun id => ?_⟩
  simp only [State.mem_idsWhere s test h.1 id, htest]

/-! ### The addresses -/

/-- The second word of LINKCFGn and the words of LINKSTATn at their addresses (12.7). -/
theorem registerAt_linkStatus (n : Link) :
    registerAt (BitVec.ofNat 7 (0x10 + 2 * linkNumber n)) = some (.linkStatus n) ∧
      registerAt (BitVec.ofNat 7 (0x11 + 2 * linkNumber n)) = some (.linkOwned n) := by
  cases n <;> exact ⟨rfl, rfl⟩

/-- Position p of the result window stands at 40H + p (12.7). -/
theorem registerAt_result {p : Nat} (h : p ≤ 39) : registerAt (BitVec.ofNat 7 (0x40 + p)) = some (.result p) := by
  have hall : ∀ q : Fin 40, registerAt (BitVec.ofNat 7 (0x40 + q.val)) = some (.result q.val) := by decide
  exact hall ⟨p, Nat.lt_succ_of_le h⟩

/-- The addresses without a word (12.7). -/
theorem registerAt_none : ∀ a : BitVec 7,
    a.toNat = 0x07 ∨ (0x1C ≤ a.toNat ∧ a.toNat < 0x20) ∨ (0x35 ≤ a.toNat ∧ a.toNat < 0x40) ∨ 0x68 ≤ a.toNat →
    registerAt a = none := by decide

/-- A read at the address of a word returns that word (R147). -/
theorem State.readWord_of {s : State} {a : BitVec 7} {r : Register} (h : registerAt a = some r) :
    s.readWord a = s.readRegister r := by
  rw [State.readWord_eq, h]
  rfl

/-- The words of a link (12.7). -/
theorem State.readWord_link (s : State) (n : Link) :
    s.readWord (BitVec.ofNat 7 (0x08 + 2 * linkNumber n)) = BitVec.ofNat 16 ((s.link n).quota * 256 +
      (if (s.link n).policy = .release then 4 else 0) + (if (s.link n).enable then 1 else 0)) ∧
    s.readWord (BitVec.ofNat 7 (0x09 + 2 * linkNumber n)) = BitVec.ofNat 16 (s.link n).silenceLimit ∧
    s.readWord (BitVec.ofNat 7 (0x10 + 2 * linkNumber n)) = BitVec.ofNat 16 ((s.link n).tags.length * 4096 +
      (s.link n).lastFault.code * 256 + (s.link n).downReason.code * 16 + (s.link n).state.code) ∧
    (s.Canonical → ∃ ids, listsRecords s (fun c => c.owner = .link n) ids ∧ s.ownedCount n = ids.length ∧
      s.readWord (BitVec.ofNat 7 (0x11 + 2 * linkNumber n)) = BitVec.ofNat 16 ids.length) := by
  obtain ⟨hstatus, howned⟩ := registerAt_linkStatus n
  refine ⟨(State.readWord_of (registerAt_linkConfig n)).trans (LinkController.configWord_eq _),
    (State.readWord_of (registerAt_linkLimit n)).trans (Word.field_zero _),
    (State.readWord_of hstatus).trans (LinkController.statusWord_eq _), fun hcanonical => ?_⟩
  exact ⟨_, State.idsWhere_listsRecords hcanonical fun _ => beq_iff_eq, rfl,
    (State.readWord_of howned).trans (Word.field_zero _)⟩

end Sys2Proof.Machine
end

section
/-! SUPPORT. The register family: the SPI transactions that read and write the register window (R147, 12.7; logs 17, 22,
23). -/

namespace Sys2Proof.Machine

/-- The command byte has 8 bits. -/
theorem commandBits_length (isRead : Bool) (address : BitVec 7) : (commandBits isRead address).length = 8 := by
  simp [commandBits]

/-- What stands behind the command byte of a transaction. -/
theorem commandBits_drop (isRead : Bool) (address : BitVec 7) (rest : List Bool) :
    (commandBits isRead address ++ rest).drop 8 = rest :=
  List.drop_left' (commandBits_length isRead address)

/-- Before its command byte is sampled a transaction has no command (R147). -/
theorem spiCommand_short {bits : List Bool} (h : bits.length < 8) : spiCommand bits = none := if_pos h

/-- The command of a transaction, from the bits of its command byte (12.7, log 23). -/
theorem spiCommand_commandBits (isRead : Bool) (address : BitVec 7) (rest : List Bool) :
    spiCommand (commandBits isRead address ++ rest) = some { isRead := isRead, address := address } :=
  spiCommand_bits isRead address rest

/-- A read transaction writes nothing (R147). -/
theorem spiWrites_read (address : BitVec 7) (rest : List Bool) :
    spiWrites (commandBits true address ++ rest) = [] := by
  rw [spiWrites, spiCommand_commandBits]
  rfl

/-- A write transaction writes its whole words at rising addresses, and discards a partial word (R147). -/
theorem spiWrites_write (address : BitVec 7) (words : List Word) {rest : List Bool} (h : rest.length < 16) :
    spiWrites (commandBits false address ++ words.flatMap wordBits ++ rest) = spiBurst address words := by
  rw [List.append_assoc, spiWrites, spiCommand_commandBits]
  dsimp only
  rw [if_neg Bool.false_ne_true, commandBits_drop, splitBits_words words rest h]

/-- Each word of a read burst is that of its own state, at its own address (R147). -/
theorem spiReadBurst_getElem? (address : BitVec 7) (states : List State) (i : Nat) :
    (spiReadBurst { isRead := true, address := address } states)[i]? =
      states[i]?.map fun s => s.readWord (address + BitVec.ofNat 7 i) := by
  rw [spiReadBurst, List.getElem?_zipWith]
  cases hs : states[i]? with
  | none => cases (List.range states.length)[i]? <;> rfl
  | some s =>
    obtain ⟨hlt, -⟩ := List.getElem?_eq_some_iff.mp hs
    rw [List.getElem?_range hlt]
    rfl

/-- SDO in a read: the bits of the words, most significant first (R147). -/
theorem State.sdo_read (s : State) (address : BitVec 7) (bits : List Bool) :
    s.sdo true (commandBits true address ++ bits) =
      .driven ((s.readWord (address + BitVec.ofNat 7 (bits.length / 16))).getMsbD (bits.length % 16)) := by
  have hlength : (commandBits true address ++ bits).length - 8 = bits.length := by
    rw [List.length_append, commandBits_length, Nat.add_sub_cancel_left]
  rw [State.sdo, if_neg Bool.true_eq_false.mp, spiCommand_commandBits, hlength]
  rfl

/-- SDO in a write has no stated value (log 22). -/
theorem State.sdo_write (s : State) (address : BitVec 7) (bits : List Bool) :
    s.sdo true (commandBits false address ++ bits) = .unstated := by
  rw [State.sdo, if_neg Bool.true_eq_false.mp, spiCommand_commandBits]
  rfl

/-- SDO during the command byte has no stated value (log 22). -/
theorem State.sdo_short (s : State) {bits : List Bool} (h : bits.length < 8) : s.sdo true bits = .unstated := by
  rw [State.sdo, if_neg Bool.true_eq_false.mp, spiCommand_short h]

/-- Settles O60: each word at its address, and each transaction by its command byte. -/
theorem registerWindowReads : Obligations.RegisterWindowReads := by
  refine ⟨fun s => ⟨s.control.word_eq, s.statusWord_eq, rfl, fun hcanonical => ?_, rfl, rfl, rfl, s.readWord_link, rfl,
      rfl, rfl, rfl, fun p hp => State.readWord_of (registerAt_command hp),
      fun p hp => State.readWord_of (registerAt_result hp), fun a ha => ?_⟩,
    fun bits hshort => ⟨spiCommand_short hshort, ?_⟩, fun isRead address rest =>
      ⟨spiCommand_commandBits isRead address rest, fun hread => hread ▸ spiWrites_read address rest⟩,
    fun address words rest hrest => ?_, spiReadBurst_getElem?,
    fun s bits => ⟨rfl, State.sdo_short s, fun address =>
      ⟨State.sdo_write s address bits, State.sdo_read s address bits⟩⟩⟩
  · exact ⟨_, State.idsWhere_listsRecords hcanonical fun _ => iff_of_true rfl trivial, Word.field_zero _⟩
  · rw [State.readWord_eq, registerAt_none a ha]
    rfl
  · rw [spiWrites, spiCommand_short hshort]
  · intro writes
    have hwrites : writes = spiBurst address words := spiWrites_write address words hrest
    rw [hwrites]
    exact ⟨spiBurst_length words address, spiBurst_getElem? words address⟩

end Sys2Proof.Machine
end

section
/-! SUPPORT. The invariant family: the changes that the parts of an event are made of. Each says what it changes and
under which guard, so that an invariant is checked once for each change and not once for each command. -/

namespace Sys2Proof.Machine

/-! ### The laws by links and owners -/

/-- A Link Controller holds nothing of a conversation (R127, R142). -/
structure LinkController.Silent (c : LinkController) : Prop where
  tags      : c.tags = []
  requests  : c.requests = []
  answers   : c.answers = []
  reports   : c.reports = []
  helloOwed : c.helloOwed = false
  damage    : c.damage = 0
  silence   : c.silence = 0

/-- A window of at most 8 tags, all distinct (R133). -/
def LinkController.WindowFormed (c : LinkController) : Prop := c.tags.Nodup ∧ c.tags.length ≤ 8

/-- The link is DISABLED exactly when its enable bit is 0 (R125, R146). -/
def LinkController.EnableHeld (c : LinkController) : Prop := c.state = .disabled ↔ c.enable = false

/-- The laws of the links and of the owners' reports, by records and by links (R19, R20, R125, R127, R142). -/
structure State.LinksLawful (s : State) : Prop where
  heard      : ∀ id c, s.circuit id = some c → c.state = .closed → OwnerListens s c.owner
  silent     : ∀ n, (s.link n).state ≠ .up → (s.link n).Silent
  enabled    : ∀ n, (s.link n).EnableHeld
  unreported : s.control.reports = false → s.supQueue = []

/-- The laws as the statements give them. -/
theorem State.linksLawful_iff {s : State} : s.LinksLawful ↔ s.ClosedAreHeard ∧ s.DownLinksEmpty := by
  constructor
  · rintro ⟨hheard, hsilent, henabled, hunreported⟩
    refine ⟨⟨fun n hstate => ⟨(hsilent n hstate).reports, fun id c hc howner hclosed => ?_⟩, fun hreports =>
      ⟨hunreported hreports, fun id c hc howner hclosed => ?_⟩⟩, fun n => ⟨fun hstate => ?_, henabled n⟩⟩
    · have hlistens := hheard id c hc hclosed
      rw [howner] at hlistens
      exact hstate hlistens
    · have hlistens := hheard id c hc hclosed
      rw [howner] at hlistens
      exact Bool.false_ne_true (hreports.symm.trans hlistens)
    · obtain ⟨htags, hrequests, hanswers, hreports, hhello, hdamage, hsilence⟩ := hsilent n hstate
      exact ⟨htags, hrequests, hanswers, hreports, hhello, hdamage, hsilence⟩
  · rintro ⟨⟨hlinks, hsupervisor⟩, hempty⟩
    refine ⟨fun id c hc hclosed => ?_, fun n hstate => ?_, fun n => (hempty n).2, fun h => (hsupervisor h).1⟩
    · cases howner : c.owner with
      | link n => exact Classical.byContradiction fun hstate => (hlinks n hstate).2 id c hc howner hclosed
      | supervisor =>
        refine Bool.of_not_eq_false fun hreports => ?_
        exact (hsupervisor hreports).2 id c hc howner hclosed
    · obtain ⟨htags, hrequests, hanswers, hreports, hhello, hdamage, hsilence⟩ := (hempty n).1 hstate
      exact ⟨htags, hrequests, hanswers, hreports, hhello, hdamage, hsilence⟩

/-! ### The changes -/

/-- The records, the links and the report queues are as they were; what else changes keeps the canonical form and
the lists as the invariants ask. -/
structure Aside (s t : State) : Prop where
  table      : t.table = s.table
  links      : t.links = s.links
  supQueue   : t.supQueue = s.supQueue
  reports    : t.control.reports = s.control.reports
  changeList : s.cutover.changeList.Nodup → t.cutover.changeList.Nodup
  followUps  : (s.engine.followUps.map FollowUp.id).Nodup → (t.engine.followUps.map FollowUp.id).Nodup
  canonical  : s.Canonical → t.Canonical

/-- A Link Controller goes on in its state: its report queue may lose ids, its window stays formed, and outside UP it
stays silent. -/
structure LinkKept (a b : LinkController) : Prop where
  state   : b.state = a.state
  enable  : b.enable = a.enable
  reports : b.reports.Sublist a.reports
  window  : a.WindowFormed → b.WindowFormed
  silent  : a.state ≠ .up → a.Silent → b.Silent

/-- A record goes on with its owner, and is CLOSED only when it was or its owner listens (R17). -/
def Followed (s : State) (c d : Circuit) : Prop :=
  d.owner = c.owner ∧ (d.state = .closed → c.state = .closed ∨ OwnerListens s c.owner)

/-- The changes of the state that every event is made of, each with the guard under which it is made. -/
inductive Change (s : State) : State → Prop
  /-- A change of what is neither a record nor a link nor a report queue. -/
  | aside {t : State} (h : Aside s t) : Change s t
  /-- A link goes on in its state. -/
  | link (n : Link) (c : LinkController) (h : LinkKept (s.link n) c) : Change s (s.withLink n c)
  /-- A link in DOWN comes UP (R128, R139). -/
  | comesUp (n : Link) (h : (s.link n).state = .down) : Change s (s.comeUp n)
  /-- A link that is not UP is enabled or disabled (R144). -/
  | turned (n : Link) (c : LinkController) (hfrom : (s.link n).state ≠ .up ∨ (s.link n).enable = false)
      (hstate : c.state ≠ .up) (henable : c.EnableHeld)
      (hrest : c = { s.link n with
        state := c.state, downReason := c.downReason, enable := c.enable, rxVoid := c.rxVoid }) :
      Change s (s.withLink n c)
  /-- A link without CLOSED records falls silent (R142). -/
  | silenced (n : Link) (c : LinkController) (hstate : c.state ≠ .up) (hsilent : c.Silent)
      (henable : (s.link n).EnableHeld → (s.link n).state = .up → c.EnableHeld) (hup : (s.link n).state = .up)
      (hclosed : s.Canonical → ∀ id k, s.circuit id = some k → k.state = .closed → k.owner ≠ .link n) :
      Change s (s.withLink n c)
  /-- CONTROL is stored; when that clears the reports enable, the queue is empty and no record of the supervisor is
  CLOSED (R20). -/
  | control (x : Control) (h : x.reports = false → s.control.reports = false ∨ (s.supQueue = [] ∧
      (s.Canonical → ∀ id k, s.circuit id = some k → k.state = .closed → k.owner ≠ .supervisor))) :
      Change s (s.withControl x)
  /-- Ids are taken off the supervisor report queue (R159). -/
  | supQueue (ids : List Nat) (h : ids.Sublist s.supQueue) : Change s (s.withSupQueue ids)
  /-- The records change, each going on with its owner. -/
  | records (table : Table) (h : s.Canonical → Sparse.wf Record.initial table = true ∧
      ∀ id, Option.Rel (Followed s) (s.circuit id) ((s.withTable table).circuit id)) : Change s (s.withTable table)
  /-- A FREE record is taken for a new circuit (R16). -/
  | created (id : Nat) (r : Record) (hfree : s.circuit id = none)
      (hopen : ∀ c, r.circuit = some c → c.state ≠ .closed) : Change s (s.setRecord id r)
  /-- An id is queued for the owner of its record (R42, R86). -/
  | reported (o : Owner) (id : Nat) (h : s.Canonical → ∃ c, s.circuit id = some c ∧ c.owner = o) :
      Change s (s.queueReport o id)
  /-- A record becomes FREE (R21). -/
  | freed (id : Nat) : Change s (s.freeRecord id)
  /-- The soft reset (R163). -/
  | softReset : Change s s.softReset
  /-- Power-on reset (R24). -/
  | powerOn (pending : List Instr) : Change s { State.reset with pending := pending, resetAsserted := true }

/-- Changes, one after another. -/
abbrev Changes : State → State → Prop := Relation.ReflTransGen Change

/-- What every change keeps, changes keep one after another. -/
theorem Changes.keep {law : State → Prop} (hlaw : ∀ s t, law s → Change s t → law t) {s t : State} (h : Changes s t)
    (hs : law s) : law t := by
  induction h with
  | refl => exact hs
  | tail _ hchange ih => exact hlaw _ _ ih hchange

/-! ### What the changes do to links and records -/

/-- A law of every link holds after one link is replaced by one that meets it. -/
theorem State.forall_withLink {law : Link → LinkController → Prop} {s : State} {n : Link} {c : LinkController}
    (hc : law n c) (h : ∀ k, k ≠ n → law k (s.link k)) (k : Link) : law k ((s.withLink n c).link k) := by
  by_cases hk : k = n
  · rw [hk, State.withLink_link_same]
    exact hc
  · rw [State.withLink_link_other s c hk]
    exact h k hk

/-- A link of a record made FREE loses the id from its report queue and nothing else (R21). -/
theorem State.freeRecord_link (s : State) (id : Nat) (n : Link) :
    (s.freeRecord id).link n = { s.link n with reports := (s.link n).reports.filter (· ≠ id) } := by
  cases n <;> rfl

/-- The circuits after a record is made FREE. -/
theorem State.freeRecord_circuit {s : State} (h : s.Canonical) (id j : Nat) :
    (s.freeRecord id).circuit j = if j = id then none else s.circuit j := by
  rw [State.circuit_eq, (State.freeRecord_frees s id h.1).1 j, State.circuit_eq]
  by_cases hj : j = id
  · rw [if_pos hj, if_pos (decide_eq_true hj)]
  · rw [if_neg hj, if_neg (by simpa using hj)]

/-- The circuits after a record is replaced. -/
theorem State.setRecord_circuit {s : State} (h : s.Canonical) (id : Nat) (r : Record) (j : Nat) :
    (s.setRecord id r).circuit j = if j = id then r.circuit else s.circuit j := by
  rw [State.circuit_eq, State.setRecord_record s id r h.1, State.circuit_eq]
  split <;> rfl

/-- A link after an id is queued for an owner (R138). -/
theorem State.queueReport_link (s : State) (o : Owner) (id : Nat) (n : Link) : (s.queueReport o id).link n =
    if o = .link n ∧ (s.link n).state = .up then { s.link n with reports := appendOnce (s.link n).reports id }
    else s.link n := by
  rw [State.queueReport_eq]
  change (reportedLinks s o id).get n = _
  cases o with
  | supervisor => exact (if_neg (by rintro ⟨h, -⟩; exact nomatch h)).symm
  | link k =>
    dsimp only [reportedLinks]
    by_cases hk : k = n
    · subst hk
      split
      next hup => rw [Links.get_set_same, if_pos ⟨rfl, hup⟩]
      next hup => rw [if_neg fun h => hup h.2]; rfl
    · have hne : ¬(Owner.link k = .link n ∧ (s.link n).state = .up) := fun h => hk (Owner.link.inj h.1)
      rw [if_neg hne]
      split
      · exact Links.get_set_other _ _ (Ne.symm hk)
      · rfl

/-- The supervisor report queue after an id is queued for an owner (R161). -/
theorem State.queueReport_supQueue (s : State) (o : Owner) (id : Nat) : (s.queueReport o id).supQueue =
    if o = .supervisor ∧ s.control.reports = true then appendOnce s.supQueue id else s.supQueue := by
  rw [State.queueReport_eq]
  cases o with
  | supervisor => exact (if_congr (by simp) rfl rfl)
  | link k => exact (if_neg (by rintro ⟨h, -⟩; exact nomatch h)).symm

/-- Queuing an id once keeps a queue free of repeats. -/
theorem appendOnce_nodup {ids : List Nat} (h : ids.Nodup) (id : Nat) : (appendOnce ids id).Nodup := by
  unfold appendOnce
  split
  · exact h
  next hid => exact List.nodup_append.mpr ⟨h, List.nodup_singleton id, fun a ha b hb =>
      fun heq => hid (List.mem_singleton.mp hb ▸ heq ▸ ha)⟩

/-- The ids of a queue after one is queued once. -/
theorem mem_appendOnce {ids : List Nat} {id j : Nat} : j ∈ appendOnce ids id ↔ j ∈ ids ∨ j = id := by
  unfold appendOnce
  split
  next hid => exact ⟨.inl, fun h => h.elim (fun hj => hj) fun heq => heq ▸ hid⟩
  · simp

end Sys2Proof.Machine
end

section
/-! SUPPORT. The invariant family: the canonical form under every change. -/

namespace Sys2Proof.Machine

/-- The canonical form does not see the links, the lists, CONTROL and the latches. -/
theorem State.Canonical.of_sameBuffers {s t : State} (h : s.Canonical) (ht : t.table = s.table) (hm : t.maps = s.maps)
    (hs : t.switch = s.switch) (hb : t.mailbox = s.mailbox) : t.Canonical :=
  h.of_table (ht ▸ h.1) hm hs hb

/-- Every change keeps the canonical form. -/
theorem Change.canonical {s t : State} (h : s.Canonical) (hchange : Change s t) : t.Canonical := by
  cases hchange with
  | aside haside => exact haside.canonical h
  | link => exact h
  | comesUp => exact h
  | turned => exact h
  | silenced => exact h
  | control => exact h
  | supQueue => exact h
  | records table htable => exact h.of_table (htable h).1 rfl rfl rfl
  | created id r => exact h.of_table (s.setRecord_wf id r h.1) rfl rfl rfl
  | reported o id => exact h.queueReport o id
  | freed id => exact h.freeRecord id
  | softReset =>
    obtain ⟨-, -, -, hhalf0, hhalf1, hselection, -, -⟩ := h
    exact ⟨rfl, rfl, rfl, hhalf0, hhalf1, hselection, rfl, rfl⟩
  | powerOn => exact ⟨rfl, rfl, rfl, rfl, rfl, rfl, rfl, rfl⟩

/-- A law of canonical states that every change keeps is kept by changes one after another. -/
theorem Changes.keepLaw {law : State → Prop} (hlaw : ∀ s t, s.Canonical → law s → Change s t → law t) {s t : State}
    (h : Changes s t) (hcanonical : s.Canonical) (hs : law s) : t.Canonical ∧ law t :=
  h.keep (law := fun u => u.Canonical ∧ law u)
    (fun _ _ hu hchange => ⟨hchange.canonical hu.1, hlaw _ _ hu.1 hu.2 hchange⟩) ⟨hcanonical, hs⟩

end Sys2Proof.Machine
end

section
/-! SUPPORT. The invariant family: the lists and the report queues under every change (R33, R73, R133, R138, R161). -/

namespace Sys2Proof.Machine

/-! ### Lists without repeats -/

/-- The lists of a state are free of repeats when its own lists and its links' are. -/
theorem State.ListsDistinct.of_links {s t : State} (h : s.ListsDistinct) (hcutover : t.cutover = s.cutover)
    (hengine : t.engine = s.engine) (hqueue : t.supQueue.Nodup)
    (hlinks : ∀ n, (t.link n).reports.Nodup ∧ (t.link n).WindowFormed) : t.ListsDistinct := by
  obtain ⟨hlist, hitems, -, -⟩ := h
  exact ⟨hcutover ▸ hlist, hengine ▸ hitems, hqueue, hlinks⟩

/-- One link replaced by a link with a queue and a window as they should be. -/
theorem State.ListsDistinct.withLink {s : State} (h : s.ListsDistinct) {n : Link} {c : LinkController}
    (hreports : c.reports.Nodup) (hwindow : c.WindowFormed) : (s.withLink n c).ListsDistinct :=
  h.of_links rfl rfl h.2.2.1 <| State.forall_withLink (law := fun _ c => c.reports.Nodup ∧ c.WindowFormed)
    ⟨hreports, hwindow⟩ fun k _ => h.2.2.2 k

/-- The initial lists of a link. -/
theorem LinkController.initial_lists : LinkController.initial.reports.Nodup ∧ LinkController.initial.WindowFormed :=
  ⟨List.nodup_nil, List.nodup_nil, Nat.zero_le 8⟩

/-- Every change keeps the lists free of repeats. -/
theorem Change.listsDistinct {s t : State} (hcanonical : s.Canonical) (h : s.ListsDistinct) (hchange : Change s t) :
    t.ListsDistinct := by
  have ⟨hlist, hitems, hqueue, hlinks⟩ := h
  cases hchange with
  | aside haside =>
    refine ⟨haside.changeList hlist, haside.followUps hitems, haside.supQueue ▸ hqueue, fun n => ?_⟩
    rw [State.link, haside.links]
    exact hlinks n
  | link n c hkept => exact h.withLink ((hlinks n).1.sublist hkept.reports) (hkept.window (hlinks n).2)
  | comesUp n => exact h.withLink (State.idsWhere_nodup s _ hcanonical.1) (hlinks n).2
  | turned n c _ _ _ hrest =>
    rw [hrest]
    exact h.withLink (hlinks n).1 (hlinks n).2
  | silenced n c _ hsilent =>
    refine h.withLink ?_ ⟨?_, ?_⟩
    · rw [hsilent.reports]
      exact List.nodup_nil
    · rw [hsilent.tags]
      exact List.nodup_nil
    · rw [hsilent.tags]
      exact Nat.zero_le 8
  | control => exact h
  | supQueue ids hsublist => exact h.of_links rfl rfl (hqueue.sublist hsublist) hlinks
  | records => exact h
  | created => exact h
  | reported o id =>
    refine h.of_links (s.queueReport_cutover o id) (s.queueReport_engine o id) ?_ fun n => ?_
    · rw [State.queueReport_supQueue]
      split
      · exact appendOnce_nodup hqueue id
      · exact hqueue
    · rw [State.queueReport_link]
      split
      · exact ⟨appendOnce_nodup (hlinks n).1 id, (hlinks n).2⟩
      · exact hlinks n
  | freed id =>
    refine ⟨hlist.filter _, ?_, hqueue.filter _, fun n => ?_⟩
    · exact hitems.sublist (List.filter_sublist.map FollowUp.id)
    · rw [State.freeRecord_link]
      exact ⟨(hlinks n).1.filter _, (hlinks n).2⟩
  | softReset =>
    refine ⟨List.nodup_nil, List.nodup_nil, List.nodup_nil, fun n => ?_⟩
    cases n <;> exact LinkController.initial_lists
  | powerOn =>
    refine ⟨List.nodup_nil, List.nodup_nil, List.nodup_nil, fun n => ?_⟩
    cases n <;> exact LinkController.initial_lists

/-! ### Report queues and owners -/

/-- The record of an id is owned. -/
def State.Owns (s : State) (o : Owner) (id : Nat) : Prop := ∃ c, s.circuit id = some c ∧ c.owner = o

/-- The report queues hold the ids of records of their owners. -/
theorem State.queuesOwned_iff {s : State} : s.QueuesOwned ↔
    (∀ n, ∀ id ∈ (s.link n).reports, s.Owns (.link n) id) ∧ ∀ id ∈ s.supQueue, s.Owns .supervisor id := Iff.rfl

/-- One link replaced by a link whose queue holds no other id than its own. -/
theorem State.QueuesOwned.withLink {s : State} (h : s.QueuesOwned) {n : Link} {c : LinkController}
    (hc : ∀ id ∈ c.reports, s.Owns (.link n) id) : (s.withLink n c).QueuesOwned :=
  ⟨State.forall_withLink (law := fun k c => ∀ id ∈ c.reports, s.Owns (.link k) id) hc fun k _ => h.1 k, h.2⟩

/-- A change of the records under which each stays with its owner keeps the queues to their owners. -/
theorem State.QueuesOwned.of_owns {s t : State} (h : s.QueuesOwned) (howns : ∀ o id, s.Owns o id → t.Owns o id)
    (hlinks : ∀ n, (t.link n).reports = (s.link n).reports) (hqueue : t.supQueue = s.supQueue) : t.QueuesOwned := by
  refine ⟨fun n id hid => howns _ _ ?_, fun id hid => howns _ _ ?_⟩
  · rw [hlinks] at hid
    exact h.1 n id hid
  · rw [hqueue] at hid
    exact h.2 id hid

/-- A state with empty queues keeps them to their owners. -/
theorem State.QueuesOwned.of_empty {t : State} (hlinks : ∀ n, (t.link n).reports = []) (hqueue : t.supQueue = []) :
    t.QueuesOwned := by
  refine ⟨fun n id hid => ?_, fun id hid => ?_⟩
  · rw [hlinks] at hid
    exact absurd hid List.not_mem_nil
  · rw [hqueue] at hid
    exact absurd hid List.not_mem_nil

/-- Every change keeps the report queues to the records of their owners. -/
theorem Change.queuesOwned {s t : State} (hcanonical : s.Canonical) (h : s.QueuesOwned) (hchange : Change s t) :
    t.QueuesOwned := by
  cases hchange with
  | aside haside =>
    refine h.of_owns (fun o id howns => ?_) (fun n => ?_) haside.supQueue
    · rw [State.Owns, State.circuit, State.record, haside.table]
      exact howns
    · rw [State.link, haside.links]
      rfl
  | link n c hkept => exact h.withLink fun id hid => h.1 n id (hkept.reports.subset hid)
  | comesUp n =>
    refine h.withLink fun id hid => ?_
    obtain ⟨c, hc, howner⟩ := (State.mem_idsWhere s _ hcanonical.1 id).mp hid
    exact ⟨c, hc, eq_of_beq howner⟩
  | turned n c _ _ _ hrest =>
    rw [hrest]
    exact h.withLink (h.1 n)
  | silenced n c _ hsilent =>
    refine h.withLink fun id hid => ?_
    rw [hsilent.reports] at hid
    exact absurd hid List.not_mem_nil
  | control => exact h
  | supQueue ids hsublist => exact ⟨h.1, fun id hid => h.2 id (hsublist.subset hid)⟩
  | records table htable =>
    obtain ⟨-, hrecords⟩ := htable hcanonical
    refine h.of_owns (fun o id howns => ?_) (fun _ => rfl) rfl
    obtain ⟨c, hc, howner⟩ := howns
    have hid := hrecords id
    rw [hc] at hid
    cases hd : (s.withTable table).circuit id with
    | none => rw [hd] at hid; exact nomatch hid
    | some d =>
      rw [hd] at hid
      cases hid with
      | some hfollowed => exact ⟨d, hd, hfollowed.1.trans howner⟩
  | created id r hfree =>
    refine h.of_owns (fun o j howns => ?_) (fun _ => rfl) rfl
    obtain ⟨c, hc, howner⟩ := howns
    have hne : j ≠ id := fun heq => Option.some_ne_none c (hc.symm.trans (heq ▸ hfree))
    exact ⟨c, by rw [State.setRecord_circuit hcanonical, if_neg hne, hc], howner⟩
  | reported o id howns =>
    have howns := howns hcanonical
    refine ⟨fun n j hj => ?_, fun j hj => ?_⟩
    · rw [State.queueReport_circuit]
      rw [State.queueReport_link] at hj
      split at hj
      next hreceives =>
        rcases mem_appendOnce.mp hj with hold | rfl
        · exact h.1 n j hold
        · exact hreceives.1 ▸ howns
      next => exact h.1 n j hj
    · rw [State.queueReport_circuit]
      rw [State.queueReport_supQueue] at hj
      split at hj
      next hreceives =>
        rcases mem_appendOnce.mp hj with hold | rfl
        · exact h.2 j hold
        · exact hreceives.1 ▸ howns
      next => exact h.2 j hj
  | freed id =>
    have hkept : ∀ o j, j ≠ id → s.Owns o j → (s.freeRecord id).Owns o j := fun o j hne ⟨c, hc, howner⟩ =>
      ⟨c, by rw [State.freeRecord_circuit hcanonical, if_neg hne, hc], howner⟩
    refine ⟨fun n j hj => ?_, fun j hj => ?_⟩
    · rw [State.freeRecord_link] at hj
      obtain ⟨hmem, hne⟩ := List.mem_filter.mp hj
      exact hkept _ j (of_decide_eq_true hne) (h.1 n j hmem)
    · obtain ⟨hmem, hne⟩ := List.mem_filter.mp hj
      exact hkept _ j (of_decide_eq_true hne) (h.2 j hmem)
  | softReset => exact .of_empty (fun n => by cases n <;> rfl) rfl
  | powerOn => exact .of_empty (fun n => by cases n <;> rfl) rfl

end Sys2Proof.Machine
end

section
/-! SUPPORT. The invariant family: the laws of the links and of the CLOSED records under every change (R19, R20, R125,
R127, R142). -/

namespace Sys2Proof.Machine

/-- A link that is initial but for its state and configuration holds nothing of a conversation. -/
theorem LinkController.softReset_silent (c : LinkController) : c.softReset.Silent := ⟨rfl, rfl, rfl, rfl, rfl, rfl, rfl⟩

/-- The soft reset leaves a link DISABLED exactly when it is not enabled (R146). -/
theorem LinkController.softReset_enableHeld (c : LinkController) : c.softReset.EnableHeld := by
  cases henable : c.enable <;> simp [LinkController.EnableHeld, LinkController.softReset, henable]

/-- Owners listen alike in two states whose links are in the same states and whose supervisor is. -/
theorem OwnerListens.congr {s t : State} {o : Owner} (h : OwnerListens s o)
    (hlinks : ∀ n, (t.link n).state = (s.link n).state) (hreports : t.control.reports = s.control.reports) :
    OwnerListens t o := by
  cases o with
  | link n => exact (hlinks n).trans h
  | supervisor => exact hreports.trans h

/-- One link replaced, when the CLOSED records of its link are heard after it. -/
theorem State.LinksLawful.withLink {s : State} (h : s.LinksLawful) {n : Link} {c : LinkController}
    (hclosed : ∀ id k, s.circuit id = some k → k.state = .closed → k.owner = .link n → c.state = .up)
    (hsilent : c.state ≠ .up → c.Silent) (henable : c.EnableHeld) : (s.withLink n c).LinksLawful := by
  refine ⟨fun id k hk hstate => ?_, State.forall_withLink (law := fun _ c => c.state ≠ .up → c.Silent) hsilent
    fun j _ => h.silent j, State.forall_withLink (law := fun _ c => c.EnableHeld) henable fun j _ => h.enabled j,
    h.unreported⟩
  have hlistens := h.heard id k hk hstate
  cases howner : k.owner with
  | supervisor =>
    rw [howner] at hlistens
    exact hlistens
  | link j =>
    rw [howner] at hlistens
    change ((s.withLink n c).link j).state = .up
    by_cases hj : j = n
    · rw [hj, State.withLink_link_same]
      exact hclosed id k hk hstate (hj ▸ howner)
    · rw [State.withLink_link_other s c hj]
      exact hlistens

/-- Records and queues change while links and the supervisor's enable stand: every CLOSED record was CLOSED, or its
owner listens. -/
theorem State.LinksLawful.of_records {s t : State} (h : s.LinksLawful)
    (hclosed : ∀ id d, t.circuit id = some d → d.state = .closed →
      OwnerListens s d.owner ∨ ∃ c, s.circuit id = some c ∧ c.state = .closed ∧ c.owner = d.owner)
    (hlinks : ∀ n, ∃ ids, t.link n = { s.link n with reports := ids } ∧ ((s.link n).state ≠ .up →
      (s.link n).reports = [] → ids = []))
    (hreports : t.control.reports = s.control.reports)
    (hqueue : s.control.reports = false → s.supQueue = [] → t.supQueue = []) : t.LinksLawful := by
  have hstate : ∀ n, (t.link n).state = (s.link n).state := fun n => by
    obtain ⟨ids, hn, -⟩ := hlinks n
    rw [hn]
  refine ⟨fun id d hd hdstate => ?_, fun n hn => ?_, fun n => ?_, fun hclear => ?_⟩
  · rcases hclosed id d hd hdstate with hlistens | ⟨c, hc, hcstate, howner⟩
    · exact hlistens.congr hstate hreports
    · exact (howner ▸ h.heard id c hc hcstate).congr hstate hreports
  · obtain ⟨ids, hlink, hempty⟩ := hlinks n
    rw [hstate] at hn
    obtain ⟨htags, hrequests, hanswers, hids, hhello, hdamage, hsilence⟩ := h.silent n hn
    rw [hlink]
    exact ⟨htags, hrequests, hanswers, hempty hn hids, hhello, hdamage, hsilence⟩
  · obtain ⟨ids, hlink, -⟩ := hlinks n
    rw [hlink]
    exact h.enabled n
  · rw [hreports] at hclear
    exact hqueue hclear (h.unreported hclear)

/-- A link whose queue stands. -/
theorem reports_stand (s : State) (n : Link) : ∃ ids, s.link n = { s.link n with reports := ids } ∧
    ((s.link n).state ≠ .up → (s.link n).reports = [] → ids = []) := ⟨_, rfl, fun _ h => h⟩

/-- A state without records, with silent links and an empty supervisor report queue, is lawful. -/
theorem State.LinksLawful.of_cleared {t : State} (hcircuit : ∀ id, t.circuit id = none)
    (hsilent : ∀ n, (t.link n).Silent) (henabled : ∀ n, (t.link n).EnableHeld) (hqueue : t.supQueue = []) :
    t.LinksLawful :=
  ⟨fun id c hc => absurd ((hcircuit id).symm.trans hc).symm (Option.some_ne_none c), fun n _ => hsilent n, henabled,
    fun _ => hqueue⟩

/-- The laws do not see the latches. -/
theorem State.LinksLawful.raise {s : State} (h : s.LinksLawful) (e : Event) : (s.raise e).LinksLawful := by
  refine ⟨fun id c hc hstate => ?_, h.silent, h.enabled, h.unreported⟩
  exact (h.heard id c hc hstate).congr (fun _ => rfl) rfl

/-- Every change keeps the laws of the links. -/
theorem Change.linksLawful {s t : State} (hcanonical : s.Canonical) (h : s.LinksLawful) (hchange : Change s t) :
    t.LinksLawful := by
  cases hchange with
  | aside haside =>
    refine h.of_records (fun id d hd hstate => .inr ⟨d, ?_, hstate, rfl⟩) (fun n => ?_) haside.reports fun _ hqueue =>
      ?_
    · rw [State.circuit, State.record, haside.table] at hd
      exact hd
    · rw [State.link, haside.links]
      exact reports_stand s n
    · rw [haside.supQueue, hqueue]
  | link n c hkept =>
    refine h.withLink (fun id k hk hstate howner => ?_) (fun hstate => ?_) ?_
    · have hlistens := h.heard id k hk hstate
      rw [howner] at hlistens
      exact hkept.state.trans hlistens
    · rw [hkept.state] at hstate
      exact hkept.silent hstate (h.silent n hstate)
    · rw [LinkController.EnableHeld, hkept.state, hkept.enable]
      exact h.enabled n
  | comesUp n hdown =>
    have hcomes : (s.link n).EnableHeld → (s.link n).enable ≠ false := fun hheld hclear =>
      LinkState.noConfusion (hdown.symm.trans (hheld.mpr hclear))
    refine State.LinksLawful.raise (s := s.withLink n _) (h.withLink ?_ ?_ ?_) (.linkState n)
    · exact fun _ _ _ _ _ => rfl
    · exact fun hstate => (hstate rfl).elim
    · exact iff_of_false nofun (hcomes (h.enabled n))
  | turned n c hfrom hstate henable hrest =>
    have hnot : (s.link n).state ≠ .up := hfrom.elim (fun hne => hne) fun hclear =>
      ne_of_eq_of_ne ((h.enabled n).mpr hclear) nofun
    refine h.withLink (fun id k hk hclosed howner => ?_) (fun _ => ?_) henable
    · have hlistens := h.heard id k hk hclosed
      rw [howner] at hlistens
      exact absurd hlistens hnot
    · obtain ⟨htags, hrequests, hanswers, hids, hhello, hdamage, hsilence⟩ := h.silent n hnot
      rw [hrest]
      exact ⟨htags, hrequests, hanswers, hids, hhello, hdamage, hsilence⟩
  | silenced n c _ hsilent henable hup hclosed =>
    exact h.withLink (fun id k hk hstate howner => absurd howner (hclosed hcanonical id k hk hstate))
      (fun _ => hsilent) (henable (h.enabled n) hup)
  | control x hx =>
    refine ⟨fun id c hc hstate => ?_, h.silent, h.enabled, fun hclear => ?_⟩
    · have hlistens := h.heard id c hc hstate
      cases howner : c.owner with
      | link n =>
        rw [howner] at hlistens
        exact hlistens
      | supervisor =>
        rw [howner] at hlistens
        refine Bool.of_not_eq_false fun hclear => ?_
        rcases hx hclear with hfalse | ⟨-, hnone⟩
        · exact Bool.false_ne_true (hfalse.symm.trans hlistens)
        · exact hnone hcanonical id c hc hstate howner
    · exact (hx hclear).elim h.unreported And.left
  | supQueue ids hsublist =>
    refine h.of_records (fun id d hd hstate => .inr ⟨d, hd, hstate, rfl⟩) (reports_stand s) rfl fun _ hqueue => ?_
    rw [hqueue] at hsublist
    exact List.sublist_nil.mp hsublist
  | records table htable =>
    obtain ⟨-, hrecords⟩ := htable hcanonical
    refine h.of_records (fun id d hd hstate => ?_) (reports_stand s) rfl fun _ hqueue => hqueue
    have hid := hrecords id
    rw [hd] at hid
    cases hc : s.circuit id with
    | none => rw [hc] at hid; exact nomatch hid
    | some c =>
      rw [hc] at hid
      cases hid with
      | some hfollowed =>
        obtain ⟨howner, hclosed⟩ := hfollowed
        rcases hclosed hstate with hwas | hlistens
        · exact .inr ⟨c, rfl, hwas, howner.symm⟩
        · exact .inl (howner ▸ hlistens)
  | created id r hfree hopen =>
    refine h.of_records (fun j d hd hstate => ?_) (reports_stand s) rfl fun _ hqueue => hqueue
    rw [State.setRecord_circuit hcanonical] at hd
    split at hd
    · exact absurd hstate (hopen d hd)
    · exact .inr ⟨d, hd, hstate, rfl⟩
  | reported o id =>
    refine h.of_records (fun j d hd hstate => .inr ⟨d, ?_, hstate, rfl⟩) (fun n => ?_)
      (congrArg _ (s.queueReport_control o id)) fun hclear hqueue => ?_
    · rwa [State.queueReport_circuit] at hd
    · rw [State.queueReport_link]
      split
      next hreceives => exact ⟨_, rfl, fun hnot => absurd hreceives.2 hnot⟩
      next => exact reports_stand s n
    · rw [State.queueReport_supQueue, if_neg fun hreceives => Bool.false_ne_true (hclear.symm.trans hreceives.2),
        hqueue]
  | freed id =>
    refine h.of_records (fun j d hd hstate => ?_) (fun n => ⟨_, s.freeRecord_link id n, fun _ hnil => ?_⟩) rfl
      fun _ hqueue => ?_
    · rw [State.freeRecord_circuit hcanonical] at hd
      split at hd
      · exact nomatch hd
      · exact .inr ⟨d, hd, hstate, rfl⟩
    · rw [hnil]
      rfl
    · exact (congrArg (List.filter (· ≠ id)) hqueue :)
  | softReset =>
    refine .of_cleared (fun _ => rfl) (fun n => ?_) (fun n => ?_) rfl
    · cases n <;> exact LinkController.softReset_silent _
    · cases n <;> exact LinkController.softReset_enableHeld _
  | powerOn =>
    refine .of_cleared (fun _ => rfl) (fun n => ?_) (fun n => ?_) rfl
    · cases n <;> exact ⟨rfl, rfl, rfl, rfl, rfl, rfl, rfl⟩
    · cases n <;> exact iff_of_false nofun nofun

end Sys2Proof.Machine
end

section
/-! SUPPORT. The invariant family: the parts of an event, each on the records, the banks and the change list, with the
changes that it is made of. -/

namespace Sys2Proof.Machine

/-! ### Records that go on -/

/-- A circuit goes on but for its place in the tree and its lease. -/
structure Circuit.Alike (c d : Circuit) : Prop where
  rest  : d = { c with kind := d.kind, leaseLength := d.leaseLength, leaseLeft := d.leaseLeft }
  trunk : d.isTrunk = c.isTrunk

theorem Circuit.Alike.refl (c : Circuit) : c.Alike c := ⟨rfl, rfl⟩

/-- The circuits of two states go on, record by record. -/
def AlikeCircuits (s t : State) : Prop := ∀ id, Option.Rel Circuit.Alike (s.circuit id) (t.circuit id)

theorem alikeOption_refl (x : Option Circuit) : Option.Rel Circuit.Alike x x := by
  cases x
  · exact .none
  · exact .some (.refl _)

theorem AlikeCircuits.refl (s : State) : AlikeCircuits s s := fun _ => alikeOption_refl _

/-- A circuit that goes on stays with its owner. -/
theorem Circuit.Alike.followed {c d : Circuit} (h : c.Alike d) (s : State) : Followed s c d := by
  rw [h.rest]
  exact ⟨rfl, .inl⟩

theorem AlikeCircuits.followed {s t : State} (h : AlikeCircuits s t) (id : Nat) :
    Option.Rel (Followed s) (s.circuit id) (t.circuit id) := by
  have hid := h id
  cases hc : s.circuit id with
  | none => cases hd : t.circuit id with
    | none => exact .none
    | some d => rw [hc, hd] at hid; exact nomatch hid
  | some c => cases hd : t.circuit id with
    | none => rw [hc, hd] at hid; exact nomatch hid
    | some d =>
      rw [hc, hd] at hid
      cases hid with
      | some halike => exact .some (halike.followed s)

/-- A change of a branch list leaves the circuits alike (R11). -/
theorem State.updateBranches_alike {s : State} (h : s.Canonical) (parent : Nat) (f : List Nat → List Nat) :
    AlikeCircuits s (s.updateBranches parent f) := by
  intro id
  rw [State.circuit_eq, State.circuit_eq, State.updateBranches_record s parent f h.1]
  split
  next c hc =>
    split
    next branches isOpen hkind =>
      split
      next heq =>
        rw [hc]
        exact .some ⟨rfl, by rw [Circuit.isTrunk, Circuit.isTrunk, hkind]⟩
      next => exact alikeOption_refl _
    next => exact alikeOption_refl _
  next => exact alikeOption_refl _

/-- A branch that leaves its parent's branch list leaves the circuits alike (R11). -/
theorem State.leaveParent_alike {s : State} (h : s.Canonical) (id : Nat) (c : Circuit) :
    AlikeCircuits s (s.leaveParent id c) := by
  unfold State.leaveParent
  split
  · exact State.updateBranches_alike h _ _
  · exact .refl s

/-- The countdown leaves the circuits alike (R113). -/
theorem State.countLeases_alike (s : State) : AlikeCircuits s (s.withTable (countLeases s.table)) := by
  intro id
  have hcircuit : (s.withTable (countLeases s.table)).circuit id = (s.circuit id).map Circuit.countLease := by
    rw [State.circuit_eq, State.record, State.withTable_table, countLeases_read]
    rfl
  rw [hcircuit]
  cases s.circuit id with
  | none => exact .none
  | some c =>
    refine .some ?_
    unfold Circuit.countLease
    split
    · exact ⟨rfl, rfl⟩
    · exact .refl c


/-! ### Changes of lists and entries -/

/-- An edit batch is a change aside (R28). -/
theorem Change.editStaged (s : State) (batch : EditBatch) : Change s (s.editStaged batch) :=
  .aside ⟨rfl, rfl, rfl, rfl, fun h => h, fun h => h, fun h => h.editStaged batch⟩

/-- An id is listed once (R34). -/
theorem Change.enlist (s : State) (id : Nat) : Change s (s.enlist id) :=
  .aside ⟨rfl, rfl, rfl, rfl, fun h => appendOnce_nodup h id, fun h => h, fun h => h⟩

/-- An id is taken off the list (R35). -/
theorem Change.unlist (s : State) (id : Nat) : Change s (s.unlist id) :=
  .aside ⟨rfl, rfl, rfl, rfl, fun h => h.filter _, fun h => h, fun h => h⟩

/-- The follow-up items of an id are removed (R75). -/
theorem Change.removeFollowUp (s : State) (id : Nat) : Change s (s.removeFollowUp id) :=
  .aside ⟨rfl, rfl, rfl, rfl, fun h => h, fun h => h.sublist (List.filter_sublist.map FollowUp.id), fun h => h⟩

/-- A latch is raised (R178). -/
theorem Change.raise (s : State) (e : Event) : Change s (s.raise e) :=
  .aside ⟨rfl, rfl, rfl, rfl, fun h => h, fun h => h, fun h => h⟩

/-- The merge rule keeps one item to an id (R74). -/
theorem offerTo_nodup {queue : List FollowUp} (h : (queue.map FollowUp.id).Nodup) (item : FollowUp) :
    ((offerTo queue item).map FollowUp.id).Nodup := by
  by_cases hstands : item.id ∈ queue.map FollowUp.id
  · obtain ⟨standing, hmem, hid⟩ := List.mem_map.mp hstands
    rw [offerTo_standing h hmem hid]
    split
    · have hsame : (queue.map fun f => if f.id = item.id then item else f).map FollowUp.id = queue.map FollowUp.id := by
        rw [List.map_map]
        refine List.map_congr_left fun f _ => ?_
        simp only [Function.comp_apply]
        split
        next heq => exact heq.symm
        next => rfl
      rwa [hsame]
    · exact h
  · rw [offerTo_absent hstands, List.map_append]
    exact List.nodup_append.mpr ⟨h, List.nodup_singleton _, fun a ha b hb heq =>
      hstands (List.mem_singleton.mp hb ▸ heq ▸ ha)⟩

/-- An item is offered to the follow-up queue (R74). -/
theorem Change.offer (s : State) (kind : FollowKind) (id : Nat) : Change s (s.offer kind id) :=
  .aside ⟨rfl, rfl, rfl, rfl, fun h => h, fun h => offerTo_nodup h _, fun h => h⟩

/-! ### Changes of records -/

/-- The records go on alike. -/
theorem Change.alike {s : State} (table : Table)
    (h : s.Canonical → Sparse.wf Record.initial table = true ∧ AlikeCircuits s (s.withTable table)) :
    Change s (s.withTable table) :=
  .records table fun hcanonical => ⟨(h hcanonical).1, (h hcanonical).2.followed⟩

/-- A branch list changes (R11). -/
theorem Change.updateBranches (s : State) (parent : Nat) (f : List Nat → List Nat) :
    Change s (s.updateBranches parent f) := by
  have heq := s.updateBranches_eq parent f
  have halike : s.Canonical → AlikeCircuits s (s.updateBranches parent f) := fun h =>
      State.updateBranches_alike h parent f
  rw [heq] at halike ⊢
  exact .alike _ fun h => ⟨s.updateBranches_wf parent f h.1, halike h⟩

/-- A branch leaves its parent's branch list (R11). -/
theorem Change.leaveParent (s : State) (id : Nat) (c : Circuit) : Change s (s.leaveParent id c) := by
  have heq := s.leaveParent_eq id c
  have halike : s.Canonical → AlikeCircuits s (s.leaveParent id c) := fun h => State.leaveParent_alike h id c
  rw [heq] at halike ⊢
  exact .alike _ fun h => ⟨s.leaveParent_wf id c h.1, halike h⟩

/-- The circuit of one record changes, the record going on with its owner. -/
theorem Change.setCircuit {s : State} {id : Nat} {d : Circuit}
    (h : s.Canonical → ∃ c, s.circuit id = some c ∧ Followed s c d) : Change s (s.setCircuit id d) := by
  refine .records _ fun hcanonical => ⟨s.setCircuit_wf id d hcanonical.1, fun j => ?_⟩
  obtain ⟨c, hc, hfollowed⟩ := h hcanonical
  have hrecord : Option.Rel (Followed s) (s.circuit j) ((s.setCircuit id d).circuit j) := by
    rw [s.setCircuit_circuit id d hcanonical.1 j]
    split
    next hj =>
      rw [hj, hc]
      exact .some hfollowed
    next => exact (AlikeCircuits.refl s).followed j
  exact hrecord

/-! ### Releases and the cutover of one record -/

/-- The owner test of a circuit whose record stands (R17). -/
theorem Changes.ownerTest {s : State} {id : Nat} {c d : Circuit} (h : s.Canonical) (hc : s.circuit id = some c)
    (howner : d.owner = c.owner) : Changes s (s.ownerTest id d) := by
  by_cases hlistens : OwnerListens s d.owner
  · rw [State.ownerTest_heard s id d hlistens]
    have hclosed : Change s (s.setCircuit id { d with state := .closed }) :=
      .setCircuit fun _ => ⟨c, hc, howner, fun _ => .inr (howner ▸ hlistens)⟩
    refine (Relation.ReflTransGen.single hclosed).tail (.reported d.owner id fun _ => ?_)
    rw [State.setCircuit_circuit _ _ _ h.1, if_pos rfl]
    exact ⟨_, rfl, rfl⟩
  · rw [State.ownerTest_unheard s id d hlistens]
    exact .single (.freed id)

/-- A branch's own record stands when the branch leaves its parent's branch list (R11). -/
theorem State.leaveParent_circuit_self {s : State} (h : s.Canonical) {id : Nat} {c : Circuit}
    (hc : s.circuit id = some c) : (s.leaveParent id c).circuit id = some c := by
  have hself : (withoutBranch id c s id).circuit = some c := by
    unfold withoutBranch
    rw [← State.circuit_eq, hc]
    split
    next parent p hkind hp =>
      split
      next branches isOpen htrunk =>
        cases hp
        exact nomatch hkind.symm.trans htrunk
      next => exact hc
    next => exact hc
  rw [State.circuit_eq, State.leaveParent_record s id c h.1, hself]

/-- A release of a PENDING record (R95). -/
theorem Changes.releasePending {s : State} (h : s.Canonical) (reason : CloseReason) {id : Nat} {c : Circuit}
    (hc : s.circuit id = some c) : Changes s (s.releasePending reason id c) := by
  have hcleared : (((s.editStaged (c.clearBatch c.staged)).unlist id).removeFollowUp id).Canonical :=
    h.editStaged (c.clearBatch c.staged)
  have hbefore : Changes s (((s.editStaged (c.clearBatch c.staged)).unlist id).removeFollowUp id) :=
    .tail (.tail (.single (.editStaged s _)) (.unlist _ id)) (.removeFollowUp _ id)
  exact (hbefore.tail (.leaveParent _ id c)).trans
    (Changes.ownerTest (hcleared.leaveParent id c) (State.leaveParent_circuit_self hcleared hc) rfl)

/-- A release of an ACTIVE or SUSPENDED record (R96). -/
theorem Changes.releaseLive {s : State} (h : s.Canonical) (reason : CloseReason) {id : Nat} {c : Circuit}
    (hc : s.circuit id = some c) : Changes s (s.releaseLive reason id c) := by
  have hcleared : ((s.editStaged (c.clearBatch c.staged)).removeFollowUp id).Canonical :=
    h.editStaged (c.clearBatch c.staged)
  have hbefore : Changes s ((s.editStaged (c.clearBatch c.staged)).removeFollowUp id) :=
    .tail (.single (.editStaged s _)) (.removeFollowUp _ id)
  have hreleasing := hbefore.tail (.setCircuit (id := id)
    (d := { c with staged := [], pendingChange := none, closeReason := some reason, state := .releasing })
    fun _ => ⟨c, hc, rfl, fun hclosed => nomatch hclosed⟩)
  refine (hreleasing.tail (.enlist _ id)).tail (.reported c.owner id fun _ => ?_)
  rw [State.enlist_circuit, State.setCircuit_circuit _ _ _ hcleared.1, if_pos rfl]
  exact ⟨_, rfl, rfl⟩

/-- The release of one record for its own state. -/
theorem Changes.releaseRecord {s : State} (h : s.Canonical) (reason : CloseReason) (id : Nat) :
    Changes s (s.releaseRecord reason id) := by
  unfold State.releaseRecord
  split
  · exact .refl
  next c hc =>
    split
    · exact Changes.releasePending h reason hc
    · exact Changes.releaseLive h reason hc
    · exact Changes.releaseLive h reason hc
    · exact .refl
    · exact .refl

/-- A cutover leaves a record with its owner, and closes none: a RELEASING record meets the owner test (R41). -/
theorem Circuit.cutOver_followed (c : Circuit) (cycle : Word) (s : State) : Followed s c (c.cutOver cycle) := by
  unfold Circuit.cutOver
  dsimp only
  split
  case h_1 | h_2 | h_3 => exact ⟨rfl, fun hclosed => nomatch hclosed⟩
  all_goals exact ⟨rfl, .inl⟩

/-- The emptying of a branch list leaves a circuit with its owner (R11). -/
theorem Circuit.leaveTree_owner (c : Circuit) : c.leaveTree.owner = c.owner := by
  unfold Circuit.leaveTree
  split <;> rfl

/-- The cutover applies one record (R40 to R43). -/
theorem Changes.applyRecord {s : State} (h : s.Canonical) (id : Nat) : Changes s (s.applyRecord id) := by
  unfold State.applyRecord
  split
  · exact .refl
  next c hc =>
    obtain ⟨howner, -⟩ := c.cutOver_followed s.timing.cycle s
    dsimp only
    split
    · exact .trans (.single (.leaveParent s id c)) (Changes.ownerTest (h.leaveParent id c)
        (State.leaveParent_circuit_self h hc) ((Circuit.leaveTree_owner _).trans howner))
    · have hset : Change s (s.setCircuit id (c.cutOver s.timing.cycle)) :=
        .setCircuit fun _ => ⟨c, hc, c.cutOver_followed _ s⟩
      have happlied : Changes s ((s.setCircuit id (c.cutOver s.timing.cycle)).queueReport c.owner id) := by
        refine (Relation.ReflTransGen.single hset).tail (.reported c.owner id fun _ => ?_)
        rw [State.setCircuit_circuit _ _ _ h.1, if_pos rfl]
        exact ⟨_, rfl, howner⟩
      split
      · exact happlied.tail (.offer _ .drop id)
      · exact happlied

/-- The cutover applies records one after another (R39). -/
theorem Changes.applyRecords (ids : List Nat) : ∀ {s : State}, s.Canonical →
    Changes s (ids.foldl (fun s id => s.applyRecord id) s) := by
  induction ids with
  | nil => exact fun _ => .refl
  | cons id rest ih => exact fun h => .trans (Changes.applyRecord h id) (ih (h.applyRecord id))

/-- The list is emptied and the flag cleared (R44). -/
theorem Change.clearList (s : State) :
    Change s (s.withCutover { s.cutover with changeList := [], armed := false }) :=
  .aside ⟨rfl, rfl, rfl, rfl, fun _ => List.nodup_nil, fun h => h, fun h => h⟩

/-- The banks change roles (R44). -/
theorem Change.exchange (s : State) :
    Change s (s.withMaps { s.maps with live := otherBank s.maps.live, state := .copying }) :=
  .aside ⟨rfl, rfl, rfl, rfl, fun h => h, fun h => h, fun h => h⟩

/-- A cutover (R39, R44). -/
theorem Changes.cutOver {s : State} (h : s.Canonical) : Changes s s.cutOver :=
  .tail (.tail (.tail (Changes.applyRecords s.cutover.changeList h) (.clearList _)) (.exchange _)) (.raise _ .cutover)

/-- A FREE record is taken for a new circuit (R16). -/
theorem Changes.takeRecord {s : State} {id : Nat} {c : Circuit} (hfree : s.circuit id = none)
    (hopen : c.state ≠ .closed) : Changes s (s.takeRecord id c) := by
  have hcreated : Change s (s.setRecord id { generation := (s.record id).generation + 1, circuit := some c }) :=
    .created id _ hfree fun d hd => Option.some.inj hd ▸ hopen
  exact .tail (.tail (.single hcreated) (.editStaged _ _)) (.enlist _ id)

/-- The staged form of one record changes, with its entries, and its id is listed (R34). -/
theorem Changes.restage {s : State} {id : Nat} {c d : Circuit} (batch : EditBatch) (hc : s.circuit id = some c)
    (howner : d.owner = c.owner) (hstate : d.state = c.state) :
    Changes s (((s.setCircuit id d).editStaged batch).enlist id) := by
  have hset : Change s (s.setCircuit id d) := .setCircuit fun _ => ⟨c, hc, howner, fun h => .inl (hstate ▸ h)⟩
  exact .tail (.tail (.single hset) (.editStaged _ _)) (.enlist _ id)

/-- Records are made FREE one after another (R21). -/
theorem Changes.freeAll (ids : List Nat) : ∀ s : State, Changes s (s.freeAll ids) := by
  induction ids with
  | nil => exact fun _ => .refl
  | cons id rest ih => exact fun s => .trans (.single (.freed id)) (ih (s.freeRecord id))

end Sys2Proof.Machine
end

section
/-! SUPPORT. The invariant family: the parts of an event. A part is a change of the records, the banks and the change
list that the invariants of the records see as one; `exec_parts` below says that every command is made of parts. -/

namespace Sys2Proof.Machine

/-! ### Records that are thinned out -/

/-- A record goes on alike, or was CLOSED and is FREE. -/
def Thins (a b : Option Circuit) : Prop :=
  Option.Rel Circuit.Alike a b ∨ (b = none ∧ ∃ c, a = some c ∧ c.state = .closed)

/-- Records go on alike or, CLOSED, become FREE; the banks are as they were, and no id joins the change list or leaves
it but with its record. -/
structure Thinned (s t : State) : Prop where
  circuit : ∀ id, Thins (s.circuit id) (t.circuit id)
  maps    : t.maps = s.maps
  listed  : ∀ id, id ∈ t.cutover.changeList → id ∈ s.cutover.changeList
  kept    : ∀ id, t.circuit id ≠ none → id ∈ s.cutover.changeList → id ∈ t.cutover.changeList

/-- Nothing of the records changes. -/
theorem Thinned.of_same {s t : State} (htable : t.table = s.table) (hmaps : t.maps = s.maps)
    (hlist : t.cutover.changeList = s.cutover.changeList) : Thinned s t := by
  refine ⟨fun id => .inl ?_, hmaps, fun _ hid => hlist ▸ hid, fun _ _ hid => hlist ▸ hid⟩
  rw [State.circuit, State.circuit, State.record, State.record, htable]
  exact alikeOption_refl _

/-- The records go on alike. -/
theorem Thinned.of_alike {s t : State} (halike : AlikeCircuits s t) (hmaps : t.maps = s.maps)
    (hlist : t.cutover.changeList = s.cutover.changeList) : Thinned s t :=
  ⟨fun id => .inl (halike id), hmaps, fun _ hid => hlist ▸ hid, fun _ _ hid => hlist ▸ hid⟩

/-- CLOSED records become FREE (R21). -/
theorem Frees.thinned {freed : Nat → Bool} {s t : State} (h : Frees freed s t)
    (hclosed : ∀ id, freed id = true → ∃ c, s.circuit id = some c ∧ c.state = .closed) : Thinned s t := by
  obtain ⟨hrecord, -, -, -, hcutover, hmaps, -⟩ := h
  have hcircuit : ∀ id, t.circuit id = if freed id then Option.none else s.circuit id := fun id => by
    rw [State.circuit_eq, hrecord, State.circuit_eq]
    split <;> rfl
  refine ⟨fun id => ?_, hmaps, fun id hid => ?_, fun id hstands hid => ?_⟩
  · rw [hcircuit]
    split
    next hfreed => exact .inr ⟨rfl, hclosed id hfreed⟩
    next => exact .inl (alikeOption_refl _)
  · rw [hcutover] at hid
    exact (List.mem_filter.mp hid).1
  · rw [hcutover]
    refine List.mem_filter.mpr ⟨hid, ?_⟩
    rw [hcircuit] at hstands
    cases hfreed : freed id with
    | false => rfl
    | true => rw [if_pos hfreed] at hstands; exact absurd rfl hstands

/-- The record of an id is one of the CLOSED records of an owner. -/
theorem closed_of_isClosedOf {s : State} {o : Owner} {id : Nat} (h : isClosedOf s o id = true) :
    ∃ c, s.circuit id = some c ∧ c.state = .closed := by
  cases hc : s.circuit id with
  | none => rw [isClosedOf, hc] at h; exact nomatch h
  | some c => exact ⟨c, rfl, ((isClosedOf_iff hc).mp h).2⟩

/-! ### The parts -/

/-- A circuit that a CLAIM or a BRANCH may take a FREE record for (R16): PENDING, on free slots, and formed. -/
structure NewCircuit (s : State) (id : Nat) (c : Circuit) : Prop where
  free    : s.circuit id = none
  state   : c.state = .pending
  live    : c.live = []
  pass    : c.stagedTreatment = .pass
  dst     : (c.staged.map Pair.dst).Nodup
  outputs : ∀ p ∈ c.staged, p.dst ∈ s.freeOutputs c.dstTrunk
  inputs  : c.isTrunk = true → ∀ p ∈ c.staged, p.src ∈ s.freeInputs c.srcTrunk
  formed  : s.RecordsFormed → c.Formed True

/-- A SUSPEND of an ACTIVE record or a RESUME of a SUSPENDED one, with no change pending (R105, R106). -/
def Treats (c : Circuit) (t : Treatment) (change : PendingChange) : Prop :=
  c.pendingChange = none ∧
    ((c.state = .active ∧ t = .fill ∧ change = .suspend) ∨ (c.state = .suspended ∧ t = .pass ∧ change = .resume))

/-- The parts that every event is made of. -/
inductive Part (s : State) : State → Prop
  /-- Changes that leave the banks and at most free CLOSED records. -/
  | plain {t : State} (hchanges : s.Canonical → Changes s t) (hclock : s.TimingSound → t.TimingSound)
      (hthinned : s.Canonical → Thinned s t) : Part s t
  /-- A FREE record is taken for a new circuit (R16). -/
  | taken (id : Nat) (c : Circuit) (hsynced : s.maps.state = .synced) (hnew : NewCircuit s id c) :
      Part s (s.takeRecord id c)
  /-- Phase 1 of a RESHAPE (R100). -/
  | reshaped (id : Nat) (c : Circuit) (width : Nat) (placement : Placement) (pairs : List Pair)
      (hsynced : s.maps.state = .synced) (hc : s.circuit id = some c) (hstate : reshapeState c = none)
      (hwidth : 1 ≤ width ∧ width ≤ 16) (hplacement : placement ≠ .fixed)
      (hpairs : s.reshapePairs c width placement = .ok pairs) : Part s (s.reshapeTo id c width pairs)
  /-- A SUSPEND or a RESUME (R105, R106). -/
  | treated (id : Nat) (c : Circuit) (t : Treatment) (change : PendingChange) (hsynced : s.maps.state = .synced)
      (hc : s.circuit id = some c) (htreats : Treats c t change) : Part s (s.treat id c t change)
  /-- A DROP item (R77). -/
  | dropped (id : Nat) (hsynced : s.maps.state = .synced) : Part s (s.dropMarked id)
  /-- A release of one record (R95, R96). -/
  | released (reason : CloseReason) (id : Nat) (hsynced : s.maps.state = .synced) : Part s (s.releaseRecord reason id)
  /-- A cutover (R39 to R44). -/
  | cutOver (hsynced : s.maps.state = .synced) : Part s s.cutOver
  /-- The copy completion (R31). -/
  | copied : Part s s.completeCopy
  /-- The soft reset (R163). -/
  | softReset : Part s s.softReset
  /-- Power-on reset (R24). -/
  | powerOn (pending : List Instr) : Part s { State.reset with pending := pending, resetAsserted := true }

/-- Parts, one after another. -/
abbrev Parts : State → State → Prop := Relation.ReflTransGen Part

/-! ### What the parts are made of -/

/-- A DROP item changes the staged form of one record or nothing (R76, R77). -/
theorem State.dropMarked_eq (s : State) (id : Nat) : s.dropMarked id = s ∨
    ∃ c, s.circuit id = some c ∧ c.isReleasable = true ∧ c.pendingChange = some .reshapeDrop ∧
      s.dropMarked id = ((s.setCircuit id { c with staged := c.staged.filter fun p => !p.retiring }).editStaged
        (c.clearBatch (c.staged.filter fun p => p.retiring))).enlist id := by
  unfold State.dropMarked
  split
  · exact .inl rfl
  next c hc =>
    split
    next happlies => exact .inr ⟨c, hc, happlies.1, happlies.2, rfl⟩
    next => exact .inl rfl

/-- The copy completion is a change aside (R31). -/
theorem Changes.completeCopy (s : State) : Changes s s.completeCopy := by
  cases hstate : s.maps.state with
  | synced => rw [State.completeCopy_synced hstate]
  | copying =>
    rw [State.completeCopy_copying hstate]
    refine .single (.aside ⟨rfl, rfl, rfl, rfl, fun h => h, fun h => h, fun h => ?_⟩)
    have hlive := State.liveBank_wf h
    obtain ⟨htable, hbankA, hbankB, hrest⟩ := h
    refine ⟨htable, ?_, ?_, hrest⟩
    all_goals
      unfold MapStore.setStaged
      split
      all_goals assumption

/-- Every part is made of changes. -/
theorem Part.changes {s t : State} (h : s.Canonical) (hpart : Part s t) : Changes s t := by
  cases hpart with
  | plain hchanges => exact hchanges h
  | taken id c _ hnew => exact Changes.takeRecord hnew.free (ne_of_eq_of_ne hnew.state nofun)
  | reshaped id c width placement pairs _ hc => exact Changes.restage _ hc rfl rfl
  | treated id c treatment change _ hc => exact Changes.restage _ hc rfl rfl
  | dropped id =>
    rcases s.dropMarked_eq id with hsame | ⟨c, hc, -, -, hdrops⟩
    · rw [hsame]
    · rw [hdrops]
      exact Changes.restage _ hc rfl rfl
  | released reason id => exact Changes.releaseRecord h reason id
  | cutOver => exact Changes.cutOver h
  | copied => exact Changes.completeCopy s
  | softReset => exact .single .softReset
  | powerOn pending => exact .single (.powerOn pending)

/-- A law of canonical states that every change keeps is kept by parts one after another. -/
theorem Parts.keepLaw {law : State → Prop} (hlaw : ∀ s t, s.Canonical → law s → Change s t → law t) {s t : State}
    (h : Parts s t) (hcanonical : s.Canonical) (hs : law s) : t.Canonical ∧ law t := by
  induction h with
  | refl => exact ⟨hcanonical, hs⟩
  | tail _ hpart ih => exact (hpart.changes ih.1).keepLaw hlaw ih.1 ih.2

/-- A law of canonical states that every part keeps is kept by parts one after another. -/
theorem Parts.keepPartLaw {law : State → Prop} (hlaw : ∀ s t, s.Canonical → law s → Part s t → law t) {s t : State}
    (h : Parts s t) (hcanonical : s.Canonical) (hs : law s) : t.Canonical ∧ law t := by
  induction h with
  | refl => exact ⟨hcanonical, hs⟩
  | tail _ hpart ih =>
    have hnext := (hpart.changes ih.1).keepLaw (law := fun _ => True) (fun _ _ _ _ _ => trivial) ih.1 trivial
    exact ⟨hnext.1, hlaw _ _ ih.1 ih.2 hpart⟩

/-! ### The Timing Unit -/

/-- The law of the Timing Unit sees the Timing Unit and the settle count alone. -/
theorem State.TimingSound.congr {s t : State} (h : s.TimingSound) (htiming : t.timing = s.timing)
    (hsettle : t.cutover.settle = s.cutover.settle) : t.TimingSound := by
  rw [State.TimingSound, htiming, hsettle]
  exact h

/-- A release leaves the settle count (R38). -/
theorem State.releaseRecord_settle (s : State) (reason : CloseReason) (id : Nat) :
    (s.releaseRecord reason id).cutover.settle = s.cutover.settle := by
  unfold State.releaseRecord
  split
  · rfl
  next c hc =>
    have hlive : (s.releaseLive reason id c).cutover.settle = s.cutover.settle := by
      rw [State.releaseLive, State.queueReport_cutover]
      rfl
    split
    · rw [State.releasePending, (State.ownerTest_confined _ id _).settle, State.leaveParent_eq]
      rfl
    · exact hlive
    · exact hlive
    · rfl
    · rfl

/-- Every part keeps the Timing Unit sound. -/
theorem Part.timingSound {s t : State} (h : s.TimingSound) (hpart : Part s t) : t.TimingSound := by
  cases hpart with
  | plain _ hclock => exact hclock h
  | taken => exact h
  | reshaped => exact h
  | treated => exact h
  | dropped id =>
    rcases s.dropMarked_eq id with hsame | ⟨c, -, -, -, hdrops⟩
    · rwa [hsame]
    · rw [hdrops]
      exact h
  | released reason id =>
    obtain ⟨-, -, -, -, -, -, htiming⟩ := s.releaseRecord_same reason id
    exact h.congr htiming (s.releaseRecord_settle reason id)
  | cutOver =>
    have hconfined := s.applyRecords_confined s.cutover.changeList
    obtain ⟨-, -, -, -, -, -, htiming⟩ := hconfined.outside
    exact h.congr htiming hconfined.settle
  | copied =>
    cases hstate : s.maps.state with
    | synced => rwa [State.completeCopy_synced hstate]
    | copying =>
      rw [State.completeCopy_copying hstate]
      exact h
  | softReset =>
    obtain ⟨hlocked, hpending, hframe, -⟩ := h
    exact ⟨hlocked, hpending, hframe, Nat.zero_le 2⟩
  | powerOn =>
    obtain ⟨-, -, -, -, -, -, -, hsound, -⟩ := resetIsSound
    exact hsound

end Sys2Proof.Machine
end

section
/-! SUPPORT. The invariant family: the operations of the Link Controllers, the registers and the mailbox, part by
part. -/

namespace Sys2Proof.Machine

/-! ### Parts of one change -/

/-- An operation is made of parts. -/
def InParts (f : State → State) : Prop := ∀ s : State, Parts s (f s)

/-- An operation applied for each entry of a list is made of parts when it is for one entry. -/
theorem InParts.foldl {α : Type} {f : State → α → State} (h : ∀ a, InParts fun s => f s a) (l : List α) :
    InParts fun s => l.foldl f s := by
  induction l with
  | nil => exact fun _ => .refl
  | cons a rest ih => exact fun s => (h a s).trans (ih (f s a))

/-- An operation that is held while RESETn is asserted is made of parts when it is in a running part. -/
theorem InParts.whileRunning {f : State → State} (h : ∀ s : State, s.resetAsserted = false → Parts s (f s)) :
    InParts fun s => s.whileRunning f := by
  intro s
  change Parts s (if s.resetAsserted then s else f s)
  split
  next => exact .refl
  next hrunning => exact h s (Bool.eq_false_iff.mpr hrunning)

/-- A choice of parts. -/
theorem Parts.ite {P : Prop} [Decidable P] {s t u : State} (ht : P → Parts s t) (hu : ¬P → Parts s u) :
    Parts s (if P then t else u) := by
  split
  next h => exact ht h
  next h => exact hu h

/-- A part of one change that leaves the records, the banks and the change list. -/
theorem Part.single {s t : State} (hchange : Change s t) (hclock : s.TimingSound → t.TimingSound)
    (htable : t.table = s.table := by rfl) (hmaps : t.maps = s.maps := by rfl)
    (hlist : t.cutover.changeList = s.cutover.changeList := by rfl) : Part s t :=
  .plain (fun _ => .single hchange) hclock fun _ => .of_same htable hmaps hlist

/-- The latches change. -/
theorem Part.events (s : State) (x : EventUnit) : Part s (s.withEvents x) :=
  .single (.aside ⟨rfl, rfl, rfl, rfl, fun h => h, fun h => h, fun h => h⟩) fun h => h

/-- A latch is raised (R178). -/
theorem Part.raise (s : State) (e : Event) : Part s (s.raise e) := .events s _

/-- The idle words change (R166). -/
theorem Part.idle (s : State) (x : IdleWords) : Part s (s.withIdle x) :=
  .single (.aside ⟨rfl, rfl, rfl, rfl, fun h => h, fun h => h, fun h => h⟩) fun h => h

/-- The queue of commands changes. -/
theorem Part.pending (s : State) (x : List Instr) : Part s (s.withPending x) :=
  .single (.aside ⟨rfl, rfl, rfl, rfl, fun h => h, fun h => h, fun h => h⟩) fun h => h

/-- RESETn is released (R177). -/
theorem Part.resetReleased (s : State) (x : Bool) : Part s (s.withResetAsserted x) :=
  .single (.aside ⟨rfl, rfl, rfl, rfl, fun h => h, fun h => h, fun h => h⟩) fun h => h

/-- The mailbox changes, its windows staying canonical. -/
theorem Part.mailbox (s : State) (x : Mailbox)
    (hcommand : Sparse.wf (0 : Word) s.mailbox.command = true → Sparse.wf (0 : Word) x.command = true)
    (hresult : Sparse.wf (0 : Word) s.mailbox.result = true → Sparse.wf (0 : Word) x.result = true) :
    Part s (s.withMailbox x) := by
  refine .single (.aside ⟨rfl, rfl, rfl, rfl, fun h => h, fun h => h, fun hcanonical => ?_⟩) fun h => h
  obtain ⟨htable, hbankA, hbankB, hhalf0, hhalf1, hselection, hcom, hres⟩ := hcanonical
  exact ⟨htable, hbankA, hbankB, hhalf0, hhalf1, hselection, hcommand hcom, hresult hres⟩

/-- The Switch Core changes, its buffers staying canonical. -/
theorem Part.switch (s : State) (x : SwitchCore) (h : s.Canonical → Memory.wf x.half0 = true ∧
    Memory.wf x.half1 = true ∧ Sparse.wf Entry.idle x.selection.entries = true) : Part s (s.withSwitch x) := by
  refine .single (.aside ⟨rfl, rfl, rfl, rfl, fun h => h, fun h => h, fun hcanonical => ?_⟩) fun h => h
  obtain ⟨hnew0, hnew1, hnewSelection⟩ := h hcanonical
  obtain ⟨htable, hbankA, hbankB, -, -, -, hcommand, hresult⟩ := hcanonical
  exact ⟨htable, hbankA, hbankB, hnew0, hnew1, hnewSelection, hcommand, hresult⟩

/-- The Timing Unit changes, staying sound. -/
theorem Part.timing (s : State) (x : TimingUnit) (h : s.TimingSound → (s.withTiming x).TimingSound) :
    Part s (s.withTiming x) :=
  .single (.aside ⟨rfl, rfl, rfl, rfl, fun h => h, fun h => h, fun h => h⟩) h

/-- The armed flag or the settle count changes (R38, R160). -/
theorem Part.cutoverCounts (s : State) (armed : Bool) (settle : Nat) (h : s.cutover.settle ≤ 2 → settle ≤ 2) :
    Part s (s.withCutover { s.cutover with armed := armed, settle := settle }) :=
  .single (.aside ⟨rfl, rfl, rfl, rfl, fun h => h, fun h => h, fun h => h⟩)
    fun ⟨hlocked, hpending, hframe, hsettle⟩ => ⟨hlocked, hpending, hframe, h hsettle⟩

/-- The follow-up queue or the pointer changes, no id standing twice after it. -/
theorem Part.engine (s : State) (x : AdmissionEngine)
    (h : (s.engine.followUps.map FollowUp.id).Nodup → (x.followUps.map FollowUp.id).Nodup) : Part s (s.withEngine x) :=
  .single (.aside ⟨rfl, rfl, rfl, rfl, fun h => h, h, fun h => h⟩) fun h => h

/-- An item is offered (R74). -/
theorem Part.offer (s : State) (kind : FollowKind) (id : Nat) : Part s (s.offer kind id) :=
  .engine s _ fun h => offerTo_nodup h _

/-- Items are offered one after another. -/
theorem Parts.offers (kind : FollowKind) (ids : List Nat) :
    InParts fun s => ids.foldl (fun s id => s.offer kind id) s :=
  .foldl (fun id s => .single (.offer s kind id)) ids

/-- A link goes on in its state. -/
theorem Part.link (s : State) (n : Link) (c : LinkController) (h : LinkKept (s.link n) c) : Part s (s.withLink n c) :=
  .single (.link n c h) fun h => h

/-- A link that is not UP is enabled or disabled (R144). -/
theorem Part.turned (s : State) (n : Link) (c : LinkController)
    (hfrom : (s.link n).state ≠ .up ∨ (s.link n).enable = false) (hstate : c.state ≠ .up) (henable : c.EnableHeld)
    (hrest : c = { s.link n with state := c.state, downReason := c.downReason, enable := c.enable, rxVoid :=
      c.rxVoid }) :
    Part s (s.withLink n c) :=
  .single (.turned n c hfrom hstate henable hrest) fun h => h

/-- A record becomes alike under a new table. -/
theorem Part.alike (s : State) (table : Table)
    (h : s.Canonical → Sparse.wf Record.initial table = true ∧ AlikeCircuits s (s.withTable table)) :
    Part s (s.withTable table) :=
  .plain (fun _ => .single (.alike table h)) (fun h => h) fun hcanonical => .of_alike (h hcanonical).2 rfl rfl

/-- A branch list changes (R11). -/
theorem Part.updateBranches (s : State) (parent : Nat) (f : List Nat → List Nat) :
    Part s (s.updateBranches parent f) := by
  have halike : s.Canonical → AlikeCircuits s (s.updateBranches parent f) := fun h =>
      State.updateBranches_alike h parent f
  rw [s.updateBranches_eq parent f] at halike ⊢
  exact .alike s _ fun h => ⟨s.updateBranches_wf parent f h.1, halike h⟩

/-! ### Link Controllers that go on -/

/-- A Link Controller whose fields of a conversation are as they were goes on. -/
theorem LinkKept.of_same {a b : LinkController} (hstate : b.state = a.state := by rfl)
    (henable : b.enable = a.enable := by rfl) (htags : b.tags = a.tags := by rfl)
    (hrequests : b.requests = a.requests := by rfl) (hanswers : b.answers = a.answers := by rfl)
    (hreports : b.reports = a.reports := by rfl) (hhello : b.helloOwed = a.helloOwed := by rfl)
    (hdamage : b.damage = a.damage := by rfl) (hsilence : b.silence = a.silence := by rfl) : LinkKept a b := by
  refine ⟨hstate, henable, hreports ▸ List.Sublist.refl _, fun hwindow => ?_, fun _ hsilent => ?_⟩
  · rwa [LinkController.WindowFormed, htags]
  · exact ⟨htags.trans hsilent.tags, hrequests.trans hsilent.requests, hanswers.trans hsilent.answers,
      hreports.trans hsilent.reports, hhello.trans hsilent.helloOwed, hdamage.trans hsilent.damage,
      hsilence.trans hsilent.silence⟩

/-- A Link Controller that is UP goes on with any conversation. -/
theorem LinkKept.of_up {a b : LinkController} (hup : a.state = .up) (hwindow : a.WindowFormed → b.WindowFormed)
    (hreports : b.reports.Sublist a.reports := by exact List.Sublist.refl _) (hstate : b.state = a.state := by rfl)
    (henable : b.enable = a.enable := by rfl) : LinkKept a b :=
  ⟨hstate, henable, hreports, hwindow, fun hdown => absurd hup hdown⟩

/-- A link whose window holds no more tags than before. -/
theorem LinkController.WindowFormed.sublist {a b : LinkController} (h : a.WindowFormed)
    (htags : b.tags.Sublist a.tags) :
    b.WindowFormed := ⟨h.1.sublist htags, htags.length_le.trans h.2⟩

/-! ### Links that leave UP -/

/-- Records made FREE leave every link but for its report queue. -/
theorem State.freeAll_reportsAlone (ids : List Nat) : ∀ s : State, ReportsAlone s (s.freeAll ids) := by
  induction ids with
  | nil => exact ReportsAlone.refl
  | cons id rest ih => exact fun s => (s.freeRecord_reportsAlone id).trans (ih (s.freeRecord id))

/-- After the CLOSED records of an owner are made FREE no record of it is CLOSED. -/
theorem State.freeClosed_open {s : State} (h : s.Canonical) (o : Owner) (id : Nat) (c : Circuit)
    (hc : (s.freeAll (s.closedOf o)).circuit id = some c) (hclosed : c.state = .closed) : c.owner ≠ o := by
  intro howner
  rw [State.circuit_eq, (s.freeClosed_frees o h.1).1 id] at hc
  split at hc
  · exact nomatch hc
  next hkept => exact hkept ((isClosedOf_iff hc).mpr ⟨howner, hclosed⟩)

/-- Records made FREE leave the settle count (R38). -/
theorem State.freeAll_settle (ids : List Nat) : ∀ s : State, (s.freeAll ids).cutover.settle = s.cutover.settle := by
  induction ids with
  | nil => exact fun _ => rfl
  | cons id rest ih => exact fun s => ih (s.freeRecord id)

/-- Records made FREE leave the Timing Unit sound. -/
theorem State.TimingSound.freeAll {s : State} (h : s.TimingSound) (ids : List Nat) : (s.freeAll ids).TimingSound := by
  obtain ⟨-, -, -, -, -, -, htiming⟩ := State.freeAll_same ids s
  exact h.congr htiming (State.freeAll_settle ids s)

/-- A link that is UP falls silent, its CLOSED records becoming FREE (R19, R142). -/
theorem Part.silenced (s : State) (n : Link) (c : LinkController) (hup : (s.link n).state = .up)
    (hstate : c.state ≠ .up) (hsilent : c.Silent)
    (henable : (s.link n).EnableHeld → (s.link n).state = .up → c.EnableHeld) :
    Part s ((s.withLink n c).freeAll (s.closedOf (.link n))) := by
  rw [State.freeAll_withLink _ n c hsilent.reports]
  have hlink := State.freeAll_reportsAlone (s.closedOf (.link n)) s n
  refine .plain (fun h => ?_) (fun h => h.freeAll _) fun h => ?_
  · refine (Changes.freeAll (s.closedOf (.link n)) s).tail (.silenced n c hstate hsilent ?_ ?_ fun _ id k hk hclosed =>
      ?_)
    · rw [hlink]
      exact henable
    · rw [hlink]
      exact hup
    · exact State.freeClosed_open h _ id k hk hclosed
  · have hthinned := (s.freeClosed_frees (.link n) h.1).thinned fun id => closed_of_isClosedOf
    exact ⟨hthinned.circuit, hthinned.maps, hthinned.listed, hthinned.kept⟩

/-- Under a policy ORPHAN items are offered (R143). -/
theorem offerOrphans_inParts (n : Link) : InParts (State.offerOrphans n) := by
  intro s
  unfold State.offerOrphans
  split
  · exact .refl
  · exact Parts.offers .orphan _ s

/-- What a departure from UP leaves in a Link Controller is silent (R142). -/
theorem LinkController.leave_silent (c : LinkController) (target : LinkState) (reason : DownReason) :
    (c.leave target reason).Silent := ⟨rfl, rfl, rfl, rfl, rfl, rfl, rfl⟩

/-- A link leaves UP, after a change of its Link Controller (R142, R19, R143). -/
theorem Parts.leavesUp {s : State} {n : Link} {c : LinkController} {target : LinkState} {reason : DownReason}
    (hup : (s.link n).state = .up) (htarget : target ≠ .up)
    (henable : (s.link n).EnableHeld → (s.link n).state = .up → (target = .disabled ↔ c.enable = false)) :
    Parts s ((s.withLink n c).leaveUp n target reason) := by
  unfold State.leaveUp
  rw [State.modifyLink_eq, State.withLink_withLink, State.withLink_link_same]
  have hsilenced : Part s ((s.withLink n (c.leave target reason)).freeAll (s.closedOf (.link n))) :=
    .silenced s n _ hup htarget (c.leave_silent target reason) henable
  exact (Relation.ReflTransGen.single hsilenced).trans ((offerOrphans_inParts n _).tail (.raise _ _))

/-- A link leaves UP for DOWN. -/
theorem Parts.goesDown {s : State} {n : Link} (reason : DownReason) (hup : (s.link n).state = .up) :
    Parts s (s.leaveUp n .down reason) := by
  have hleaves : Parts s ((s.withLink n (s.link n)).leaveUp n .down reason) :=
    .leavesUp hup nofun fun hheld hstate => ⟨nofun, fun henable => absurd (hstate.symm.trans (hheld.mpr henable)) nofun⟩
  rwa [State.withLink_link] at hleaves

/-- A link reset (R144). -/
theorem resetLink_inParts (n : Link) : InParts (State.resetLink n) := by
  intro s
  unfold State.resetLink
  split
  next hup => exact .goesDown _ hup
  next hdown =>
    have hreset : Part s (s.modifyLink n fun c => { c with downReason := .reset }) := .link s n _ .of_same
    exact (Relation.ReflTransGen.single hreset).trans ((offerOrphans_inParts n _).tail (.raise _ _))
  next => exact .refl

/-! ### Reception -/

/-- A fault of a link (R124). -/
theorem linkFault_inParts (n : Link) (reason : FaultReason) : InParts (State.linkFault n reason) :=
  fun s => .tail (.single (.link s n _ .of_same)) (.raise _ _)

/-- A damaged message (R124). -/
theorem receiveDamaged_inParts (n : Link) (reason : FaultReason) : InParts (State.receiveDamaged n reason) := by
  intro s
  have hfault := linkFault_inParts n reason s
  have hlink : (s.linkFault n reason).link n = { s.link n with lastFault := reason } := State.withLink_link_same s n _
  refine .ite (fun hup => .ite (fun _ => ?_) fun _ => ?_) fun _ => hfault
  · exact hfault.trans (Parts.goesDown _ (by rw [hlink]; exact hup))
  · exact hfault.tail (.link _ n _ (.of_up (by rw [hlink]; exact hup) fun h => h))

/-- A refusal by the Link Controller of a link that is UP (R137). -/
theorem Parts.refusedAtLink {s : State} {n : Link} (hup : (s.link n).state = .up) (kind tag : Byte)
    (code : ResultCode) : Parts s (s.refuseAtLink n kind tag code) :=
  .ite (fun _ => .single (.link s n _ (.of_up hup fun h => h))) fun _ => linkFault_inParts n .flood s

/-- A request received in UP (R134, R135). -/
theorem Parts.receivedRequest {s : State} {n : Link} (hup : (s.link n).state = .up) (r : Request) :
    Parts s (s.receiveRequest n r) := by
  refine .ite (fun _ => .refusedAtLink hup _ _ _) fun _ => .ite (fun _ => .refusedAtLink hup _ _ _) fun hroom => ?_
  refine .ite (fun _ => .refusedAtLink hup _ _ _) fun hnew => .single (.link s n _ (.of_up hup fun hwindow => ?_))
  obtain ⟨hnodup, -⟩ := hwindow
  refine ⟨List.nodup_append.mpr ⟨hnodup, List.nodup_singleton _, fun a ha b hb heq => hnew ?_⟩, ?_⟩
  · exact List.mem_singleton.mp hb ▸ heq ▸ ha
  · rw [List.length_append]
    exact Nat.lt_of_not_le hroom

/-- A good message (R127, R132). -/
theorem receiveGood_inParts (n : Link) (m : RxMessage) : InParts (State.receiveGood n m) := by
  intro s
  unfold State.receiveGood
  split
  next => exact .refl
  next hdown =>
    have hset : Part s (s.modifyLink n fun c => { c with damage := 0 }) := by
      refine .link s n _ ⟨rfl, rfl, .refl _, fun h => h, fun _ hsilent => ?_⟩
      obtain ⟨htags, hrequests, hanswers, hreports, hhello, -, hsilence⟩ := hsilent
      exact ⟨htags, hrequests, hanswers, hreports, hhello, rfl, hsilence⟩
    have hstate : ((s.modifyLink n fun c => { c with damage := 0 }).link n).state = .down := by
      rw [State.modifyLink_eq, State.withLink_link_same]
      exact hdown
    refine .ite (fun _ => .tail (.single hset) ?_) fun _ => (Relation.ReflTransGen.single hset).trans
      (linkFault_inParts n _ _)
    exact .single (.comesUp n hstate) fun h => h
  next hup =>
    have hset : Part s (s.modifyLink n fun c => { c with damage := 0, silence := 0 }) :=
      .link s n _ (.of_up hup fun h => h)
    have hstate : ((s.modifyLink n fun c => { c with damage := 0, silence := 0 }).link n).state = .up := by
      rw [State.modifyLink_eq, State.withLink_link_same]
      exact hup
    refine .ite (fun _ => .tail (.single hset) (.link _ n _ (.of_up hstate fun h => h))) fun _ => ?_
    exact (Relation.ReflTransGen.single hset).trans (Parts.receivedRequest hstate _)

/-- A message arrives on a link (R123). -/
theorem receive_inParts (n : Link) (m : RxMessage) : InParts (State.receive n m) := by
  intro s
  have hheard : Part s (s.modifyLink n fun c => { c with clockArmed := true, rxVoid := false }) := .link s n _ .of_same
  refine .ite (fun _ => .refl) fun _ => .ite (fun _ => .single hheard) fun _ => ?_
  refine (Relation.ReflTransGen.single hheard).trans ?_
  split
  · exact receiveDamaged_inParts n _ _
  · exact receiveGood_inParts n m _

/-- The clock-loss detector signals (R121, R131). -/
theorem loseClock_inParts (n : Link) : InParts (State.loseClock n) := by
  intro s
  have hlost : Part s (s.modifyLink n fun c => { c with clockArmed := false, rxVoid := true }) := .link s n _ .of_same
  refine .ite (fun _ => .ite (fun hup => ?_) fun _ => .single hlost) fun _ => .refl
  refine (Relation.ReflTransGen.single hlost).trans (Parts.goesDown _ ?_)
  rw [State.modifyLink_eq, State.withLink_link_same]
  exact hup

/-- A report is delivered (R18). -/
theorem deliver_inParts (id : Nat) : InParts (State.deliver id) := by
  intro s
  refine .ite (fun hclosed => .single ?_) fun _ => .refl
  obtain ⟨c, hc, hstate⟩ : ∃ c, s.circuit id = some c ∧ (c.state == .closed) = true := by
    cases hc : s.circuit id with
    | none => rw [hc] at hclosed; exact nomatch hclosed
    | some c => rw [hc] at hclosed; exact ⟨c, rfl, hclosed⟩
  refine .plain (fun _ => .single (.freed id)) (fun h => h) fun h => ?_
  refine (s.freeRecord_frees id h.1).thinned fun j hj => ?_
  cases of_decide_eq_true hj
  exact ⟨c, hc, eq_of_beq hstate⟩

/-- The transmitter takes its next message (R140). -/
theorem transmitterTake_inParts (n : Link) : InParts (State.transmitterTake n) := by
  intro s
  refine .ite (fun hready => ?_) fun _ => .refl
  obtain ⟨hup, -⟩ := hready
  split
  next a rest hanswers => exact .single (.link s n _ (.of_up hup fun h => h))
  next =>
    refine .ite (fun _ => .single (.link s n _ (.of_up hup fun h => h))) fun _ => ?_
    split
    next id rest hreports =>
      have htaken : (rest : List Nat).Sublist (s.link n).reports := by
        rw [hreports]
        exact List.sublist_cons_self id rest
      exact (Relation.ReflTransGen.single (.link s n _ (.of_up hup (fun h => h) htaken))).trans (deliver_inParts id _)
    next => exact .refl

/-- The message on the line has been sent (R141). -/
theorem transmissionComplete_inParts (n : Link) : InParts (State.transmissionComplete n) := by
  intro s
  unfold State.transmissionComplete
  split
  next => exact .refl
  next m hm =>
    have htags : (match m.frees with
        | some tag => (s.link n).tags.filter (· ≠ tag)
        | none => (s.link n).tags).Sublist (s.link n).tags := by
      split
      · exact List.filter_sublist
      · exact .refl _
    refine .single (.link s n _ ⟨rfl, rfl, .refl _, fun h => h.sublist htags, fun _ hsilent => ?_⟩)
    obtain ⟨hempty, hrequests, hanswers, hreports, hhello, hdamage, hsilence⟩ := hsilent
    refine ⟨?_, hrequests, hanswers, hreports, hhello, hdamage, hsilence⟩
    have hnil : (s.link n).tags.Sublist [] := hempty ▸ .refl _
    exact List.sublist_nil.mp (htags.trans hnil)

end Sys2Proof.Machine
end

section
/-! SUPPORT. The invariant family: register writes and the mailbox, part by part. -/

namespace Sys2Proof.Machine

/-! ### LINKCFGn -/

/-- The enable field of a LINKCFGn write acts (R144). -/
theorem writeEnable_inParts (n : Link) (enable : Bool) : InParts (State.writeEnable n enable) := by
  intro s
  refine .ite (fun _ => .refl) fun hchanged => .ite (fun hset => ?_) fun hclear => .ite (fun hup => ?_) fun hup => ?_
  · have hwas : (s.link n).enable = false := Bool.eq_false_iff.mpr fun hwas => hchanged (hwas.trans hset.symm)
    rw [State.modifyLink_eq, State.modifyLink_eq, State.withLink_withLink, State.withLink_link_same]
    refine .tail (.single (.turned s n _ (.inr hwas) LinkState.noConfusion ?_ rfl)) (.raise _ _)
    exact iff_of_false nofun fun henable => Bool.false_ne_true (henable.symm.trans hset)
  · refine .leavesUp hup nofun fun _ _ => iff_of_true rfl (Bool.eq_false_iff.mpr hclear)
  · rw [State.modifyLink_eq, State.modifyLink_eq, State.withLink_withLink, State.withLink_link_same]
    refine .tail (.single (.turned s n _ (.inl hup) LinkState.noConfusion ?_ rfl)) (.raise _ _)
    exact iff_of_true rfl (Bool.eq_false_iff.mpr hclear)

/-- A write to the first word of LINKCFGn (R189). -/
theorem writeLinkConfig_inParts (n : Link) (w : Word) : InParts (State.writeLinkConfig n w) := by
  intro s
  have hstored : Part s (s.modifyLink n fun c =>
    { c with quota := heldQuota (w.hi.toNat % 128), policy := if bitOf w 2 then .release else .keep }) :=
      .link s n _ .of_same
  have henabled := (Relation.ReflTransGen.single hstored).trans (writeEnable_inParts n (bitOf w 0) _)
  exact .ite (fun _ => henabled.trans (resetLink_inParts n _)) fun _ => henabled

/-! ### CONTROL -/

/-- The lock moves to a GOOD reference, after a change of the references (R170). -/
theorem Parts.locksTo {s : State} {u : TimingUnit} {r : Ref} (hgood : (u.ref r).isGood = true)
    (hcount : u.frame = s.timing.frame) : Parts s ((s.withTiming u).lockTo r) := by
  refine .tail (.single (.timing s { u with state := lockedTo r, alignPending := true } fun h => ?_)) (.raise _ _)
  obtain ⟨-, -, hframe, hsettle⟩ := h
  refine ⟨fun q hq => ?_, fun hq => ?_, hcount ▸ hframe, hsettle⟩
  · cases r <;> cases hq <;> exact hgood
  · cases r <;> exact nomatch hq

/-- The lock moves to a GOOD reference (R170). -/
theorem Parts.lockTo {s : State} {r : Ref} (hgood : (s.timing.ref r).isGood = true) : Parts s (s.lockTo r) :=
  Parts.locksTo hgood rfl

/-- A CONTROL write acts on the lock (R174). -/
theorem actOnSelection_inParts (old : Control) : InParts (State.actOnSelection old) := by
  intro s
  unfold State.actOnSelection
  split
  · exact .refl
  · exact .ite (fun ⟨_, hgood, _⟩ => .lockTo hgood) fun _ => .refl

/-- Records become FREE alike under every CONTROL. -/
theorem State.freeAll_withControl (ids : List Nat) (x : Control) :
    ∀ s : State, (s.withControl x).freeAll ids = (s.freeAll ids).withControl x := by
  induction ids with
  | nil => exact fun _ => rfl
  | cons id rest ih => exact fun s => ih (s.freeRecord id)

/-- The supervisor-reports enable is cleared with CONTROL stored (R20). -/
theorem Part.clearedReports (s : State) (x : Control) : Part s (s.withControl x).clearReports := by
  have hclears : (s.withControl x).clearReports =
      ((s.withSupQueue []).freeAll ((s.withSupQueue []).closedOf .supervisor)).withControl x :=
    State.freeAll_withControl _ x (s.withSupQueue [])
  rw [hclears]
  have hemptied : Changes s (s.withSupQueue []) := .single (.supQueue [] (List.nil_sublist _))
  refine .plain (fun h => ?_) (fun h => ?_) fun h => ?_
  · have hempty : (s.withSupQueue []).Canonical := h
    refine (hemptied.trans (Changes.freeAll _ _)).tail (.control x fun _ => .inr ⟨?_, fun _ id c hc hclosed => ?_⟩)
    · obtain ⟨-, -, hqueue, -⟩ := (s.withSupQueue []).freeClosed_frees .supervisor hempty.1
      rw [hqueue]
      rfl
    · exact State.freeClosed_open hempty _ id c hc hclosed
  · exact State.TimingSound.freeAll (s := s.withSupQueue []) h _
  · have hthinned := ((s.withSupQueue []).freeClosed_frees .supervisor h.1).thinned fun id => closed_of_isClosedOf
    exact ⟨hthinned.circuit, hthinned.maps, hthinned.listed, hthinned.kept⟩

/-- CONTROL is stored with the supervisor-reports enable not cleared (R148). -/
theorem Part.storedControl {s : State} {x : Control} (h : ¬(s.control.reports = true ∧ x.reports = false)) :
    Part s (s.withControl x) :=
  .single (.control x fun hreports => .inl (Bool.eq_false_iff.mpr fun hheld => h ⟨hheld, hreports⟩)) fun h => h

/-- A write to CONTROL (R148). -/
theorem writeControl_inParts (w : Word) : InParts (State.writeControl w) := by
  intro s
  have hcleared : Parts s (if s.control.reports ∧ (controlOf w).reports = false
      then (s.withControl (controlOf w)).clearReports else s.withControl (controlOf w)) :=
    .ite (fun _ => .single (.clearedReports s _)) fun h => .single (.storedControl h)
  have hmoved := hcleared.trans (actOnSelection_inParts s.control _)
  exact .ite (fun _ => hmoved.tail .softReset) fun _ => hmoved

/-! ### The mailbox -/

/-- A write to position 0 of the command window (R150). -/
theorem writeHeader_inParts (w : Word) : InParts (State.writeHeader w) := by
  intro s
  have hstored := fun (h : Sparse.wf (0 : Word) s.mailbox.command = true) => Sparse.wf_write 0 s.mailbox.command 0 w h
  unfold State.writeHeader
  split
  · exact .single (.raise s _)
  · exact .single (.raise s _)
  all_goals
    refine .ite (fun _ => .single (.mailbox s _ hstored fun h => h)) fun _ => ?_
    refine .ite (fun _ => .single (.mailbox s _ hstored fun h => h)) fun _ => ?_
    exact .tail (.single (.mailbox s _ hstored fun _ => resultWindow_wf _ _ _)) (.raise _ _)

/-- A write to a body position of the command window (R151). -/
theorem writeBody_inParts (position : Nat) (w : Word) : InParts (State.writeBody position w) := by
  intro s
  have hrefused : Parts s s.refuseWindowWrite := .single (.raise s _)
  unfold State.writeBody
  split
  · exact .ite (fun _ => .single (.mailbox s _ (Sparse.wf_write 0 _ position w) fun h => h)) fun _ => hrefused
  · exact hrefused
  · exact hrefused
  · exact hrefused

/-- A write to a position of the command window (R149). -/
theorem writeWindow_inParts (position : Nat) (w : Word) : InParts (State.writeWindow position w) :=
  fun s => .ite (fun _ => writeHeader_inParts w s) fun _ => .ite (fun _ => writeBody_inParts position w s) fun _ =>
    .refl

/-- A write to MBOXCTL (R154). -/
theorem writeMailboxControl_inParts (isAck isAbort : Bool) : InParts (State.writeMailboxControl isAck isAbort) :=
  fun s => .ite (fun _ => .single (.mailbox s _ (fun h => h) fun h => h)) fun _ => .refl

/-! ### The register window -/

/-- A word written at an address (R147, R189). -/
theorem writeWord_inParts (address : BitVec 7) (w : Word) : InParts (State.writeWord address w) := by
  intro s
  unfold State.writeWord
  cases registerAt address with
  | none => exact .refl
  | some register =>
    cases register with
    | control => exact writeControl_inParts w s
    | events | enables => exact .single (.events s _)
    | mboxCtl => exact writeMailboxControl_inParts _ _ s
    | linkConfig n => exact writeLinkConfig_inParts n w s
    | linkLimit n => exact .single (.link s n _ .of_same)
    | idle01 | idle23 | idle45 | idle67 => exact .single (.idle s _)
    | command position => exact writeWindow_inParts position w s
    | status | cycle | inUse | linkStatus | linkOwned | result => exact .refl

end Sys2Proof.Machine
end

section
/-! SUPPORT. The invariant family: frame starts, boundaries and references, part by part. -/

namespace Sys2Proof.Machine

/-! ### Boundaries -/

/-- A boundary without a cutover (R37). -/
theorem defer_inParts : InParts State.defer := fun s => .ite (fun _ => .refl) fun _ => .single (.raise s _)

/-- The banks are SYNCED at a cutover (R36). -/
theorem State.mayCutOver_synced {s : State} (h : s.mayCutOver = true) : s.maps.state = .synced := by
  obtain ⟨hconditions, -⟩ := Bool.and_eq_true_iff.mp h
  exact eq_of_beq (Bool.and_eq_true_iff.mp hconditions).2

/-- The Cutover Controller takes a boundary (R36 to R38). -/
theorem decideBoundary_inParts (stepped : Bool) : InParts (State.decideBoundary stepped) := by
  intro s
  refine .ite (fun _ => ?_) fun _ => .ite (fun _ => ?_) fun _ => .ite (fun hmay => ?_) fun _ => defer_inParts s
  · exact (Relation.ReflTransGen.single (.cutoverCounts s _ 2 fun _ => Nat.le_refl 2)).trans (defer_inParts _)
  · exact (Relation.ReflTransGen.single (.cutoverCounts s _ _ fun h => (Nat.sub_le _ 1).trans h)).trans
      (defer_inParts _)
  · exact .single (.cutOver (State.mayCutOver_synced hmay))

/-- A Link Controller takes a boundary (R130). -/
theorem countSilence_inParts (n : Link) : InParts (State.countSilence n) := by
  intro s
  refine .ite (fun hdue => ?_) fun _ => .ite (fun hup => .single (.link s n _ (.of_up hup fun h => h))) fun _ => .refl
  exact .goesDown _ (eq_of_beq (Bool.and_eq_true_iff.mp hdue).1)

/-- The Cutover Controller and the Link Controllers take a boundary (R175). -/
theorem takeBoundary_inParts (stepped : Bool) (o : BoundaryOrder) : InParts (State.takeBoundary stepped o) := by
  intro s
  have hbefore := InParts.foldl countSilence_inParts (linksBefore o) s
  exact (hbefore.trans (decideBoundary_inParts stepped _)).trans (InParts.foldl countSilence_inParts (linksAfter o) _)

/-! ### Frame starts -/

/-- The lease tick (R113, R114). -/
theorem takeLeaseTick_inParts : InParts State.takeLeaseTick := by
  intro s
  have hcounted : Part s (s.withTable (countLeases s.table)) :=
    .alike s _ fun h => ⟨countLeases_wf _ h.1, s.countLeases_alike⟩
  unfold State.takeLeaseTick
  split
  · exact .single hcounted
  · exact (Relation.ReflTransGen.single hcounted).trans ((Parts.offers .expire _ _).tail (.raise _ _))

/-- The Timing Unit with its references, its timing state and its flag as they were stays sound. -/
theorem State.TimingSound.withTiming {s : State} {x : TimingUnit} (h : s.TimingSound) (hframe : x.frame ≤ 15)
    (hstate : x.state = s.timing.state := by rfl) (hpending : x.alignPending = s.timing.alignPending := by rfl)
    (href : ∀ r, x.ref r = s.timing.ref r := by exact fun r => by cases r <;> rfl) : (s.withTiming x).TimingSound := by
  obtain ⟨hlocked, hflag, -, hsettle⟩ := h
  refine ⟨fun r hr => ?_, fun hr => hpending.trans (hflag (hstate ▸ hr)), hframe, hsettle⟩
  rw [State.withTiming_timing, href r]
  exact hlocked r (hstate ▸ hr)

/-- What a frame start delivers (R175). -/
theorem deliverFrame_inParts (kind : FrameKind) (o : BoundaryOrder) : InParts (State.deliverFrame kind o) := by
  intro s
  cases kind with
  | ordinary => exact .refl
  | leaseTick => exact takeLeaseTick_inParts s
  | boundary stepped => exact takeBoundary_inParts stepped o s

/-- A frame start of a kind; an ordinary one is not due after frame 15 (R175). -/
theorem Parts.startsFrame {s : State} {kind : FrameKind} (now : Nat) (received : TrunkBytes) (o : BoundaryOrder)
    (hkind : kind = .ordinary → s.timing.frame < 15) : Parts s (s.startFrame kind now received o) := by
  have hswitch : Part s (s.withSwitch (s.switch.endFrame received (s.timing.slotsReached kind now))) :=
    .switch s _ fun h => ⟨State.endFrame_half_wf h received _ .half0, State.endFrame_half_wf h received _ .half1, by
      obtain ⟨-, -, -, hselection⟩ := s.switch.endFrame_spec received (s.timing.slotsReached kind now)
      rw [hselection]
      exact h.2.2.2.2.2.1⟩
  have hcounts : ∀ t : State, t.timing = s.timing → Part t (t.withTiming (s.timing.startFrame kind now)) := by
    intro t htiming
    refine .timing t _ fun h => ?_
    rw [← htiming] at hkind ⊢
    cases kind with
    | ordinary => exact h.withTiming (hkind rfl)
    | leaseTick => exact h.withTiming (by decide : 8 ≤ 15)
    | boundary stepped => exact h.withTiming (Nat.zero_le 15)
  have hbegun := (Relation.ReflTransGen.single hswitch).tail (hcounts _ rfl)
  refine (hbegun.trans (deliverFrame_inParts kind o _)).tail (.switch _ _ fun h => ?_)
  obtain ⟨-, -, -, hhalf0, hhalf1, -⟩ := id h
  exact ⟨hhalf0, hhalf1, State.liveBank_wf h⟩

/-- An ordinary frame start is due in frames 0 to 14 (R175). -/
theorem TimingUnit.frame_of_dueKind {u : TimingUnit} (h : u.dueKind = .ordinary) : u.frame < 15 := by
  unfold TimingUnit.dueKind at h
  split at h
  · exact nomatch h
  next hframe => exact Nat.lt_of_not_le hframe

/-! ### References -/

/-- The state of a reference after one is replaced. -/
theorem TimingUnit.ref_setRef (u : TimingUnit) (r q : Ref) (x : RefState) :
    (u.setRef r x).ref q = if q = r then x else u.ref q := by
  cases r <;> cases q <;> rfl

/-- A reference is replaced, GOOD if it is the locked one. -/
theorem Part.reference {s : State} (r : Ref) (x : RefState)
    (h : s.TimingSound → s.timing.state.locked = some r → x.isGood = true) :
    Part s (s.withTiming (s.timing.setRef r x)) := by
  refine .timing s _ fun hsound => ?_
  obtain ⟨hlocked, hpending, hframe, hsettle⟩ := id hsound
  have hrest : (s.timing.setRef r x).state = s.timing.state ∧ (s.timing.setRef r x).alignPending =
      s.timing.alignPending ∧
      (s.timing.setRef r x).frame = s.timing.frame := by cases r <;> exact ⟨rfl, rfl, rfl⟩
  obtain ⟨hstate, hflag, hcount⟩ := hrest
  refine ⟨fun q hq => ?_, fun hq => ?_, ?_, hsettle⟩
  · rw [State.withTiming_timing, hstate] at hq
    rw [State.withTiming_timing, TimingUnit.ref_setRef]
    split
    next heq => exact h hsound (heq ▸ hq)
    next => exact hlocked q hq
  · rw [State.withTiming_timing, hstate] at hq
    rw [State.withTiming_timing, hflag]
    exact hpending hq
  · rw [State.withTiming_timing, hcount]
    exact hframe

/-- The time of the latest timing event changes. -/
theorem Part.time (s : State) (now : Nat) : Part s (s.withTiming { s.timing with time := now }) :=
  .timing s _ fun h => h.withTiming h.2.2.1

/-- A reference that is GOOD becomes the locked one, or does not (R171, R174). -/
theorem Parts.becomesGood {s : State} {r : Ref} (hgood : (s.timing.ref r).isGood = true) :
    Parts s (s.becomeGood r) := by
  unfold State.becomeGood
  split
  · exact .lockTo hgood
  · exact .ite (fun _ => .lockTo hgood) fun _ => .refl

/-- The other reference is not the reference. -/
theorem otherRef_ne (r : Ref) : otherRef r ≠ r := by cases r <;> exact nofun

/-- The frame in cycle after a reference is replaced. -/
theorem TimingUnit.frame_setRef (u : TimingUnit) (r : Ref) (x : RefState) : (u.setRef r x).frame = u.frame := by
  cases r <;> rfl

/-- The frame kind that is due after a reference is replaced. -/
theorem TimingUnit.dueKind_setRef (u : TimingUnit) (r : Ref) (x : RefState) : (u.setRef r x).dueKind = u.dueKind := by
  cases r <;> rfl

/-- A reference becomes ABSENT (R169, R172). -/
theorem refAbsent_inParts (r : Ref) : InParts (State.refAbsent r) := by
  intro s
  refine .ite (fun _ => .ite (fun hother => ?_) fun _ => ?_) fun hkept =>
    .single (.reference r _ fun _ hlocked => absurd hlocked hkept)
  · exact .locksTo hother (TimingUnit.frame_setRef _ _ _)
  · refine .tail (.single (.timing s { s.timing.setRef r .absent with state := .holdover, alignPending := false }
      fun h => ?_)) (.raise _ _)
    obtain ⟨-, -, hframe, hsettle⟩ := h
    exact ⟨nofun, fun _ => rfl, (TimingUnit.frame_setRef _ _ _).symm ▸ hframe, hsettle⟩

/-- A pulse of the locked reference inside its window (R171, R173). -/
theorem lockedPulse_inParts (now : Nat) (f : FrameInput) : InParts (State.lockedPulse now f) := by
  intro s
  refine .ite (fun _ => ?_) fun _ => .startsFrame now f.received f.order TimingUnit.frame_of_dueKind
  refine .trans (.single (.timing s { s.timing with alignPending := false } fun h => ?_))
    (Parts.startsFrame _ _ _ nofun)
  obtain ⟨hlocked, -, hframe, hsettle⟩ := h
  exact ⟨fun q hq => by cases q <;> exact hlocked _ hq, fun _ => rfl, hframe, hsettle⟩

/-- A pulse of a reference (R169). -/
theorem pulse_inParts (r : Ref) (now : Nat) (f : FrameInput) : InParts (State.pulse r now f) := by
  intro s
  refine .head (.time s now) ?_
  unfold State.pulse
  dsimp only
  generalize s.withTiming { s.timing with time := now } = t
  have hcounted : ∀ count expected x, t.timing.ref r = x → x.isGood = false → Part t (t.withTiming (t.timing.setRef r
      (.qualifying count expected))) := fun count expected x hx hunready =>
    .reference r _ fun hsound hlocked => by
      have hgood := hsound.1 r hlocked
      rw [hx, hunready] at hgood
      exact nomatch hgood
  have hgood : Part t (t.withTiming (t.timing.setRef r (.good (now + Config.framePeriod)))) :=
    .reference r _ fun _ _ => rfl
  split
  next habsent => exact .single (hcounted _ _ _ habsent rfl)
  next count expected hqualifying =>
    refine Parts.ite (fun _ => refAbsent_inParts r t) fun _ => Parts.ite (fun _ => ?_) fun _ => ?_
    · exact .single (hcounted _ _ _ hqualifying rfl)
    · refine .head hgood (Parts.becomesGood ?_)
      rw [State.withTiming_timing, TimingUnit.ref_setRef, if_pos rfl]
      rfl
  next expected _ =>
    exact Parts.ite (fun _ => refAbsent_inParts r t) fun _ =>
      Parts.ite (fun _ => .head hgood (lockedPulse_inParts now f _)) fun _ => .single hgood

/-- A pulse of a reference after a time. -/
theorem pulseAfter_inParts (r : Ref) (elapsed : Nat) (f : FrameInput) : InParts (State.pulseAfter r elapsed f) :=
  fun s => .ite (fun _ => pulse_inParts r _ f s) fun _ => .refl

/-- The frame kind that is due after a reference becomes ABSENT. -/
theorem State.refAbsent_dueKind (s : State) (r : Ref) : (s.refAbsent r).timing.dueKind = s.timing.dueKind := by
  unfold State.refAbsent
  dsimp only
  split
  · unfold State.loseLock
    split <;> exact TimingUnit.dueKind_setRef _ _ _
  · exact TimingUnit.dueKind_setRef _ _ _

/-- The window of a reference closes with no pulse (R169, R172). -/
theorem closeWindow_inParts (r : Ref) (now : Nat) (f : FrameInput) : InParts (State.closeWindow r now f) := by
  intro s
  have habsent := (refAbsent_inParts r (s.withTiming { s.timing with time := now })).head (.time s now)
  refine .ite (fun _ => habsent.trans (Parts.startsFrame _ _ _ fun hkind => ?_)) fun _ => habsent
  have hdue := State.refAbsent_dueKind (s.withTiming { s.timing with time := now }) r
  exact TimingUnit.frame_of_dueKind (hdue.trans hkind)

/-- The close of a window (R169). -/
theorem windowCloses_inParts (r : Ref) (f : FrameInput) : InParts (State.windowCloses r f) := by
  intro s
  unfold State.windowCloses
  split
  · exact .refl
  · exact .ite (fun _ => closeWindow_inParts r _ f s) fun _ => .refl

/-- A frame start of a kind, when that kind is due (R170, R173). -/
theorem frameDue_inParts (kind : FrameKind) (f : FrameInput) : InParts (State.frameDue kind f) := by
  intro s
  refine .ite (fun _ => .refl) fun hdue => ?_
  split
  · refine .ite (fun _ => ?_) fun _ => .refl
    have hown : Part s (s.withTiming { s.timing with ownStart := s.timing.ownFrameTime }) :=
      .timing s _ fun h => h.withTiming h.2.2.1
    exact .head hown (Parts.startsFrame _ _ _ fun hkind =>
      TimingUnit.frame_of_dueKind (u := s.timing) ((Classical.not_not.mp hdue).trans hkind))
  · split
    · exact .refl
    · exact .ite (fun _ => pulse_inParts _ _ f s) fun _ => .refl

end Sys2Proof.Machine
end

section
/-! SUPPORT. The invariant family: the circuits that a CLAIM and a BRANCH create are formed (R4, R16, R60). -/

namespace Sys2Proof.Machine

/-! ### Chosen slots -/

/-- Slots as a placement chooses them: distinct, as many as asked for, and free (R55). -/
structure Chosen (free : List Nat) (n : Nat) (slots : List Nat) : Prop where
  nodup  : slots.Nodup
  length : slots.length = n
  free   : ∀ slot ∈ slots, slot ∈ free

/-- Every placement chooses so; a FIXED list must itself be so long and distinct. -/
theorem Chosen.of_chooseSlots {free listed slots : List Nat} {n : Nat} {placement : Placement} (hfree : free.Nodup)
    (hlisted : placement = .fixed → listed.Nodup ∧ listed.length = n)
    (h : chooseSlots free n placement listed = .ok slots) : Chosen free n slots := by
  by_cases hfixed : placement = .fixed
  · subst hfixed
    obtain ⟨hnodup, hlength⟩ := hlisted rfl
    have hroom : n ≤ free.length := Nat.le_of_not_lt fun hless => nomatch (chooseSlots_noRoom hless _ _).symm.trans h
    rw [chooseSlots_fixed hroom, chooseFixed] at h
    split at h
    next hall =>
      cases h
      exact ⟨hnodup, hlength, fun slot hslot => List.contains_iff_mem.mp (List.all_eq_true.mp hall slot hslot)⟩
    next => exact nomatch h
  · have hplain : chooseSlots free n placement [] = .ok slots := by
      rw [← h]
      unfold chooseSlots
      split
      · rfl
      · split
        · exact absurd rfl hfixed
        all_goals rfl
    obtain ⟨hnodup, hlength, hmem⟩ := chooseSlots_spec hfree hfixed hplain
    exact ⟨hnodup, hlength, hmem⟩

/-- Slots of a trunk's free sets are below 64 (R49). -/
theorem State.freeOutputs_lt {s : State} {t slot : Nat} (h : slot ∈ s.freeOutputs t) : slot < 64 :=
  List.mem_range.mp (List.mem_filter.mp h).1

theorem State.freeInputs_lt {s : State} {t slot : Nat} (h : slot ∈ s.freeInputs t) : slot < 64 :=
  List.mem_range.mp (List.mem_filter.mp h).1

/-! ### Pairs -/

/-- The marked and the unmarked pairs of a list without marks. -/
theorem marked_of_unmarked {pairs : List Pair} (h : ∀ p ∈ pairs, p.retiring = false) :
    marked false pairs = pairs ∧ marked true pairs = [] :=
  ⟨List.filter_eq_self.mpr fun p hp => by rw [h p hp]; rfl,
    List.filter_eq_nil_iff.mpr fun p hp => by rw [h p hp]; exact Bool.false_ne_true⟩

/-- The empty pair list is formed. -/
theorem ListFormed.nil : ListFormed [] := ⟨nofun, .nil, .nil, .nil⟩

/-- Pairs fit a width: a formed list of as many pairs, none marked. -/
structure PairsFit (width : Nat) (pairs : List Pair) : Prop where
  formed   : ListFormed pairs
  unmarked : ∀ p ∈ pairs, p.retiring = false
  length   : pairs.length = width

/-- Sorted pairing of as many distinct slots on both sides (R60). -/
theorem pairSlots_fit {sources destinations : List Nat} {width : Nat} (hsources : sources.Nodup)
    (hdestinations : destinations.Nodup) (hsourceCount : sources.length = width)
    (hdestinationCount : destinations.length = width) (hsourceRange : ∀ slot ∈ sources, slot < 64)
    (hdestinationRange : ∀ slot ∈ destinations, slot < 64) : PairsFit width (pairSlots sources destinations) := by
  have hcounts := hsourceCount.trans hdestinationCount.symm
  have hunmarked := pairSlots_unmarked sources destinations
  obtain ⟨hfalse, htrue⟩ := marked_of_unmarked hunmarked
  refine ⟨⟨fun p hp => ⟨?_, ?_⟩, pairSlots_dst_ascending _ _ hdestinations, ?_, ?_⟩, hunmarked, ?_⟩
  · exact hsourceRange _ ((mem_pairSlots_src hcounts _).mp (List.mem_map_of_mem hp))
  · exact hdestinationRange _ ((mem_pairSlots_dst hcounts _).mp (List.mem_map_of_mem hp))
  · rw [hfalse]
    exact pairSlots_src_ascending _ _ hsources
  · rw [htrue]
    exact .nil
  · rw [pairSlots, List.length_zipWith, length_sortSlots, length_sortSlots, hsourceCount, hdestinationCount,
      Nat.min_self]

/-- A new circuit whose pairs fit its width is formed (R16). -/
theorem newCircuit_formed {owner : Owner} {kind : CircuitKind} {srcTrunk dstTrunk width : Nat} {pairs : List Pair}
    {fill : Byte} {lease : Word} (hwidth : 1 ≤ width ∧ width ≤ 16) (htrunks : srcTrunk ≤ 7 ∧ dstTrunk ≤ 7)
    (hpairs : PairsFit width pairs) :
    (newCircuit owner kind srcTrunk dstTrunk width pairs fill lease).Formed True := by
  obtain ⟨hfalse, htrue⟩ := marked_of_unmarked hpairs.unmarked
  refine Circuit.formed_iff.mpr ⟨⟨hwidth, htrunks, hpairs.formed, ListFormed.nil, iff_of_true rfl (.inl rfl)⟩, ?_⟩
  exact .pending rfl rfl ⟨(congrArg List.length hfalse).trans hpairs.length, htrue⟩ rfl rfl rfl rfl trivial

/-! ### CLAIM -/

/-- The slots that a CLAIM pairs (R55, R61). -/
theorem State.claimPairs_slots {s : State} {who : Owner} {body : List Word} {f : ClaimFields} {pairs : List Pair}
    (hparse : parseClaim who body = some f) (h : s.claimPairs f = .ok pairs) : ∃ sources destinations,
      Chosen (s.freeInputs f.srcTrunk) f.width sources ∧ Chosen (s.freeOutputs f.dstTrunk) f.width destinations ∧
        pairs = pairSlots sources destinations := by
  obtain ⟨-, -, -, -, hplaced, -, -, -, -, -, -, hfixed⟩ := claimBody_of_parseClaim hparse
  unfold State.claimPairs at h
  split at h
  · exact nomatch h
  next sources hsources =>
    split at h
    · exact nomatch h
    next destinations hdestinations =>
      cases h
      refine ⟨sources, destinations, .of_chooseSlots (s.freeInputs_nodup _) (fun hplacement => ?_) hsources,
        .of_chooseSlots (s.freeOutputs_nodup _) (fun hplacement => absurd hplacement hplaced) hdestinations, rfl⟩
      obtain ⟨hlist, hascending, -⟩ := hfixed hplacement
      exact ⟨hascending.imp Nat.ne_of_lt, by rw [hlist, List.length_map, List.length_range]⟩

/-- The circuit that a CLAIM creates. -/
theorem NewCircuit.claim {s : State} {who : Owner} {body : List Word} {f : ClaimFields} {pairs : List Pair} {id : Nat}
    (hparse : parseClaim who body = some f) (hid : s.lowestFree = some id) (h : s.claimPairs f = .ok pairs) :
    NewCircuit s id (newCircuit (newOwner who f.owner) (.trunk [] f.isOpen) f.srcTrunk f.dstTrunk f.width pairs f.fill
      f.lease) := by
  obtain ⟨hsrc, hdst, hleast, hmost, -⟩ := parseClaim_fields hparse
  obtain ⟨-, hfree, -⟩ := State.lowestFree_eq_some.mp hid
  obtain ⟨sources, destinations, hsources, hdestinations, rfl⟩ := State.claimPairs_slots hparse h
  have hcounts := hsources.length.trans hdestinations.length.symm
  have hfit := pairSlots_fit hsources.nodup hdestinations.nodup hsources.length hdestinations.length
    (fun slot hslot => State.freeInputs_lt (hsources.free slot hslot))
    fun slot hslot => State.freeOutputs_lt (hdestinations.free slot hslot)
  refine ⟨hfree, rfl, rfl, rfl, hfit.formed.2.1.imp Nat.ne_of_lt, fun p hp => ?_, fun _ p hp => ?_,
    fun _ => newCircuit_formed ⟨hleast, hmost⟩ ⟨hsrc, hdst⟩ hfit⟩
  · exact hdestinations.free _ ((mem_pairSlots_dst hcounts _).mp (List.mem_map_of_mem hp))
  · exact hsources.free _ ((mem_pairSlots_src hcounts _).mp (List.mem_map_of_mem hp))

/-! ### BRANCH -/

/-- The parent of a BRANCH is live, with no reshape pending (R82). -/
theorem branchState_none {c : Circuit} (h : branchState c = none) : c.isGoing = false ∧ c.state ≠ .pending ∧
    c.pendingChange ≠ some .reshapeAdd ∧ c.pendingChange ≠ some .reshapeDrop := by
  unfold branchState at h
  split at h
  · exact nomatch h
  next hgoing =>
    split at h
    · exact nomatch h
    next hstate =>
      split at h
      · exact nomatch h
      next hchange =>
        exact ⟨Bool.eq_false_iff.mpr hgoing, fun hp => hstate (.inl hp), fun hp => hchange (.inl hp),
          fun hp => hchange (.inr hp)⟩

/-- The parent of a BRANCH has a whole staged list. -/
theorem Circuit.Formed.whole_of_branchState {listed : Prop} {c : Circuit} (h : c.Formed listed)
    (hstate : branchState c = none) : Whole c := by
  obtain ⟨hgoing, hpending, hadd, hdrop⟩ := branchState_none hstate
  have hlive : ¬(c.state = .releasing ∨ c.state = .closed) := fun hgone => by
    rw [Circuit.isGoing, (Circuit.isReleasable_eq_false_iff c).mpr hgone] at hgoing
    exact nomatch hgoing
  obtain ⟨-, hcondition⟩ := Circuit.formed_iff.mp h
  cases hcondition with
  | pending hs => exact absurd hs hpending
  | active _ _ hwhole | suspending _ _ hwhole | suspended _ _ hwhole | resuming _ _ hwhole => exact hwhole
  | adding _ hp => exact absurd hp hadd
  | added _ hp | dropping _ hp => exact absurd hp hdrop
  | releasing hs => exact absurd (.inl hs) hlive
  | closed hs => exact absurd (.inr hs) hlive

/-- The source slots of a formed circuit are distinct and below 64, and as many as its unmarked pairs. -/
theorem Circuit.sources_formed {c : Circuit} (h : ListFormed c.staged) : c.sources.Nodup ∧
    (∀ slot ∈ c.sources, slot < 64) ∧ c.sources.length = (marked false c.staged).length := by
  obtain ⟨hrange, -, hascending, -⟩ := h
  have hperm := c.sources_perm
  refine ⟨hperm.nodup_iff.mpr (hascending.imp Nat.ne_of_lt), fun slot hslot => ?_, ?_⟩
  · obtain ⟨p, hp, rfl⟩ := List.mem_map.mp (hperm.mem_iff.mp hslot)
    exact (hrange p (List.mem_filter.mp hp).1).1
  · rw [hperm.length_eq, List.length_map]

/-- The circuit that a BRANCH creates. -/
theorem NewCircuit.branch {s : State} {who : Owner} {body : List Word} {f : BranchFields} {parent : Circuit}
    {j id : Nat} {destinations : List Nat} (hparse : parseBranch who body = some f) (hparent : s.circuit j =
      some parent)
    (hstate : branchState parent = none) (hid : s.lowestFree = some id)
    (h : chooseSlots (s.freeOutputs f.dstTrunk) parent.width f.dstPlacement [] = .ok destinations) :
    NewCircuit s id (newCircuit (newOwner who f.owner) (.branch f.parent) parent.srcTrunk f.dstTrunk parent.width
      (pairSlots parent.sources destinations) f.fill f.lease) := by
  obtain ⟨hdst, hplaced⟩ := parseBranch_fields hparse
  obtain ⟨-, hfree, -⟩ := State.lowestFree_eq_some.mp hid
  have hdestinations := Chosen.of_chooseSlots (s.freeOutputs_nodup _) (fun hp => absurd hp hplaced) h
  refine ⟨hfree, rfl, rfl, rfl, (pairSlots_dst_ascending _ _ hdestinations.nodup).imp Nat.ne_of_lt, fun p hp => ?_,
    nofun, fun hformed => ?_⟩
  · have hmem : p.dst ∈ (pairSlots parent.sources destinations).map Pair.dst := List.mem_map_of_mem hp
    rw [pairSlots_dst] at hmem
    exact hdestinations.free _ ((mem_sortSlots _ _).mp (List.mem_of_mem_take hmem))
  · have hform := hformed.1 j parent hparent
    obtain ⟨hsized, -⟩ := Circuit.formed_iff.mp hform
    obtain ⟨hnodup, hrange, hcount⟩ := Circuit.sources_formed hsized.staged
    refine newCircuit_formed hsized.width ⟨hsized.trunks.1, hdst⟩ (pairSlots_fit hnodup hdestinations.nodup
      (hcount.trans (hform.whole_of_branchState hstate).1) hdestinations.length hrange fun slot hslot => ?_)
    exact State.freeOutputs_lt (hdestinations.free slot hslot)

end Sys2Proof.Machine
end

section
/-! SUPPORT. The invariant family: requests, follow-up items and every command, part by part. -/

namespace Sys2Proof.Machine

/-! ### Releases -/

/-- A release leaves the banks in their roles. -/
theorem State.releaseRecord_synced {s : State} (h : s.maps.state = .synced) (reason : CloseReason) (id : Nat) :
    (s.releaseRecord reason id).maps.state = .synced := by
  have hedited : ∀ batch, (s.editStaged batch).maps.state = .synced := fun batch => by
    rw [← h]
    unfold State.editStaged MapStore.setStaged
    split <;> rfl
  have hlive : ∀ c, (s.releaseLive reason id c).maps.state = .synced := fun c => by
    rw [State.releaseLive, State.queueReport_maps]
    exact hedited _
  unfold State.releaseRecord
  split
  · exact h
  next c hc =>
    split
    · rw [State.releasePending, (State.ownerTest_confined _ id _).maps, State.leaveParent_eq]
      exact hedited _
    · exact hlive c
    · exact hlive c
    · exact h
    · exact h

/-- Branches are released one after another (R97). -/
theorem Parts.releasedList (ids : List Nat) : ∀ {s : State}, s.maps.state = .synced →
    Parts s (ids.foldl (fun s b => s.releaseRecord .parentGone b) s) := by
  induction ids with
  | nil => exact fun _ => .refl
  | cons id rest ih => exact fun h => .head (.released _ id h) (ih (State.releaseRecord_synced h _ id))

/-- A release with its cascade (R95 to R97). -/
theorem Parts.releasedAll {s : State} (h : s.maps.state = .synced) (reason : CloseReason) (id : Nat) :
    Parts s (s.releaseAll reason id) :=
  .head (.released reason id h) (Parts.releasedList _ (State.releaseRecord_synced h reason id))

/-! ### Decisions -/

/-- A decision made while the bank is SYNCED is made of parts, whoever requests and whatever the body. -/
def DecidesInParts (decide : Owner → List Word → State → Decision) : Prop :=
  ∀ who body (s : State), s.maps.state = .synced → Parts s (decide who body s).state

/-- A request on a named record is made of parts when what follows steps 3 and 4 is. -/
theorem Parts.onNamed {s : State} {who : Owner} {body : List Word} {go : Nat → Circuit → Decision}
    (hgo : ∀ id c, s.circuit id = some c → Parts s (go id c).state) : Parts s (onCircuit who body s go).state := by
  unfold onCircuit
  split
  · exact .refl
  next c hnamed =>
    obtain ⟨-, hc⟩ := Option.ite_none_right_eq_some.mp hnamed
    split
    · exact hgo _ c hc
    · exact .refl

/-- A refusal for want of a record (R15). -/
theorem Parts.refusedNoRecord (s : State) : Parts s (refuseNoRecord s).state := .single (.raise s _)

theorem decideClaim_inParts : DecidesInParts decideClaim := by
  intro who body s hsynced
  unfold decideClaim
  split
  · exact .refl
  next f hparse =>
    split
    · exact .refl
    · split
      · exact .refusedNoRecord s
      next id hid =>
        split
        · exact .refl
        next pairs hpairs => exact .single (.taken id _ hsynced (.claim hparse hid hpairs))

theorem decideBranch_inParts : DecidesInParts decideBranch := by
  intro who body s hsynced
  unfold decideBranch
  split
  · exact .refl
  next f hparse =>
    split
    · exact .refl
    next parent hnamed =>
      obtain ⟨-, hparent⟩ := Option.ite_none_right_eq_some.mp hnamed
      split
      · exact .refl
      · split
        · exact .refl
        next hstate =>
          split
          · exact .refl
          · split
            · exact .refusedNoRecord s
            next id hid =>
              split
              · exact .refl
              next destinations hslots =>
                exact .tail (.single (.taken id _ hsynced (.branch hparse hparent hstate hid hslots)))
                  (.updateBranches _ _ _)

theorem decideRelease_inParts : DecidesInParts decideRelease := by
  intro who body s hsynced
  unfold decideRelease
  split
  · exact .refl
  refine .onNamed fun id c _ => ?_
  split
  · exact .refl
  · exact .releasedAll hsynced _ id

theorem decideReshape_inParts : DecidesInParts decideReshape := by
  intro who body s hsynced
  unfold decideReshape
  split
  · exact .refl
  next width placement hparse =>
    obtain ⟨hleast, hmost, hplacement⟩ := parseReshape_fields hparse
    refine .onNamed fun id c hc => ?_
    split
    · exact .refl
    next hstate =>
      split
      · exact .refl
      next pairs hpairs =>
        exact .single (.reshaped id c width placement pairs hsynced hc hstate ⟨hleast, hmost⟩ hplacement hpairs)

/-- A SUSPEND is admitted for an ACTIVE record with no change pending (R105). -/
theorem suspendState_none {c : Circuit} (h : suspendState c = none) : c.state = .active ∧ c.pendingChange = none := by
  unfold suspendState at h
  split at h
  · exact nomatch h
  split at h
  · exact nomatch h
  next hstate =>
    split at h
    · exact nomatch h
    next hchange => exact ⟨Classical.not_not.mp hstate, Option.not_isSome_iff_eq_none.mp hchange⟩

/-- A RESUME is admitted for a SUSPENDED record with no change pending (R106). -/
theorem resumeState_none {c : Circuit} (h : resumeState c = none) : c.state = .suspended ∧ c.pendingChange = none := by
  unfold resumeState at h
  split at h
  · exact nomatch h
  split at h
  · exact nomatch h
  next hstate =>
    split at h
    · exact nomatch h
    next hchange => exact ⟨Classical.not_not.mp hstate, Option.not_isSome_iff_eq_none.mp hchange⟩

theorem decideSuspend_inParts : DecidesInParts decideSuspend := by
  intro who body s hsynced
  unfold decideSuspend
  split
  · exact .refl
  refine .onNamed fun id c hc => ?_
  split
  · exact .refl
  next hmay =>
    obtain ⟨hstate, hchange⟩ := suspendState_none hmay
    exact .single (.treated id c _ _ hsynced hc ⟨hchange, .inl ⟨hstate, rfl, rfl⟩⟩)

theorem decideResume_inParts : DecidesInParts decideResume := by
  intro who body s hsynced
  unfold decideResume
  split
  · exact .refl
  refine .onNamed fun id c hc => ?_
  split
  · exact .refl
  next hmay =>
    obtain ⟨hstate, hchange⟩ := resumeState_none hmay
    exact .single (.treated id c _ _ hsynced hc ⟨hchange, .inr ⟨hstate, rfl, rfl⟩⟩)

/-- The lease of a record is reloaded (R108). -/
theorem Part.renewed {s : State} {id : Nat} {c : Circuit} (hc : s.circuit id = some c) (length left : Word) :
    Part s (s.setCircuit id { c with leaseLength := length, leaseLeft := left }) := by
  refine .alike s _ fun h => ⟨s.setCircuit_wf id _ h.1, fun j => ?_⟩
  change Option.Rel Circuit.Alike (s.circuit j) ((s.setCircuit id _).circuit j)
  rw [State.setCircuit_circuit _ _ _ h.1]
  split
  next heq =>
    rw [heq, hc]
    exact .some ⟨rfl, rfl⟩
  next => exact alikeOption_refl _

theorem decideRenew_inParts : DecidesInParts decideRenew := by
  intro who body s _
  unfold decideRenew
  split
  · exact .refl
  refine .onNamed fun id c hc => ?_
  split
  · exact .refl
  · exact .single (.renewed hc _ _)

theorem decideTakeReport_inParts : DecidesInParts decideTakeReport := by
  intro who body s _
  unfold decideTakeReport
  split
  · exact .refl
  split
  · exact .refl
  next id rest hqueue =>
    have htaken : Part s (s.withSupQueue rest) :=
      .single (.supQueue rest (hqueue ▸ List.sublist_cons_self id rest)) fun h => h
    exact .head htaken (deliver_inParts id _)

theorem decideResetLink_inParts : DecidesInParts decideResetLink := by
  intro who body s _
  unfold decideResetLink
  split
  · exact .refl
  split
  · exact .refl
  · exact resetLink_inParts _ s

/-- The decision on a request of each kind is made of parts. -/
theorem decisionOf_inParts (kind : RequestKind) : DecidesInParts (decisionOf kind) := by
  cases kind with
  | claim => exact decideClaim_inParts
  | branch => exact decideBranch_inParts
  | release => exact decideRelease_inParts
  | reshape => exact decideReshape_inParts
  | suspend => exact decideSuspend_inParts
  | resume => exact decideResume_inParts
  | renew => exact decideRenew_inParts
  | takeReport => exact decideTakeReport_inParts
  | resetLink => exact decideResetLink_inParts
  | ask =>
    intro who body s _
    show Parts s (decideAsk who body s).state
    unfold decideAsk
    split
    · exact .refl
    · exact .onNamed fun _ _ _ => .refl
  | commit =>
    intro who body s _
    show Parts s (ite _ _ _ : Decision).state
    split
    · exact .refl
    · exact .single (.cutoverCounts s true _ fun h => h)
  | readCircuit | readSlot | readFree =>
    intro who body s _
    show Parts s (ite _ _ _ : Decision).state
    split
    · exact .refl
    · exact .refl

/-! ### Admissions -/

/-- The engine takes an item only while the bank is SYNCED (R68). -/
theorem State.synced_of_nextItem {s : State} {item : Item} (h : s.nextItem = some item) : s.maps.state = .synced := by
  cases hstate : s.maps.state with
  | synced => rfl
  | copying => exact nomatch (State.nextItem_copying hstate).symm.trans h

/-- The answer to a link's request is placed and the request taken, on what its decision leaves (R85, R136). -/
theorem Parts.answeredLink {s u t : State} {n : Link} {code : ResultCode} {body : List Word} (hdecided : Parts s u)
    (hlinks : ReportsAlone s u) (h : Answered (.link n) code body s u t) : Parts s t := by
  obtain ⟨r, rest, hrequests, rfl⟩ := h
  have hstands : (u.link n).requests = r :: rest := by
    rw [hlinks n]
    exact hrequests
  have hkept : LinkKept (u.link n) { u.link n with
      requests := rest
      answers := (u.link n).answers ++ [{ kind := r.kind, tag := r.tag, code, body, reserved := true }] } :=
    ⟨rfl, rfl, .refl _, fun h => h, fun _ hsilent => nomatch hstands.symm.trans hsilent.requests⟩
  have hpointer : ∀ v : State, Part v (v.withEngine { v.engine with pointer := nextLink n }) := fun v =>
    .engine v _ fun h => h
  exact (hdecided.tail (.link u n _ hkept)).tail (hpointer _)

/-- The admission of a request is made of parts when the decision on it is; that of a link reads no queue and leaves
the links but for their reports. -/
theorem Parts.admitted {kind : Option RequestKind} {decide : Owner → List Word → State → Decision}
    (hdecide : DecidesInParts decide) (hlink : ∀ n body k, linkKind k = kind →
      Untaken n (decide (.link n) body) ∧ ∀ s, ReportsAlone s (decide (.link n) body s).state) {s : State}
    (hrunning : s.resetAsserted = false) : Parts s (s.admission kind decide) := by
  have hadmission := fun n body => State.admission_link s n kind body decide
  unfold State.admission at hadmission ⊢
  split
  next hnext =>
    refine .ite (fun _ => ?_) fun _ => .refl
    have hdecided := hdecide .supervisor s.mailboxBody s (State.synced_of_nextItem hnext)
    unfold State.answerMailbox
    generalize decide .supervisor s.mailboxBody s = d at hdecided ⊢
    have hanswered : Part d.state (d.state.withMailbox { d.state.mailbox with
        state := .done, result := resultWindow s.mailboxKindByte d.code d.body }) :=
      .mailbox _ _ (fun h => h) fun _ => resultWindow_wf _ _ _
    exact .tail (hdecided.tail hanswered) (.raise _ _)
  next n hnext =>
    split
    next r rest hrequests =>
      refine Parts.ite (fun hkind => ?_) fun _ => .refl
      obtain ⟨huntaken, halone⟩ := hlink n r.body r.kind hkind
      have hanswered := hadmission n r.body ⟨hrunning, hnext, r, rest, hrequests, hkind, rfl⟩ huntaken (halone s)
      simp only [hnext, hrequests, if_pos hkind] at hanswered
      exact .answeredLink (hdecide (.link n) r.body s (State.synced_of_nextItem hnext)) (halone s) hanswered
    next => exact .refl
  next => exact .refl
  next => exact .refl

/-- An admission of a kind, contained or refused, leaves the links but for their reports. -/
theorem Decides.reportsAlone {s : State} {d : Decision} (h : Decides s (Contained s) d) : ReportsAlone s d.state := by
  rcases h with ⟨_, _, hstate⟩ | ⟨_, hcontained, _⟩
  · rw [hstate]
    split <;> exact ReportsAlone.of_links rfl
  · exact hcontained

/-- The admission of a request of a kind. -/
theorem Parts.admittedKind (kind : RequestKind) {s : State} (hrunning : s.resetAsserted = false) :
    Parts s (s.admission (some kind) (decisionOf kind)) := by
  refine .admitted (decisionOf_inParts kind) (fun n body k hk => ?_) hrunning
  have hmem := linkKind_mem hk
  have hreset : kind ≠ .resetLink := by
    rintro rfl
    simp at hmem
  exact ⟨decisionOf_untaken hmem n _ body, fun s => (decisionOf_contained hreset s _ body).reportsAlone⟩

/-- The admission of a follow-up item is made of parts when its action is. -/
theorem followUpAdmission_inParts (kind : FollowKind) {act : Nat → State → State}
    (hact : ∀ id s, s.maps.state = .synced → Parts s (act id s)) : InParts (State.followUpAdmission kind act) := by
  intro s
  unfold State.followUpAdmission
  split
  next f hnext =>
    have hsynced := State.synced_of_nextItem hnext
    have htaken : Part s (s.withEngine { s.engine with followUps := s.engine.followUps.tail }) :=
      .engine s _ fun h => h.sublist ((List.tail_sublist _).map FollowUp.id)
    exact .ite (fun _ => .head htaken (hact f.id _ hsynced)) fun _ => .refl
  · exact .refl
  · exact .refl
  · exact .refl

/-- The admission of an EXPIRE or ORPHAN item (R78). -/
theorem Parts.releasedItem (reason : CloseReason) (id : Nat) (s : State) (h : s.maps.state = .synced) :
    Parts s (s.releaseItem reason id) := .ite (fun _ => .releasedAll h reason id) fun _ => .refl

/-! ### The commands -/

/-- A command is made of parts. -/
def CommandInParts (i : Instr) : Prop := ∀ s t : State, exec i s = .next t → Parts s t

/-- A command of one operation that is made of parts, also while RESETn is asserted. -/
theorem InParts.command {i : Instr} {f : State → State} (h : InParts f)
    (hexec : ∀ s, exec i s = .next (s.whileRunning f)) : CommandInParts i := by
  intro s t hnext
  cases (hexec s).symm.trans hnext
  exact InParts.whileRunning (fun s _ => h s) s

/-- The command that admits a request of a kind. -/
theorem commandOf_inParts (kind : RequestKind) : CommandInParts (commandOf kind) := by
  have hexec : ∀ s, exec (commandOf kind) s =
      .next (s.whileRunning (State.admission (some kind) (decisionOf kind))) := by
    cases kind <;> exact fun _ => rfl
  intro s t hnext
  cases (hexec s).symm.trans hnext
  exact InParts.whileRunning (fun _ => Parts.admittedKind kind) s

/-- The command that admits a command of no known kind (R80). -/
theorem unknownKind_inParts : CommandInParts .unknownKind := by
  intro s t hnext
  cases hnext
  refine InParts.whileRunning (fun s hrunning => ?_) s
  exact .admitted (fun _ _ _ _ => .refl) (fun n body _ _ => ⟨decideUnknownKind_untaken n _ body, .refl⟩) hrunning

/-- Every command is made of parts. -/
theorem exec_parts (i : Instr) : CommandInParts i := by
  cases i with
  | powerOnReset =>
    intro s t hnext
    cases hnext
    exact .single (.powerOn s.pending)
  | resetnRelease =>
    intro s t hnext
    cases hnext
    refine .ite (fun _ => .tail (.single (.resetReleased s false)) (.switch _ _ fun h => ?_)) fun _ => .refl
    obtain ⟨-, -, -, hhalf0, hhalf1, -⟩ := id h
    exact ⟨hhalf0, hhalf1, State.liveBank_wf h⟩
  | softReset w => exact (writeControl_inParts (w ||| 0x8000)).command fun _ => rfl
  | cutoverMode w | supervisorReportsEnable w | primaryReference w | revertive w =>
    exact (writeControl_inParts w).command fun _ => rfl
  | linkEnable n w => exact (writeLinkConfig_inParts n w).command fun _ => rfl
  | linkReset n w => exact (writeLinkConfig_inParts n (w ||| 2)).command fun _ => rfl
  | registerWrite address w => exact (writeWord_inParts address w).command fun _ => rfl
  | eventsClear w => exact InParts.command (f := State.clearEvents w) (fun s => .single (.events s _)) fun _ => rfl
  | enablesWrite w => exact InParts.command (f := State.storeEnables w) (fun s => .single (.events s _)) fun _ => rfl
  | mailboxHeaderWrite w => exact (writeHeader_inParts w).command fun _ => rfl
  | mailboxBodyWrite position w => exact (writeWindow_inParts position w).command fun _ => rfl
  | ack => exact (writeMailboxControl_inParts true false).command fun _ => rfl
  | abort withAck => exact (writeMailboxControl_inParts withAck true).command fun _ => rfl
  | hello n m | requestReceived n m | damagedMessage n m | damageLimit n m =>
    exact (receive_inParts n m).command fun _ => rfl
  | clockLoss n => exact (loseClock_inParts n).command fun _ => rfl
  | clockReturn n =>
    exact InParts.command (f := State.modifyLink n fun c => { c with clockArmed := true })
      (fun s => .single (.link s n _ .of_same)) fun _ => rfl
  | transmitterTake n => exact (transmitterTake_inParts n).command fun _ => rfl
  | transmissionComplete n => exact (transmissionComplete_inParts n).command fun _ => rfl
  | claim => exact commandOf_inParts .claim
  | branch => exact commandOf_inParts .branch
  | release => exact commandOf_inParts .release
  | reshape => exact commandOf_inParts .reshape
  | suspend => exact commandOf_inParts .suspend
  | resume => exact commandOf_inParts .resume
  | renew => exact commandOf_inParts .renew
  | ask => exact commandOf_inParts .ask
  | readCircuit => exact commandOf_inParts .readCircuit
  | readSlot => exact commandOf_inParts .readSlot
  | readFree => exact commandOf_inParts .readFree
  | takeReport => exact commandOf_inParts .takeReport
  | commit => exact commandOf_inParts .commit
  | resetLink => exact commandOf_inParts .resetLink
  | unknownKind => exact unknownKind_inParts
  | drop => exact (followUpAdmission_inParts .drop fun id _ h => .single (.dropped id h)).command fun _ => rfl
  | expire => exact (followUpAdmission_inParts .expire (Parts.releasedItem .expired)).command fun _ => rfl
  | orphan => exact (followUpAdmission_inParts .orphan (Parts.releasedItem .orphaned)).command fun _ => rfl
  | frameStart received | leaseTick received => exact (frameDue_inParts _ _).command fun _ => rfl
  | boundary f => exact (frameDue_inParts _ f).command fun _ => rfl
  | leaseRunOut id received | silenceLimit n f =>
    exact InParts.command (fun s => .ite (fun _ => frameDue_inParts _ _ s) fun _ => .refl) fun _ => rfl
  | copyCompletion => exact InParts.command (f := State.completeCopy) (fun s => .single .copied) fun _ => rfl
  | referencePulse r elapsed f | referenceGood r elapsed f =>
    exact (pulseAfter_inParts r elapsed f).command fun _ => rfl
  | windowClose r f => exact (windowCloses_inParts r f).command fun _ => rfl

/-- Every step is made of parts. -/
theorem step_parts {s t : State} (hstep : step s = .next t) : Parts s t := by
  unfold step at hstep
  split at hstep
  · cases hstep
    exact .refl
  next command rest _ => exact .head (.pending s rest) (exec_parts command (s.withPending rest) t hstep)

/-! ### The invariants -/

/-- A law of canonical states that every change keeps is kept by every step. -/
theorem step_keepsLaw {law : State → Prop} (hlaw : ∀ s t, s.Canonical → law s → Change s t → law t) {s t : State}
    (hcanonical : s.Canonical) (hs : law s) (hstep : step s = .next t) : t.Canonical ∧ law t :=
  (step_parts hstep).keepLaw hlaw hcanonical hs

/-- Settles O52: every change keeps the canonical form. -/
theorem stepsKeepCanonicalForm : Obligations.StepsKeepCanonicalForm := fun _ _ hcanonical hstep =>
  (step_keepsLaw (law := fun _ => True) (fun _ _ _ _ _ => trivial) hcanonical trivial hstep).1

/-- Settles O53: every change keeps the lists free of repeats, and the report queues to their owners. -/
theorem stepsKeepListsDistinct : Obligations.StepsKeepListsDistinct :=
  ⟨fun _ _ hcanonical hlists hstep =>
      (step_keepsLaw (fun _ _ hcanonical hlists => Change.listsDistinct hcanonical hlists) hcanonical hlists hstep).2,
    fun _ _ hcanonical howned hstep =>
      (step_keepsLaw (fun _ _ hcanonical howned => Change.queuesOwned hcanonical howned) hcanonical howned hstep).2⟩

/-- Settles O54: every change keeps the laws by links and owners. -/
theorem stepsKeepTheLinkLaws : Obligations.StepsKeepTheLinkLaws := by
  intro s t hcanonical hheard hempty hstep
  have hlawful := State.linksLawful_iff.mpr ⟨hheard, hempty⟩
  exact State.linksLawful_iff.mp
    (step_keepsLaw (fun _ _ hcanonical hlawful => Change.linksLawful hcanonical hlawful) hcanonical hlawful hstep).2

/-- Settles O57: every part keeps the Timing Unit sound. -/
theorem stepsKeepTimingSound : Obligations.StepsKeepTimingSound := by
  intro s t hsound hstep
  have hparts := step_parts hstep
  clear hstep
  induction hparts with
  | refl => exact hsound
  | tail _ hpart ih => exact hpart.timingSound ih

end Sys2Proof.Machine
end

section
/-! SUPPORT. The cutover: what the application of a list of records leaves of every record (R11, R17, R40, R41). -/

namespace Sys2Proof.Machine

/-! ### Branch lists that are pruned -/

/-- The circuit whose branch list, if it is a TRUNK, loses the ids that meet a test (R11). -/
def Circuit.prune (test : Nat → Bool) (c : Circuit) : Circuit :=
  match c.kind with
  | .trunk branches isOpen => { c with kind := .trunk (branches.filter fun b => !test b) isOpen }
  | .branch _ => c

/-- The cutover prunes the branch lists by the ids that leave them. -/
theorem pruned_eq (s : State) (id : Nat) (c : Circuit) : pruned s id c = c.prune (leavesTree s id) := rfl

theorem Circuit.prune_alike (test : Nat → Bool) (c : Circuit) : c.Alike (c.prune test) := by
  unfold Circuit.prune
  split
  next branches isOpen hkind => exact ⟨rfl, by rw [Circuit.isTrunk, Circuit.isTrunk, hkind]⟩
  next => exact .refl c

theorem Circuit.prune_state (test : Nat → Bool) (c : Circuit) : (c.prune test).state = c.state := by
  rw [(c.prune_alike test).rest]

theorem Circuit.prune_owner (test : Nat → Bool) (c : Circuit) : (c.prune test).owner = c.owner := by
  rw [(c.prune_alike test).rest]

/-- A circuit is a branch of a parent after its own list is pruned exactly when it was. -/
theorem Circuit.prune_branchOf (test : Nat → Bool) (c : Circuit) (parent : Nat) :
    ((c.prune test).kind == .branch parent) = (c.kind == .branch parent) := by
  unfold Circuit.prune
  split
  next branches isOpen hkind =>
    have htrunk : ∀ list, (CircuitKind.trunk list isOpen == .branch parent) = false := fun list =>
      beq_eq_false_iff_ne.mpr fun h => nomatch h
    rw [hkind, htrunk branches]
    exact htrunk _
  next => rfl

/-- No id pruned. -/
theorem Circuit.prune_none {test : Nat → Bool} (h : ∀ b, test b = false) (c : Circuit) : c.prune test = c := by
  unfold Circuit.prune
  split
  next branches isOpen hkind =>
    have hall : branches.filter (fun b => !test b) = branches := List.filter_eq_self.mpr fun b _ => by rw [h b]; rfl
    rw [hall, ← hkind]
  next => rfl

/-- Ids pruned one after another. -/
theorem Circuit.prune_prune (first second : Nat → Bool) (c : Circuit) :
    (c.prune first).prune second = c.prune fun b => first b || second b := by
  cases hkind : c.kind with
  | branch parent => simp only [Circuit.prune, hkind]
  | trunk branches isOpen =>
    simp only [Circuit.prune, hkind, List.filter_filter, Bool.not_or]
    simp only [Bool.and_comm]

/-- The cutover of a live circuit does not see the branch list. -/
theorem applied_prune (cycle : Word) (test : Nat → Bool) (c : Circuit) :
    applied cycle (c.prune test) = (applied cycle c).prune test := by
  have hkind : (applied cycle c).kind = c.kind := by
    unfold applied
    dsimp only
    repeat' split
    all_goals rfl
  unfold Circuit.prune
  rw [hkind]
  split
  next branches isOpen hk =>
    unfold applied
    dsimp only
    repeat' split
    all_goals rfl
  next => rfl

/-- The cutover of a RELEASING circuit empties the branch list. -/
theorem closedAt_prune (cycle : Word) (test : Nat → Bool) (c : Circuit) :
    closedAt cycle (c.prune test) = closedAt cycle c := by
  unfold Circuit.prune
  split
  next branches isOpen hkind => simp only [closedAt, hkind]
  next => rfl

theorem prune_closedAt (cycle : Word) (test : Nat → Bool) (c : Circuit) :
    (closedAt cycle c).prune test = closedAt cycle c := by
  cases hkind : c.kind with
  | branch parent => simp only [Circuit.prune, closedAt, hkind]
  | trunk branches isOpen => simp only [Circuit.prune, closedAt, hkind, List.filter_nil]

/-! ### The application of a list of records -/

/-- The id of a branch leaves the branch list of a parent when the records of a list are applied (R11). -/
def leavesIn (s : State) (ids : List Nat) (parent branch : Nat) : Bool :=
  ids.contains branch && (s.circuit branch).any fun c => c.state == .releasing && c.kind == .branch parent

/-- The ids that leave at a cutover leave when the records of the change list are applied. -/
theorem leavesTree_eq (s : State) : leavesTree s = leavesIn s s.cutover.changeList := rfl

/-- What the application of a list of records leaves of a circuit (R17, R40, R41). -/
def cutCircuit (s : State) (ids : List Nat) (id : Nat) (c : Circuit) : Option Circuit :=
  if id ∈ ids then
    if c.state = .releasing then
      if s.receives c.owner then some (closedAt s.timing.cycle c) else none
    else some ((applied s.timing.cycle c).prune (leavesIn s ids id))
  else some (c.prune (leavesIn s ids id))

/-- The ids that leave when one record more is applied. -/
theorem leavesIn_cons (s : State) (id : Nat) (rest : List Nat) (parent branch : Nat) :
    leavesIn s (id :: rest) parent branch = (leavesIn s [id] parent branch || leavesIn s rest parent branch) := by
  rw [leavesIn, leavesIn, leavesIn, ← Bool.and_or_distrib_right]
  congr 1
  simp

/-- A record that is not RELEASING leaves no branch list. -/
theorem leavesIn_single_other {s : State} {id : Nat} (h : ∀ c, s.circuit id = some c → c.state ≠ .releasing)
    (parent branch : Nat) : leavesIn s [id] parent branch = false := by
  rw [leavesIn, Bool.and_eq_false_iff]
  by_cases hb : branch = id
  · refine .inr ?_
    cases hc : s.circuit branch with
    | none => rfl
    | some c => simp [h c (hb ▸ hc)]
  · exact .inl (by simp [hb])

/-- The other records after a RELEASING record is applied lose its id from their branch lists. -/
theorem withoutBranch_circuit {s : State} {id : Nat} {c : Circuit} (hc : s.circuit id = some c)
    (hstate : c.state = .releasing) (j : Nat) : withoutBranch id c s j =
      { generation := (s.record j).generation, circuit := (s.circuit j).map (Circuit.prune (leavesIn s [id] j)) } := by
  have hleaves : leavesIn s [id] j = fun b => b == id && c.kind == .branch j := by
    funext b
    rw [leavesIn]
    by_cases hb : b = id
    · subst hb
      simp [hc, hstate]
    · simp [hb]
  have hother : c.kind ≠ .branch j → withoutBranch id c s j = s.record j := fun hne => by
    unfold withoutBranch
    split
    next parent p hkind hp =>
      split
      next branches isOpen _ =>
        rw [if_neg]
        rintro rfl
        exact hne hkind
      next => rfl
    next => rfl
  by_cases hkind : c.kind = .branch j
  · cases hd : s.circuit j with
    | none =>
      have hfree : (s.record j).circuit = none := hd
      simp only [withoutBranch, hkind, hfree, Option.map_none]
      rw [← hfree]
    | some d =>
      have hrecord : (s.record j).circuit = some d := hd
      cases hdkind : d.kind with
      | branch parent =>
        simp only [withoutBranch, hkind, hrecord, hdkind, Option.map_some, Circuit.prune]
        rw [← hrecord]
      | trunk branches isOpen =>
        have htests : (fun b => decide (b ≠ id)) = fun b => !(b == id && c.kind == .branch j) := by
          funext b
          by_cases hb : b = id <;> simp [hb, hkind]
        simp only [withoutBranch, hkind, hrecord, hdkind, hleaves, Circuit.prune, Option.map_some, if_true, htests]
  · rw [hother hkind]
    have hnone : ∀ b, leavesIn s [id] j b = false := fun b => by rw [hleaves]; simp [hkind]
    have hsame : (s.circuit j).map (Circuit.prune (leavesIn s [id] j)) = (s.record j).circuit := by
      rw [← State.circuit_eq]
      cases s.circuit j with
      | none => rfl
      | some d => exact congrArg some (Circuit.prune_none hnone d)
    rw [hsame]

/-- The circuits after one record is applied, but for that record's own, lose its id from their branch lists. -/
theorem State.applyRecord_other {s : State} (h : s.Canonical) {id j : Nat} (hj : j ≠ id) :
    (s.applyRecord id).record j =
      { generation := (s.record j).generation, circuit := (s.circuit j).map (Circuit.prune (leavesIn s [id] j)) } := by
  have hstays : (∀ c, s.circuit id = some c → c.state ≠ .releasing) → s.record j =
      { generation := (s.record j).generation, circuit := (s.circuit j).map (Circuit.prune (leavesIn s [id] j)) } :=
    fun hstate => by
      have hnone := leavesIn_single_other hstate j
      have hsame : (s.circuit j).map (Circuit.prune (leavesIn s [id] j)) = (s.record j).circuit := by
        rw [← State.circuit_eq]
        cases s.circuit j with
        | none => rfl
        | some d => exact congrArg some (Circuit.prune_none hnone d)
      rw [hsame]
  have happlied := s.applyRecord_applied id h
  unfold Applied at happlied
  split at happlied
  next hfree =>
    rw [happlied]
    exact hstays fun c hc => nomatch hfree.symm.trans hc
  next c hc =>
    obtain ⟨-, -, hlive, hreleasing⟩ := happlied
    by_cases hstate : c.state = .releasing
    · rw [(hreleasing hstate).1 j hj, withoutBranch_circuit hc hstate]
    · rw [(hlive hstate).2.1 j hj]
      exact hstays fun d hd => Option.some.inj (hc.symm.trans hd) ▸ hstate

/-- A record after it is applied itself (R17, R40, R41). -/
theorem State.applyRecord_self {s : State} (h : s.Canonical) {id : Nat} {c : Circuit} (hc : s.circuit id = some c) :
    (s.applyRecord id).record id =
      { generation := (s.record id).generation
        circuit := if c.state = .releasing then
            if s.receives c.owner then some (closedAt s.timing.cycle c) else none
          else some (applied s.timing.cycle c) } := by
  have happlied := s.applyRecord_applied id h
  simp only [Applied, hc] at happlied
  obtain ⟨-, -, hlive, hreleasing⟩ := happlied
  by_cases hstate : c.state = .releasing
  · obtain ⟨-, hheard, hunheard⟩ := hreleasing hstate
    rw [if_pos hstate]
    split
    next hreceives => exact (hheard ((s.receives_iff c.owner).mp hreceives)).1
    next hreceives => exact (hunheard fun hlistens => hreceives ((s.receives_iff c.owner).mpr hlistens)).1
  · rw [if_neg hstate]
    exact (hlive hstate).1

/-- A FREE record is not applied. -/
theorem State.applyRecord_free {s : State} {id : Nat} (h : s.circuit id = none) : s.applyRecord id = s := by
  unfold State.applyRecord
  rw [h]

/-- An operation confined to the records leaves every owner listening or not. -/
theorem Confined.receives {s t : State} (h : Confined s t) (o : Owner) : t.receives o = s.receives o := by
  obtain ⟨-, -, hcontrol, -⟩ := h.outside
  cases o with
  | link n => rw [State.receives, State.receives, h.reports n]
  | supervisor => rw [State.receives, State.receives, hcontrol]

/-- The ids that leave when the rest of a list is applied leave alike after its first record is. -/
theorem State.applyRecord_leavesIn {s : State} (h : s.Canonical) {id : Nat} {rest : List Nat} (hid : id ∉ rest) :
    leavesIn (s.applyRecord id) rest = leavesIn s rest := by
  funext parent branch
  rw [leavesIn, leavesIn]
  by_cases hb : branch = id
  · have hout : rest.contains branch = false := by simp [hb, hid]
    rw [hout]
    rfl
  · rw [State.circuit_eq, State.applyRecord_other h hb]
    congr 1
    cases s.circuit branch with
    | none => rfl
    | some d => simp only [Option.map_some, Option.any_some, Circuit.prune_state, Circuit.prune_branchOf]

/-- What the rest of a list leaves of the circuits that its first record leaves (R39). -/
theorem cutCircuit_cons {s : State} (h : s.Canonical) {id : Nat} {rest : List Nat} (hid : id ∉ rest) (j : Nat) :
    ((s.applyRecord id).circuit j).bind (cutCircuit (s.applyRecord id) rest j) =
      (s.circuit j).bind (cutCircuit s (id :: rest) j) := by
  have hleaves := State.applyRecord_leavesIn h hid
  have hconfined := s.applyRecord_confined id
  obtain ⟨-, -, -, -, -, -, htiming⟩ := hconfined.outside
  by_cases hj : j = id
  · subst hj
    cases hc : s.circuit j with
    | none => rw [State.applyRecord_free hc, hc]; rfl
    | some c =>
      rw [State.circuit_eq, State.applyRecord_self h hc, Option.bind_some]
      dsimp only
      rw [cutCircuit, if_pos List.mem_cons_self]
      by_cases hstate : c.state = .releasing
      · rw [if_pos hstate, if_pos hstate]
        split
        · rw [Option.bind_some, cutCircuit, if_neg hid, prune_closedAt]
        · rfl
      · rw [if_neg hstate, if_neg hstate, Option.bind_some, cutCircuit, if_neg hid, hleaves]
        congr 2
        funext b
        rw [leavesIn_cons, leavesIn_single_other fun d hd => Option.some.inj (hc.symm.trans hd) ▸ hstate, Bool.false_or]
  · rw [State.circuit_eq, State.applyRecord_other h hj]
    cases s.circuit j with
    | none => rfl
    | some d =>
      have hmem : j ∈ id :: rest ↔ j ∈ rest := by simp [hj]
      have htests : (fun b => leavesIn s [id] j b || leavesIn s rest j b) = leavesIn s (id :: rest) j :=
        funext fun b => (leavesIn_cons s id rest j b).symm
      dsimp only [Option.map_some, Option.bind_some]
      unfold cutCircuit
      simp only [hmem, Circuit.prune_state, Circuit.prune_owner, hconfined.receives, htiming, closedAt_prune,
        applied_prune, hleaves, Circuit.prune_prune, htests]

/-- The records after a list of records is applied, none of them twice (R39). -/
theorem State.applyRecords_record (ids : List Nat) : ∀ {s : State}, s.Canonical → ids.Nodup → ∀ j,
    (ids.foldl (fun s id => s.applyRecord id) s).record j =
      { generation := (s.record j).generation, circuit := (s.circuit j).bind (cutCircuit s ids j) } := by
  induction ids with
  | nil =>
    intro s _ _ j
    have hsame : (s.circuit j).bind (cutCircuit s [] j) = (s.record j).circuit := by
      rw [← State.circuit_eq]
      cases s.circuit j with
      | none => rfl
      | some c =>
        have hnone : ∀ b, leavesIn s [] j b = false := fun _ => rfl
        rw [Option.bind_some, cutCircuit, if_neg List.not_mem_nil, Circuit.prune_none hnone]
    rw [hsame]
    rfl
  | cons id rest ih =>
    intro s h hnodup j
    obtain ⟨hid, hrest⟩ := List.nodup_cons.mp hnodup
    have hgeneration : ((s.applyRecord id).record j).generation = (s.record j).generation := by
      by_cases hj : j = id
      · subst hj
        cases hc : s.circuit j with
        | none => rw [State.applyRecord_free hc]
        | some c => rw [State.applyRecord_self h hc]
      · rw [State.applyRecord_other h hj]
    rw [List.foldl_cons, ih (h.applyRecord id) hrest, hgeneration, cutCircuit_cons h hid]

/-- The circuits after a cutover (R39 to R41). -/
theorem State.cutOver_circuit {s : State} (h : s.Canonical) (hnodup : s.cutover.changeList.Nodup) (j : Nat) :
    s.cutOver.circuit j = (s.circuit j).bind (cutCircuit s s.cutover.changeList j) := by
  have hrecord := State.applyRecords_record s.cutover.changeList h hnodup j
  exact congrArg Record.circuit hrecord

end Sys2Proof.Machine
end

section
/-! SUPPORT. The invariant family: what each part does to the circuits, and the staged slots apart (R26, R49, R50). -/

namespace Sys2Proof.Machine

/-! ### The circuits after a part -/

/-- The circuits after a record is taken. -/
theorem State.takeRecord_circuit {s : State} (h : s.Canonical) (id : Nat) (c : Circuit) (j : Nat) :
    (s.takeRecord id c).circuit j = if j = id then some c else s.circuit j := by
  rw [State.circuit_eq, State.takeRecord_record h, State.circuit_eq]
  split <;> rfl

/-- The circuits after the staged form of one record changes. -/
theorem State.restage_circuit {s : State} (h : s.Canonical) (id : Nat) (d : Circuit) (batch : EditBatch) (j : Nat) :
    (((s.setCircuit id d).editStaged batch).enlist id).circuit j = if j = id then some d else s.circuit j := by
  rw [State.enlist_circuit, State.editStaged_circuit, State.setCircuit_circuit _ _ _ h.1]

/-- The circuits of other records after one is released go on alike. -/
theorem State.releaseRecord_others {s : State} (h : s.Canonical) (reason : CloseReason) (id j : Nat) (hj : j ≠ id) :
    Option.Rel Circuit.Alike (s.circuit j) ((s.releaseRecord reason id).circuit j) := by
  have hreleased := s.releaseRecord_released reason id h
  have hsame : ∀ t : State, t.record j = s.record j → Option.Rel Circuit.Alike (s.circuit j) (t.circuit j) :=
    fun t ht => by
      rw [State.circuit_eq, State.circuit_eq, ht]
      exact alikeOption_refl _
  unfold ReleasedOne at hreleased
  split at hreleased
  next => exact hsame _ (by rw [hreleased])
  next c hc =>
    split at hreleased
    next =>
      obtain ⟨-, hothers, -⟩ := hreleased
      have halike := State.leaveParent_alike h id c j
      rw [State.circuit_eq (s.leaveParent id c), State.leaveParent_record s id c h.1, ← hothers j hj] at halike
      exact halike
    next => exact hsame _ (hreleased.2.1 j hj)
    next => exact hsame _ (hreleased.2.1 j hj)
    next => exact hsame _ (by rw [hreleased])
    next => exact hsame _ (by rw [hreleased])

/-- The circuit that a release leaves of a record: PENDING, it is CLOSED or FREE; live, it is RELEASING (R95, R96). -/
theorem State.releaseRecord_self {s : State} (h : s.Canonical) (reason : CloseReason) {id : Nat} {c : Circuit}
    (hc : s.circuit id = some c) :
    (c.state = .pending → (s.releaseRecord reason id).circuit id = none ∨ (s.releaseRecord reason id).circuit id =
        some { c with staged := [], pendingChange := none, closeReason := some reason, state := .closed }) ∧
      (c.state = .active ∨ c.state = .suspended → (s.releaseRecord reason id).circuit id =
        some { c with staged := [], pendingChange := none, closeReason := some reason, state := .releasing }) ∧
      (c.state = .releasing ∨ c.state = .closed → s.releaseRecord reason id = s) := by
  have hreleased := s.releaseRecord_released reason id h
  simp only [ReleasedOne, hc] at hreleased
  refine ⟨fun hstate => ?_, fun hstate => ?_, fun hstate => ?_⟩
  · rw [hstate] at hreleased
    obtain ⟨-, -, -, -, -, hheard, hunheard⟩ := hreleased
    by_cases hlistens : OwnerListens s c.owner
    · exact .inr (congrArg Record.circuit (hheard hlistens).1)
    · exact .inl (congrArg Record.circuit (hunheard hlistens).1)
  · rcases hstate with hstate | hstate
    all_goals
      rw [hstate] at hreleased
      exact congrArg Record.circuit hreleased.1
  · rcases hstate with hstate | hstate
    all_goals
      rw [hstate] at hreleased
      exact hreleased

/-! ### Staged slots apart -/

/-- A circuit stages no slot on its trunks that another did not. -/
structure Narrows (c d : Circuit) : Prop where
  staged   : ∀ p ∈ d.staged, p ∈ c.staged
  srcTrunk : d.srcTrunk = c.srcTrunk
  dstTrunk : d.dstTrunk = c.dstTrunk
  trunk    : d.isTrunk = c.isTrunk

theorem Narrows.refl (c : Circuit) : Narrows c c := ⟨fun _ h => h, rfl, rfl, rfl⟩

theorem Circuit.Alike.narrows {c d : Circuit} (h : c.Alike d) : Narrows c d := by
  refine ⟨fun p hp => ?_, ?_, ?_, h.trunk⟩
  · rw [h.rest] at hp
    exact hp
  · rw [h.rest]
  · rw [h.rest]

/-- Circuits that stage no new slot stay apart. -/
theorem State.StagedSlotsApart.narrowed {s t : State} (h : s.StagedSlotsApart)
    (hnarrows : ∀ id d, t.circuit id = some d → ∃ c, s.circuit id = some c ∧ Narrows c d) : t.StagedSlotsApart := by
  intro i j di dj hij hi hj
  obtain ⟨ci, hci, hin⟩ := hnarrows i di hi
  obtain ⟨cj, hcj, hjn⟩ := hnarrows j dj hj
  obtain ⟨hdst, hsrc⟩ := h i j ci cj hij hci hcj
  refine ⟨fun htrunks p hp q hq => ?_, fun hit hjt htrunks p hp q hq => ?_⟩
  · exact hdst (hin.dstTrunk.symm.trans (htrunks.trans hjn.dstTrunk)) p (hin.staged p hp) q (hjn.staged q hq)
  · exact hsrc (hin.trunk.symm.trans hit) (hjn.trunk.symm.trans hjt) (hin.srcTrunk.symm.trans (htrunks.trans
      hjn.srcTrunk)) p (hin.staged p hp) q (hjn.staged q hq)

/-- A circuit stages slots apart from those of every other record. -/
structure StagesApart (s : State) (id : Nat) (d : Circuit) : Prop where
  dst : ∀ j c, j ≠ id → s.circuit j = some c → c.dstTrunk = d.dstTrunk → ∀ p ∈ d.staged, ∀ q ∈ c.staged, p.dst ≠ q.dst
  src : ∀ j c, j ≠ id → s.circuit j = some c → c.isTrunk = true → d.isTrunk = true → c.srcTrunk = d.srcTrunk →
    ∀ p ∈ d.staged, ∀ q ∈ c.staged, p.src ≠ q.src

/-- One record is given a circuit that stages slots apart from the others'. -/
theorem State.StagedSlotsApart.edited {s t : State} {id : Nat} {d : Circuit} (h : s.StagedSlotsApart)
    (hcircuit : ∀ j, t.circuit j = if j = id then some d else s.circuit j) (hd : StagesApart s id d) :
    t.StagedSlotsApart := by
  have hself : ∀ c, t.circuit id = some c → c = d := fun c hc => by
    rw [hcircuit, if_pos rfl] at hc
    exact (Option.some.inj hc).symm
  have hother : ∀ j c, j ≠ id → t.circuit j = some c → s.circuit j = some c := fun j c hj hc => by
    rwa [hcircuit, if_neg hj] at hc
  intro i j ci cj hij hi hj
  by_cases hiid : i = id
  · subst hiid
    obtain rfl := hself ci hi
    have hcj := hother j cj (Ne.symm hij) hj
    exact ⟨fun htrunks => hd.dst j cj (Ne.symm hij) hcj htrunks.symm, fun hit hjt htrunks =>
      hd.src j cj (Ne.symm hij) hcj hjt hit htrunks.symm⟩
  · have hci := hother i ci hiid hi
    by_cases hjid : j = id
    · subst hjid
      obtain rfl := hself cj hj
      exact ⟨fun htrunks p hp q hq => (hd.dst i ci hiid hci htrunks q hq p hp).symm, fun hit hjt htrunks p hp q hq =>
        (hd.src i ci hiid hci hit hjt htrunks q hq p hp).symm⟩
    · exact h i j ci cj hij hci (hother j cj hjid hj)

/-- A circuit on slots free in a state stages slots apart from those of its records. -/
theorem StagesApart.of_free {s : State} (hcanonical : s.Canonical) (id : Nat) {d : Circuit}
    (hdst : ∀ p ∈ d.staged, p.dst ∈ s.freeOutputs d.dstTrunk)
    (hsrc : d.isTrunk = true → ∀ p ∈ d.staged, p.src ∈ s.freeInputs d.srcTrunk) : StagesApart s id d := by
  refine ⟨fun j c _ hc htrunks p hp q hq heq => ?_, fun j c _ hc hct hdt htrunks p hp q hq heq => ?_⟩
  · exact ((s.mem_freeOutputs _ _ hcanonical.1).mp (hdst p hp)).2 j c hc htrunks q hq heq.symm
  · exact ((s.mem_freeInputs _ _ hcanonical.1).mp (hsrc hdt p hp)).2 j c hc hct htrunks q hq heq.symm

/-! ### The pairs of a RESHAPE -/

/-- The slots that a RESHAPE pairs: kept source slots, or all kept and some added from the free set (R63). -/
theorem State.reshapePairs_slots {s : State} {c : Circuit} {width : Nat} {placement : Placement} {pairs : List Pair}
    (hplacement : placement ≠ .fixed) (h : s.reshapePairs c width placement = .ok pairs) : ∃ sources destinations,
      (width ≤ c.width ∧ sources = c.sources.take width ∨ ∃ added, c.width < width ∧
        Chosen (s.freeInputs c.srcTrunk) (width - c.width) added ∧ sources = c.sources ++ added) ∧
      Chosen (s.freeOutputs c.dstTrunk) width destinations ∧ pairs = pairSlots sources destinations := by
  unfold State.reshapePairs at h
  split at h
  · exact nomatch h
  next sources hsources =>
    split at h
    · exact nomatch h
    next destinations hdestinations =>
      cases h
      refine ⟨sources, destinations, ?_, .of_chooseSlots (s.freeOutputs_nodup _) (fun hp => absurd hp hplacement)
        hdestinations, rfl⟩
      unfold State.reshapeSources at hsources
      split at hsources
      next hnarrow => exact .inl ⟨hnarrow, (Except.ok.inj hsources).symm⟩
      next hwide =>
        split at hsources
        next added hadded =>
          have hchosen : Chosen (s.freeInputs c.srcTrunk) (width - c.width) added :=
            .of_chooseSlots (placement := .any) (s.freeInputs_nodup _) (fun h => nomatch h) hadded
          exact .inr ⟨added, Nat.lt_of_not_le hwide, hchosen, (Except.ok.inj hsources).symm⟩
        next => exact nomatch hsources

/-- A source slot of a circuit is one of its staged pairs'. -/
theorem Circuit.mem_sources {c : Circuit} {slot : Nat} (h : slot ∈ c.sources) : ∃ p ∈ c.staged, p.src = slot := by
  obtain ⟨p, hp, hsrc⟩ := List.mem_map.mp (c.sources_perm.mem_iff.mp h)
  exact ⟨p, (List.mem_filter.mp hp).1, hsrc⟩

/-- The source slot of a new pair of a RESHAPE is one of the circuit's own, or a free one (R63). -/
theorem State.reshapePairs_src {s : State} {c : Circuit} {width : Nat} {placement : Placement} {pairs : List Pair}
    (hplacement : placement ≠ .fixed) (h : s.reshapePairs c width placement = .ok pairs) {p : Pair} (hp : p ∈ pairs) :
    (∃ q ∈ c.staged, q.src = p.src) ∨ p.src ∈ s.freeInputs c.srcTrunk := by
  obtain ⟨sources, destinations, hsources, -, rfl⟩ := State.reshapePairs_slots hplacement h
  have hmem : p.src ∈ (pairSlots sources destinations).map Pair.src := List.mem_map_of_mem hp
  rw [pairSlots_src] at hmem
  have hsource := (mem_sortSlots _ _).mp (List.mem_of_mem_take hmem)
  rcases hsources with ⟨-, rfl⟩ | ⟨added, -, hadded, rfl⟩
  · exact .inl (Circuit.mem_sources (List.mem_of_mem_take hsource))
  · rcases List.mem_append.mp hsource with hkept | hnew
    · exact .inl (Circuit.mem_sources hkept)
    · exact .inr (hadded.free _ hnew)

/-- A pair staged in a reshape is an old pair, marked, or a new one (R65). -/
theorem mem_mergeRetired {c : Circuit} {pairs : List Pair} {p : Pair} (h : p ∈ mergePairs c.retired pairs) :
    (∃ q ∈ c.staged, { q with retiring := true } = p) ∨ p ∈ pairs := by
  rcases List.mem_append.mp ((mergePairs_perm _ _).mem_iff.mp h) with hold | hnew
  · exact .inl (List.mem_map.mp hold)
  · exact .inr hnew

/-- A circuit in a reshape stages slots apart from those of the other records. -/
theorem StagesApart.of_reshape {s : State} (hcanonical : s.Canonical) (h : s.StagedSlotsApart) {id : Nat} {c : Circuit}
    (hc : s.circuit id = some c) {width : Nat} {placement : Placement} {pairs : List Pair}
    (hplacement : placement ≠ .fixed) (hpairs : s.reshapePairs c width placement = .ok pairs) :
    StagesApart s id
      { c with staged := mergePairs c.retired pairs, width := width, pendingChange := some .reshapeAdd } := by
  obtain ⟨-, hfree⟩ := State.reshapePairs_dst hplacement hpairs
  refine ⟨fun j k hj hk htrunks p hp q hq heq => ?_, fun j k hj hk hkt hct htrunks p hp q hq heq => ?_⟩
  · obtain ⟨hdst, -⟩ := h j id k c hj hk hc
    rcases mem_mergeRetired hp with ⟨old, hold, rfl⟩ | hnew
    · exact hdst htrunks q hq old hold heq.symm
    · exact ((s.mem_freeOutputs _ _ hcanonical.1).mp (hfree p hnew)).2 j k hk htrunks q hq heq.symm
  · obtain ⟨-, hsrc⟩ := h j id k c hj hk hc
    rcases mem_mergeRetired hp with ⟨old, hold, rfl⟩ | hnew
    · exact hsrc hkt hct htrunks q hq old hold heq.symm
    · rcases State.reshapePairs_src hplacement hpairs hnew with ⟨old, hold, hsame⟩ | hinput
      · exact hsrc hkt hct htrunks q hq old hold (heq.symm.trans hsame.symm)
      · exact ((s.mem_freeInputs _ _ hcanonical.1).mp hinput).2 j k hk hkt htrunks q hq heq.symm

/-! ### The parts -/

/-- A circuit that a cutover leaves stages what it staged. -/
theorem cutCircuit_narrows {s : State} {ids : List Nat} {id : Nat} {c d : Circuit}
    (h : cutCircuit s ids id c = some d) : Narrows c d := by
  have hclosed : Narrows c (closedAt s.timing.cycle c) := by
    refine ⟨fun _ h => h, rfl, rfl, ?_⟩
    rw [Circuit.isTrunk, Circuit.isTrunk, closedAt]
    cases c.kind <;> rfl
  have happlied : Narrows c (applied s.timing.cycle c) := by
    unfold applied
    dsimp only
    repeat' split
    all_goals exact ⟨fun _ h => h, rfl, rfl, rfl⟩
  have hpruned : ∀ {a test}, Narrows c a → Narrows c (Circuit.prune test a) := fun {a test} ha => by
    obtain ⟨hstaged, hsrc, hdst, htrunk⟩ := (a.prune_alike test).narrows
    exact ⟨fun p hp => ha.staged p (hstaged p hp), hsrc.trans ha.srcTrunk, hdst.trans ha.dstTrunk,
      htrunk.trans ha.trunk⟩
  unfold cutCircuit at h
  split at h
  · split at h
    · split at h
      · exact Option.some.inj h ▸ hclosed
      · exact nomatch h
    · exact Option.some.inj h ▸ hpruned happlied
  · exact Option.some.inj h ▸ hpruned (.refl c)

/-- Circuits stay apart while records are applied. -/
theorem State.StagedSlotsApart.applyRecords (ids : List Nat) : ∀ {s : State}, s.Canonical → s.StagedSlotsApart →
    (ids.foldl (fun s id => s.applyRecord id) s).StagedSlotsApart := by
  induction ids with
  | nil => exact fun _ h => h
  | cons id rest ih =>
    intro s hcanonical h
    refine ih (hcanonical.applyRecord id) (h.narrowed fun j d hd => ?_)
    have hrecord := State.applyRecords_record [id] hcanonical (List.nodup_singleton id) j
    have hbound : (s.circuit j).bind (cutCircuit s [id] j) = some d := (congrArg Record.circuit hrecord).symm.trans hd
    obtain ⟨c, hc, hcut⟩ := Option.bind_eq_some_iff.mp hbound
    exact ⟨c, hc, cutCircuit_narrows hcut⟩

/-- Circuits stay apart when one record changes to a narrower circuit and the others go on alike. -/
theorem State.StagedSlotsApart.narrowedOne {s t : State} (h : s.StagedSlotsApart) (id : Nat)
    (hself : ∀ d, t.circuit id = some d → ∃ c, s.circuit id = some c ∧ Narrows c d)
    (hothers : ∀ j, j ≠ id → Option.Rel Circuit.Alike (s.circuit j) (t.circuit j)) : t.StagedSlotsApart := by
  refine h.narrowed fun j d hd => ?_
  by_cases hj : j = id
  · exact hj ▸ hself d (hj ▸ hd)
  · have halike := hothers j hj
    rw [hd] at halike
    cases hc : s.circuit j with
    | none => rw [hc] at halike; exact nomatch halike
    | some c =>
      rw [hc] at halike
      cases halike with
      | some hcd => exact ⟨c, rfl, hcd.narrows⟩

/-- The circuit that a release leaves stages nothing, or what it staged. -/
theorem State.releaseRecord_narrows {s : State} (h : s.Canonical) (reason : CloseReason) (id : Nat) (d : Circuit)
    (hd : (s.releaseRecord reason id).circuit id = some d) : ∃ c, s.circuit id = some c ∧ Narrows c d := by
  cases hc : s.circuit id with
  | none =>
    have hsame : s.releaseRecord reason id = s := by
      unfold State.releaseRecord
      rw [hc]
    rw [hsame, hc] at hd
    exact nomatch hd
  | some c =>
    obtain ⟨hpending, hlive, hgone⟩ := State.releaseRecord_self h reason hc
    refine ⟨c, rfl, ?_⟩
    have hempty : ∀ {e : Circuit}, (s.releaseRecord reason id).circuit id = some e → Narrows c e → Narrows c d :=
      fun he hnarrows => Option.some.inj (he.symm.trans hd) ▸ hnarrows
    cases hstate : c.state with
    | pending =>
      rcases hpending hstate with hfree | hclosed
      · exact nomatch hfree.symm.trans hd
      · exact hempty hclosed ⟨fun _ hp => absurd hp List.not_mem_nil, rfl, rfl, rfl⟩
    | active => exact hempty (hlive (.inl hstate)) ⟨fun _ hp => absurd hp List.not_mem_nil, rfl, rfl, rfl⟩
    | suspended => exact hempty (hlive (.inr hstate)) ⟨fun _ hp => absurd hp List.not_mem_nil, rfl, rfl, rfl⟩
    | releasing =>
      rw [hgone (.inl hstate), hc] at hd
      exact Option.some.inj hd ▸ .refl c
    | closed =>
      rw [hgone (.inr hstate), hc] at hd
      exact Option.some.inj hd ▸ .refl c

/-- A state without records stages no slot twice. -/
theorem State.StagedSlotsApart.of_free {t : State} (h : ∀ id, t.circuit id = none) : t.StagedSlotsApart :=
  fun i _ _ _ _ hi => nomatch (h i).symm.trans hi

/-- The copy completion leaves every circuit. -/
theorem State.completeCopy_circuit (s : State) (j : Nat) : s.completeCopy.circuit j = s.circuit j := by
  unfold State.completeCopy
  split <;> rfl

/-- Every part keeps the staged slots apart (R26, R49, R50). -/
theorem Part.stagedSlotsApart {s t : State} (hcanonical : s.Canonical) (h : s.StagedSlotsApart) (hpart : Part s t) :
    t.StagedSlotsApart := by
  cases hpart with
  | plain _ _ hthinned =>
    refine h.narrowed fun id d hd => ?_
    have hthins := (hthinned hcanonical).circuit id
    rw [hd] at hthins
    rcases hthins with halike | ⟨hnone, -⟩
    · cases hc : s.circuit id with
      | none => rw [hc] at halike; exact nomatch halike
      | some c =>
        rw [hc] at halike
        cases halike with
        | some hcd => exact ⟨c, rfl, hcd.narrows⟩
    · exact nomatch hnone
  | taken id c _ hnew =>
    exact h.edited (State.takeRecord_circuit hcanonical id c) (.of_free hcanonical id hnew.outputs hnew.inputs)
  | reshaped id c width placement pairs _ hc _ _ hplacement hpairs =>
    exact h.edited (State.restage_circuit hcanonical id _ _) (.of_reshape hcanonical h hc hplacement hpairs)
  | treated id c treatment change _ hc =>
    refine h.narrowedOne id (fun d hd => ⟨c, hc, ?_⟩) fun j hj => ?_
    · rw [State.treat, State.restage_circuit hcanonical, if_pos rfl] at hd
      exact Option.some.inj hd ▸ ⟨fun _ hp => hp, rfl, rfl, rfl⟩
    · rw [State.treat, State.restage_circuit hcanonical, if_neg hj]
      exact alikeOption_refl _
  | dropped id =>
    rcases s.dropMarked_eq id with hsame | ⟨c, hc, -, -, hdrops⟩
    · rwa [hsame]
    · rw [hdrops]
      refine h.narrowedOne id (fun d hd => ⟨c, hc, ?_⟩) fun j hj => ?_
      · rw [State.restage_circuit hcanonical, if_pos rfl] at hd
        exact Option.some.inj hd ▸ ⟨fun p hp => (List.mem_filter.mp hp).1, rfl, rfl, rfl⟩
      · rw [State.restage_circuit hcanonical, if_neg hj]
        exact alikeOption_refl _
  | released reason id =>
    exact h.narrowedOne id (State.releaseRecord_narrows hcanonical reason id)
      (State.releaseRecord_others hcanonical reason id)
  | cutOver => exact State.StagedSlotsApart.applyRecords s.cutover.changeList hcanonical h
  | copied => exact h.narrowed fun id d hd => ⟨d, (s.completeCopy_circuit id).symm.trans hd, .refl d⟩
  | softReset => exact .of_free fun _ => rfl
  | powerOn => exact .of_free fun _ => rfl

/-- Every step keeps the staged slots apart. -/
theorem step_stagedSlotsApart {s t : State} (hcanonical : s.Canonical) (h : s.StagedSlotsApart)
    (hstep : step s = .next t) : t.StagedSlotsApart :=
  ((step_parts hstep).keepPartLaw (fun _ _ hcanonical h => Part.stagedSlotsApart hcanonical h) hcanonical h).2

end Sys2Proof.Machine
end

section
/-! SUPPORT. The invariant family: the conditions of R4, R6 and R7 under the changes of one circuit. -/

namespace Sys2Proof.Machine

/-! ### Pair lists -/

/-- A list within a formed pair list is formed. -/
theorem ListFormed.sublist {pairs rest : List Pair} (h : ListFormed pairs) (hrest : rest.Sublist pairs) :
    ListFormed rest := by
  obtain ⟨hrange, hdst, hunmarked, hmarked⟩ := h
  exact ⟨fun p hp => hrange p (hrest.subset hp), hdst.sublist (hrest.map _), hunmarked.sublist ((hrest.filter _).map _),
    hmarked.sublist ((hrest.filter _).map _)⟩

/-- The pairs that a DROP item keeps. -/
theorem marked_false_eq (pairs : List Pair) : (pairs.filter fun p => !p.retiring) = marked false pairs :=
  List.filter_congr fun p _ => by cases p.retiring <;> rfl

/-- The marked and the unmarked pairs of a list. -/
theorem marked_marked (a b : Bool) (pairs : List Pair) : marked a (marked b pairs) = if a =
    b then marked a pairs else [] := by
  split
  next h =>
    subst h
    exact List.filter_eq_self.mpr fun p hp => (List.mem_filter.mp hp).2
  next h =>
    refine List.filter_eq_nil_iff.mpr fun p hp hmark => h ?_
    exact (eq_of_beq hmark).symm.trans (eq_of_beq (List.mem_filter.mp hp).2)

/-- Lists of the same pairs in ascending order of destination slot are one list. -/
theorem eq_of_perm_of_ascending {a b : List Pair} (h : a.Perm b) (ha : (a.map Pair.dst).Pairwise (· < ·))
    (hb : (b.map Pair.dst).Pairwise (· < ·)) : a = b := by
  refine h.eq_of_pairwise (le := fun p q => p.dst < q.dst) (fun p q _ _ hpq hqp => ?_) (List.pairwise_map.mp ha)
    (List.pairwise_map.mp hb)
  exact absurd (Nat.lt_trans hpq hqp) (Nat.lt_irrefl _)

/-! ### A RESHAPE -/

/-- The old pairs of a whole staged list lose nothing when they are marked and the mark is taken off again. -/
theorem Whole.unmark_retired {c : Circuit} (h : Whole c) : c.retired.map unmark = c.staged := by
  rw [Circuit.retired, List.map_map]
  refine (List.map_congr_left fun p hp => ?_).trans (List.map_id _)
  obtain ⟨src, dst, retiring⟩ := p
  have hmark : retiring = false := h.unmarked hp
  subst hmark
  rfl

/-- The marked and the unmarked pairs of a staged list in a reshape (R65). -/
theorem marked_mergeRetired {c : Circuit} {pairs : List Pair} {width : Nat} (hfit : PairsFit width pairs)
    (hstaged : ListFormed c.staged)
    (hascending : ((mergePairs c.retired pairs).map Pair.dst).Pairwise (· < ·)) :
    marked true (mergePairs c.retired pairs) = c.retired ∧ marked false (mergePairs c.retired pairs) = pairs := by
  obtain ⟨hnewFalse, hnewTrue⟩ := marked_of_unmarked hfit.unmarked
  have holdTrue : marked true c.retired = c.retired := List.filter_eq_self.mpr fun p hp => by
    obtain ⟨q, -, rfl⟩ := List.mem_map.mp hp
    rfl
  have holdFalse : marked false c.retired = [] := List.filter_eq_nil_iff.mpr fun p hp => by
    obtain ⟨q, -, rfl⟩ := List.mem_map.mp hp
    exact Bool.false_ne_true
  have hmarked : ∀ mark, (marked mark (mergePairs c.retired pairs)).Perm
      (marked mark c.retired ++ marked mark pairs) := fun mark => by
    have hperm := (mergePairs_perm c.retired pairs).filter fun p => p.retiring == mark
    rwa [List.filter_append] at hperm
  have hsub : ∀ mark, ((marked mark (mergePairs c.retired pairs)).map Pair.dst).Pairwise (· < ·) := fun mark =>
    hascending.sublist (List.filter_sublist.map _)
  constructor
  · refine eq_of_perm_of_ascending ?_ (hsub true) ?_
    · have hperm := hmarked true
      rwa [holdTrue, hnewTrue, List.append_nil] at hperm
    · rw [Circuit.map_dst_retired]
      exact hstaged.2.1
  · refine eq_of_perm_of_ascending ?_ (hsub false) hfit.formed.2.1
    have hperm := hmarked false
    rwa [holdFalse, hnewFalse, List.nil_append] at hperm

/-- A RESHAPE is admitted for an ACTIVE TRUNK record with no change pending (R100). -/
theorem reshapeState_none {c : Circuit} (h : reshapeState c = none) :
    c.state = .active ∧ c.isTrunk = true ∧ c.pendingChange = none := by
  unfold reshapeState at h
  split at h
  · exact nomatch h
  split at h
  · exact nomatch h
  next hstate =>
    split at h
    · exact nomatch h
    next hchange =>
      obtain ⟨hactive, htrunk⟩ := not_or.mp hstate
      exact ⟨Classical.not_not.mp hactive, Bool.of_not_eq_false htrunk, Option.not_isSome_iff_eq_none.mp hchange⟩

/-- An ACTIVE record with no change pending. -/
theorem Circuit.Formed.active {listed : Prop} {c : Circuit} (h : c.Formed listed) (hstate : c.state = .active)
    (hchange : c.pendingChange = none) :
    Whole c ∧ c.live = c.staged ∧ c.stagedTreatment = .pass ∧ c.liveTreatment = .pass := by
  obtain ⟨-, -, -, -, -, -, -, hcondition⟩ := h
  rw [hstate, hchange] at hcondition
  obtain ⟨hwhole, hlive, hstaged, htreated, -⟩ := hcondition
  exact ⟨hwhole, hlive, hstaged, htreated⟩

/-- A RESHAPE leaves a formed record formed (R100). -/
theorem Circuit.Formed.reshaped {listed : Prop} {c : Circuit} (h : c.Formed listed) (hstate : reshapeState c = none)
    {width : Nat} (hwidth : 1 ≤ width ∧ width ≤ 16) {pairs : List Pair} (hfit : PairsFit width pairs)
    (hascending : ((mergePairs c.retired pairs).map Pair.dst).Pairwise (· < ·)) :
    Circuit.Formed True
      { c with staged := mergePairs c.retired pairs, width := width, pendingChange := some .reshapeAdd } := by
  obtain ⟨hactive, -, hchange⟩ := reshapeState_none hstate
  obtain ⟨hwhole, hlive, hstaged, htreated⟩ := h.active hactive hchange
  obtain ⟨hsized, -⟩ := Circuit.formed_iff.mp h
  obtain ⟨hold, hnew⟩ := marked_mergeRetired hfit hsized.staged hascending
  have hcount : c.retired.length = c.width := by
    obtain ⟨hunmarked, -⟩ := marked_of_unmarked fun p hp => hwhole.unmarked hp
    rw [Circuit.retired, List.length_map, ← hunmarked]
    exact hwhole.1
  refine Circuit.formed_iff.mpr ⟨⟨hwidth, hsized.trunks, ⟨fun p hp => ?_, hascending, ?_, ?_⟩, hsized.live,
    hsized.reason⟩, .adding hactive rfl ⟨?_, ?_, ?_⟩ ?_ hstaged htreated trivial⟩
  · rcases mem_mergeRetired hp with ⟨q, hq, rfl⟩ | hpair
    · exact hsized.staged.1 q hq
    · exact hfit.formed.1 p hpair
  · rw [hnew, ← (marked_of_unmarked hfit.unmarked).1]
    exact hfit.formed.2.2.1
  · have hsrc : c.retired.map Pair.src = (marked false c.staged).map Pair.src := by
      rw [(marked_of_unmarked fun p hp => hwhole.unmarked hp).1, Circuit.retired, List.map_map]
      rfl
    rw [hold, hsrc]
    exact hsized.staged.2.2.1
  · exact (congrArg List.length hnew).trans hfit.length
  · exact le_of_le_of_eq hsized.width.1 ((congrArg List.length hold).trans hcount).symm
  · exact le_of_eq_of_le ((congrArg List.length hold).trans hcount) hsized.width.2
  · change c.live = (marked true (mergePairs c.retired pairs)).map unmark
    rw [hold, hwhole.unmark_retired, hlive]

/-! ### SUSPEND, RESUME and DROP -/

/-- A SUSPEND or a RESUME leaves a formed record formed (R105, R106). -/
theorem Circuit.Formed.treated {listed : Prop} {c : Circuit} (h : c.Formed listed) {t : Treatment}
    {change : PendingChange} (htreats : Treats c t change) :
    Circuit.Formed True { c with stagedTreatment := t, pendingChange := some change } := by
  obtain ⟨hsized, hcondition⟩ := Circuit.formed_iff.mp h
  have hsized : Circuit.Sized { c with stagedTreatment := t, pendingChange := some change } :=
    ⟨hsized.width, hsized.trunks, hsized.staged, hsized.live, hsized.reason⟩
  refine Circuit.formed_iff.mpr ⟨hsized, ?_⟩
  obtain ⟨hnone, ⟨hstate, rfl, rfl⟩ | ⟨hstate, rfl, rfl⟩⟩ := htreats
  · obtain ⟨hwhole, hlive, -, htreated⟩ := h.active hstate hnone
    exact .suspending hstate rfl hwhole hlive rfl htreated trivial
  · cases hcondition with
    | suspended _ _ hwhole hlive _ htreated => exact .resuming hstate rfl hwhole hlive rfl htreated trivial
    | resuming _ hp => exact nomatch hp.symm.trans hnone
    | pending hs | active hs | suspending hs | adding hs | added hs | dropping hs | releasing hs | closed hs =>
      exact nomatch hs.symm.trans hstate

/-- A DROP item leaves a formed record formed (R77). -/
theorem Circuit.Formed.dropped {listed : Prop} {c : Circuit} (h : c.Formed listed)
    (hdrop : c.pendingChange = some .reshapeDrop) :
    Circuit.Formed True { c with staged := c.staged.filter fun p => !p.retiring } := by
  obtain ⟨hsized, hcondition⟩ := Circuit.formed_iff.mp h
  have hsized : Circuit.Sized { c with staged := c.staged.filter fun p => !p.retiring } :=
    ⟨hsized.width, hsized.trunks, hsized.staged.sublist List.filter_sublist, hsized.live, hsized.reason⟩
  have hwhole : (marked false c.staged).length = c.width →
      Whole { c with staged := c.staged.filter fun p => !p.retiring } := fun hcount => by
    refine ⟨?_, ?_⟩
    · change (marked false (c.staged.filter fun p => !p.retiring)).length = c.width
      rw [marked_false_eq, marked_marked, if_pos rfl, hcount]
    · change marked true (c.staged.filter fun p => !p.retiring) = []
      rw [marked_false_eq, marked_marked, if_neg (fun h => nomatch h)]
  refine Circuit.formed_iff.mpr ⟨hsized, ?_⟩
  cases hcondition with
  | added hs hp hdoubled hlive hstaged htreated =>
    obtain ⟨hcount, hleast, hmost⟩ := hdoubled
    refine .dropping hs hp (hwhole hcount) ?_ (hlive ▸ hleast) (hlive ▸ hmost) hstaged htreated trivial
    change marked false c.live = c.staged.filter fun p => !p.retiring
    rw [hlive, marked_false_eq]
  | dropping hs hp hstood hlive hleast hmost hstaged htreated =>
    refine .dropping hs hp (hwhole hstood.1) ?_ hleast hmost hstaged htreated trivial
    change marked false c.live = c.staged.filter fun p => !p.retiring
    rw [hlive, marked_false_eq, ← hlive, marked_marked, if_pos rfl]
  | pending _ hp | active _ hp | suspending _ hp | adding _ hp | suspended _ hp | resuming _ hp | releasing _ hp
  | closed _ hp => exact nomatch hp.symm.trans hdrop

/-! ### Releases -/

/-- A PENDING record that is released is CLOSED and formed (R95). -/
theorem Circuit.Formed.closes {listed : Prop} {c : Circuit} (h : c.Formed listed) (hstate : c.state = .pending)
    (reason : CloseReason) : Circuit.Formed False
      { c with staged := [], pendingChange := none, closeReason := some reason, state := .closed } := by
  obtain ⟨hsized, hcondition⟩ := Circuit.formed_iff.mp h
  refine Circuit.formed_iff.mpr ⟨⟨hsized.width, hsized.trunks, ListFormed.nil, hsized.live, ?_⟩, ?_⟩
  · exact iff_of_false nofun (by simp)
  · cases hcondition with
    | pending _ _ _ hlive hstaged htreated => exact .closed rfl rfl rfl hlive (hstaged.trans htreated.symm) id
    | active hs | suspending hs | adding hs | added hs | dropping hs | suspended hs | resuming hs | releasing hs
    | closed hs => exact nomatch hs.symm.trans hstate

/-- An ACTIVE or SUSPENDED record has live pairs. -/
theorem Circuit.Formed.live_ne_nil {listed : Prop} {c : Circuit} (h : c.Formed listed)
    (hstate : c.state = .active ∨ c.state = .suspended) : c.live ≠ [] := by
  obtain ⟨hsized, hcondition⟩ := Circuit.formed_iff.mp h
  have hmarked : ∀ {pairs : List Pair}, 1 ≤ (marked true pairs).length → pairs ≠ [] := by
    rintro pairs hleast rfl
    exact absurd hleast (by decide)
  cases hcondition with
  | active _ _ hwhole hlive | suspending _ _ hwhole hlive | suspended _ _ hwhole hlive | resuming _ _ hwhole hlive =>
    exact hlive ▸ hwhole.ne_nil hsized.width.1
  | adding _ _ hdoubled hlive =>
    rw [hlive]
    intro hnil
    have hempty := List.map_eq_nil_iff.mp hnil
    exact absurd hdoubled.2.1 (by rw [hempty]; decide)
  | added _ _ hdoubled hlive => exact hlive ▸ hmarked hdoubled.2.1
  | dropping _ _ _ _ hleast => exact hmarked hleast
  | pending hs | releasing hs | closed hs =>
    rcases hstate with hstate | hstate
    · exact nomatch hs.symm.trans hstate
    · exact nomatch hs.symm.trans hstate

/-- An ACTIVE or SUSPENDED record that is released is RELEASING and formed (R96). -/
theorem Circuit.Formed.releases {listed : Prop} {c : Circuit} (h : c.Formed listed)
    (hstate : c.state = .active ∨ c.state = .suspended) (reason : CloseReason) : Circuit.Formed True
      { c with staged := [], pendingChange := none, closeReason := some reason, state := .releasing } := by
  obtain ⟨hsized, -⟩ := Circuit.formed_iff.mp h
  refine Circuit.formed_iff.mpr ⟨⟨hsized.width, hsized.trunks, ListFormed.nil, hsized.live, ?_⟩, ?_⟩
  · exact iff_of_false nofun (by simp)
  · exact .releasing rfl rfl rfl (h.live_ne_nil hstate) trivial

/-! ### The cutover -/

/-- A listed record that is not RELEASING is formed, and not listed, after a cutover (R41). -/
theorem Circuit.Formed.afterCutover {c : Circuit} (h : c.Formed True) (hstate : c.state ≠ .releasing) (cycle : Word) :
    (applied cycle c).Formed False := by
  obtain ⟨hsized, hcondition⟩ := Circuit.formed_iff.mp h
  have hreason : ∀ {state}, (state = CircuitState.active ∨ state = .suspended) →
      (c.state = .pending ∨ c.state = .active ∨ c.state = .suspended) →
      (c.closeReason = none ↔ state = .pending ∨ state = .active ∨ state = .suspended) := fun hnew hold =>
    iff_of_true (hsized.reason.mpr hold) (.inr hnew)
  cases hcondition with
  | pending hs hp hwhole hlive hstaged =>
    have hform : applied cycle c = { c with
        live := c.staged, liveTreatment := c.stagedTreatment, cutoverCycle := some cycle, state := .active
        pendingChange := none, leaseLeft := c.leaseLength } := by simp [applied, hs]
    rw [hform]
    exact Circuit.formed_iff.mpr ⟨⟨hsized.width, hsized.trunks, hsized.staged, hsized.staged,
      hreason (.inl rfl) (.inl hs)⟩, .active rfl rfl hwhole rfl hstaged hstaged id⟩
  | suspending hs hp hwhole hlive hstaged =>
    have hform : applied cycle c = { c with
        live := c.staged, liveTreatment := c.stagedTreatment, cutoverCycle := some cycle, state := .suspended
        pendingChange := none } := by simp [applied, hs, hp]
    rw [hform]
    exact Circuit.formed_iff.mpr ⟨⟨hsized.width, hsized.trunks, hsized.staged, hsized.staged,
      hreason (.inr rfl) (.inr (.inl hs))⟩, .suspended rfl rfl hwhole rfl hstaged hstaged id⟩
  | adding hs hp hdoubled hlive hstaged =>
    have hform : applied cycle c = { c with
        live := c.staged, liveTreatment := c.stagedTreatment, cutoverCycle := some cycle
        pendingChange := some .reshapeDrop } := by simp [applied, hs, hp]
    rw [hform]
    exact Circuit.formed_iff.mpr ⟨⟨hsized.width, hsized.trunks, hsized.staged, hsized.staged,
      hsized.reason⟩, .added hs rfl hdoubled rfl hstaged hstaged id⟩
  | dropping hs hp hwhole hlive hleast hmost hstaged =>
    have hform : applied cycle c = { c with
        live := c.staged, liveTreatment := c.stagedTreatment, cutoverCycle := some cycle
        pendingChange := none } := by simp [applied, hs, hp]
    rw [hform]
    exact Circuit.formed_iff.mpr ⟨⟨hsized.width, hsized.trunks, hsized.staged, hsized.staged,
      hsized.reason⟩, .active hs rfl hwhole rfl hstaged hstaged id⟩
  | resuming hs hp hwhole hlive hstaged =>
    have hform : applied cycle c = { c with
        live := c.staged, liveTreatment := c.stagedTreatment, cutoverCycle := some cycle, state := .active
        pendingChange := none } := by simp [applied, hs, hp]
    rw [hform]
    exact Circuit.formed_iff.mpr ⟨⟨hsized.width, hsized.trunks, hsized.staged, hsized.staged,
      hreason (.inl rfl) (.inr (.inr hs))⟩, .active rfl rfl hwhole rfl hstaged hstaged id⟩
  | active _ _ _ _ _ _ hunlisted => exact absurd trivial hunlisted
  | added _ _ _ _ _ _ hunlisted => exact absurd trivial hunlisted
  | suspended _ _ _ _ _ _ hunlisted => exact absurd trivial hunlisted
  | releasing hs => exact absurd hs hstate
  | closed _ _ _ _ _ hunlisted => exact absurd trivial hunlisted

/-- A RELEASING record is formed, and not listed, when it is CLOSED by a cutover (R41). -/
theorem Circuit.Formed.afterClosing {listed : Prop} {c : Circuit} (h : c.Formed listed) (hstate : c.state = .releasing)
    (cycle : Word) : (closedAt cycle c).Formed False := by
  obtain ⟨hsized, hcondition⟩ := Circuit.formed_iff.mp h
  have hreason : c.closeReason ≠ none := fun hnone => by
    rcases hsized.reason.mp hnone with hs | hs | hs
    all_goals exact nomatch hs.symm.trans hstate
  cases hcondition with
  | releasing _ hp hempty =>
    refine Circuit.formed_iff.mpr ⟨⟨hsized.width, hsized.trunks, hsized.staged, hsized.staged, ?_⟩, ?_⟩
    · exact iff_of_false hreason (by simp [closedAt])
    · exact .closed rfl hp hempty hempty rfl id
  | pending hs | active hs | suspending hs | adding hs | added hs | dropping hs | suspended hs | resuming hs
  | closed hs => exact nomatch hs.symm.trans hstate

/-- A circuit that goes on alike is formed alike. -/
theorem Circuit.Formed.alike {listed : Prop} {c d : Circuit} (h : c.Formed listed) (halike : c.Alike d) :
    d.Formed listed := by
  rw [halike.rest]
  exact h

/-- A formed record is formed, and not listed, when the records of a list with it are applied. -/
theorem Circuit.Formed.cut {s : State} {ids : List Nat} {id : Nat} {c d : Circuit} (h : c.Formed (id ∈ ids))
    (hcut : cutCircuit s ids id c = some d) : d.Formed False := by
  unfold cutCircuit at hcut
  split at hcut
  next hlisted =>
    rw [eq_true hlisted] at h
    split at hcut
    next hstate =>
      split at hcut
      · exact Option.some.inj hcut ▸ h.afterClosing hstate _
      · exact nomatch hcut
    next hstate => exact Option.some.inj hcut ▸ (h.afterCutover hstate _).alike (Circuit.prune_alike _ _)
  next hlisted =>
    rw [eq_false hlisted] at h
    exact Option.some.inj hcut ▸ h.alike (Circuit.prune_alike _ _)

end Sys2Proof.Machine
end

section
/-! SUPPORT. The invariant family: every part keeps every record in one of the conditions of R4 and R6. -/

namespace Sys2Proof.Machine

/-! ### The pairs of a RESHAPE -/

/-- The new pairs of a RESHAPE fit its width (R60, R63). -/
theorem State.reshapePairs_fit {s : State} (hcanonical : s.Canonical) {id : Nat} {c : Circuit} {listed : Prop}
    (hc : s.circuit id = some c) (h : c.Formed listed) (hstate : reshapeState c = none) {width : Nat}
    {placement : Placement} {pairs : List Pair} (hplacement : placement ≠ .fixed)
    (hpairs : s.reshapePairs c width placement = .ok pairs) : PairsFit width pairs := by
  obtain ⟨hactive, htrunk, hchange⟩ := reshapeState_none hstate
  obtain ⟨⟨hwhole, -⟩, -⟩ := h.active hactive hchange
  obtain ⟨hsized, -⟩ := Circuit.formed_iff.mp h
  obtain ⟨hnodup, hrange, hcount⟩ := Circuit.sources_formed hsized.staged
  obtain ⟨sources, destinations, hsources, hdestinations, rfl⟩ := State.reshapePairs_slots hplacement hpairs
  have hfree : ∀ slot ∈ destinations, slot < 64 := fun slot hslot => State.freeOutputs_lt
      (hdestinations.free slot hslot)
  rcases hsources with ⟨hnarrow, rfl⟩ | ⟨added, hwide, hadded, rfl⟩
  · refine pairSlots_fit (hnodup.sublist (List.take_sublist _ _)) hdestinations.nodup ?_ hdestinations.length
      (fun slot hslot => hrange slot (List.mem_of_mem_take hslot)) hfree
    rw [List.length_take, hcount, hwhole, Nat.min_eq_left hnarrow]
  · refine pairSlots_fit ?_ hdestinations.nodup ?_ hdestinations.length (fun slot hslot => ?_) hfree
    · refine List.nodup_append.mpr ⟨hnodup, hadded.nodup, fun a ha b hb heq => ?_⟩
      obtain ⟨p, hp, hsrc⟩ := Circuit.mem_sources ha
      obtain ⟨-, hunused⟩ := (s.mem_freeInputs _ _ hcanonical.1).mp (hadded.free b hb)
      exact hunused id c hc htrunk rfl p hp (hsrc.trans heq)
    · rw [List.length_append, hcount, hwhole, hadded.length, Nat.add_sub_cancel' (Nat.le_of_lt hwide)]
    · rcases List.mem_append.mp hslot with hkept | hnew
      · exact hrange slot hkept
      · exact State.freeInputs_lt (hadded.free slot hnew)

/-! ### Records that go on -/

/-- A record is formed under an equivalent listing. -/
theorem Circuit.Formed.congr {p q : Prop} {c : Circuit} (h : c.Formed p) (hpq : p ↔ q) : c.Formed q := propext hpq ▸ h

/-- A FREE record, or one in a condition of R4 and R6. -/
def FormedOption (listed : Prop) (c : Option Circuit) : Prop :=
  (∀ d, c = some d → d.Formed listed) ∧ (c = none → ¬listed)

/-- The law of the records, record by record. -/
theorem State.recordsFormed_iff {s : State} :
    s.RecordsFormed ↔ ∀ id, FormedOption (id ∈ s.cutover.changeList) (s.circuit id) :=
  ⟨fun h id => ⟨fun c hc => h.1 id c hc, h.2 id⟩, fun h => ⟨fun id c hc => (h id).1 c hc, fun id => (h id).2⟩⟩

/-- A record that goes on alike under an equivalent listing. -/
theorem FormedOption.alike {p q : Prop} {a b : Option Circuit} (h : FormedOption p a) (halike
    : Option.Rel Circuit.Alike a b)
    (hpq : p ↔ q) : FormedOption q b := by
  cases halike with
  | none => exact ⟨fun _ hd => (nomatch hd), fun _ hq => h.2 rfl (hpq.mpr hq)⟩
  | some hcd => exact ⟨fun d hd => Option.some.inj hd ▸ ((h.1 _ rfl).alike hcd).congr hpq, fun hnone => nomatch hnone⟩

/-- The records go on alike but for one, and so does their listing. -/
theorem State.RecordsFormed.edited {s t : State} (h : s.RecordsFormed) (id : Nat)
    (hothers : ∀ j, j ≠ id → Option.Rel Circuit.Alike (s.circuit j) (t.circuit j))
    (hlisted : ∀ j, j ≠ id → (j ∈ s.cutover.changeList ↔ j ∈ t.cutover.changeList))
    (hself : FormedOption (id ∈ t.cutover.changeList) (t.circuit id)) : t.RecordsFormed := by
  refine State.recordsFormed_iff.mpr fun j => ?_
  by_cases hj : j = id
  · exact hj ▸ hself
  · exact (State.recordsFormed_iff.mp h j).alike (hothers j hj) (hlisted j hj)

/-- The listing of other ids when one is listed. -/
theorem mem_appendOnce_other {ids : List Nat} {id j : Nat} (hj : j ≠ id) : j ∈ ids ↔ j ∈ appendOnce ids id := by
  rw [mem_appendOnce]
  exact ⟨.inl, fun h => h.resolve_right hj⟩

/-- The staged form of one record changes to a formed one, and its id is listed. -/
theorem State.RecordsFormed.restaged {s t : State} (h : s.RecordsFormed) {id : Nat} {d : Circuit}
    (hcircuit : ∀ j, t.circuit j = if j = id then some d else s.circuit j)
    (hlist : t.cutover.changeList = appendOnce s.cutover.changeList id) (hd : d.Formed True) : t.RecordsFormed := by
  refine h.edited id (fun j hj => ?_) (fun j hj => hlist ▸ mem_appendOnce_other hj) ?_
  · rw [hcircuit, if_neg hj]
    exact alikeOption_refl _
  · have hlisted : id ∈ t.cutover.changeList := hlist ▸ mem_appendOnce.mpr (.inr rfl)
    rw [hcircuit, if_pos rfl]
    exact ⟨fun e he => Option.some.inj he ▸ hd.congr (iff_of_true trivial hlisted), fun hnone => nomatch hnone⟩

/-! ### Records thinned out -/

/-- A CLOSED record is not listed. -/
theorem Circuit.Formed.closed_unlisted {listed : Prop} {c : Circuit} (h : c.Formed listed)
    (hstate : c.state = .closed) : ¬listed := by
  obtain ⟨-, hcondition⟩ := Circuit.formed_iff.mp h
  cases hcondition with
  | closed _ _ _ _ _ hunlisted => exact hunlisted
  | pending hs | active hs | suspending hs | adding hs | added hs | dropping hs | suspended hs | resuming hs
  | releasing hs => exact nomatch hs.symm.trans hstate

/-- Records thinned out stay formed. -/
theorem State.RecordsFormed.thinned {s t : State} (h : s.RecordsFormed) (hthinned : Thinned s t) : t.RecordsFormed := by
  refine State.recordsFormed_iff.mpr fun id => ?_
  have hid := State.recordsFormed_iff.mp h id
  rcases hthinned.circuit id with halike | ⟨hnone, c, hc, hstate⟩
  · by_cases hfree : t.circuit id = none
    · rw [hfree] at halike ⊢
      cases hs : s.circuit id with
      | none =>
        rw [hs] at hid
        exact ⟨fun _ hd => (nomatch hd), fun _ hq => hid.2 rfl (hthinned.listed id hq)⟩
      | some c => rw [hs] at halike; exact nomatch halike
    · exact hid.alike halike ⟨hthinned.kept id hfree, hthinned.listed id⟩
  · rw [hnone]
    exact ⟨fun _ hd => (nomatch hd), fun _ hq => (hid.1 c hc).closed_unlisted hstate (hthinned.listed id hq)⟩

/-! ### Releases -/

/-- The change list after a release. -/
theorem State.releaseRecord_changeList {s : State} (h : s.Canonical) (reason : CloseReason) {id : Nat} {c : Circuit}
    (hc : s.circuit id = some c) :
    (c.state = .pending → (s.releaseRecord reason id).cutover.changeList = s.cutover.changeList.filter (· ≠ id)) ∧
      (c.state = .active ∨ c.state = .suspended →
        (s.releaseRecord reason id).cutover.changeList = appendOnce s.cutover.changeList id) := by
  have hreleased := s.releaseRecord_released reason id h
  simp only [ReleasedOne, hc] at hreleased
  refine ⟨fun hstate => ?_, fun hstate => ?_⟩
  · rw [hstate] at hreleased
    obtain ⟨-, -, hcutover, -⟩ := hreleased
    rw [hcutover]
  · rcases hstate with hstate | hstate
    all_goals
      rw [hstate] at hreleased
      obtain ⟨-, -, -, hcutover, -⟩ := hreleased
      rw [hcutover]

/-- A record that is FREE is not released. -/
theorem State.releaseRecord_free {s : State} {id : Nat} (h : s.circuit id = none) (reason : CloseReason) :
    s.releaseRecord reason id = s := by
  unfold State.releaseRecord
  rw [h]

/-- A release keeps every record formed (R95, R96). -/
theorem State.RecordsFormed.released {s : State} (hcanonical : s.Canonical) (h : s.RecordsFormed) (reason : CloseReason)
    (id : Nat) : (s.releaseRecord reason id).RecordsFormed := by
  cases hc : s.circuit id with
  | none => rwa [State.releaseRecord_free hc]
  | some c =>
    obtain ⟨hpending, hlive, hgone⟩ := State.releaseRecord_self hcanonical reason hc
    obtain ⟨hunlists, hlists⟩ := State.releaseRecord_changeList hcanonical reason hc
    have hothers := State.releaseRecord_others hcanonical reason id
    have hreleases : c.state = .active ∨ c.state = .suspended → (s.releaseRecord reason id).RecordsFormed :=
        fun hstate => by
      have hlist := hlists hstate
      refine h.edited id hothers (fun j hj => hlist ▸ mem_appendOnce_other hj) ?_
      have hlisted : id ∈ (s.releaseRecord reason id).cutover.changeList := hlist ▸ mem_appendOnce.mpr (.inr rfl)
      rw [hlive hstate]
      exact ⟨fun d hd => Option.some.inj hd ▸ ((h.1 id c hc).releases hstate reason).congr
        (iff_of_true trivial hlisted),
        fun hnone => nomatch hnone⟩
    cases hstate : c.state with
    | pending =>
      have hlist := hunlists hstate
      have hunlisted : id ∉ (s.releaseRecord reason id).cutover.changeList := by
        rw [hlist]
        exact fun hid => absurd rfl (of_decide_eq_true (List.mem_filter.mp hid).2)
      refine h.edited id hothers (fun j hj => ?_) ⟨fun d hd => ?_, fun _ => hunlisted⟩
      · rw [hlist, List.mem_filter]
        exact ⟨fun hmem => ⟨hmem, decide_eq_true hj⟩, And.left⟩
      · rcases hpending hstate with hfree | hclosed
        · exact nomatch hfree.symm.trans hd
        · exact Option.some.inj (hclosed.symm.trans hd) ▸ ((h.1 id c hc).closes hstate reason).congr
            (iff_of_false (fun hfalse => hfalse) hunlisted)
    | active => exact hreleases (.inl hstate)
    | suspended => exact hreleases (.inr hstate)
    | releasing => rwa [hgone (.inl hstate)]
    | closed => rwa [hgone (.inr hstate)]

/-! ### The parts -/

/-- A state without records and without a listed id is formed. -/
theorem State.RecordsFormed.of_free {t : State} (h : ∀ id, t.circuit id = none) (hlist : t.cutover.changeList = []) :
    t.RecordsFormed :=
  ⟨fun _ _ hc => (nomatch (h _).symm.trans hc), fun _ _ => hlist ▸ List.not_mem_nil⟩

/-- A cutover keeps every record formed (R39 to R41). -/
theorem State.RecordsFormed.cutOver {s : State} (hcanonical : s.Canonical) (hnodup : s.cutover.changeList.Nodup)
    (h : s.RecordsFormed) : s.cutOver.RecordsFormed := by
  have hunlisted : ∀ id, id ∉ s.cutOver.cutover.changeList := fun _ => List.not_mem_nil
  refine ⟨fun id d hd => ?_, fun id _ => hunlisted id⟩
  rw [State.cutOver_circuit hcanonical hnodup] at hd
  obtain ⟨c, hc, hcut⟩ := Option.bind_eq_some_iff.mp hd
  exact ((h.1 id c hc).cut hcut).congr (iff_of_false (fun hfalse => hfalse) (hunlisted id))

/-- Every part keeps every record in one of the conditions of R4 and R6. -/
theorem Part.recordsFormed {s t : State} (hcanonical : s.Canonical) (hlists : s.ListsDistinct) (h : s.RecordsFormed)
    (hpart : Part s t) : t.RecordsFormed := by
  cases hpart with
  | plain _ _ hthinned => exact h.thinned (hthinned hcanonical)
  | taken id c _ hnew => exact h.restaged (State.takeRecord_circuit hcanonical id c) rfl (hnew.formed h)
  | reshaped id c width placement pairs _ hc hstate hwidth hplacement hpairs =>
    have hformed := h.1 id c hc
    have hfit := State.reshapePairs_fit hcanonical hc hformed hstate hplacement hpairs
    obtain ⟨hsized, -⟩ := Circuit.formed_iff.mp hformed
    obtain ⟨-, hfree⟩ := State.reshapePairs_dst hplacement hpairs
    exact h.restaged (State.restage_circuit hcanonical id _ _) rfl (hformed.reshaped hstate hwidth hfit
      (State.reshaped_ascending hcanonical.1 hc hsized.staged.2.1 hfit.formed.2.1 hfree))
  | treated id c treatment change _ hc htreats =>
    exact h.restaged (State.restage_circuit hcanonical id _ _) rfl ((h.1 id c hc).treated htreats)
  | dropped id =>
    rcases s.dropMarked_eq id with hsame | ⟨c, hc, -, hdrop, hdrops⟩
    · rwa [hsame]
    · rw [hdrops]
      exact h.restaged (State.restage_circuit hcanonical id _ _) rfl ((h.1 id c hc).dropped hdrop)
  | released reason id => exact h.released hcanonical reason id
  | cutOver => exact h.cutOver hcanonical hlists.1
  | copied =>
    have hlist : s.completeCopy.cutover = s.cutover := by
      unfold State.completeCopy
      split <;> rfl
    refine State.recordsFormed_iff.mpr fun id => ?_
    rw [State.completeCopy_circuit, hlist]
    exact State.recordsFormed_iff.mp h id
  | softReset => exact .of_free (fun _ => rfl) rfl
  | powerOn => exact .of_free (fun _ => rfl) rfl

/-- Every part keeps the lists free of repeats. -/
theorem Part.listsDistinct {s t : State} (hcanonical : s.Canonical) (h : s.ListsDistinct) (hpart : Part s t) :
    t.ListsDistinct :=
  ((hpart.changes hcanonical).keepLaw (fun _ _ hcanonical h => Change.listsDistinct hcanonical h) hcanonical h).2

/-- Settles O58: every part keeps the lists free of repeats, and with them every record formed. -/
theorem stepsKeepRecordsFormed : Obligations.StepsKeepRecordsFormed := by
  intro s t hcanonical hlists hformed hstep
  have hkept := (step_parts hstep).keepPartLaw (law := fun u => u.ListsDistinct ∧ u.RecordsFormed)
    (fun _ _ hcanonical h hpart => ⟨hpart.listsDistinct hcanonical h.1, hpart.recordsFormed hcanonical h.1 h.2⟩)
    hcanonical ⟨hlists, hformed⟩
  exact hkept.2.2

end Sys2Proof.Machine
end

section
/-! SUPPORT. The invariant family: the banks describe the pairs of the circuits (R26, R28, R29, R31, R44). -/

namespace Sys2Proof.Machine

/-! ### What the circuits show a bank -/

/-- The key of an output slot names its trunk and its slot. -/
theorem slotKey_injective {a b x y : Nat} (hx : x < 64) (hy : y < 64) (h : slotKey a x = slotKey b y) :
    a = b ∧ x = y := by
  rw [slotKey_eq, slotKey_eq] at h
  omega

/-- One list of a circuit shows a bank what another list of another circuit did. -/
structure Shows (pairs : Circuit → List Pair) (treatment : Circuit → Treatment) (pairs' : Circuit → List Pair)
    (treatment' : Circuit → Treatment) (c d : Circuit) : Prop where
  pairs     : pairs' d = pairs c
  treatment : treatment' d = treatment c
  srcTrunk  : d.srcTrunk = c.srcTrunk
  dstTrunk  : d.dstTrunk = c.dstTrunk
  fill      : d.fill = c.fill

/-- Records show a bank the same: one that has pairs to show goes on to show them. -/
structure ShowsOption (pairs : Circuit → List Pair) (treatment : Circuit → Treatment) (pairs' : Circuit → List Pair)
    (treatment' : Circuit → Treatment) (a b : Option Circuit) : Prop where
  back : ∀ d, b = some d → pairs' d ≠ [] → ∃ c, a = some c ∧ Shows pairs treatment pairs' treatment' c d
  on   : ∀ c, a = some c → pairs c ≠ [] → ∃ d, b = some d ∧ Shows pairs treatment pairs' treatment' c d

section
variable {pairs pairs' : Circuit → List Pair} {treatment treatment' : Circuit → Treatment}

/-- A record that goes on shows what it showed. -/
theorem Shows.option {c d : Circuit} (h : Shows pairs treatment pairs' treatment' c d) :
    ShowsOption pairs treatment pairs' treatment' (some c) (some d) :=
  ⟨fun _ he _ => ⟨c, rfl, Option.some.inj he ▸ h⟩, fun _ he _ => ⟨d, rfl, Option.some.inj he ▸ h⟩⟩

/-- Records without pairs show nothing. -/
theorem ShowsOption.empty {a b : Option Circuit} (ha : ∀ c, a = some c → pairs c = [])
    (hb : ∀ d, b = some d → pairs' d = []) : ShowsOption pairs treatment pairs' treatment' a b :=
  ⟨fun d hd hne => absurd (hb d hd) hne, fun c hc hne => absurd (ha c hc) hne⟩

/-- The entry of a pair is what it was when the circuit shows it as it was shown. -/
theorem Shows.describes {c d : Circuit} (h : Shows pairs treatment pairs' treatment' c d) (id : Nat) (p : Pair) :
    describes id d (treatment' d) p = describes id c (treatment c) p := by
  rw [h.treatment]
  unfold Machine.describes
  rw [h.srcTrunk, h.fill]

/-- A bank describes what the circuits of another state show it. -/
theorem BankDescribes.shown {s t : State} {bank : Bank} (h : BankDescribes s bank pairs treatment)
    (hshows : ∀ id, ShowsOption pairs treatment pairs' treatment' (s.circuit id) (t.circuit id)) :
    BankDescribes t bank pairs' treatment' := by
  obtain ⟨hentries, hrest⟩ := h
  refine ⟨fun id d hd p hp => ?_, fun k hk => ?_⟩
  · obtain ⟨c, hc, hcd⟩ := (hshows id).back d hd (List.ne_nil_of_mem hp)
    rw [hcd.describes, hcd.dstTrunk]
    exact hentries id c hc p (hcd.pairs ▸ hp)
  · obtain ⟨id, c, p, hc, hp, hkey⟩ := hrest k hk
    obtain ⟨d, hd, hcd⟩ := (hshows id).on c hc (List.ne_nil_of_mem hp)
    exact ⟨id, d, p, hd, hcd.pairs ▸ hp, hcd.dstTrunk ▸ hkey⟩

/-- No output slot is used by two circuits in a list of theirs. -/
def SlotsApart (s : State) (pairs : Circuit → List Pair) : Prop :=
  ∀ i j ci cj, i ≠ j → s.circuit i = some ci → s.circuit j = some cj → ci.dstTrunk = cj.dstTrunk →
    ∀ p ∈ pairs ci, ∀ q ∈ pairs cj, p.dst ≠ q.dst

/-- The slots of what circuits show stay apart. -/
theorem SlotsApart.shown {s t : State} (h : SlotsApart s pairs)
    (hshows : ∀ id, ShowsOption pairs treatment pairs' treatment' (s.circuit id) (t.circuit id)) :
    SlotsApart t pairs' := by
  intro i j di dj hij hi hj htrunks p hp q hq
  obtain ⟨ci, hci, hin⟩ := (hshows i).back di hi (List.ne_nil_of_mem hp)
  obtain ⟨cj, hcj, hjn⟩ := (hshows j).back dj hj (List.ne_nil_of_mem hq)
  exact h i j ci cj hij hci hcj (hin.dstTrunk.symm.trans (htrunks.trans hjn.dstTrunk)) p (hin.pairs ▸ hp) q
    (hjn.pairs ▸ hq)

end

/-- A circuit that goes on alike shows its lists as it did. -/
theorem Circuit.Alike.shows {c d : Circuit} (h : c.Alike d) :
    Shows Circuit.live Circuit.liveTreatment Circuit.live Circuit.liveTreatment c d ∧
      Shows Circuit.staged Circuit.stagedTreatment Circuit.staged Circuit.stagedTreatment c d := by
  rw [h.rest]
  exact ⟨⟨rfl, rfl, rfl, rfl, rfl⟩, ⟨rfl, rfl, rfl, rfl, rfl⟩⟩

/-- Records that go on alike show their live lists as they did. -/
theorem ShowsOption.live_of_alike {a b : Option Circuit} (h : Option.Rel Circuit.Alike a b) :
    ShowsOption Circuit.live Circuit.liveTreatment Circuit.live Circuit.liveTreatment a b := by
  cases h with
  | none => exact .empty (fun _ hc => nomatch hc) fun _ hd => nomatch hd
  | some hcd => exact hcd.shows.1.option

theorem ShowsOption.staged_of_alike {a b : Option Circuit} (h : Option.Rel Circuit.Alike a b) :
    ShowsOption Circuit.staged Circuit.stagedTreatment Circuit.staged Circuit.stagedTreatment a b := by
  cases h with
  | none => exact .empty (fun _ hc => nomatch hc) fun _ hd => nomatch hd
  | some hcd => exact hcd.shows.2.option

/-! ### The laws of the banks -/

/-- The law of the banks by its parts. -/
theorem State.banksDescribe_iff {s : State} : s.BanksDescribe ↔
    BankDescribes s s.maps.liveBank Circuit.live Circuit.liveTreatment ∧ SlotsApart s Circuit.live ∧
      (s.maps.state = .synced → BankDescribes s s.maps.stagedBank Circuit.staged Circuit.stagedTreatment) ∧
      (s.maps.state = .copying → s.cutover.changeList = []) := Iff.rfl

/-- A CLOSED record shows nothing. -/
theorem Circuit.Formed.closed_empty {listed : Prop} {c : Circuit} (h : c.Formed listed) (hstate : c.state = .closed) :
    c.staged = [] ∧ c.live = [] := by
  obtain ⟨-, hcondition⟩ := Circuit.formed_iff.mp h
  cases hcondition with
  | closed _ _ hempty hlive => exact ⟨hempty, hlive⟩
  | pending hs | active hs | suspending hs | adding hs | added hs | dropping hs | suspended hs | resuming hs
  | releasing hs => exact nomatch hs.symm.trans hstate

/-- Records thinned out leave the banks describing them. -/
theorem State.BanksDescribe.thinned {s t : State} (h : s.BanksDescribe) (hformed : s.RecordsFormed)
    (hthinned : Thinned s t) : t.BanksDescribe := by
  obtain ⟨hlive, hapart, hstaged, hcopying⟩ := h
  have hshowsLive : ∀ id, ShowsOption Circuit.live Circuit.liveTreatment Circuit.live Circuit.liveTreatment
      (s.circuit id) (t.circuit id) := fun id => by
    rcases hthinned.circuit id with halike | ⟨hnone, c, hc, hstate⟩
    · exact .live_of_alike halike
    · rw [hnone, hc]
      exact .empty (fun e he => Option.some.inj he ▸ ((hformed.1 id c hc).closed_empty hstate).2) fun _ hd => nomatch hd
  have hshowsStaged : ∀ id, ShowsOption Circuit.staged Circuit.stagedTreatment Circuit.staged Circuit.stagedTreatment
      (s.circuit id) (t.circuit id) := fun id => by
    rcases hthinned.circuit id with halike | ⟨hnone, c, hc, hstate⟩
    · exact .staged_of_alike halike
    · rw [hnone, hc]
      exact .empty (fun e he => Option.some.inj he ▸ ((hformed.1 id c hc).closed_empty hstate).1) fun _ hd => nomatch hd
  refine State.banksDescribe_iff.mpr ?_
  rw [hthinned.maps]
  refine ⟨hlive.shown hshowsLive, SlotsApart.shown hapart hshowsLive, fun hsynced =>
    (hstaged hsynced).shown hshowsStaged,
    fun hstate => List.eq_nil_iff_forall_not_mem.mpr fun id hid => ?_⟩
  have hold := hthinned.listed id hid
  rw [hcopying hstate] at hold
  exact List.not_mem_nil hold

/-! ### Edits of the staged bank -/

/-- An edit for one record in SYNCED: its staged form changes with its staged entries, and the live lists show what
they showed. -/
structure Edited (id : Nat) (c : Circuit) (edited : List Pair) (entry : Pair → Entry) (s t : State) : Prop where
  entries : StagedEntries c edited entry s t
  others  : ∀ j, j ≠ id → Option.Rel Circuit.Alike (s.circuit j) (t.circuit j)
  live    : ShowsOption Circuit.live Circuit.liveTreatment Circuit.live Circuit.liveTreatment (s.circuit id)
    (t.circuit id)
  apart   : ∀ j k, j ≠ id → s.circuit j = some k → ∀ q ∈ edited, ∀ p ∈ k.staged,
    slotKey c.dstTrunk q.dst ≠ slotKey k.dstTrunk p.dst
  self    : ∀ d, t.circuit id = some d → ∀ p ∈ d.staged,
    t.stagedEntry (slotKey d.dstTrunk p.dst) = describes id d d.stagedTreatment p
  written : ∀ q ∈ edited, entry q ≠ .idle → ∃ d p, t.circuit id = some d ∧ p ∈ d.staged ∧
    slotKey d.dstTrunk p.dst = slotKey c.dstTrunk q.dst
  kept    : ∀ k, s.circuit id = some k → ∀ p ∈ k.staged,
    (∃ q ∈ edited, slotKey c.dstTrunk q.dst = slotKey k.dstTrunk p.dst) ∨
      ∃ d q, t.circuit id = some d ∧ q ∈ d.staged ∧ slotKey d.dstTrunk q.dst = slotKey k.dstTrunk p.dst

/-- The staged bank describes the staged pairs after an edit (R28). -/
theorem Edited.stagedBank {id : Nat} {c : Circuit} {edited : List Pair} {entry : Pair → Entry} {s t : State}
    (h : Edited id c edited entry s t)
    (hs : BankDescribes s s.maps.stagedBank Circuit.staged Circuit.stagedTreatment) :
    BankDescribes t t.maps.stagedBank Circuit.staged Circuit.stagedTreatment := by
  obtain ⟨-, hwritten, hothers⟩ := h.entries
  obtain ⟨hentries, hrest⟩ := hs
  have hshows := fun j hj => ShowsOption.staged_of_alike (h.others j hj)
  refine ⟨fun j d hd p hp => ?_, fun k hk => ?_⟩
  · by_cases hj : j = id
    · subst hj
      exact h.self d hd p hp
    · obtain ⟨k, hk, hkd⟩ := (hshows j hj).back d hd (List.ne_nil_of_mem hp)
      have hmem : p ∈ k.staged := hkd.pairs ▸ hp
      have hentry := hothers (slotKey k.dstTrunk p.dst) fun q hq => h.apart j k hj hk q hq p hmem
      rw [hkd.describes, hkd.dstTrunk]
      exact hentry.trans (hentries j k hk p hmem)
  · by_cases hedited : ∃ q ∈ edited, slotKey c.dstTrunk q.dst = k
    · obtain ⟨q, hq, hkey⟩ := hedited
      have hentry : entry q ≠ .idle := fun hidle => hk (hkey ▸ (hwritten q hq).trans hidle)
      obtain ⟨d, p, hd, hp, hsame⟩ := h.written q hq hentry
      exact ⟨id, d, p, hd, hp, hsame.trans hkey⟩
    · have hentry := hothers k fun q hq hkey => hedited ⟨q, hq, hkey⟩
      obtain ⟨j, e, p, he, hp, hkey⟩ := hrest k fun hidle => hk (hentry.trans hidle)
      by_cases hj : j = id
      · subst hj
        rcases h.kept e he p hp with ⟨q, hq, hsame⟩ | ⟨d, q, hd, hq, hsame⟩
        · exact absurd ⟨q, hq, hsame.trans hkey⟩ hedited
        · exact ⟨j, d, q, hd, hq, hsame.trans hkey⟩
      · obtain ⟨d, hd, hed⟩ := (hshows j hj).on e he (List.ne_nil_of_mem hp)
        exact ⟨j, d, p, hd, hed.pairs ▸ hp, hed.dstTrunk ▸ hkey⟩

/-- An edit in SYNCED leaves the banks describing the circuits. -/
theorem State.BanksDescribe.edited {id : Nat} {c : Circuit} {edited : List Pair} {entry : Pair → Entry} {s t : State}
    (h : s.BanksDescribe) (hsynced : s.maps.state = .synced) (hedit : Edited id c edited entry s t) :
    t.BanksDescribe := by
  obtain ⟨hlive, hapart, hstaged, -⟩ := h
  obtain ⟨⟨-, hstate, hbank⟩, -⟩ := hedit.entries
  have hshows : ∀ j, ShowsOption Circuit.live Circuit.liveTreatment Circuit.live Circuit.liveTreatment
      (s.circuit j) (t.circuit j) := fun j => by
    by_cases hj : j = id
    · exact hj ▸ hedit.live
    · exact .live_of_alike (hedit.others j hj)
  refine State.banksDescribe_iff.mpr ⟨hbank ▸ hlive.shown hshows, SlotsApart.shown hapart hshows,
    fun _ => hedit.stagedBank (hstaged hsynced), fun hcopying => ?_⟩
  exact nomatch (hstate.trans hsynced).symm.trans hcopying

end Sys2Proof.Machine
end

section
/-! SUPPORT. The invariant family: every part keeps the banks describing the circuits (R26). -/

namespace Sys2Proof.Machine

/-! ### Slots of formed records -/

/-- The slots of the staged pairs of a formed record are below 64. -/
theorem State.RecordsFormed.staged_lt {s : State} (h : s.RecordsFormed) {id : Nat} {c : Circuit}
    (hc : s.circuit id = some c) {p : Pair} (hp : p ∈ c.staged) : p.src < 64 ∧ p.dst < 64 := by
  obtain ⟨hsized, -⟩ := Circuit.formed_iff.mp (h.1 id c hc)
  exact hsized.staged.1 p hp

/-- The keys of a circuit's slots are apart from those of the other records, when its slots are. -/
theorem StagesApart.keys {s : State} {id : Nat} {d : Circuit} (h : StagesApart s id d) (hformed : s.RecordsFormed)
    {edited : List Pair} (hedited : ∀ q ∈ edited, q ∈ d.staged ∧ q.dst < 64) {j : Nat} {k : Circuit} (hj : j ≠ id)
    (hk : s.circuit j = some k) {q p : Pair} (hq : q ∈ edited) (hp : p ∈ k.staged) :
    slotKey d.dstTrunk q.dst ≠ slotKey k.dstTrunk p.dst := by
  intro heq
  obtain ⟨hmem, hrange⟩ := hedited q hq
  obtain ⟨htrunks, hslots⟩ := slotKey_injective hrange (hformed.staged_lt hk hp).2 heq
  exact h.dst j k hj hk htrunks.symm q hmem p hp hslots

/-- A record's own circuit stages slots apart from the others'. -/
theorem State.StagedSlotsApart.own {s : State} (h : s.StagedSlotsApart) {id : Nat} {c : Circuit}
    (hc : s.circuit id = some c) : StagesApart s id c :=
  ⟨fun j k hj hk htrunks => (h id j c k (Ne.symm hj) hc hk).1 htrunks.symm,
    fun j k hj hk hkt hct htrunks => (h id j c k (Ne.symm hj) hc hk).2 hct hkt htrunks.symm⟩

/-- Pairs of a list in ascending order are apart by their destination slots. -/
theorem eq_of_dst_eq {pairs : List Pair} (h : (pairs.map Pair.dst).Pairwise (· < ·)) {p q : Pair} (hp : p ∈ pairs)
    (hq : q ∈ pairs) (heq : p.dst = q.dst) : p = q :=
  List.inj_on_of_nodup_map (h.imp Nat.ne_of_lt) hp hq heq

/-! ### The edits -/

/-- The taking of a record is an edit. -/
theorem Edited.taken {s : State} (hcanonical : s.Canonical) (hformed : s.RecordsFormed) {id : Nat} {c : Circuit}
    (hnew : NewCircuit s id c) :
    Edited id c c.staged (fun p => .pass id c.srcTrunk p.src) s (s.takeRecord id c) := by
  have hcircuit := State.takeRecord_circuit hcanonical id c
  have hentries := State.takeRecord_entries hcanonical id hnew.pass hnew.dst
  have hrange : ∀ q ∈ c.staged, q ∈ c.staged ∧ q.dst < 64 := fun q hq =>
    ⟨hq, State.freeOutputs_lt (hnew.outputs q hq)⟩
  have hself : (s.takeRecord id c).circuit id = some c := by rw [hcircuit, if_pos rfl]
  refine ⟨hentries, fun j hj => ?_, ?_, fun j k hj hk q hq p hp => ?_, fun d hd p hp => ?_, fun q hq _ => ?_,
    fun k hk => ?_⟩
  · rw [hcircuit, if_neg hj]
    exact alikeOption_refl _
  · rw [hself, hnew.free]
    exact .empty (fun _ hc => nomatch hc) fun d hd => Option.some.inj hd ▸ hnew.live
  · exact (StagesApart.of_free hcanonical id hnew.outputs hnew.inputs).keys hformed hrange hj hk hq hp
  · obtain rfl := Option.some.inj (hself.symm.trans hd)
    rw [hnew.pass]
    exact hentries.2.1 p hp
  · exact ⟨c, q, hself, hq, rfl⟩
  · exact nomatch hnew.free.symm.trans hk

/-- What a restaging changes of the records: the one, and no live list. -/
theorem Edited.of_restaged {s t : State} {id : Nat} {c d : Circuit} {edited : List Pair} {entry : Pair → Entry}
    (hc : s.circuit id = some c) (h : Restaged id c d edited entry s t)
    (hshows : Shows Circuit.live Circuit.liveTreatment Circuit.live Circuit.liveTreatment c d)
    (hapart : ∀ j k, j ≠ id → s.circuit j = some k → ∀ q ∈ edited, ∀ p ∈ k.staged,
      slotKey c.dstTrunk q.dst ≠ slotKey k.dstTrunk p.dst)
    (hself : ∀ p ∈ d.staged, t.stagedEntry (slotKey c.dstTrunk p.dst) = describes id d d.stagedTreatment p)
    (hwritten : ∀ q ∈ edited, entry q ≠ .idle → ∃ p ∈ d.staged, p.dst = q.dst)
    (hkept : ∀ p ∈ c.staged, (∃ q ∈ edited, q.dst = p.dst) ∨ ∃ q ∈ d.staged, q.dst = p.dst) :
    Edited id c edited entry s t := by
  obtain ⟨hrecord, hothers, hentries, -⟩ := h
  have hd : t.circuit id = some d := congrArg Record.circuit hrecord
  refine ⟨hentries, fun j hj => ?_, ?_, hapart, fun e he p hp => ?_, fun q hq hentry => ?_, fun k hk p hp => ?_⟩
  · rw [State.circuit_eq, State.circuit_eq, hothers j hj]
    exact alikeOption_refl _
  · rw [hc, hd]
    exact hshows.option
  · obtain rfl := Option.some.inj (hd.symm.trans he)
    rw [hshows.dstTrunk]
    exact hself p hp
  · obtain ⟨p, hp, hdst⟩ := hwritten q hq hentry
    exact ⟨d, p, hd, hp, by rw [hshows.dstTrunk, hdst]⟩
  · obtain rfl := Option.some.inj (hc.symm.trans hk)
    rcases hkept p hp with ⟨q, hq, hdst⟩ | ⟨q, hq, hdst⟩
    · exact .inl ⟨q, hq, by rw [hdst]⟩
    · exact .inr ⟨d, q, hd, hq, by rw [hshows.dstTrunk, hdst]⟩

/-- A RESHAPE is an edit (R100). -/
theorem Edited.reshaped {s : State} (hcanonical : s.Canonical) (hformed : s.RecordsFormed) (hslots : s.StagedSlotsApart)
    (hbank : BankDescribes s s.maps.stagedBank Circuit.staged Circuit.stagedTreatment) {id : Nat} {c : Circuit}
    (hc : s.circuit id = some c) (hstate : reshapeState c = none) {width : Nat} {placement : Placement}
    {pairs : List Pair} (hplacement : placement ≠ .fixed) (hpairs : s.reshapePairs c width placement = .ok pairs) :
    Edited id c pairs (fun p => .pass id c.srcTrunk p.src) s (s.reshapeTo id c width pairs) := by
  obtain ⟨hactive, -, hchange⟩ := reshapeState_none hstate
  obtain ⟨-, -, hpass, -⟩ := (hformed.1 id c hc).active hactive hchange
  obtain ⟨hascending, hfree⟩ := State.reshapePairs_dst hplacement hpairs
  have hrestaged := State.reshapeTo_restaged (id := id) (width := width) hcanonical hpass (hascending.imp Nat.ne_of_lt)
  have hmerged : ∀ q ∈ pairs, q ∈ mergePairs c.retired pairs ∧ q.dst < 64 := fun q hq =>
    ⟨(mergePairs_perm _ _).mem_iff.mpr (List.mem_append_right _ hq), State.freeOutputs_lt (hfree q hq)⟩
  have happly := StagesApart.of_reshape hcanonical hslots hc (width := width) hplacement hpairs
  refine .of_restaged hc hrestaged ⟨rfl, rfl, rfl, rfl, rfl⟩ (fun j k hj hk q hq p hp => ?_) (fun p hp => ?_)
    (fun q hq _ => ⟨q, (hmerged q hq).1, rfl⟩) fun p hp => .inr ⟨{ p with retiring := true }, ?_, rfl⟩
  · exact happly.keys hformed hmerged hj hk hq hp
  · obtain ⟨-, -, ⟨-, hwritten, hothers⟩, -⟩ := hrestaged
    rw [hpass]
    rcases mem_mergeRetired hp with ⟨old, hold, rfl⟩ | hpair
    · have hentry := hothers (slotKey c.dstTrunk old.dst) fun q hq heq => by
        obtain ⟨-, hsame⟩ := slotKey_injective (hmerged q hq).2 (hformed.staged_lt hc hold).2 heq
        exact ((s.mem_freeOutputs _ _ hcanonical.1).mp (hfree q hq)).2 id c hc rfl old hold hsame.symm
      have hdescribed := hbank.1 id c hc old hold
      rw [hpass] at hdescribed
      exact hentry.trans hdescribed
    · exact hwritten p hpair
  · exact (mergePairs_perm _ _).mem_iff.mpr (List.mem_append_left _ (List.mem_map_of_mem hp))

/-- A SUSPEND or a RESUME is an edit (R105, R106). -/
theorem Edited.treated {s : State} (hcanonical : s.Canonical) (hformed : s.RecordsFormed) (hslots : s.StagedSlotsApart)
    {id : Nat} {c : Circuit} (hc : s.circuit id = some c) (treatment : Treatment) (change : PendingChange) :
    Edited id c c.staged (c.entry id treatment) s (s.treat id c treatment change) := by
  obtain ⟨hsized, -⟩ := Circuit.formed_iff.mp (hformed.1 id c hc)
  have hrestaged := State.treat_restaged id c treatment change hcanonical (.inl (hsized.staged.2.1.imp Nat.ne_of_lt))
  refine .of_restaged hc hrestaged ⟨rfl, rfl, rfl, rfl, rfl⟩ (fun j k hj hk q hq p hp => ?_) (fun p hp => ?_)
    (fun q hq _ => ⟨q, hq, rfl⟩) fun p hp => .inl ⟨p, hp, rfl⟩
  · exact (hslots.own hc).keys hformed (fun q hq => ⟨hq, (hformed.staged_lt hc hq).2⟩) hj hk hq hp
  · obtain ⟨-, -, ⟨-, hwritten, -⟩, -⟩ := hrestaged
    exact hwritten p hp

/-- A DROP item is an edit (R77). -/
theorem Edited.dropped {s : State} (hcanonical : s.Canonical) (hformed : s.RecordsFormed) (hslots : s.StagedSlotsApart)
    (hbank : BankDescribes s s.maps.stagedBank Circuit.staged Circuit.stagedTreatment) {id : Nat} {c : Circuit}
    (hc : s.circuit id = some c) (hlive : c.isReleasable = true) (hdrop : c.pendingChange = some .reshapeDrop) :
    Edited id c (c.staged.filter fun p => p.retiring) (fun _ => .idle) s (s.dropMarked id) := by
  obtain ⟨hsized, -⟩ := Circuit.formed_iff.mp (hformed.1 id c hc)
  have hrestaged := State.dropMarked_restaged hcanonical hc hlive hdrop
  have hold : ∀ q ∈ c.staged.filter (fun p => p.retiring), q ∈ c.staged ∧ q.dst < 64 := fun q hq =>
    ⟨(List.mem_filter.mp hq).1, (hformed.staged_lt hc (List.mem_filter.mp hq).1).2⟩
  refine .of_restaged hc hrestaged ⟨rfl, rfl, rfl, rfl, rfl⟩ (fun j k hj hk q hq p hp => ?_) (fun p hp => ?_)
    (fun q _ hentry => absurd rfl hentry) fun p hp => ?_
  · exact (hslots.own hc).keys hformed hold hj hk hq hp
  · obtain ⟨-, -, ⟨-, -, hothers⟩, -⟩ := hrestaged
    obtain ⟨hmem, hmark⟩ := List.mem_filter.mp hp
    have hentry := hothers (slotKey c.dstTrunk p.dst) fun q hq heq => by
      obtain ⟨hqmem, hqmark⟩ := List.mem_filter.mp hq
      obtain ⟨-, hsame⟩ := slotKey_injective (hold q hq).2 (hformed.staged_lt hc hmem).2 heq
      obtain rfl := eq_of_dst_eq hsized.staged.2.1 hqmem hmem hsame
      rw [hqmark] at hmark
      exact nomatch hmark
    exact hentry.trans (hbank.1 id c hc p hmem)
  · cases hmark : p.retiring with
    | true => exact .inl ⟨p, List.mem_filter.mpr ⟨hp, hmark⟩, rfl⟩
    | false => exact .inr ⟨p, List.mem_filter.mpr ⟨hp, by rw [hmark]; rfl⟩, rfl⟩

/-- A release that clears the staged entries of a record is an edit (R95, R96). -/
theorem Edited.released {s t : State} (hformed : s.RecordsFormed) (hslots : s.StagedSlotsApart)
    {id : Nat} {c : Circuit} (hc : s.circuit id = some c) (hentries : StagedEntries c c.staged (fun _ => .idle) s t)
    (hothers : ∀ j, j ≠ id → Option.Rel Circuit.Alike (s.circuit j) (t.circuit j))
    (hlive : ShowsOption Circuit.live Circuit.liveTreatment Circuit.live Circuit.liveTreatment (some c) (t.circuit id))
    (hempty : ∀ d, t.circuit id = some d → d.staged = []) : Edited id c c.staged (fun _ => .idle) s t := by
  refine ⟨hentries, hothers, hc ▸ hlive, fun j k hj hk q hq p hp => ?_, fun d hd p hp => ?_,
    fun _ _ hentry => absurd rfl hentry, fun k hk p hp => ?_⟩
  · exact (hslots.own hc).keys hformed (fun q hq => ⟨hq, (hformed.staged_lt hc hq).2⟩) hj hk hq hp
  · rw [hempty d hd] at hp
    exact absurd hp List.not_mem_nil
  · obtain rfl := Option.some.inj (hc.symm.trans hk)
    exact .inl ⟨p, hp, rfl⟩

/-- The staged entries that a release clears (R28). -/
theorem State.releaseRecord_entries {s : State} (h : s.Canonical) (reason : CloseReason) {id : Nat} {c : Circuit}
    (hc : s.circuit id = some c) (hstate : c.state = .pending ∨ c.state = .active ∨ c.state = .suspended) :
    StagedEntries c c.staged (fun _ => .idle) s (s.releaseRecord reason id) := by
  have hreleased := s.releaseRecord_released reason id h
  simp only [ReleasedOne, hc] at hreleased
  rcases hstate with hstate | hstate | hstate
  · rw [hstate] at hreleased
    exact hreleased.1
  · rw [hstate] at hreleased
    exact hreleased.2.2.1
  · rw [hstate] at hreleased
    exact hreleased.2.2.1

/-- A PENDING record has no live pairs. -/
theorem Circuit.Formed.pending_live {listed : Prop} {c : Circuit} (h : c.Formed listed) (hstate : c.state = .pending) :
    c.live = [] := by
  obtain ⟨-, hcondition⟩ := Circuit.formed_iff.mp h
  cases hcondition with
  | pending _ _ _ hlive => exact hlive
  | active hs | suspending hs | adding hs | added hs | dropping hs | suspended hs | resuming hs | releasing hs
  | closed hs => exact nomatch hs.symm.trans hstate

/-- A release leaves the banks describing the circuits. -/
theorem State.BanksDescribe.released {s : State} (hcanonical : s.Canonical) (hformed : s.RecordsFormed)
    (hslots : s.StagedSlotsApart) (h : s.BanksDescribe) (hsynced : s.maps.state = .synced) (reason : CloseReason)
    (id : Nat) : (s.releaseRecord reason id).BanksDescribe := by
  cases hc : s.circuit id with
  | none => rwa [State.releaseRecord_free hc]
  | some c =>
    obtain ⟨hpending, hlive, hgone⟩ := State.releaseRecord_self hcanonical reason hc
    have hothers := State.releaseRecord_others hcanonical reason id
    have hentries := State.releaseRecord_entries hcanonical reason hc
    have hreleases : c.state = .active ∨ c.state = .suspended → (s.releaseRecord reason id).BanksDescribe :=
        fun hstate => by
      refine h.edited hsynced (.released hformed hslots hc (hentries (.inr hstate)) hothers ?_ fun d hd => ?_)
      · rw [hlive hstate]
        exact Shows.option ⟨rfl, rfl, rfl, rfl, rfl⟩
      · rw [hlive hstate] at hd
        exact Option.some.inj hd ▸ rfl
    cases hstate : c.state with
    | pending =>
      have hnone := (hformed.1 id c hc).pending_live hstate
      refine h.edited hsynced (.released hformed hslots hc (hentries (.inl hstate)) hothers ?_ fun d hd => ?_)
      · refine .empty (fun e he => Option.some.inj he ▸ hnone) fun d hd => ?_
        rcases hpending hstate with hfree | hclosed
        · exact nomatch hfree.symm.trans hd
        · exact Option.some.inj (hclosed.symm.trans hd) ▸ hnone
      · rcases hpending hstate with hfree | hclosed
        · exact nomatch hfree.symm.trans hd
        · exact Option.some.inj (hclosed.symm.trans hd) ▸ rfl
    | active => exact hreleases (.inl hstate)
    | suspended => exact hreleases (.inr hstate)
    | releasing => rwa [hgone (.inl hstate)]
    | closed => rwa [hgone (.inr hstate)]

/-! ### The cutover and the copy -/

/-- A formed record that is not listed shows its staged list as its live one (R33). -/
theorem Circuit.Formed.unlisted_shows {listed : Prop} {c : Circuit} (h : c.Formed listed) (hlisted : ¬listed) :
    c.live = c.staged ∧ c.liveTreatment = c.stagedTreatment := by
  obtain ⟨hpairs, htreatment⟩ := not_or.mp fun hdiffers => hlisted (h.listed_iff.mpr hdiffers)
  exact ⟨(Classical.not_not.mp hpairs).symm, (Classical.not_not.mp htreatment).symm⟩

/-- A RELEASING record stages nothing. -/
theorem Circuit.Formed.releasing_staged {listed : Prop} {c : Circuit} (h : c.Formed listed)
    (hstate : c.state = .releasing) : c.staged = [] := by
  obtain ⟨-, hcondition⟩ := Circuit.formed_iff.mp h
  cases hcondition with
  | releasing _ _ hempty => exact hempty
  | pending hs | active hs | suspending hs | adding hs | added hs | dropping hs | suspended hs | resuming hs
  | closed hs => exact nomatch hs.symm.trans hstate

/-- A cutover makes the staged list live (R40). -/
theorem applied_shows (cycle : Word) (c : Circuit) :
    Shows Circuit.staged Circuit.stagedTreatment Circuit.live Circuit.liveTreatment c (applied cycle c) := by
  unfold applied
  dsimp only
  repeat' split
  all_goals exact ⟨rfl, rfl, rfl, rfl, rfl⟩

/-- What a cutover leaves of a formed record shows as live what the record staged (R40, R44). -/
theorem cutCircuit_shows {s : State} {ids : List Nat} {id : Nat} {c : Circuit} (h : c.Formed (id ∈ ids)) :
    ShowsOption Circuit.staged Circuit.stagedTreatment Circuit.live Circuit.liveTreatment (some c)
      (cutCircuit s ids id c) := by
  have hpruned : ∀ {d : Circuit} (test : Nat → Bool),
      Shows Circuit.staged Circuit.stagedTreatment Circuit.live Circuit.liveTreatment c d →
      Shows Circuit.staged Circuit.stagedTreatment Circuit.live Circuit.liveTreatment c (d.prune test) := by
    intro d test hd
    rw [(d.prune_alike test).rest]
    exact ⟨hd.pairs, hd.treatment, hd.srcTrunk, hd.dstTrunk, hd.fill⟩
  unfold cutCircuit
  split
  next =>
    split
    next hstate =>
      have hempty := h.releasing_staged hstate
      refine .empty (fun e he => Option.some.inj he ▸ hempty) fun d hd => ?_
      split at hd
      · exact Option.some.inj hd ▸ hempty
      · exact nomatch hd
    next => exact (hpruned _ (applied_shows _ c)).option
  next hlisted =>
    obtain ⟨hpairs, htreatment⟩ := h.unlisted_shows hlisted
    exact (hpruned _ ⟨hpairs, htreatment, rfl, rfl, rfl⟩).option

/-- A cutover leaves the banks describing the circuits (R44). -/
theorem State.BanksDescribe.cutOver {s : State} (hcanonical : s.Canonical) (hnodup : s.cutover.changeList.Nodup)
    (hformed : s.RecordsFormed) (hslots : s.StagedSlotsApart) (h : s.BanksDescribe)
    (hsynced : s.maps.state = .synced) : s.cutOver.BanksDescribe := by
  obtain ⟨-, -, hstaged, -⟩ := h
  have hmaps := (s.applyRecords_confined s.cutover.changeList).maps
  have hlive : s.cutOver.maps.liveBank = s.maps.stagedBank := congrArg MapStore.stagedBank hmaps
  have hshows : ∀ id, ShowsOption Circuit.staged Circuit.stagedTreatment Circuit.live Circuit.liveTreatment
      (s.circuit id) (s.cutOver.circuit id) := fun id => by
    rw [State.cutOver_circuit hcanonical hnodup]
    cases hc : s.circuit id with
    | none => exact .empty (fun _ hd => nomatch hd) fun _ hd => nomatch hd
    | some c => exact cutCircuit_shows (hformed.1 id c hc)
  have hapart : SlotsApart s Circuit.staged := fun i j ci cj hij hi hj => (hslots i j ci cj hij hi hj).1
  exact State.banksDescribe_iff.mpr ⟨hlive ▸ (hstaged hsynced).shown hshows, hapart.shown hshows,
    fun hstate => (nomatch hstate), fun _ => rfl⟩

/-- The copy completion leaves the banks describing the circuits (R31). -/
theorem State.BanksDescribe.completeCopy {s : State} (hformed : s.RecordsFormed) (h : s.BanksDescribe) :
    s.completeCopy.BanksDescribe := by
  cases hstate : s.maps.state with
  | synced => rwa [State.completeCopy_synced hstate]
  | copying =>
    rw [State.completeCopy_copying hstate]
    obtain ⟨hlive, hapart, -, hcopying⟩ := h
    have hshows : ∀ id, ShowsOption Circuit.live Circuit.liveTreatment Circuit.staged Circuit.stagedTreatment
        (s.circuit id) (s.circuit id) := fun id => by
      cases hc : s.circuit id with
      | none => exact .empty (fun _ hd => nomatch hd) fun _ hd => nomatch hd
      | some c =>
        have hunlisted : id ∉ s.cutover.changeList := by
          rw [hcopying hstate]
          exact List.not_mem_nil
        obtain ⟨hpairs, htreatment⟩ := (hformed.1 id c hc).unlisted_shows hunlisted
        exact Shows.option ⟨hpairs.symm, htreatment.symm, rfl, rfl, rfl⟩
    have hstaged : BankDescribes s s.maps.liveBank Circuit.staged Circuit.stagedTreatment := hlive.shown hshows
    refine State.banksDescribe_iff.mpr ⟨?_, hapart, fun _ => ?_, fun hcopies => nomatch hcopies⟩
    · have hbank : (s.withMaps { s.maps.setStaged s.maps.liveBank with state := .synced }).maps.liveBank =
          s.maps.liveBank := MapStore.setStaged_liveBank s.maps s.maps.liveBank
      rw [hbank]
      exact hlive
    · have hbank : (s.withMaps { s.maps.setStaged s.maps.liveBank with state := .synced }).maps.stagedBank =
          s.maps.liveBank := MapStore.setStaged_stagedBank s.maps s.maps.liveBank
      rw [hbank]
      exact hstaged

/-! ### The parts -/

/-- A state without records and with empty banks. -/
theorem State.BanksDescribe.of_free {t : State} (h : ∀ id, t.circuit id = none) (hmaps : t.maps = MapStore.initial) :
    t.BanksDescribe := by
  have hbank : ∀ pairs treatment, BankDescribes t [] pairs treatment := fun _ _ =>
    ⟨fun id _ hc => (nomatch (h id).symm.trans hc), fun _ hk => absurd rfl hk⟩
  refine State.banksDescribe_iff.mpr ⟨?_, fun i _ _ _ _ hi => (nomatch (h i).symm.trans hi), fun _ => ?_, fun hstate =>
    ?_⟩
  · rw [hmaps]
    exact hbank _ _
  · rw [hmaps]
    exact hbank _ _
  · rw [hmaps] at hstate
    exact nomatch hstate

/-- Every part keeps the banks describing the circuits (R26). -/
theorem Part.banksDescribe {s t : State} (hcanonical : s.Canonical) (hlists : s.ListsDistinct)
    (hformed : s.RecordsFormed) (hslots : s.StagedSlotsApart) (h : s.BanksDescribe) (hpart : Part s t) :
    t.BanksDescribe := by
  obtain ⟨-, -, hstaged, -⟩ := id h
  cases hpart with
  | plain _ _ hthinned => exact h.thinned hformed (hthinned hcanonical)
  | taken id c hsynced hnew => exact h.edited hsynced (.taken hcanonical hformed hnew)
  | reshaped id c width placement pairs hsynced hc hstate _ hplacement hpairs =>
    exact h.edited hsynced
      (.reshaped hcanonical hformed hslots (hstaged hsynced) hc hstate hplacement hpairs)
  | treated id c treatment change hsynced hc =>
    exact h.edited hsynced (.treated hcanonical hformed hslots hc treatment change)
  | dropped id hsynced =>
    rcases s.dropMarked_eq id with hsame | ⟨c, hc, hlive, hdrop, -⟩
    · rwa [hsame]
    · exact h.edited hsynced (.dropped hcanonical hformed hslots (hstaged hsynced) hc hlive hdrop)
  | released reason id hsynced => exact h.released hcanonical hformed hslots hsynced reason id
  | cutOver hsynced => exact h.cutOver hcanonical hlists.1 hformed hslots hsynced
  | copied => exact h.completeCopy hformed
  | softReset => exact .of_free (fun _ => rfl) rfl
  | powerOn => exact .of_free (fun _ => rfl) rfl

/-- Records in good order: what the banks describe them by. -/
structure State.RecordsSound (s : State) : Prop where
  lists  : s.ListsDistinct
  formed : s.RecordsFormed
  slots  : s.StagedSlotsApart
  banks  : s.BanksDescribe

/-- Every part keeps the records in good order. -/
theorem Part.recordsSound {s t : State} (hcanonical : s.Canonical) (h : s.RecordsSound) (hpart : Part s t) :
    t.RecordsSound :=
  ⟨hpart.listsDistinct hcanonical h.lists, hpart.recordsFormed hcanonical h.lists h.formed,
    hpart.stagedSlotsApart hcanonical h.slots, hpart.banksDescribe hcanonical h.lists h.formed h.slots h.banks⟩

/-- Settles O56: every part keeps the staged slots apart, and, with the records in good order, the banks describing
them. -/
theorem stepsKeepStagedSlotsApart : Obligations.StepsKeepStagedSlotsApart :=
  ⟨fun _ _ hcanonical hslots hstep => step_stagedSlotsApart hcanonical hslots hstep,
    fun _ _ hcanonical hlists hformed hslots hbanks hstep =>
      ((step_parts hstep).keepPartLaw (fun _ _ hcanonical h hpart => Part.recordsSound hcanonical h hpart) hcanonical
        ⟨hlists, hformed, hslots, hbanks⟩).2.banks⟩

end Sys2Proof.Machine
end

section
/-! SUPPORT. The cutover: what the application of a list of records leaves of the report queues, the latches and the
follow-up queue (R17, R21, R39, R41, R42, R138, R161). -/

namespace Sys2Proof.Machine

/-! ### Lists of records by tests -/

/-- The ids of a list, in its order, whose records meet a test. -/
def meetingIn (s : State) (ids : List Nat) (test : Circuit → Bool) : List Nat :=
  ids.filter fun id => (s.circuit id).any test

/-- The listed records that meet a test are those of the change list. -/
theorem listedWhere_eq (s : State) : listedWhere s = meetingIn s s.cutover.changeList := rfl

/-- The application of a list of records makes the record FREE (R17). -/
def freedIn (s : State) (ids : List Nat) (id : Nat) : Bool :=
  ids.contains id && (s.circuit id).any fun c => c.state == .releasing && !s.receives c.owner

/-- The records that a cutover makes FREE are those of the change list. -/
theorem freedByCutover_eq (s : State) : freedByCutover s = freedIn s s.cutover.changeList := rfl

theorem meetingIn_cons (s : State) (id : Nat) (rest : List Nat) (test : Circuit → Bool) :
    meetingIn s (id :: rest) test = meetingIn s [id] test ++ meetingIn s rest test :=
  List.filter_append [id] rest

theorem freedIn_cons (s : State) (id : Nat) (rest : List Nat) (j : Nat) :
    freedIn s (id :: rest) j = (freedIn s [id] j || freedIn s rest j) := by
  rw [freedIn, freedIn, freedIn, ← Bool.and_or_distrib_right]
  congr 1
  simp

theorem meetingIn_single {s : State} {id : Nat} {c : Circuit} (hc : s.circuit id = some c) (test : Circuit → Bool) :
    meetingIn s [id] test = if test c then [id] else [] := by
  rw [meetingIn, List.filter_singleton, hc]
  exact Bool.cond_eq_ite ..

/-- A FREE record meets no test and is not made FREE. -/
theorem single_free {s : State} {id : Nat} (h : s.circuit id = none) :
    (∀ test, meetingIn s [id] test = []) ∧ ∀ j, freedIn s [id] j = false := by
  refine ⟨fun test => ?_, fun j => ?_⟩
  · rw [meetingIn, List.filter_singleton, h]
    rfl
  · rw [freedIn, Bool.and_eq_false_iff]
    by_cases hj : j = id
    · exact .inr (by rw [hj, h]; rfl)
    · exact .inl (by simp [hj])

/-- The ids that the application of one record makes FREE. -/
theorem freedIn_single {s : State} {id : Nat} {c : Circuit} (hc : s.circuit id = some c) (j : Nat) :
    freedIn s [id] j = (decide (j = id) && (c.state == .releasing && !s.receives c.owner)) := by
  rw [freedIn]
  by_cases hj : j = id
  · subst hj
    simp [hc]
  · simp [hj]

/-- The tests of the rest of a list after its first record is applied. -/
theorem State.applyRecord_meetingIn {s : State} (h : s.Canonical) {id : Nat} {rest : List Nat} (hid : id ∉ rest)
    {test : Circuit → Bool} (htest : ∀ ids c, test (Circuit.prune ids c) = test c) :
    meetingIn (s.applyRecord id) rest test = meetingIn s rest test := by
  refine List.filter_congr fun j hj => ?_
  have hne : j ≠ id := fun heq => hid (heq ▸ hj)
  rw [State.circuit_eq, State.applyRecord_other h hne]
  cases s.circuit j with
  | none => rfl
  | some c => exact htest _ c

theorem State.applyRecord_freedIn {s : State} (h : s.Canonical) {id : Nat} {rest : List Nat} (hid : id ∉ rest) :
    freedIn (s.applyRecord id) rest = freedIn s rest := by
  funext j
  rw [freedIn, freedIn]
  by_cases hj : j = id
  · have hout : rest.contains j = false := by simp [hj, hid]
    rw [hout]
    rfl
  · rw [State.circuit_eq, State.applyRecord_other h hj]
    congr 1
    cases s.circuit j with
    | none => rfl
    | some c =>
      simp only [Option.map_some, Option.any_some, Circuit.prune_state, Circuit.prune_owner,
        (s.applyRecord_confined id).receives]

/-! ### Report queues -/

/-- The report queue of an owner (R138, R161). -/
def State.reportsOf (s : State) (o : Owner) : List Nat :=
  match o with
  | .link n => (s.link n).reports
  | .supervisor => s.supQueue

theorem State.reportOwed_eq (s : State) (o : Owner) (id : Nat) : s.reportOwed o id = (s.reportsOf o).contains id := by
  cases o <;> rfl

/-- Every id on a report queue is owned by the queue's owner. -/
theorem State.QueuesOwned.owns {s : State} (h : s.QueuesOwned) {o : Owner} {id : Nat} (hid : id ∈ s.reportsOf o) :
    s.Owns o id := by
  cases o with
  | link n => exact h.1 n id hid
  | supervisor => exact h.2 id hid

/-- An id is queued for its owner alone, if its owner listens. -/
theorem Reported.reportsOf {o : Owner} {id : Nat} {s t : State} (h : Reported o id s t) (p : Owner) :
    t.reportsOf p = if p = o ∧ s.receives p = true then appendOnce (s.reportsOf p) id else s.reportsOf p := by
  obtain ⟨hlinks, hqueue, -⟩ := h
  obtain ⟨hsameLinks, hsameQueue, -⟩ := s.queueReport_reported o id
  cases p with
  | link n =>
    have hlink : t.link n = (s.queueReport o id).link n := by rw [State.link, State.link, hlinks, hsameLinks]
    have hreceives : s.receives (.link n) = true ↔ (s.link n).state = .up := beq_iff_eq
    simp only [State.reportsOf, hlink, State.queueReport_link, hreceives]
    by_cases hcase : o = .link n ∧ (s.link n).state = .up
    · rw [if_pos hcase, if_pos ⟨hcase.1.symm, hcase.2⟩]
    · rw [if_neg hcase, if_neg fun hother => hcase ⟨hother.1.symm, hother.2⟩]
  | supervisor =>
    have hsame : t.supQueue = (s.queueReport o id).supQueue := hqueue.trans hsameQueue.symm
    simp only [State.reportsOf, hsame, State.queueReport_supQueue, State.receives]
    exact if_congr (and_congr_left fun _ => eq_comm) rfl rfl

/-- The report queues after one record is applied. -/
theorem State.applyRecord_reportsOf {s : State} (h : s.Canonical) (howned : s.QueuesOwned) (id : Nat) (o : Owner) :
    (s.applyRecord id).reportsOf o =
      if s.receives o then (meetingIn s [id] fun c => c.owner == o).foldl appendOnce (s.reportsOf o)
      else (s.reportsOf o).filter fun j => !freedIn s [id] j := by
  have hall : (∀ j, freedIn s [id] j = false) →
      (s.reportsOf o).filter (fun j => !freedIn s [id] j) = s.reportsOf o := fun hnone =>
    List.filter_eq_self.mpr fun j _ => by rw [hnone j]; rfl
  cases hc : s.circuit id with
  | none =>
    obtain ⟨hmeeting, hfreed⟩ := single_free hc
    rw [State.applyRecord_free hc, hall hfreed, hmeeting, List.foldl_nil, ite_self]
  | some c =>
    have hreported : (c.state = .releasing → s.receives c.owner = true) →
        Reported c.owner id s (s.applyRecord id) →
        (s.applyRecord id).reportsOf o =
          if s.receives o then (meetingIn s [id] fun c => c.owner == o).foldl appendOnce (s.reportsOf o)
          else (s.reportsOf o).filter fun j => !freedIn s [id] j := fun hheard hreported => by
      have hnone : ∀ j, freedIn s [id] j = false := fun j => by
        rw [freedIn_single hc]
        cases hstate : c.state == .releasing with
        | false => simp
        | true => simp [hheard (eq_of_beq hstate)]
      rw [hreported.reportsOf, hall hnone, meetingIn_single hc]
      by_cases howner : c.owner = o
      · subst howner
        simp
      · simp [howner, Ne.symm howner]
    have happlied := s.applyRecord_applied id h
    simp only [Applied, hc] at happlied
    obtain ⟨-, -, hlive, hreleasing⟩ := happlied
    by_cases hstate : c.state = .releasing
    · obtain ⟨-, hheard, hunheard⟩ := hreleasing hstate
      by_cases hlistens : OwnerListens s c.owner
      · exact hreported (fun _ => (s.receives_iff c.owner).mpr hlistens) (hheard hlistens).2.1
      · obtain ⟨-, hlinks, hqueue, -⟩ := hunheard hlistens
        have hdeaf : s.receives c.owner = false :=
          Bool.eq_false_iff.mpr fun hreceives => hlistens ((s.receives_iff c.owner).mp hreceives)
        have hfiltered : (s.applyRecord id).reportsOf o = (s.reportsOf o).filter (· ≠ id) := by
          cases o with
          | link n => exact congrArg LinkController.reports (hlinks n)
          | supervisor => exact hqueue
        rw [hfiltered, meetingIn_single hc]
        split
        next hreceives =>
          have hother : c.owner ≠ o := fun howner => Bool.false_ne_true (hdeaf.symm.trans (howner ▸ hreceives))
          rw [if_neg (by simpa using hother), List.foldl_nil]
          refine List.filter_eq_self.mpr fun j hj => decide_eq_true fun heq => ?_
          obtain ⟨d, hd, hdowner⟩ := howned.owns hj
          exact hother (Option.some.inj (hc.symm.trans (heq ▸ hd)) ▸ hdowner)
        next =>
          refine List.filter_congr fun j _ => ?_
          rw [freedIn_single hc, hstate, hdeaf]
          simp
    · exact hreported (fun h => absurd h hstate) (hlive hstate).2.2.1

/-- The report queues after a list of records is applied, in the order of the list (R39, R42). -/
theorem State.applyRecords_reportsOf (ids : List Nat) : ∀ {s : State}, s.Canonical → s.QueuesOwned → ids.Nodup →
    ∀ o, (ids.foldl (fun s id => s.applyRecord id) s).reportsOf o =
      if s.receives o then (meetingIn s ids fun c => c.owner == o).foldl appendOnce (s.reportsOf o)
      else (s.reportsOf o).filter fun j => !freedIn s ids j := by
  induction ids with
  | nil =>
    intro s _ _ _ o
    have hall : (s.reportsOf o).filter (fun j => !freedIn s [] j) = s.reportsOf o :=
      List.filter_eq_self.mpr fun _ _ => rfl
    rw [hall]
    exact (ite_self _).symm
  | cons id rest ih =>
    intro s h howned hnodup o
    obtain ⟨hid, hrest⟩ := List.nodup_cons.mp hnodup
    have hnext := (Changes.applyRecord h id).keepLaw
      (fun _ _ hcanonical hlaw => Change.queuesOwned hcanonical hlaw) h howned
    rw [List.foldl_cons, ih hnext.1 hnext.2 hrest, (s.applyRecord_confined id).receives,
      State.applyRecord_reportsOf h howned, State.applyRecord_freedIn h hid,
      State.applyRecord_meetingIn h hid fun ids c => by rw [Circuit.prune_owner]]
    split
    · rw [meetingIn_cons s id rest, List.foldl_append]
    · rw [List.filter_filter]
      refine List.filter_congr fun j _ => ?_
      rw [freedIn_cons s id rest, Bool.not_or, Bool.and_comm]

end Sys2Proof.Machine
end

section
/-! SUPPORT. The cutover: the latches and the follow-up queue after a list of records is applied (R41, R74, R161). -/

namespace Sys2Proof.Machine

/-! ### Ids queued once -/

/-- The ids of a queue after some are queued once, one after another. -/
theorem mem_appendAll {ids queue : List Nat} {j : Nat} :
    j ∈ ids.foldl appendOnce queue ↔ j ∈ queue ∨ j ∈ ids := by
  induction ids generalizing queue with
  | nil => simp
  | cons id rest ih => rw [List.foldl_cons, ih, mem_appendOnce, List.mem_cons, or_assoc]

/-! ### The merge rule -/

/-- Items removed by their ids, none of them the one offered, are removed before or after it is offered (R74). -/
theorem offerTo_filter {keep : Nat → Bool} {item : FollowUp} (hkeep : keep item.id = true) (queue : List FollowUp) :
    (offerTo queue item).filter (fun f => keep f.id) = offerTo (queue.filter fun f => keep f.id) item := by
  have hfind : (queue.filter fun f => keep f.id).find? (fun f => f.id == item.id) =
      queue.find? fun f => f.id == item.id := by
    rw [List.find?_filter]
    congr 1
    funext f
    by_cases hid : f.id = item.id
    · simp [hid, hkeep]
    · simp [hid]
  unfold offerTo
  rw [hfind]
  split
  · rw [List.filter_append, List.filter_singleton, hkeep]
    rfl
  · split
    · rw [List.filter_map]
      congr 1
      refine List.filter_congr fun f _ => ?_
      rw [Function.comp_apply]
      split
      next hid => rw [hid]
      next => rfl
    · rfl

/-- An offer keeps the ids that have an item, and the id offered has one after it (R74). -/
theorem mem_offerTo {queue : List FollowUp} {item : FollowUp} {id : Nat}
    (h : id = item.id ∨ ∃ f ∈ queue, f.id = id) : ∃ f ∈ offerTo queue item, f.id = id := by
  unfold offerTo
  split
  · rcases h with rfl | ⟨f, hf, hid⟩
    · exact ⟨item, List.mem_append_right _ (List.mem_singleton.mpr rfl), rfl⟩
    · exact ⟨f, List.mem_append_left _ hf, hid⟩
  next standing hstanding =>
    obtain ⟨f, hf, hid⟩ : ∃ f ∈ queue, f.id = id := by
      rcases h with rfl | hstands
      · exact ⟨standing, List.mem_of_find?_eq_some hstanding, eq_of_beq (List.find?_some hstanding :)⟩
      · exact hstands
    split
    · refine ⟨_, List.mem_map_of_mem hf, ?_⟩
      split
      next heq => exact heq.symm.trans hid
      next => exact hid
    · exact ⟨f, hf, hid⟩

/-- DROP items offered one after another for some ids. -/
def dropOffers (queue : List FollowUp) (ids : List Nat) : List FollowUp :=
  ids.foldl (fun q id => offerTo q { kind := .drop, id := id }) queue

theorem dropOffers_append (queue : List FollowUp) (a b : List Nat) :
    dropOffers queue (a ++ b) = dropOffers (dropOffers queue a) b := List.foldl_append

/-- Items removed by their ids, none of them offered, are removed before or after the offers. -/
theorem dropOffers_filter {keep : Nat → Bool} (ids : List Nat) : (∀ id ∈ ids, keep id = true) → ∀ queue,
    (dropOffers queue ids).filter (fun f => keep f.id) = dropOffers (queue.filter fun f => keep f.id) ids := by
  induction ids with
  | nil => exact fun _ _ => rfl
  | cons id rest ih =>
    intro hkeep queue
    have hnext := ih (fun j hj => hkeep j (List.mem_cons_of_mem _ hj)) (offerTo queue { kind := .drop, id := id })
    rw [offerTo_filter (hkeep id List.mem_cons_self)] at hnext
    exact hnext

/-- Each id offered has an item. -/
theorem mem_dropOffers {id : Nat} (ids : List Nat) : ∀ queue : List FollowUp,
    (id ∈ ids ∨ ∃ f ∈ queue, f.id = id) → ∃ f ∈ dropOffers queue ids, f.id = id := by
  induction ids with
  | nil => exact fun _ h => h.resolve_left List.not_mem_nil
  | cons first rest ih =>
    intro queue h
    refine ih _ ?_
    rcases h with hmem | hstands
    · rcases List.mem_cons.mp hmem with rfl | hrest
      · exact .inr (mem_offerTo (.inl rfl))
      · exact .inl hrest
    · exact .inr (mem_offerTo (.inr hstands))

/-! ### The follow-up queue -/

/-- The follow-up queue after one record is applied. -/
theorem State.applyRecord_engine {s : State} (h : s.Canonical) (id : Nat) : (s.applyRecord id).engine =
    { s.engine with
      followUps :=
        dropOffers (s.engine.followUps.filter fun f => !freedIn s [id] f.id) (meetingIn s [id] offersDrop) } := by
  have hall : (∀ j, freedIn s [id] j = false) →
      s.engine.followUps.filter (fun f => !freedIn s [id] f.id) = s.engine.followUps :=
    fun hnone => List.filter_eq_self.mpr fun f _ => by rw [hnone f.id]; rfl
  cases hc : s.circuit id with
  | none =>
    obtain ⟨hmeeting, hfreed⟩ := single_free hc
    rw [State.applyRecord_free hc, hall hfreed, hmeeting]
    rfl
  | some c =>
    have happlied := s.applyRecord_applied id h
    simp only [Applied, hc] at happlied
    obtain ⟨-, -, hlive, hreleasing⟩ := happlied
    rw [meetingIn_single hc]
    by_cases hstate : c.state = .releasing
    · obtain ⟨-, hheard, hunheard⟩ := hreleasing hstate
      have hoffers : offersDrop c = false := by rw [offersDrop, hstate]; rfl
      rw [hoffers, if_neg Bool.false_ne_true]
      by_cases hlistens : OwnerListens s c.owner
      · have hnone : ∀ j, freedIn s [id] j = false := fun j => by
          rw [freedIn_single hc, (s.receives_iff c.owner).mpr hlistens]
          simp
        rw [(hheard hlistens).2.2.2, hall hnone]
        rfl
      · obtain ⟨-, -, -, -, hengine, -⟩ := hunheard hlistens
        have hdeaf : s.receives c.owner = false :=
          Bool.eq_false_iff.mpr fun hreceives => hlistens ((s.receives_iff c.owner).mp hreceives)
        rw [hengine]
        congr 1
        refine List.filter_congr fun f _ => ?_
        rw [freedIn_single hc, hstate, hdeaf]
        simp
    · have hnone : ∀ j, freedIn s [id] j = false := fun j => by
        rw [freedIn_single hc, beq_eq_false_iff_ne.mpr hstate]
        simp
      obtain ⟨-, -, -, -, hengine⟩ := hlive hstate
      rw [hengine, hall hnone]
      split
      · rfl
      · rfl

/-- The follow-up queue after a list of records is applied (R41). -/
theorem State.applyRecords_engine (ids : List Nat) : ∀ {s : State}, s.Canonical → ids.Nodup →
    (ids.foldl (fun s id => s.applyRecord id) s).engine =
      { s.engine with
        followUps :=
          dropOffers (s.engine.followUps.filter fun f => !freedIn s ids f.id) (meetingIn s ids offersDrop) } := by
  induction ids with
  | nil =>
    intro s _ _
    have hall : s.engine.followUps.filter (fun f => !freedIn s [] f.id) = s.engine.followUps :=
      List.filter_eq_self.mpr fun _ _ => rfl
    rw [hall]
    rfl
  | cons id rest ih =>
    intro s h hnodup
    obtain ⟨hid, hrest⟩ := List.nodup_cons.mp hnodup
    have htest : ∀ ids c, offersDrop (Circuit.prune ids c) = offersDrop c := fun ids c => by
      rw [(c.prune_alike ids).rest]
      rfl
    have hkept : ∀ j ∈ meetingIn s [id] offersDrop, (!freedIn s rest j) = true := fun j hj => by
      have hsame : j = id := List.mem_singleton.mp (List.mem_filter.mp hj).1
      have hout : rest.contains j = false := by simp [hsame, hid]
      rw [freedIn, hout]
      rfl
    rw [List.foldl_cons, ih (h.applyRecord id) hrest, State.applyRecord_engine h, State.applyRecord_freedIn h hid,
      State.applyRecord_meetingIn h hid htest, meetingIn_cons s id rest, dropOffers_append]
    dsimp only
    rw [dropOffers_filter (keep := fun j => !freedIn s rest j) _ hkept, List.filter_filter]
    congr 3
    refine List.filter_congr fun f _ => ?_
    rw [freedIn_cons s id rest, Bool.not_or, Bool.and_comm]

/-! ### The latches -/

/-- SUP_REPORT is raised when the first id joins an empty supervisor report queue (R161). -/
def supReportRaised (s : State) (ids : List Nat) : BitVec 16 :=
  if s.control.reports = true ∧ s.supQueue = [] ∧ (meetingIn s ids fun c => c.owner == .supervisor) ≠ [] then
    eventMask .supReport
  else 0

/-- The latches after one record is applied. -/
theorem State.applyRecord_events {s : State} (h : s.Canonical) (id : Nat) : (s.applyRecord id).events =
    { s.events with latches := s.events.latches ||| supReportRaised s [id] } := by
  have hnone : supReportRaised s [id] = 0 → s.events =
      { s.events with latches := s.events.latches ||| supReportRaised s [id] } := fun hzero => by
    have hsame : s.events.latches ||| 0 = s.events.latches := BitVec.or_zero
    rw [hzero, hsame]
  cases hc : s.circuit id with
  | none =>
    rw [State.applyRecord_free hc]
    refine hnone (if_neg ?_)
    rintro ⟨-, -, hmeets⟩
    exact hmeets ((single_free hc).1 _)
  | some c =>
    have hmeeting := meetingIn_single hc fun c => c.owner == .supervisor
    have hreported : Reported c.owner id s (s.applyRecord id) → (s.applyRecord id).events =
        { s.events with latches := s.events.latches ||| supReportRaised s [id] } := by
      rintro ⟨-, -, hevents⟩
      rw [hevents]
      cases howner : c.owner with
      | link n =>
        refine hnone (if_neg ?_)
        rintro ⟨-, -, hmeets⟩
        exact hmeets (by rw [hmeeting, howner]; rfl)
      | supervisor =>
        rw [howner] at hmeeting
        have hmeets : (meetingIn s [id] fun c => c.owner == .supervisor) ≠ [] := by
          rw [hmeeting]
          exact List.cons_ne_nil _ _
        simp only [reportedEvents]
        split
        next hfirst => rw [supReportRaised, if_pos ⟨hfirst.1, hfirst.2, hmeets⟩]
        next hlater => exact hnone (if_neg fun hcase => hlater ⟨hcase.1, hcase.2.1⟩)
    have happlied := s.applyRecord_applied id h
    simp only [Applied, hc] at happlied
    obtain ⟨-, -, hlive, hreleasing⟩ := happlied
    by_cases hstate : c.state = .releasing
    · obtain ⟨-, hheard, hunheard⟩ := hreleasing hstate
      by_cases hlistens : OwnerListens s c.owner
      · exact hreported (hheard hlistens).2.1
      · obtain ⟨-, -, -, hevents, -⟩ := hunheard hlistens
        rw [hevents]
        refine hnone (if_neg ?_)
        rintro ⟨hreports, -, hmeets⟩
        rw [hmeeting] at hmeets
        split at hmeets
        next howner => exact hlistens (eq_of_beq howner ▸ hreports)
        next => exact hmeets rfl
    · exact hreported (hlive hstate).2.2.1

/-- The latches after a list of records is applied (R161). -/
theorem State.applyRecords_events (ids : List Nat) : ∀ {s : State}, s.Canonical → s.QueuesOwned → ids.Nodup →
    (ids.foldl (fun s id => s.applyRecord id) s).events =
      { s.events with latches := s.events.latches ||| supReportRaised s ids } := by
  induction ids with
  | nil =>
    intro s _ _ _
    have hzero : supReportRaised s [] = 0 := if_neg fun hcase => hcase.2.2 rfl
    have hsame : s.events.latches ||| 0 = s.events.latches := BitVec.or_zero
    rw [hzero, hsame]
    rfl
  | cons id rest ih =>
    intro s h howned hnodup
    obtain ⟨hid, hrest⟩ := List.nodup_cons.mp hnodup
    have hnext := (Changes.applyRecord h id).keepLaw
      (fun _ _ hcanonical hlaw => Change.queuesOwned hcanonical hlaw) h howned
    have hqueue := State.applyRecord_reportsOf h howned id .supervisor
    obtain ⟨-, -, hcontrol, -⟩ := (s.applyRecord_confined id).outside
    have hmeeting := State.applyRecord_meetingIn h hid (test := fun c => c.owner == .supervisor)
      fun ids c => by rw [Circuit.prune_owner]
    have hraised : supReportRaised s [id] ||| supReportRaised (s.applyRecord id) rest =
        supReportRaised s (id :: rest) := by
      simp only [supReportRaised, hcontrol, hmeeting, meetingIn_cons s id rest]
      cases hreports : s.control.reports with
      | false => simp
      | true =>
        have hreceives : s.receives .supervisor = true := hreports
        simp only [State.reportsOf, hreceives, if_true] at hqueue
        by_cases hfirst : (meetingIn s [id] fun c => c.owner == .supervisor) = []
        · rw [hfirst] at hqueue ⊢
          simp [hqueue]
        · have hstands : (s.applyRecord id).supQueue ≠ [] := by
            obtain ⟨j, hj⟩ := List.exists_mem_of_ne_nil _ hfirst
            rw [hqueue]
            exact List.ne_nil_of_mem (mem_appendAll.mpr (.inr hj))
          simp [hfirst, hstands]
    rw [List.foldl_cons, ih hnext.1 hnext.2 hrest, State.applyRecord_events h]
    dsimp only
    rw [BitVec.or_assoc, hraised]

end Sys2Proof.Machine
end

section
/-! SUPPORT. The cutover family: a boundary with a cutover and with no silence limit reached (R36, R39 to R44). -/

namespace Sys2Proof.Machine

/-! ### The count of silence -/

/-- The count of silence leaves the state and the reports of a link, and the others leave it. -/
theorem silenceCounted_reports (c : LinkController) (ids : List Nat) :
    silenceCounted { c with reports := ids } = { silenceCounted c with reports := ids } := by
  unfold silenceCounted
  split <;> rfl

theorem silenceCounted_kept (c : LinkController) : (silenceCounted c).state = c.state ∧
    (silenceCounted c).reports = c.reports ∧ (silenceCounted c).silenceLimit = c.silenceLimit := by
  unfold silenceCounted
  split <;> exact ⟨rfl, rfl, rfl⟩

/-! ### The decision between the links -/

/-- What a list of records is applied to, seen from a state whose links have counted silence. -/
structure Counted (s t : State) (links : Links) : Prop where
  state : t = s.withLinks links
  kept  : ∀ n, (links.get n).state = (s.link n).state ∧ (links.get n).reports = (s.link n).reports

theorem Counted.receives {s t : State} {links : Links} (h : Counted s t links) (o : Owner) :
    t.receives o = s.receives o := by
  rw [h.state]
  cases o with
  | link n =>
    change ((links.get n).state == .up) = ((s.link n).state == .up)
    rw [(h.kept n).1]
  | supervisor => rfl

theorem Counted.reportsOf {s t : State} {links : Links} (h : Counted s t links) (o : Owner) :
    t.reportsOf o = s.reportsOf o := by
  rw [h.state]
  cases o with
  | link n => exact (h.kept n).2
  | supervisor => rfl

theorem Counted.freedIn {s t : State} {links : Links} (h : Counted s t links) : freedIn t = freedIn s := by
  funext ids id
  have hcircuit : t.circuit id = s.circuit id := by rw [h.state]; rfl
  simp only [Machine.freedIn, hcircuit, h.receives]

theorem Counted.cutCircuit {s t : State} {links : Links} (h : Counted s t links) : cutCircuit t = cutCircuit s := by
  funext ids id c
  have hcircuit : ∀ j, t.circuit j = s.circuit j := fun j => by rw [h.state]; rfl
  have htiming : t.timing = s.timing := by rw [h.state]; rfl
  have hleaves : leavesIn t = leavesIn s := by
    funext ids parent branch
    rw [leavesIn, leavesIn, hcircuit]
  unfold Machine.cutCircuit
  rw [h.receives, htiming, hleaves]

theorem Counted.queuesOwned {s t : State} {links : Links} (h : Counted s t links) (howned : s.QueuesOwned) :
    t.QueuesOwned := by
  have hcircuit : ∀ j, t.circuit j = s.circuit j := fun j => by rw [h.state]; rfl
  refine howned.of_owns (fun o id howns => ?_) (fun n => h.reportsOf (.link n)) (h.reportsOf .supervisor)
  rw [State.Owns, hcircuit]
  exact howns

/-- What a boundary with a cutover leaves, with no silence limit reached (R36, R39 to R44). -/
structure CutAtBoundary (s t : State) : Prop where
  record     : ∀ j, t.record j =
    { generation := (s.record j).generation, circuit := (s.circuit j).bind (cutCircuit s s.cutover.changeList j) }
  link       : ∀ n, t.link n = { silenceCounted (s.link n) with
    reports :=
      if s.receives (.link n) then (listedWhere s fun c => c.owner == .link n).foldl appendOnce (s.link n).reports
      else (s.link n).reports.filter fun id => !freedByCutover s id }
  supQueue   : t.supQueue =
    if s.receives .supervisor then (listedWhere s fun c => c.owner == .supervisor).foldl appendOnce s.supQueue
    else s.supQueue.filter fun id => !freedByCutover s id
  events     : t.events = { s.events with
    latches := s.events.latches ||| supReportRaised s s.cutover.changeList ||| eventMask .cutover }
  engine     : t.engine = { s.engine with
    followUps := dropOffers (s.engine.followUps.filter fun f => !freedByCutover s f.id) (listedWhere s offersDrop) }
  cutover    : t.cutover = { changeList := [], armed := false, settle := 0 }
  maps       : t.maps = { s.maps with live := otherBank s.maps.live, state := .copying }

/-- A cutover between links that have counted silence and links that count it after it. -/
theorem CutAtBoundary.of_cutOver {s v : State} {before after : Links} (hcanonical : s.Canonical)
    (hnodup : s.cutover.changeList.Nodup) (howned : s.QueuesOwned) (hsettle : s.cutover.settle = 0)
    (hcounted : Counted s v before) (hafter : ∀ n, after.get n =
      { silenceCounted (s.link n) with reports := (v.cutOver.link n).reports }) :
    CutAtBoundary s (v.cutOver.withLinks after) := by
  obtain rfl := hcounted.state
  have hv : (s.withLinks before).Canonical := hcanonical
  have hvowned := hcounted.queuesOwned howned
  obtain ⟨-, -, hcutover, hmaps, -⟩ := (s.withLinks before).cutOver_leaves hsettle
  have hreports := State.applyRecords_reportsOf s.cutover.changeList hv hvowned hnodup
  rw [hcounted.freedIn] at hreports
  simp only [hcounted.receives, hcounted.reportsOf] at hreports
  refine ⟨fun j => ?_, fun n => ?_, hreports .supervisor, ?_, ?_, hcutover, hmaps⟩
  · have happlied := State.applyRecords_record s.cutover.changeList hv hnodup j
    rw [hcounted.cutCircuit] at happlied
    exact happlied
  · refine (hafter n).trans ?_
    have hn : ((s.withLinks before).cutOver.link n).reports = _ := hreports (.link n)
    rw [hn]
    rfl
  · have happlied := State.applyRecords_events s.cutover.changeList hv hvowned hnodup
    exact congrArg (fun u : EventUnit => { u with latches := u.latches ||| eventMask .cutover }) happlied
  · have happlied := State.applyRecords_engine s.cutover.changeList hv hnodup
    rw [hcounted.freedIn] at happlied
    exact happlied

/-- A boundary with a cutover, with no silence limit reached. -/
theorem State.takeBoundary_cutsOver {s : State} (o : BoundaryOrder) (hcanonical : s.Canonical)
    (hnodup : s.cutover.changeList.Nodup) (howned : s.QueuesOwned) (hundue : ∀ n, s.silenceDue n = false)
    (hcuts : CutsOver s) : CutAtBoundary s (s.takeBoundary false o) := by
  obtain ⟨hbefore, hafter, hmem⟩ := linksAround o
  obtain ⟨before, hfirst, hcount⟩ := State.countSilence_list (linksBefore o) s hbefore fun n _ => hundue n
  have hkept : ∀ n, (before.get n).state = (s.link n).state ∧
      (before.get n).reports = (s.link n).reports := fun n => by
    obtain ⟨hstate, hreports, -⟩ := silenceCounted_kept (s.link n)
    rw [hcount n]
    split
    · exact ⟨hstate, hreports⟩
    · exact ⟨rfl, rfl⟩
  have hsettle : s.cutover.settle = 0 := hcuts.1
  obtain ⟨hreports, -⟩ := (s.withLinks before).cutOver_leaves hsettle
  have hlink : ∀ n, (s.withLinks before).cutOver.link n =
      { before.get n with reports := ((s.withLinks before).cutOver.link n).reports } := hreports
  have hlater : ∀ n ∈ linksAfter o, (s.withLinks before).cutOver.silenceDue n = false := fun n hn => by
    have hstands : before.get n = s.link n := (hcount n).trans (if_neg ((hmem n).mp hn))
    have hdue := hundue n
    rw [State.silenceDue] at hdue ⊢
    rw [hlink n, hstands]
    exact hdue
  obtain ⟨after, hlast, hcountAfter⟩ := State.countSilence_list (linksAfter o) _ hafter hlater
  have htaken : s.takeBoundary false o = (s.withLinks before).cutOver.withLinks after := by
    have hdecided : (s.withLinks before).decideBoundary false = (s.withLinks before).cutOver :=
      State.decideBoundary_cutOver _ hcuts
    unfold State.takeBoundary
    dsimp only
    rw [hfirst, hdecided, hlast]
  rw [htaken]
  refine .of_cutOver hcanonical hnodup howned hsettle ⟨rfl, hkept⟩ fun n => ?_
  rw [hcountAfter n]
  by_cases hn : n ∈ linksAfter o
  · have hstands : before.get n = s.link n := (hcount n).trans (if_neg ((hmem n).mp hn))
    rw [if_pos hn, ← silenceCounted_reports, ← hstands, ← hlink n]
  · have hcounted : before.get n = silenceCounted (s.link n) :=
      (hcount n).trans (if_pos (Classical.not_not.mp fun hnot => hn ((hmem n).mpr hnot)))
    rw [if_neg hn, ← hcounted]
    exact hlink n

/-- The boundary command makes the cutover, with no silence limit reached, in the cycle that begins (R175). -/
theorem exec_boundary_cutsOver {s : State} (f : FrameInput) (hdue : OwnFrameDue s) (hcanonical : s.Canonical)
    (hframe : 15 ≤ s.timing.frame) (hsilence : ∀ n, ¬LimitReached s n) (hcuts : CutsOver s)
    (hnodup : s.cutover.changeList.Nodup) (howned : s.QueuesOwned) : ∃ switch timing t,
      timing.cycle = s.timing.cycle + 1 ∧ exec (.boundary f) s = .next t ∧
        CutAtBoundary ((s.withSwitch switch).withTiming timing) t := by
  have hundue : ∀ n, s.silenceDue n = false := fun n =>
    Bool.eq_false_iff.mpr fun hn => hsilence n ((s.silenceDue_iff n).mp hn)
  obtain ⟨htable, hbankA, hbankB, -, -, hentries, hcommand, hresult⟩ := id hcanonical
  obtain ⟨-, -, -, hselection⟩ := s.switch.endFrame_spec f.received Config.slots
  have hbegun : ∀ timing, ((s.withSwitch (s.switch.endFrame f.received Config.slots)).withTiming timing).Canonical :=
    fun timing => ⟨htable, hbankA, hbankB, State.endFrame_half_wf hcanonical f.received _ .half0,
      State.endFrame_half_wf hcanonical f.received _ .half1, by
        change Sparse.wf Entry.idle (s.switch.endFrame f.received Config.slots).selection.entries = true
        rw [hselection]
        exact hentries, hcommand, hresult⟩
  have hcut := State.takeBoundary_cutsOver f.order (hbegun
    ({ s.timing with ownStart := s.timing.ownFrameTime }.startFrame (.boundary false) s.timing.ownFrameTime))
    hnodup howned hundue hcuts
  refine ⟨_, _, _, ?_, exec_boundary f hdue hframe, hcut.record, hcut.link, hcut.supQueue, hcut.events, hcut.engine,
    hcut.cutover, hcut.maps⟩
  rfl

end Sys2Proof.Machine
end

section
/-! SUPPORT. The cutover family: what a cutover does to every record, queue and count (R11, R39 to R44, R130). -/

namespace Sys2Proof.Machine

/-! ### The circuit of a record that a cutover applies -/

/-- The branch list alone changes in a circuit that is pruned. -/
theorem Circuit.prune_kept (test : Nat → Bool) (c : Circuit) :
    c.prune test = { c with kind := (c.prune test).kind } := by
  unfold Circuit.prune
  split <;> rfl

/-- Both map forms of a circuit that is applied are its staged form (R40). -/
theorem applied_kept (cycle : Word) (c : Circuit) : applied cycle c =
    { c with
      live := c.staged, liveTreatment := c.stagedTreatment, cutoverCycle := some cycle
      state := (applied cycle c).state, pendingChange := (applied cycle c).pendingChange
      leaseLeft := (applied cycle c).leaseLeft } := by
  unfold applied
  repeat' split
  all_goals rfl

/-- The state and the pending change of a circuit after a cutover (R41). -/
theorem applied_pending {cycle : Word} {c : Circuit} (h : c.state = .pending) :
    (applied cycle c).state = .active ∧ (applied cycle c).pendingChange = none ∧
      (applied cycle c).leaseLeft = c.leaseLength := by
  rw [applied, if_pos h]
  exact ⟨rfl, rfl, rfl⟩

theorem applied_suspend {cycle : Word} {c : Circuit} (h : c.state = .active)
    (hchange : c.pendingChange = some .suspend) :
    (applied cycle c).state = .suspended ∧ (applied cycle c).pendingChange = none := by
  simp [applied, h, hchange]

theorem applied_resume {cycle : Word} {c : Circuit} (h : c.state = .suspended)
    (hchange : c.pendingChange = some .resume) :
    (applied cycle c).state = .active ∧ (applied cycle c).pendingChange = none := by
  simp [applied, h, hchange]

theorem applied_reshapeAdd {cycle : Word} {c : Circuit} (h : c.state = .active)
    (hchange : c.pendingChange = some .reshapeAdd) :
    (applied cycle c).state = .active ∧ (applied cycle c).pendingChange = some .reshapeDrop := by
  simp [applied, h, hchange]

theorem applied_reshapeDrop {cycle : Word} {c : Circuit} (h : c.state = .active)
    (hchange : c.pendingChange = some .reshapeDrop) :
    (applied cycle c).state = .active ∧ (applied cycle c).pendingChange = none := by
  simp [applied, h, hchange]

/-! ### The record after a cutover -/

section

variable {s t : State} {switch : SwitchCore} {timing : TimingUnit}

/-- A listed circuit that is not RELEASING after a cutover. -/
theorem CutAtBoundary.applied (h : CutAtBoundary ((s.withSwitch switch).withTiming timing) t) {id : Nat} {c : Circuit}
    (hid : id ∈ s.cutover.changeList) (hc : s.circuit id = some c) (hstate : c.state ≠ .releasing) :
    t.circuit id = some (pruned s id (applied timing.cycle c)) := by
  have hcut : cutCircuit ((s.withSwitch switch).withTiming timing) s.cutover.changeList id c =
      some (pruned s id (Machine.applied timing.cycle c)) := (if_pos hid).trans (if_neg hstate)
  refine (congrArg Record.circuit (h.record id)).trans (Eq.trans ?_ hcut)
  change (s.circuit id).bind _ = _
  rw [hc]
  rfl

/-- A listed RELEASING circuit after a cutover: the owner test (R17). -/
theorem CutAtBoundary.released (h : CutAtBoundary ((s.withSwitch switch).withTiming timing) t) {id : Nat} {c : Circuit}
    (hid : id ∈ s.cutover.changeList) (hc : s.circuit id = some c) (hstate : c.state = .releasing) :
    t.circuit id = if s.receives c.owner then some (closedAt timing.cycle c) else none := by
  have hcut : cutCircuit ((s.withSwitch switch).withTiming timing) s.cutover.changeList id c =
      if s.receives c.owner then some (closedAt timing.cycle c) else none := (if_pos hid).trans (if_pos hstate)
  refine (congrArg Record.circuit (h.record id)).trans (Eq.trans ?_ hcut)
  change (s.circuit id).bind _ = _
  rw [hc]
  rfl

theorem CutAtBoundary.generation (h : CutAtBoundary ((s.withSwitch switch).withTiming timing) t) (id : Nat) :
    (t.record id).generation = (s.record id).generation := by
  rw [h.record]
  rfl

/-- A record that is not listed, or FREE, after a cutover (R11). -/
theorem CutAtBoundary.unlisted (h : CutAtBoundary ((s.withSwitch switch).withTiming timing) t) {id : Nat}
    (hid : id ∉ s.cutover.changeList ∨ s.circuit id = none) :
    t.record id = { generation := (s.record id).generation, circuit := (s.circuit id).map (pruned s id) } := by
  refine (h.record id).trans (congrArg (Record.mk (s.record id).generation) ?_)
  change (s.circuit id).bind _ = _
  cases hc : s.circuit id with
  | none => rfl
  | some c => exact if_neg (hid.resolve_right (by rw [hc]; exact nofun))

/-- A listed record is owed to its owner after a cutover, if the owner listens (R42). -/
theorem CutAtBoundary.reportOwed (h : CutAtBoundary ((s.withSwitch switch).withTiming timing) t) {id : Nat}
    {c : Circuit} (hid : id ∈ s.cutover.changeList) (hc : s.circuit id = some c) (hlistens : OwnerListens s c.owner) :
    t.reportOwed c.owner id = true := by
  have hmeets : id ∈ listedWhere s fun d => d.owner == c.owner :=
    List.mem_filter.mpr ⟨hid, by rw [hc]; exact beq_self_eq_true c.owner⟩
  have hreceives := (s.receives_iff c.owner).mpr hlistens
  have hqueue : t.reportsOf c.owner =
      (listedWhere s fun d => d.owner == c.owner).foldl appendOnce (s.reportsOf c.owner) := by
    cases howner : c.owner with
    | link n =>
      rw [howner] at hreceives
      exact (congrArg LinkController.reports (h.link n)).trans (if_pos hreceives)
    | supervisor =>
      rw [howner] at hreceives
      exact h.supQueue.trans (if_pos hreceives)
  rw [State.reportOwed_eq, hqueue, List.contains_iff_mem]
  exact mem_appendAll.mpr (.inr hmeets)

/-- A DROP item stands for a listed RESHAPE after a cutover (R41). -/
theorem CutAtBoundary.offered (h : CutAtBoundary ((s.withSwitch switch).withTiming timing) t) {id : Nat} {c : Circuit}
    (hid : id ∈ s.cutover.changeList) (hc : s.circuit id = some c) (hstate : c.state = .active)
    (hchange : c.pendingChange = some .reshapeAdd) : ∃ item ∈ t.engine.followUps, item.id = id := by
  have hoffers : id ∈ listedWhere s offersDrop :=
    List.mem_filter.mpr ⟨hid, by rw [hc, Option.any_some, offersDrop, hstate, hchange]; rfl⟩
  rw [h.engine]
  exact mem_dropOffers _ _ (.inl hoffers)

end

/-- Settles O45, by induction on the change list (`State.applyRecords_record`, `State.applyRecords_reportsOf`,
`State.applyRecords_engine`, `State.applyRecords_events`). -/
theorem cutoverAppliesRecords : Obligations.CutoverAppliesRecords := by
  intro s f hdue hcanonical hframe hsilence hcuts hnodup howned
  obtain ⟨switch, timing, t, hcycle, hexec, hcut⟩ :=
    exec_boundary_cutsOver f hdue hcanonical hframe hsilence hcuts hnodup howned
  refine ⟨t, hexec, fun id c hid hc => ⟨hcut.generation id, fun hstate => ?_,
    fun hstate hlistens => ?_, fun hstate hdeaf => ?_, hcut.reportOwed hid hc⟩, fun id hid => hcut.unlisted hid,
    fun n => ?_, hcut.supQueue, ?_, hcut.engine, hcut.cutover, hcut.maps⟩
  · rw [← hcycle]
    refine ⟨_, hcut.applied hid hc hstate, rfl, ?_⟩
    rw [pruned_eq, Circuit.prune_kept]
    dsimp only
    refine ⟨?_, ?_, ?_, ?_, ?_, ?_, ?_, applied_pending, applied_suspend, applied_resume, fun hactive hchange => ?_,
      applied_reshapeDrop⟩
    iterate 7 rw [applied_kept]
    obtain ⟨hafter, hnext⟩ := applied_reshapeAdd hactive hchange
    exact ⟨hafter, hnext, hcut.offered hid hc hactive hchange⟩
  · rw [← hcycle]
    refine ⟨_, (hcut.released hid hc hstate).trans (if_pos ((s.receives_iff c.owner).mpr hlistens)), rfl, rfl, rfl,
      rfl, rfl, ?_⟩
    rw [closedAt, Circuit.branches]
    cases c.kind <;> rfl
  · exact (hcut.released hid hc hstate).trans (if_neg fun hreceives => hdeaf ((s.receives_iff c.owner).mp hreceives))
  · refine (hcut.link n).trans (congrArg (fun ids => { silenceCounted (s.link n) with reports := ids }) ?_)
    exact if_congr beq_iff_eq rfl rfl
  · refine hcut.events.trans (congrArg (fun latches => { s.events with latches := latches }) ?_)
    rw [BitVec.or_assoc, BitVec.or_comm (supReportRaised _ _), ← BitVec.or_assoc]
    rfl

end Sys2Proof.Machine
end
